-- ==== Sys2Proof/Word.lean ====
section
/-! DEFINITION. The machine's word types (R1, R42) and the shape of the finite tables that State is made of. -/

namespace Sys2Proof

/-- Eight bits: one location of memory (R314). -/
abbrev Byte := BitVec 8

/-- A lane or uniform register (R42, R47). -/
abbrev Word := BitVec 32

/-- A finite table: entries by number, the numbers strictly rising. -/
abbrev Tab (α : Type) := List (Nat × α)

/-- Memory: bytes by address, addresses strictly rising, no entry equal to zero. An unlisted address reads as zero
(assumption log 1). -/
abbrev Mem := Tab Byte

end Sys2Proof
end

