-- ==== Sys2Proof/Config.lean ====
section
/-! DEFINITION. What the spec leaves open: the free values. A free value is a constant without a body, so nothing
evaluates it and a statement about it holds whatever it is. Every use applies it to a counter of State or to the
operands it depends on. -/

namespace Sys2Proof.Config

/-- A free word: what an accumulator word or an operand-brick code reads as where the spec gives the overlap of the two
no value (assumption log 11). The argument is a counter of State or a number that names the place. -/
opaque freeWord : Nat → Word

/-- A free byte: padding of a save image or dump section the spec does not lay out (assumption log 12). -/
opaque freeByte : Nat → Byte

/-- SHA-384 of a string of bytes (R445, R447). The spec names the algorithm and does not state it; assumption log 9. -/
opaque sha384 : List Byte → BitVec 384

/-- The check of an image's ECDSA signature over brainpoolP384r1 under the fused Carfer key (R445); assumption log 9. -/
opaque signatureHolds : List Byte → Bool

/-- The signature of a measurement response under the device identity key (R447); assumption log 9. -/
opaque signResponse : List Byte → List Byte

/-- The answer to an SPDM request of a given number under the measurements, and whether the request fails (R447). -/
opaque spdmAnswer : Nat → List Byte → List Byte

/-- Does an SPDM request fail (R447)? -/
opaque spdmFails : Nat → Bool

/-- The channel of an HBM stack, 0 to 31, in which a sector lies (R436): the spec does not lay them out (assumption log 31). -/
opaque channelOf : Nat → Nat

/-- DETAIL of an error-log entry, by what it reports: R441 says what DETAIL holds and not the number of a reason. -/
opaque detail : Nat → Nat

end Sys2Proof.Config
end

