-- ==== Sys2Proof/Machine/Data.lean ====
section
/-! DEFINITION. Fields of numbers, sign extension, little-endian bytes (R1), and the operations on finite tables. -/

namespace Sys2Proof

/-- Bits [hi:lo] of a number (R1). -/
def fld (x hi lo : Nat) : Nat := x / 2 ^ lo % 2 ^ (hi + 1 - lo)

/-- Bit n of a number. -/
def bitN (x n : Nat) : Bool := x.testBit n

/-- Bits [hi:lo] of x replaced by v. -/
def putFld (x hi lo v : Nat) : Nat :=
  x % 2 ^ lo + (v % 2 ^ (hi + 1 - lo)) * 2 ^ lo + x / 2 ^ (hi + 1) * 2 ^ (hi + 1)

/-- The low w bits of x read in two's complement. -/
def sx (w x : Nat) : Int :=
  let y := x % 2 ^ w
  if y < 2 ^ (w - 1) then (y : Int) else (y : Int) - (2 ^ w : Nat)

/-- The w-bit two's complement pattern of an integer (wrapping). -/
def wrapI (w : Nat) (z : Int) : Nat := (z % ((2 ^ w : Nat) : Int)).toNat

/-- 1 for true. -/
def ofB (b : Bool) : Nat := if b then 1 else 0

/-- The bytes of the low 8n bits of x, lowest first (R1). -/
def toLE : Nat → Nat → List Byte
  | 0, _ => []
  | n + 1, x => BitVec.ofNat 8 x :: toLE n (x / 256)

/-- The number whose bytes, lowest first, are given (R1). -/
def ofLE : List Byte → Nat
  | [] => 0
  | b :: t => b.toNat + 256 * ofLE t

/-- An address rounded down to a multiple of n. -/
def alignDown (a n : Nat) : Nat := a / n * n

/-- x divided by n, rounded up. -/
def ceilDiv (x n : Nat) : Nat := (x + (n - 1)) / n

/-- Numbers a to a+n-1. -/
def span (a : Nat) : Nat → List Nat
  | 0 => []
  | n + 1 => a :: span (a + 1) n

/-- Replace element n of a list, when it exists. -/
def setNth {α : Type} : List α → Nat → α → List α
  | [], _, _ => []
  | _ :: t, 0, y => y :: t
  | x :: t, n + 1, y => x :: setNth t n y

/-- Remove element n of a list. -/
def dropNth {α : Type} : List α → Nat → List α
  | [], _ => []
  | _ :: t, 0 => t
  | x :: t, n + 1 => x :: dropNth t n

/-- Insert a number into a rising list without repeats. -/
def insNat (k : Nat) : List Nat → List Nat
  | [] => [k]
  | x :: t => if k < x then k :: x :: t else if k = x then x :: t else x :: insNat k t

/-- Insert several numbers. -/
def insNats (ks : List Nat) (l : List Nat) : List Nat := ks.foldl (fun a k => insNat k a) l

/-- Remove a number from a list. -/
def delNat (k : Nat) (l : List Nat) : List Nat := l.filter (· != k)

/-- Remove several numbers. -/
def delNats (ks l : List Nat) : List Nat := l.filter (fun x => !ks.contains x)

namespace Tab

/-- The entry of number k, if there is one. -/
def find? {α : Type} : Tab α → Nat → Option α
  | [], _ => none
  | (k', v) :: t, k => if k = k' then some v else Tab.find? t k

/-- The entry of number k, or what an absent entry reads as. -/
def getD {α : Type} (m : Tab α) (d : α) (k : Nat) : α :=
  match m.find? k with
  | some v => v
  | none => d

/-- Set entry k. -/
def set {α : Type} : Tab α → Nat → α → Tab α
  | [], k, v => [(k, v)]
  | (k', v') :: t, k, v =>
    if k < k' then (k, v) :: (k', v') :: t
    else if k = k' then (k, v) :: t
    else (k', v') :: Tab.set t k v

/-- Remove entry k. -/
def del {α : Type} : Tab α → Nat → Tab α
  | [], _ => []
  | (k', v') :: t, k => if k = k' then Tab.del t k else (k', v') :: Tab.del t k

/-- Set entry k, dropping it when it equals what an absent entry reads as. -/
def put {α : Type} [DecidableEq α] (m : Tab α) (d : α) (k : Nat) (v : α) : Tab α :=
  if v = d then m.del k else m.set k v

/-- Change entry k, if there is one. -/
def adjust {α : Type} : Tab α → Nat → (α → α) → Tab α
  | [], _, _ => []
  | (k', v) :: t, k, f => if k = k' then (k', f v) :: t else (k', v) :: Tab.adjust t k f

/-- Change every entry. -/
def mapV {α : Type} (m : Tab α) (f : α → α) : Tab α := m.map (fun p => (p.1, f p.2))

/-- The numbers of a table's entries. -/
def keys {α : Type} (m : Tab α) : List Nat := m.map (·.1)

/-- A table's entries, as a look-up finds them. -/
def listed {α : Type} (m : Tab α) : List (Nat × α) := (Tab.keys m).filterMap fun k => (Tab.find? m k).map fun v => (k, v)

/-- The numbers strictly rise. -/
def sorted {α : Type} : Tab α → Bool
  | [] => true
  | [_] => true
  | (k, _) :: (k', v') :: t => decide (k < k') && Tab.sorted ((k', v') :: t)

end Tab

namespace Mem

/-- The byte at an address; an unlisted address reads as zero. -/
def read (m : Mem) (a : Nat) : Byte := Tab.getD m 0#8 a

/-- Store one byte, keeping the canonical form. -/
def write (m : Mem) (a : Nat) (b : Byte) : Mem := Tab.put m 0#8 a b

/-- The n bytes from a up. -/
def readList (m : Mem) (a : Nat) : Nat → List Byte
  | 0 => []
  | n + 1 => Mem.read m a :: Mem.readList m (a + 1) n

/-- Store bytes from a up. -/
def writeList (m : Mem) (a : Nat) : List Byte → Mem
  | [] => m
  | b :: t => Mem.writeList (Mem.write m a b) (a + 1) t

/-- The n bytes from a up as a little-endian number (R1). -/
def readN (m : Mem) (a n : Nat) : Nat := ofLE (Mem.readList m a n)

/-- Store the low 8n bits of x little-endian from a up (R1). -/
def writeN (m : Mem) (a n x : Nat) : Mem := Mem.writeList m a (toLE n x)

/-- The canonical form: addresses strictly rising, no entry equal to what an unlisted address reads as. -/
def wf (m : Mem) : Bool := Tab.sorted m && m.all (fun p => p.2 != 0#8)

end Mem

end Sys2Proof
end

