-- ==== Sys2Proof/Syntax.lean ====
section
/-! DEFINITION. The instructions: one constructor for each row of spec/opcode_table.json, in the table's order. The
encoded rows carry their prefixes (R101, R105) and the fields of their base word; the rows without an encoding are steps
of the device or of its surroundings (spec/95_what_each_step_holds.md) and carry what the step names. -/

namespace Sys2Proof

/-- The REP prefix (R105): CNT, the step bits, STRIDE, the indirection bits and their index registers. -/
structure Rep where
  cnt : BitVec 6
  sd : Bool
  sa : Bool
  sb : Bool
  stride : BitVec 2
  xd : Bool
  xa : Bool
  xb : Bool
  kd : BitVec 2
  ka : BitVec 2
  kb : BitVec 2
deriving DecidableEq, Repr

/-- The MOD prefix (R101). -/
structure Mod where
  gen : Bool
  gneg : Bool
  gp : BitVec 3
  fd : BitVec 2
  fa : BitVec 2
  fb : BitVec 2
  nega : Bool
  negb : Bool
  absa : Bool
  absb : Bool
  satc : BitVec 2
  scl : BitVec 4
  rnd : BitVec 3
  reuse : Bool
  feta : Bool
  fetb : Bool
deriving DecidableEq, Repr

/-- What a request names on a port of the device (R18): a function on a host port, a connection on a network port. -/
structure AtPort where
  port : Nat
  id : Nat
deriving DecidableEq, Repr

/-- Who sends a request over Shecel (R414, R420): the port it comes in at, the device, and the incarnation it has had there. -/
structure FromPeer where
  port : Nat
  dev : Nat
  inc : Nat
deriving DecidableEq, Repr

/-- A request's place among those of its sender (R332, R414): its group, its stream, and its number there. -/
structure StreamPlace where
  grp : Nat
  stream : Nat
  seq : Nat
deriving DecidableEq, Repr

/-- A message on a connection (R426): its number and its tag. -/
structure MsgTag where
  id : Nat
  tag : Nat
deriving DecidableEq, Repr

/-- The prefixes of an instruction (R100): each present or absent. -/
structure Pfx where
  rep : Option Rep
  mod : Option Mod
deriving DecidableEq, Repr

/-- No prefix. -/
def Pfx.none : Pfx := ⟨Option.none, Option.none⟩

/-- The MOD prefix whose every field is zero: what an absent one counts as (R101). -/
def Mod.zero : Mod :=
  ⟨false, false, 0, 0, 0, 0, false, false, false, false, 0, 0, 0, false, false, false⟩

/-- The fields of the MOD prefix, zero when there is none (R101). -/
def Pfx.m (x : Pfx) : Mod := x.mod.getD Mod.zero

/-- The instructions and the device steps, one constructor for each row of the opcode table. -/
inductive Instr where
  | iadd (pf : Pfx) (d a b : BitVec 8)
  | isub (pf : Pfx) (d a b : BitVec 8)
  | imul (pf : Pfx) (d a b : BitVec 8)
  | imulh (pf : Pfx) (d a b : BitVec 8)
  | imulhHu (pf : Pfx) (d a b : BitVec 8)
  | imad (pf : Pfx) (d a b : BitVec 8)
  | add64 (pf : Pfx) (d a b : BitVec 8)
  | sub64 (pf : Pfx) (d a b : BitVec 8)
  | mul64 (pf : Pfx) (d a b : BitVec 8)
  | addc (pf : Pfx) (d a b : BitVec 8)
  | subb (pf : Pfx) (d a b : BitVec 8)
  | imin (pf : Pfx) (d a b : BitVec 8)
  | iminNu (pf : Pfx) (d a b : BitVec 8)
  | imax (pf : Pfx) (d a b : BitVec 8)
  | imaxNu (pf : Pfx) (d a b : BitVec 8)
  | lea (pf : Pfx) (d a b : BitVec 8)
  | and (pf : Pfx) (d a b : BitVec 8)
  | or (pf : Pfx) (d a b : BitVec 8)
  | xor (pf : Pfx) (d a b : BitVec 8)
  | andn (pf : Pfx) (d a b : BitVec 8)
  | shl (pf : Pfx) (d a b : BitVec 8)
  | shr (pf : Pfx) (d a b : BitVec 8)
  | sar (pf : Pfx) (d a b : BitVec 8)
  | rot (pf : Pfx) (d a b : BitVec 8)
  | funnel (pf : Pfx) (d a b : BitVec 8)
  | bfe (pf : Pfx) (d a b : BitVec 8)
  | bfi (pf : Pfx) (d a b : BitVec 8)
  | popc (pf : Pfx) (d a : BitVec 8)
  | clz (pf : Pfx) (d a : BitVec 8)
  | ctz (pf : Pfx) (d a : BitVec 8)
  | brev (pf : Pfx) (d a : BitVec 8)
  | mov (pf : Pfx) (d a : BitVec 8)
  | sel (pf : Pfx) (d a b : BitVec 8)
  | isetp (pf : Pfx) (c : BitVec 5) (p : BitVec 3) (a b : BitVec 8)
  | isetp64 (pf : Pfx) (c : BitVec 5) (p : BitVec 3) (a b : BitVec 8)
  | psetp (pf : Pfx) (c : BitVec 5) (p x y : BitVec 3)
  | movi (pf : Pfx) (d : BitVec 8) (i : BitVec 16)
  | movhi (pf : Pfx) (d : BitVec 8) (i : BitVec 16)
  | idot4 (pf : Pfx) (d a b : BitVec 8)
  | dmuls (pf : Pfx) (d a b : BitVec 8)
  | hash (pf : Pfx) (d a b : BitVec 8)
  | hcomb (pf : Pfx) (d a b : BitVec 8)
  | part (pf : Pfx) (d a b : BitVec 8)
  | bloom (pf : Pfx) (d a b : BitVec 8)
  | scmp (pf : Pfx) (d a b : BitVec 8)
  | sfind (pf : Pfx) (d a b : BitVec 8)
  | slen (pf : Pfx) (d a : BitVec 8)
  | shash (pf : Pfx) (d a b : BitVec 8)
  | fadd (pf : Pfx) (d a b : BitVec 8)
  | fmul (pf : Pfx) (d a b : BitVec 8)
  | ffma (pf : Pfx) (d a b : BitVec 8)
  | fmin (pf : Pfx) (d a b : BitVec 8)
  | fmax (pf : Pfx) (d a b : BitVec 8)
  | fcmp (pf : Pfx) (c : BitVec 5) (p : BitVec 3) (a b : BitVec 8)
  | fclass (pf : Pfx) (d a : BitVec 8)
  | frnd (pf : Pfx) (d a : BitVec 8)
  | hadd2 (pf : Pfx) (d a b : BitVec 8)
  | hmul2 (pf : Pfx) (d a b : BitVec 8)
  | hfma2 (pf : Pfx) (d a b : BitVec 8)
  | bdot2 (pf : Pfx) (d a b : BitVec 8)
  | dadd (pf : Pfx) (d a b : BitVec 8)
  | dmul (pf : Pfx) (d a b : BitVec 8)
  | dfma (pf : Pfx) (d a b : BitVec 8)
  | dcmp (pf : Pfx) (c : BitVec 5) (p : BitVec 3) (a b : BitVec 8)
  | shfl (pf : Pfx) (d a : BitVec 8) (n f : BitVec 4)
  | shflx (pf : Pfx) (d a : BitVec 8) (n f : BitVec 4)
  | perm (pf : Pfx) (d a : BitVec 8) (n : BitVec 4)
  | vote (pf : Pfx) (d a : BitVec 8) (n f : BitVec 4)
  | matchL (pf : Pfx) (d a : BitVec 8) (n f : BitVec 4)
  | reduce (pf : Pfx) (d a : BitVec 8) (n f : BitVec 4)
  | reduceF (pf : Pfx) (d a : BitVec 8) (n f : BitVec 4)
  | scan (pf : Pfx) (d a : BitVec 8) (n f : BitVec 4)
  | scanF (pf : Pfx) (d a : BitVec 8) (n f : BitVec 4)
  | popm (pf : Pfx) (d a : BitVec 8) (n f : BitVec 4)
  | hdm16 (pf : Pfx) (d a : BitVec 8) (n : BitVec 4)
  | hdm32 (pf : Pfx) (d a : BitVec 8) (n : BitVec 4)
  | hadd2Bf16 (pf : Pfx) (d a b : BitVec 8)
  | hmul2Bf16 (pf : Pfx) (d a b : BitVec 8)
  | hfma2Bf16 (pf : Pfx) (d a b : BitVec 8)
  | ckpack (pf : Pfx) (d a : BitVec 8) (q : BitVec 1) (n : BitVec 3)
  | ckunpk (pf : Pfx) (d a : BitVec 8) (q : BitVec 1)
  | ckadd (pf : Pfx) (d a b : BitVec 8)
  | cksub (pf : Pfx) (d a b : BitVec 8)
  | ckaxis (pf : Pfx) (d a : BitVec 8) (q : BitVec 1) (x : BitVec 3)
  | ckins (pf : Pfx) (d a : BitVec 8) (q : BitVec 1) (x : BitVec 3)
  | ckcmp (pf : Pfx) (c : BitVec 5) (p : BitVec 3) (a b : BitVec 8)
  | ckbox (pf : Pfx) (c : BitVec 5) (p : BitVec 3) (a b : BitVec 8)
  | cknext (pf : Pfx) (d a b : BitVec 8)
  | ckprev (pf : Pfx) (d a b : BitVec 8)
  | cksplit (pf : Pfx) (d : BitVec 8)
  | ckrlist (pf : Pfx) (d a b : BitVec 8)
  | cklvl (pf : Pfx) (d a : BitVec 8) (m : BitVec 2) (l : BitVec 6)
  | ckwide (pf : Pfx) (d a : BitVec 8) (w : BitVec 1)
  | uadd (pf : Pfx) (d a b : BitVec 8)
  | usub (pf : Pfx) (d a b : BitVec 8)
  | umul (pf : Pfx) (d a b : BitVec 8)
  | uand (pf : Pfx) (d a b : BitVec 8)
  | uor (pf : Pfx) (d a b : BitVec 8)
  | uxor (pf : Pfx) (d a b : BitVec 8)
  | ushl (pf : Pfx) (d a b : BitVec 8)
  | ushr (pf : Pfx) (d a b : BitVec 8)
  | usetp (pf : Pfx) (c : BitVec 5) (p : BitVec 3) (a b : BitVec 8)
  | usel (pf : Pfx) (d a b : BitVec 8)
  | umov (pf : Pfx) (d a : BitVec 8)
  | umovi (pf : Pfx) (d : BitVec 8) (i : BitVec 16)
  | umovhi (pf : Pfx) (d : BitVec 8) (i : BitVec 16)
  | elect (pf : Pfx) (c : BitVec 5) (p : BitVec 3) (a : BitVec 8)
  | ubcast (pf : Pfx) (d a : BitVec 8) (f : BitVec 1) (l : BitVec 6)
  | rcp (pf : Pfx) (d a : BitVec 8)
  | rsq (pf : Pfx) (d a : BitVec 8)
  | sqrt (pf : Pfx) (d a : BitVec 8)
  | exp2 (pf : Pfx) (d a : BitVec 8)
  | log2 (pf : Pfx) (d a : BitVec 8)
  | sin (pf : Pfx) (d a : BitVec 8)
  | cos (pf : Pfx) (d a : BitVec 8)
  | tanh (pf : Pfx) (d a : BitVec 8)
  | fdiv (pf : Pfx) (d a b : BitVec 8)
  | idiv (pf : Pfx) (d a b : BitVec 8)
  | idivNu (pf : Pfx) (d a b : BitVec 8)
  | irem (pf : Pfx) (d a b : BitVec 8)
  | iremNu (pf : Pfx) (d a b : BitVec 8)
  | f2f (pf : Pfx) (d a : BitVec 8) (y x : BitVec 4)
  | f2i (pf : Pfx) (d a : BitVec 8) (y x : BitVec 4)
  | i2f (pf : Pfx) (d a : BitVec 8) (y x : BitVec 4)
  | qscale (pf : Pfx) (d a b : BitVec 8)
  | qscaleAdapt (pf : Pfx) (d a b : BitVec 8)
  | qpack (pf : Pfx) (d a b : BitVec 8)
  | qunpk (pf : Pfx) (d a : BitVec 8) (e : BitVec 3) (f : BitVec 4)
  | ldZ8 (pf : Pfx) (d a b : BitVec 8)
  | ldS8 (pf : Pfx) (d a b : BitVec 8)
  | ldZ16 (pf : Pfx) (d a b : BitVec 8)
  | ldS16 (pf : Pfx) (d a b : BitVec 8)
  | ld (pf : Pfx) (d a b : BitVec 8)
  | ldB64 (pf : Pfx) (d a b : BitVec 8)
  | ldB128 (pf : Pfx) (d a b : BitVec 8)
  | ldC (pf : Pfx) (d a t : BitVec 8)
  | ldCB128 (pf : Pfx) (d a t : BitVec 8)
  | stB8 (pf : Pfx) (d a b : BitVec 8)
  | stB16 (pf : Pfx) (d a b : BitVec 8)
  | st (pf : Pfx) (d a b : BitVec 8)
  | stB64 (pf : Pfx) (d a b : BitVec 8)
  | stB128 (pf : Pfx) (d a b : BitVec 8)
  | lds (pf : Pfx) (d a : BitVec 8) (z : BitVec 2) (s : BitVec 3)
  | sts (pf : Pfx) (d a : BitVec 8) (z : BitVec 2) (s : BitVec 3)
  | uld (pf : Pfx) (d a b : BitVec 8)
  | uldB64 (pf : Pfx) (d a b : BitVec 8)
  | ust (pf : Pfx) (d a b : BitVec 8)
  | ustB64 (pf : Pfx) (d a b : BitVec 8)
  | atom (pf : Pfx) (d a : BitVec 8) (o : BitVec 4) (k : BitVec 1) (s : BitVec 3)
  | cas (pf : Pfx) (d a : BitVec 8) (z : BitVec 2) (s : BitVec 3)
  | red (pf : Pfx) (d a : BitVec 8) (o : BitVec 4) (k : BitVec 1) (s : BitVec 3)
  | fence (pf : Pfx) (k : BitVec 2) (s : BitVec 3)
  | prefL1 (pf : Pfx) (a : BitVec 8) (r : BitVec 1)
  | prefL2 (pf : Pfx) (a : BitVec 8) (r : BitVec 1)
  | prefHbm (pf : Pfx) (a : BitVec 8) (r : BitVec 1)
  | prefTier (pf : Pfx) (d a : BitVec 8) (t r : BitVec 1)
  | residQ (pf : Pfx) (d a : BitVec 8)
  | residKeep (pf : Pfx) (a : BitVec 8)
  | residEvict (pf : Pfx) (a : BitVec 8)
  | sldx (pf : Pfx) (d a : BitVec 8) (u : BitVec 1) (n : BitVec 4)
  | sstx (pf : Pfx) (d a : BitVec 8) (u : BitVec 1) (n : BitVec 4)
  | tdef (pf : Pfx) (t a : BitVec 8)
  | tarm (pf : Pfx) (t a b : BitVec 8)
  | twait (pf : Pfx) (t a : BitVec 8)
  | tcons (pf : Pfx) (t : BitVec 8)
  | tstat (pf : Pfx) (d t : BitVec 8)
  | bar (pf : Pfx) (u v : BitVec 1) (k : BitVec 4)
  | tbinit (pf : Pfx) (d a : BitVec 8)
  | tbexp (pf : Pfx) (d a : BitVec 8)
  | tbarr (pf : Pfx) (d a : BitVec 8)
  | tbwait (pf : Pfx) (d a : BitVec 8) (p : BitVec 3)
  | ctrwait (pf : Pfx) (d a : BitVec 8) (s : BitVec 3)
  | ctrwaitYield (pf : Pfx) (d a : BitVec 8) (s : BitVec 3)
  | mres (pf : Pfx) (r : BitVec 4) (a : BitVec 8)
  | mrel (pf : Pfx) (r : BitVec 4) (a : BitVec 8)
  | mldt (pf : Pfx) (r : BitVec 4) (t b : BitVec 8)
  | mldtC (pf : Pfx) (r : BitVec 4) (t b : BitVec 8)
  | mldg (pf : Pfx) (r : BitVec 4) (a b : BitVec 8)
  | mzero (pf : Pfx) (r : BitVec 4)
  | mma (pf : Pfx) (c a b : BitVec 4)
  | mmap (pf : Pfx) (c a b : BitVec 4)
  | mstt (pf : Pfx) (t : BitVec 8) (a : BitVec 4) (b : BitVec 8)
  | launch (pf : Pfx) (d a : BitVec 8)
  | nsend (pf : Pfx) (d : BitVec 8)
  | npost (pf : Pfx) (d : BitVec 8)
  | bra (pf : Pfx) (o : BitVec 16)
  | brau (pf : Pfx) (g : BitVec 8) (o : BitVec 16)
  | brx (pf : Pfx) (a : BitVec 8)
  | call (pf : Pfx) (o : BitVec 16)
  | callx (pf : Pfx) (a : BitVec 8)
  | ret (pf : Pfx)
  | csw (pf : Pfx) (a : BitVec 8)
  | rejoin (pf : Pfx) (k : BitVec 8) (n : BitVec 4)
  | exit (pf : Pfx)
  | yield (pf : Pfx)
  | nop (pf : Pfx)
  | sread (pf : Pfx) (d s : BitVec 8)
  | sreadW (pf : Pfx) (s a : BitVec 8)
  | trap (pf : Pfx) (c : BitVec 16)
  | syscall (pf : Pfx) (c : BitVec 16)
  | ulien (pf : Pfx) (m : BitVec 5)
  | ulidis (pf : Pfx) (m : BitVec 5)
  | uliret (pf : Pfx)
  | brkpt (pf : Pfx) (c : BitVec 16)
  | event (pf : Pfx) (c : BitVec 16)
  | evClauseEntry (g t i pc : Nat)
  | evWaitselMet (g t i tid : Nat)
  | evIssueArbitration (core part : Nat)
  | evEntryAged (g t i pc prio : Nat)
  | evDemotionTimerExpiry (g t i pc prio : Nat)
  | evProducerValueArrives (acc : Nat) (fresh : Bool)
  | evQueuePopServed (g t i q : Nat)
  | evQueueSpaceFreed (g t q : Nat)
  | evSfuCompletion (g t i n : Nat)
  | evStoreRetires (acc : Nat)
  | evCtrwaitPoll (g t i tid : Nat)
  | evTileArrival (n : Nat)
  | evTileDrainComplete (g t c tile : Nat)
  | evHoldStoreExpiry (n : Nat)
  | evWeirWindow (die slice : Nat)
  | evWeirServe (die pa pasid : Nat)
  | evJobCardAccept (core chan : Nat)
  | evJobStart (core job : Nat)
  | evJobSector (core job : Nat)
  | evJobComplete (core job : Nat)
  | evMatrixOpComplete (core : Nat)
  | evMldgFillComplete (core n : Nat)
  | evPendingLaunchTake (g t : Nat)
  | evSpawnWrite (fn ctx size off : Nat) (data : List Byte)
  | evTeamSelect
  | evQueueAged (q : Nat)
  | evTeamRetire (g t : Nat)
  | evContinuationSwapOut (g t : Nat)
  | evContinuationPoll (g t : Nat)
  | evApertureUnbind (ap : Nat)
  | evQueueDescriptorWrite (q desc : Nat)
  | evQueueDestroy (q : Nat)
  | evQueueRingUnmapped (q : Nat)
  | evContextCreate (pasid part fn slot ttb ptroot trapTab recArea image mcrep : Nat)
  | evSyscallReply (n g8 g9 : Nat)
  | evFaultToPager (part : Nat)
  | evInterruptSourceEvent (g t i source : Nat)
  | evDoorbell (fn ctx size off val : Nat)
  | evPreemptRequest (g t deadline allow who : Nat)
  | evDrainDeadline (g t : Nat)
  | evDiscard (g t : Nat)
  | evSave (g t : Nat)
  | evRestore (g t : Nat)
  | evTranslationWalk (core pasid va : Nat)
  | evPageIn (n : Nat)
  | evPageSectorArrives (frame : Nat)
  | evWritebackComplete (frame : Nat)
  | evInvalidateComplete (frame : Nat)
  | evDecayTick
  | evLeaseExpiry (part id : Nat)
  | evLeaseCheckFault (acc : Nat)
  | evReplay (part tag fid : Nat)
  | evDecline (part tag fid : Nat)
  | evLeaseSet (part tag rec : Nat)
  | evLeaseDrop (part tag id : Nat)
  | evInval (part tag pasid va pages : Nat)
  | evRevoke (part tag id deadline : Nat)
  | evUnknownPagerCommand (part tag op : Nat)
  | evRevokeWritebackDone (part id : Nat)
  | evPoolNodeLost (node : Nat)
  | evPoolRequestTimeout (node : Nat)
  | evPoolReadPoison (frame : Nat)
  | evWritebackFailure (frame : Nat)
  | evBackInvalidationSnoop (port page : Nat)
  | evStampedWriteApply (die origin : Nat)
  | evHostSnoop (line : Nat)
  | evBar2Access (fn : AtPort) (off op : Nat) (data : List Byte)
  | evShecelRequest (src : FromPeer) (fn : Nat) (place : StreamPlace) (faddr op size : Nat) (data : List Byte)
  | evStreamResume (g t i stream : Nat)
  | evStreamAbort (g t i stream : Nat)
  | evShecelReply (acc reason : Nat) (data : List Byte)
  | evMulticastAck (acc expd pos : Nat) (neg : List Byte)
  | evSwitchCombine (a b : Nat)
  | evHeartbeat (port : Nat)
  | evLinkSilenceTimeout (port : Nat)
  | evDeathNotice (dev : Nat)
  | evPeerReturn (dev incarnation : Nat)
  | evAllowanceReturn (dev n : Nat)
  | evFunctionTeardown (fn : Nat)
  | evTeardownRttExpiry (fn : Nat)
  | evFunctionLevelReset (fn : Nat)
  | evExportTableWrite (fn e val : Nat)
  | evConnectionOpen (conn pasid peer : Nat)
  | evConnectionClose (conn : Nat)
  | evConnectionClosed (conn : Nat)
  | evNetworkPacket (conn : AtPort) (msg : MsgTag) (len off : Nat) (data : List Byte)
  | evNetworkCompletion (n status : Nat)
  | evHbmParityAlert (stack chan : Nat)
  | evChannelRetrain (stack chan : Nat) (ok : Bool)
  | evScrubStep (stack chan : Nat) (err : Bool)
  | evScrubEscalatorCheck (stack : Nat)
  | evHbmUncorrectable (addr : Nat)
  | evActivationAlert (stack chan owed : Nat)
  | evBackoffWindowExpiry (stack chan : Nat)
  | evOndieEccError (core kind g t addr : Nat)
  | evErrorCounterClear (unit cls : Nat)
  | evRepair (stack chan row spare left : Nat)
  | evRetrain (stack chan : Nat) (ok : Bool)
  | evScrubstat (stack : Nat)
  | evTelem (stack temp rate power : Nat)
  | evReset (stack chan : Nat)
  | evMailboxTimeout (stack : Nat)
  | evFatalError (cause unit addr : Nat)
  | evFirmwareRecoveryDoorbell (comp : Nat) (image : List Byte)
  | evSpdmRequest (n : Nat)
  | evPartitionChange (part quads quad0 frame0 frames locals : Nat)
  | evFrequencyRequest (who island mhz : Nat)
  | evThermalThrottle (island temp : Nat)
  | evTelemetryUpdate (island power temp : Nat)
  | evDeviceReset
  | evRegisterWrite (who reg idx val : Nat)
  | evPoolWritebackAck (frame sector : Nat)
  | evPackagePowerLimit (power : Nat)
deriving DecidableEq, Repr

end Sys2Proof
end

