-- ==== Sys2Proof/Machine/State.lean ====
section
/-! DEFINITION. The machine's state as plain data: the threads, groups and teams on the cores, the cores, the dies, the
memories, the command processor, the tenant partitions, the leases and frames, the fabrics and the management units; the
reasons a step can stop; and the state after reset. -/

namespace Sys2Proof.Machine

/-- Why the machine stops. No path of this model stops it: every fault of the spec is taken (R356), and an event whose
condition does not hold is passed over. -/
inductive Fault where
  /-- An access to a device address outside every window the spec lays out. Raised by nobody; safe. -/
  | noSuchAddress
deriving DecidableEq, Repr

/-- Why an instruction is refused. -/
inductive Refusal where
  /-- The instruction has no meaning yet. Raised by an arm of Dispatch alone; safe. -/
  | notModelled (mnemonic : String)
deriving DecidableEq, Repr

/-- A group of a team of a grid (R49, R265). -/
structure GRef where
  grid : Nat
  team : Nat
  gid : Nat
deriving DecidableEq, Repr

/-- A thread (R49). -/
structure TRef where
  g : GRef
  tid : Nat
deriving DecidableEq, Repr

/-- Four counts, one for each die (R317). They do not wrap (assumption log 75). -/
structure VClk where
  d0 : Nat
  d1 : Nat
  d2 : Nat
  d3 : Nat
deriving DecidableEq, Repr

/-- All zero (R317). -/
def VClk.zero : VClk := ⟨0, 0, 0, 0⟩

/-- What tells a write of a byte from the others: its stamp (R317), all zero for one that has none, and its key in the byte's
coherence order (R320). The key of a write to device memory is the sum of its stamp and its origin die; that of a write to
host memory is its number there. -/
structure Mark where
  st : VClk
  key : Nat × Nat
deriving DecidableEq, Repr

/-- The mark of a byte that nothing has written. -/
def Mark.zero : Mark := ⟨.zero, (0, 0)⟩

/-- A byte as a cache holds it, with the write that it comes from. -/
structure Copy where
  b : Byte
  mark : Mark
deriving DecidableEq, Repr

/-- A fault record's fields (R8); VALID is always 1 in one. -/
structure FRec where
  code : Nat
  kind : Nat
  ri : Nat
  eng : Bool
  replay : Bool
  thread : Nat
  group : Nat
  team : Nat
  grid : Nat
  pc : Nat
  va : Nat
  smask : Nat
  eprog : Nat
  lease : Nat
  dtime : Nat
  core : Nat
  part : Nat
  chan : Nat
deriving DecidableEq, Repr

/-- What a parked thread waits for (R271). -/
inductive Wait where
  /-- An empty source or destination register (R55, R56). -/
  | reg
  /-- A pop whose destination is a predicate (R129). -/
  | pop
  /-- A push to a full queue (R58). -/
  | push
  /-- A tile (R228, R229). -/
  | tile
  /-- A transaction barrier (R236). -/
  | tbar
  /-- A join counter: its address, the target, the scope and the clk at which the wait began (R237). -/
  | ctr (va target scope since : Nat) (yields : Bool)
  /-- A second BAR on a barrier that has not completed (R233). -/
  | bar
  /-- The launch limits (R256). -/
  | launch
  /-- A fence's completion (R219). -/
  | fence
  /-- MLDG's pins: the address of the line that is awaited, 0 for the quota (R245). -/
  | pins (va : Nat)
  /-- What EXIT waits for (R143). -/
  | exit
deriving DecidableEq, Repr

/-- What caused a handler's entry (R372). -/
inductive TKind where
  | none
  | fault
  | trap
  | interrupt
deriving DecidableEq, Repr

/-- What resumes a thread after a handler (R361): the address, its clause's header, the header after the clause, and
whether it stands inside the clause. -/
structure Resume where
  pc : Nat
  hdr : Nat
  cend : Nat
  inside : Bool
deriving DecidableEq, Repr

/-- The state of a thread (R271); `barred` is parked at a team barrier after arriving (R233, R369); `taking` is between a
fault and its handler, while a read or write of the entry waits for memory (R360, R384). -/
inductive TState where
  | ready
  | entering
  | parked (w : Wait)
  | rejoining (k : Nat) (m : Nat)
  | barred (k : Nat)
  | held (fid : Nat)
  | taking (r : FRec) (k : TKind) (res : Resume)
  | exited
deriving DecidableEq, Repr

/-- A deferred fault (R357): the record, and where it is due: a store's (WAITSEL bit 10), an engine's (bit 12, and a wait
on the tile or the barrier, by member core and offset, that its job was to complete), or a load's, due at the first
instruction that reads one of the registers. -/
inductive DefKind where
  | store
  | engine (tile : Option Nat) (bar : Option (Nat × Nat))
  | load (file : Nat) (regs : List Nat)
deriving DecidableEq, Repr

/-- A deferred fault with its record. -/
structure Deferred where
  kind : DefKind
  rcd : FRec
deriving DecidableEq, Repr

/-- The trap frame (R360); the header after the resume point's clause, that clause's words, and whether an interrupt has
been taken at the header that is the resume point (R363) go with it. -/
structure Frame where
  tpc : Nat
  thdr : Nat
  tcend : Nat
  tcode : List Nat
  tint : Bool
  tprio : Nat
  tin : Bool
  tri : Nat
  tlink : Word
  tfp : Word
  tkind : TKind
  inh : Bool
deriving DecidableEq, Repr

/-- One thread's state (R42 to R52, R271, R360, R363). -/
structure Thread where
  /-- Lane registers, zero where unlisted (R42, R60). -/
  w : Tab Word
  /-- The lane registers that are empty, rising (R53). -/
  we : List Nat
  /-- i0 to i3 (R44). -/
  idx : Tab (BitVec 16)
  /-- p0 to p6; p7 always reads true (R45). -/
  p : BitVec 7
  link : Word
  fp : Word
  rs : Word
  af : Byte
  /-- Repeat index (R50). -/
  ri : Nat
  /-- The address of a header or of an instruction's first word (R89). -/
  pc : Nat
  /-- The header of the clause that holds pc (R98). -/
  hdr : Nat
  /-- The header after that clause (R94). -/
  cend : Nat
  /-- The words of the clause, its header first, as the thread fetched them at its entry (R94, R99). -/
  code : List Nat
  /-- Has the thread passed the entry of the clause at hdr (R273)? -/
  inside : Bool
  /-- Has an interrupt been taken at the header where the thread stands (R363)? -/
  intd : Bool
  /-- Block priority (R93). -/
  prio : Nat
  /-- The transfer that led to the header at pc; none after a fall-through (R94). -/
  from? : Option Nat
  st : TState
  frame : Frame
  /-- Pending interrupt bits (R363). -/
  pend : BitVec 5
  /-- Deferred faults in order (R357). -/
  defd : List Deferred
  /-- The join of the stamps of the thread's writes (R319). -/
  wrote : VClk
  /-- The join of the vectors returned with its strong loads (R319), and of the stamps of the writes whose values its weak
  loads have returned (R330). -/
  seen : VClk
  /-- The mark of a thread that has what its instruction waited for: a barrier's completion (R233), a counter's value
  (R237), the engine's acceptance of its card (R254), or an error in place of the line that an MLDG awaits (R412). -/
  popped : Option Word
  /-- The barriers at which the thread has arrived and which have not completed (R233). -/
  arrived : List Nat
  /-- The device's vector that a full fence must cover (R329); none outside one. -/
  fenceV : Option VClk
  /-- One more than the number of the pins that the MLDG has made at which the thread stands (R245); 0 without any. -/
  pinned : Nat
  /-- By byte, the key of the newest write that the thread has met or made there (R320, R331). -/
  floor : Tab (Nat × Nat)
  /-- The pool sectors, by address over 64, that the thread's stores have written (R402). -/
  stored : List Nat
deriving DecidableEq, Repr

/-- The spin detector of an entry (R281): the branch and header watched, the unchanged iterations, and whether this
iteration has changed a register. -/
structure Spin where
  br : Nat
  hdr : Nat
  count : Nat
  changed : Bool
deriving DecidableEq, Repr

/-- The ranks that a save image may hold: 64 entries of each of 32 groups (R371). -/
def rankRoom : Nat := 2048

/-- A frontier entry (R273). An aged one holds the clk after the one in which it aged, times 2,048: the ranks that a restore
gives find room before it (R371). -/
structure FEntry where
  prio : Nat
  pc : Nat
  mask : List Nat
  idle : Nat
  aged : Option Nat
  demo : Nat
  spin : Spin
deriving DecidableEq, Repr

/-- A queued special-function issue (R161): for each thread the registers and their results. -/
structure SfEntry where
  id : Nat
  res : List (Nat × List (Nat × Word))
deriving DecidableEq, Repr

/-- A pending pop (R58, R129): the group, the thread or, when uniform, the set that issued it, the port, the instruction,
the register it fills (none for a predicate), the operands it has read, and the predicate it selects by (R123, R131). -/
structure Pop where
  g : GRef
  uniform : Bool
  set : List Nat
  port : Nat
  i : Instr
  dst : Option Nat
  bval : Nat
  dval : Nat
  pv : Bool
deriving DecidableEq, Repr

/-- A push (R58): the thread of a lane instruction, or the threads of a uniform one, which make one push; the instruction,
the port and the entry; and the predicates, the af bits and the generator's state that the instruction leaves besides. -/
structure PushWait where
  g : GRef
  set : List Nat
  i : Instr
  port : Nat
  v : Word
  preds : List (Nat × Bool)
  af : Nat
  rs : Option Word
deriving DecidableEq, Repr

/-- A pending launch (R350): the record's bytes with its arguments, and the launching group. -/
structure PLaunch where
  gid : Nat
  rcd : List Byte
  vec : VClk
deriving DecidableEq, Repr

/-- One group (R47, R57, R161, R251, R258, R263, R273). -/
structure Group where
  gid : Nat
  core : Nat
  part : Nat
  slot : Nat
  g : Tab Word
  ge : List Nat
  q0 : List Word
  q1 : List Word
  q2 : List Word
  sfq : List SfEntry
  sfNext : Nat
  uli : BitVec 5
  seq : Nat
  q0out : Nat
  netOut : Nat
  threads : Tab Thread
  front : List FEntry
deriving DecidableEq, Repr

/-- The states of a tile (R286). -/
inductive TileState where
  | empty
  | filling
  | ready
  | draining
deriving DecidableEq, Repr

/-- A tile table entry (R286); `rds` counts the reads admitted while READY that have not finished, and `mstt` marks a
phase that an MSTT opened (R287, R290). -/
structure Tile where
  st : TileState
  ph : Nat
  defd : Bool
  base : Nat
  len : Nat
  span : Nat
  fmt : Nat
  owner : Nat
  abytes : Nat
  exp : Nat
  cons : Nat
  rds : Nat
  mstt : Bool
deriving DecidableEq, Repr

/-- A tile entry at admission (R286). -/
def Tile.fresh : Tile :=
  { st := .empty, ph := 0, defd := false, base := 0, len := 0, span := 0, fmt := 0, owner := 0, abytes := 0, exp := 0,
    cons := 0, rds := 0, mstt := false }

/-- Who made an arrival (R288, R292). -/
inductive Producer where
  | store (acc : Nat)
  | job (num : Nat)
  | net (op : Nat)
  | mstt
  | peer (req : Nat)
deriving DecidableEq, Repr

/-- A tile arrival (R288): the aperture it came through, if one, the team, member core, tile, phase, offset and bytes.
`swz` says that the offset is logical and goes through the tile's swizzle (R296). -/
structure Arrival where
  ap : Option Nat
  grid : Nat
  team : Nat
  mc : Nat
  tile : Nat
  ph : Nat
  off : Nat
  swz : Bool
  data : List Byte
  prod : Producer
deriving DecidableEq, Repr

/-- Why a resident team has stopped (R354, R366, R367); a swap carries the counter's address and target. -/
inductive Stop where
  | save
  | discard
  | swap (va target : Nat)
deriving DecidableEq, Repr

/-- Where a team stands (R270); `stopped` is a resident team whose issue a save or a discard has stopped. -/
inductive TeamSt where
  | running
  | stopped (w : Stop)
  | awaiting
  | continuation (va target : Nat)
  | saved
deriving DecidableEq, Repr

/-- A pre-emption request in hand, with the requesters that have merged in it (R364, R365). -/
structure Preempt where
  deadline : Nat
  allow : Nat
  who : List Nat
  draining : Bool
deriving DecidableEq, Repr

/-- What the device holds for a team that is not resident (R61, R368). -/
inductive HeldNote where
  | push (gid q : Nat) (v : Word)
  | reply (gid g8 g9 : Nat)
  | doorbell (gid source : Nat)
  | decline (t : TRef) (r : FRec)
  | replay (acc : Nat)
deriving DecidableEq, Repr

/-- A kernel descriptor's fields (R340). -/
structure Kernel where
  wregs : Nat
  gregs : Nat
  scratch : Nat
  tiles : Nat
  entry : Nat
  code : Nat
deriving DecidableEq, Repr

/-- A matrix operation's kind (R247). -/
inductive MKind where
  | mldt (tile consume : Nat)
  | mldg (va : Nat)
  | mzero
  | mma
  | mmap (follower : Bool)
  | mstt (tile desc satc scl rnd : Nat) (rs : Word)
  | mrel (dests : List Nat) (reg : Nat)
deriving DecidableEq, Repr

/-- An operation of a core's matrix sequence (R247): records c, a and b, the layout pair, the issuing group, the lines of
an MLDG as virtual and physical line numbers (R245), its SEQ (R251), the first K block not yet added (R370), and the number
of the next access when it issued. -/
structure MOp where
  id : Nat
  kind : MKind
  g : GRef
  tid : Nat
  c : Nat
  a : Nat
  b : Nat
  layout : Nat
  lines : List (Nat × Nat)
  seqNo : Nat
  kblk : Nat
  reuse : Bool
  acc : Nat
deriving DecidableEq, Repr

/-- A reservation record (R239, R300); a record that stands in the table has RSV = 1. -/
structure Rec where
  grid : Nat
  team : Nat
  afmt : Nat
  blk : Nat
  efmt : Nat
  ngr : Nat
  base : Nat
  clip : Nat
  under : Nat
deriving DecidableEq, Repr

/-- An operand brick (R242): codes by 48·row + k and scale bytes by 3·row + j; an unlisted code is 0 and an unlisted scale
0x7F (R240), or both are free values of the numbered kind when the accumulator has overwritten the brick. -/
structure Brick where
  codes : Tab Nat
  scales : Tab Nat
  junk : Option Nat
deriving DecidableEq, Repr

/-- An accumulator (R240): words by 128·m + n; an unlisted word is 0, or a free value of the numbered kind when a brick
has overwritten the accumulator. -/
structure Accum where
  words : Tab Word
  junk : Option Nat
deriving DecidableEq, Repr

/-- Pins an MLDG holds (R245, R301): the record, its operation's number in the matrix sequence, or while its threads still wait
for lines (`waits`) a number of the pins' own, and the lines. -/
structure Pin where
  rcd : Nat
  op : Nat
  waits : Bool
  lines : List (Nat × Nat)
deriving DecidableEq, Repr

/-- A copy job (R303 to R311): `wait` in its channel, running, or held for the pager. -/
inductive JobSt where
  | queued
  | running
  | held (fid : Nat)
  | landed
deriving DecidableEq, Repr

/-- A copy job: the device's own number for it, its number in its core's acceptance sequence (R303), its channel, thread and
card, and its template with the card's arguments applied. -/
structure Job where
  num : Nat
  seq : Nat
  chan : Nat
  t : TRef
  pasid : Nat
  part : Nat
  pc : Nat
  card : Nat
  tmpl : List Byte
  st : JobSt
  eprog : Nat
  ph : Nat
  /-- Arrivals of the job that are held or in flight (R456). -/
  flying : Nat
  /-- Source bytes that have come over Shecel for the sector under way, by address (R414). -/
  buf : Tab Byte
  /-- The number of the next access when the card was accepted: earlier accesses of the thread come before it (R323). -/
  acc : Nat
  /-- The join of the stamps of its writes (R317). -/
  stamps : VClk
deriving DecidableEq, Repr

/-- What a save keeps of one member core (R371): records, the bricks and accumulators of their granules, the matrix
sequence, the pins of its MLDGs and the copy jobs. -/
structure CoreSave where
  recs : Tab Rec
  bricks : Tab Brick
  accs : Tab Accum
  seq : List MOp
  pins : List Pin
  jobs : List Job
deriving DecidableEq, Repr

/-- A team (R265 to R270, R285, R351). -/
structure Team where
  grid : Nat
  team : Nat
  pasid : Nat
  part : Nat
  queue : Nat
  depth : Nat
  st : TeamSt
  cores : List Nat
  kern : Kernel
  groups : Tab Group
  /-- Each member core's part of the scratchpad (R285). -/
  scratch : Tab Mem
  /-- Each member core's tile entries (R286). -/
  tiles : Tab (Tab Tile)
  /-- Arrivals held in the member cores' arrival buffers (R291). -/
  heldArr : List Arrival
  /-- q8 to q15 (R57). -/
  chans : Tab (List Word)
  /-- Pending pops in service order (R58). -/
  pops : List Pop
  /-- Pushes that wait, in order (R58). -/
  pushes : List PushWait
  pend : List PLaunch
  children : Nat
  admitAt : Nat
  preempt : Option Preempt
  /-- Notes for a team that is not resident (R61). -/
  notes : List HeldNote
  /-- The address of the saved image (R371). -/
  image : Nat
  /-- What a save has kept of each member core (R371). -/
  saved : Tab CoreSave
  /-- dtime when a save or a discard stopped the team, and by gid, block priority and PC the ranks that its aged entries then had
  (R371). -/
  stopAt : Nat
  ranks : List ((Nat × Nat × Nat) × Nat)
  /-- The registers that were empty when the team was stopped, as tmthread and register, 512 added for the g file (R368). -/
  empt : List (Nat × Nat)
  /-- Transaction barriers whose DET a save has set within their phase, as member core and offset (R235, R373). -/
  detached : List (Nat × Nat)
  /-- By transaction barrier, as 2^20 times the member core plus the offset: the stamps of the copy jobs that have landed on it
  (R322, R330). -/
  landed : Tab VClk
  /-- The vector of the team's die when a save stopped it (R375). -/
  vec : VClk
deriving DecidableEq, Repr

/-- A leaf of the page tables (R378), with the context that translates by it. -/
structure Leaf where
  lease : Nat
  pg : Nat
  r : Bool
  w : Bool
  x : Bool
  pasid : Nat
deriving DecidableEq, Repr

/-- Where an access's value goes (R53). -/
structure Dest where
  uniform : Bool
  reg : Nat
  cnt : Nat
deriving DecidableEq, Repr

/-- What an access does (R208 to R217, R234, R235). -/
inductive AccOp where
  | load (bytes : Nat) (sgn : Bool)
  | store (data : List Byte)
  | atom (op : Nat) (wide : Bool) (v : Nat) (ret : Bool)
  | cas (bytes expd new : Nat)
  | red (op : Nat) (wide : Bool) (v : Nat)
  | sldx (n : Nat) (nul : Bool)
  | resid
  | ldc (bytes tile : Nat)
  | card (data : Nat)
  /-- The load of a join counter that waits for a target (R237). -/
  | ctr (target : Nat)
  | tbinit (v : Nat)
  | tbexp (v : Nat)
  | tbarr
  | clock (v : Nat)
deriving DecidableEq, Repr

/-- Where an access stands (R206, R333, R384, R455, R456). -/
inductive AccSt where
  | pending
  | sent
  /-- Performed; an acquire that waits for its vector to be covered (R319). -/
  | acquiring
  | frozen
  | arrHeld
  | held (fid : Nat)
deriving DecidableEq, Repr

/-- An outstanding access (R206). -/
structure Acc where
  id : Nat
  core : Nat
  t : TRef
  /-- The threads that issued it: one, or the issue set of a uniform instruction. -/
  set : List Nat
  pasid : Nat
  part : Nat
  pc : Nat
  ri : Nat
  va : Nat
  size : Nat
  /-- KIND (R9). -/
  kind : Nat
  strong : Bool
  scope : Nat
  acq : Bool
  rel : Bool
  stream : Nat
  op : AccOp
  dest : Option Dest
  /-- Does it take a table entry (R206)? -/
  entry : Bool
  /-- Does it count as a load (bit 9), as a store (bit 10) (R92)? -/
  isLoad : Bool
  isStore : Bool
  /-- The translation made at issue; none outside user-virtual memory. -/
  leaf : Option Leaf
  /-- The translation of the next page, for the bytes of SLDX and SSTX that lie there. -/
  leaf2 : Option Leaf
  /-- The copy job whose request this is (R414). -/
  job : Option Nat
  /-- The vector that the home die must cover, once the access has left for it (R319). -/
  vreq : Option VClk
  /-- The bytes of a store that have been performed, when a fault has stopped it at its second page (R179). -/
  prog : Nat
  /-- Has it been held for the pager (R143, R455)? -/
  again : Bool
  st : AccSt
deriving DecidableEq, Repr

/-- A weir bucket (R299). -/
structure Weir where
  dep : Nat
  rate : Nat
  tokens : Nat
  debt : Nat
deriving DecidableEq, Repr

/-- One core (R14). -/
structure Core where
  /-- L1 sectors, by address over 64 (R297). -/
  l1 : Tab (List Copy)
  /-- Cached valid translations by context and page (R380). -/
  tlb : Tab Leaf
  /-- Code words that the core has fetched, by context and address: a later fetch may find them still (R99). -/
  code : Tab Nat
  recs : Tab Rec
  bricks : Tab Brick
  accs : Tab Accum
  seq : List MOp
  opNext : Nat
  pins : List Pin
  jobs : List Job
  /-- The next number of the copy engine's acceptance sequence (R303). -/
  jobNext : Nat
  /-- Arrivals rejected for want of space (R291). -/
  overflow : Nat
  /-- The group that last took each slot, by 4·partition + slot (R276). -/
  rr : Tab Nat
  /-- The clk until which a lane slot is held, by 4·partition + slot (R277). -/
  busy : Tab Nat
  /-- The sets issued in the clk before under a class 6 header that hold their lane slot for a second one (R277). -/
  lag : List (GRef × List Nat)
  clk : Nat
  /-- The entry that yields in the next round, by partition (R93). -/
  yieldP : Tab Nat
deriving DecidableEq, Repr

/-- A stamped write in flight to a die (R317, R318). -/
structure Stamped where
  origin : Nat
  s : VClk
  addr : Nat
  data : List Byte
deriving DecidableEq, Repr

/-- One die: its vector (R317), the sectors its L2 holds of frames of other dies, by address over 64 (R16, R298), the newest
writes of the bytes of its own frames (R320), by byte the key of the newest read-modify-write among them (R321), and the
stamped writes on their way to it (R318). -/
structure Die where
  v : VClk
  l2 : Tab (List Copy)
  marks : Tab Mark
  rmw : Tab (Nat × Nat)
  inbox : List Stamped
deriving DecidableEq, Repr

/-- A context descriptor (R338, R359, R376, R418). -/
structure Ctx where
  part : Nat
  fn : Nat
  slot : Nat
  ttb : Nat
  ptroot : Nat
  trapTab : Nat
  recArea : Nat
  image : Nat
  mcrep : Nat
  hintDrops : Nat
deriving DecidableEq, Repr

/-- A queue's STATE (R343). -/
inductive QState where
  | closed
  | opened
  | destroying
  | error
deriving DecidableEq, Repr

/-- A hardware queue: its descriptor (R343), its header counts (R344) and its deficit (R348). -/
structure Queue where
  base : Nat
  pasid : Nat
  maxd : Nat
  logsz : Nat
  quant : Nat
  age : Nat
  swap : Bool
  pri : Nat
  st : QState
  head : Nat
  tail : Nat
  reject : Nat
  discard : Nat
  deficit : Nat
  aged : Bool
  /-- The grids whose records stand in the ring, oldest first, and the child grids, oldest first (R347). -/
  ring : List Nat
  kids : List Nat
  /-- Continuation records and discarded teams that stand ahead of them (R355, R366). -/
  conts : List (Nat × Nat)
  readmit : List (Nat × Nat)
  /-- The head that is ready, by kind, grid and team; since when it is; and the last dtime since then at which a team of the
  queue was admitted (R348). -/
  head? : Option (Nat × Nat × Nat)
  readySince : Option Nat
  lastAdmit : Nat
deriving DecidableEq, Repr

/-- A buffer handle (R335, R424): its context, whether its generation is current, the launches that write it and those that
read it, oldest first, while their grids live, and the stamps of retired writers. -/
structure Handle where
  pasid : Nat
  current : Bool
  writers : List Nat
  readers : List Nat
  stamps : VClk
deriving DecidableEq, Repr

/-- A grid (R339, R351 to R353). -/
structure Grid where
  id : Nat
  pasid : Nat
  part : Nat
  queue : Nat
  depth : Nat
  kern : Kernel
  join : Nat
  teams : Nat
  groups : Nat
  minSpan : Nat
  idem : Bool
  apv : Bool
  aper : Nat
  hold : Nat
  handles : List (Nat × Nat)
  args : List Nat
  /-- The next team whose turn is to come. -/
  nextTeam : Nat
  parent : Option (Nat × Nat)
  killed : Bool
  /-- The join of the stamps of its writes (R334). -/
  stamps : VClk
  abandoned : Bool
  /-- The vector that the dies of its teams must cover at admission (R334). -/
  acq : VClk
  /-- The earlier grids on its handles that must have retired, and whether their stamps must be covered (R335). -/
  deps : List (Nat × Bool)
  /-- The stamps of earlier grids that every die must cover (R335). -/
  need : VClk
  /-- The pool sectors, by address over 64, that its retired teams have written (R334, R402). -/
  stored : List Nat
deriving DecidableEq, Repr

/-- A bound tile aperture (R294, R355). -/
structure Aper where
  grid : Nat
  team : Nat
  hold : Nat
  retiredAt : Option Nat
deriving DecidableEq, Repr

/-- An arrival in the hold store, with the last dtime at which its team may become resident for it (R294). -/
structure HoldEnt where
  arr : Arrival
  until_ : Nat
deriving DecidableEq, Repr

/-- The outcome of a pre-emption request, for one requester (R365). -/
structure PreReport where
  who : Nat
  grid : Nat
  team : Nat
  action : Nat
  at? : Nat
  missed : Bool
deriving DecidableEq, Repr

/-- A host's spawn store that has not been taken (R345): its function, context slot and record, and the vector that its grid's
admission acquires (R334). -/
structure Spawn where
  fn : Nat
  slot : Nat
  rcd : List Byte
  acq : VClk
deriving DecidableEq, Repr

/-- A write of the command processor to a queue's memory that has not been performed (R344). -/
structure QWrite where
  queue : Nat
  pasid : Nat
  va : Nat
  data : List Byte
deriving DecidableEq, Repr

/-- The command processor (R338 to R355, R329). -/
structure CmdProc where
  ctxs : Tab Ctx
  queues : Tab Queue
  handles : Tab Handle
  grids : Tab Grid
  gridNext : Nat
  apers : Tab Aper
  hold : List HoldEnt
  lastQ : Nat
  reports : List PreReport
  /-- The largest vector reported by a full fence, device and system scope (R329). -/
  fenceDev : VClk
  fenceSys : VClk
  /-- The contexts for which Queue Closed has been reported to the service core (R341, R346). -/
  closedRep : List Nat
  /-- Host spawns not yet taken, and writes to queues' memory not yet performed, oldest first (R344, R345). -/
  spawns : List Spawn
  qwrites : List QWrite
  /-- The join of the stamps of the writes to queues' memory: each comes after the earlier ones (R344). -/
  qstamp : VClk
deriving DecidableEq, Repr

/-- Who is held under a FID (R399). -/
inductive Holder where
  | thread (t : TRef)
  | access (acc : Nat)
  | job (num : Nat)
  | request (n : Nat)
deriving DecidableEq, Repr

/-- A pending FAULT (R399). -/
structure FidEnt where
  pasid : Nat
  page : Nat
  code : Nat
  count : Nat
  holders : List Holder
  recs : List FRec
deriving DecidableEq, Repr

/-- A fault-ring entry (R398). -/
inductive FRing where
  | fault (fid count pasid : Nat) (rcd : FRec)
  | event (reason pasid page : Nat)
  | done (tag status sectors : Nat) (late : Bool)
  | nodeLoss (node lost sectors : Nat) (ids : List Nat) (index : Nat)
deriving DecidableEq, Repr

/-- An error-log entry (R441). -/
structure ErrEnt where
  cls : Nat
  die : Nat
  unit : Nat
  pasid : Nat
  detail : Nat
  count : Nat
  dtime : Nat
  addr : Nat
deriving DecidableEq, Repr

/-- An outstanding SYSCALL (R262). -/
structure SysReq where
  n : Nat
  g : GRef
  code : Nat
  args : List Word
deriving DecidableEq, Repr

/-- A tenant partition (R385, R398, R421, R442, R448, R264). -/
structure Part where
  quads : List Nat
  frame0 : Nat
  frames : Nat
  locals : Nat
  /-- The memory of the service core, where its rings stand: their addresses, and how many entries the device has written to
  the fault ring, and the pager has written to and the device has taken from the command ring (R398). -/
  svc : Mem
  fring : Nat
  cring : Nat
  ftail : Nat
  ctail : Nat
  chead : Nat
  /-- The entries of the fault ring that the pager has not taken, and those that wait for room in it. -/
  ring : List FRing
  late : List FRing
  /-- Faults that wait for room in the ring (R399). -/
  waiting : List (Holder × Nat × FRec)
  /-- The tags of commands whose DONE has not been written, in command order, with the DONE once it is known (R398). -/
  cmds : List (Nat × Option FRing)
  fids : Tab FidEnt
  fidNext : Nat
  errs : List ErrEnt
  errDrop : Nat
  sys : List SysReq
  trace : List (BitVec 128)
  traceOn : Bool
  killRecs : List FRec
  fn : Nat
  /-- While a boundary change waits, the first cache frame that stays in the quota and the first above those (R448). -/
  keep : Option (Nat × Nat)
deriving DecidableEq, Repr

/-- A lease's state (R391). -/
inductive LeaseSt where
  | valid
  | expired
  | revoking (tag deadline sectors : Nat)
  | revoked
  | lost
deriving DecidableEq, Repr

/-- A lease (R389). -/
structure Lease where
  part : Nat
  st : LeaseSt
  rw : Bool
  pages : Nat
  base : Nat
  epoch : Nat
  node : Nat
  repl : List Nat
  expiry : Nat
deriving DecidableEq, Repr

/-- A frame's state (R382). -/
inductive FrameSt where
  | free
  | filling
  | valid
  | writeback
  | invalidating
deriving DecidableEq, Repr

/-- A frame of the map (R382); `loc` is the TAG LOCAL, `first` the sector read first (R384), `lost` lists the sectors
marked lost (R438), `retries` counts failed writebacks (R412). A frame that stands in no entry is FREE, or device-local. -/
structure FrameE where
  st : FrameSt
  loc : Bool
  part : Nat
  page : Nat
  lease : Nat
  dirty : List Nat
  arrived : List Nat
  first : Nat
  cnt : Nat
  pins : Nat
  lost : List Nat
  retries : Nat
  /-- The prefetch group that last chose or found the frame (R387); 0 for none. -/
  grp : Nat
  /-- The prefetch group that the frame fills for, and the page's place in it (R387); 0 for an access. -/
  rd : Nat × Nat
  /-- dtime of the last request to the pool for the frame (R413). -/
  since : Nat
deriving DecidableEq, Repr

/-- A missed page or a page of a prefetch group (R384, R387): `wait` while it waits for a frame, and afterwards, for a
group with a barrier, while its sectors arrive; `bar` names where they count, by grid, team, member core and offset. Group
0 is an access; `ord` is a page's place in its group and `va` its address. -/
structure PageReq where
  part : Nat
  pasid : Nat
  page : Nat
  lease : Nat
  sector : Nat
  group : Nat
  ord : Nat
  va : Nat
  report : Bool
  wait : Bool
  bar : Option (Nat × Nat × Nat × Nat)
deriving DecidableEq, Repr

/-- A Shecel peer (R420). -/
structure Peer where
  lost : Bool
  incarnation : Nat
deriving DecidableEq, Repr

/-- An export entry (R415). -/
structure Export where
  v : Bool
  tileKind : Bool
  rd : Bool
  w : Bool
  pasid : Nat
  pages : Nat
  xbase : Nat
deriving DecidableEq, Repr

/-- A request that came in over Shecel and has not been answered (R414, R416): the port it came through, its source, function,
group, stream and sequence number. -/
structure InReq where
  n : Nat
  port : Nat
  src : Nat
  fn : Nat
  grp : Nat
  stream : Nat
  seq : Nat
  faddr : Nat
  op : Nat
  size : Nat
  data : List Byte
  /-- A multicast member's copy (R418). -/
  mcast : Bool
  /-- It waits for the pager (R416), or for its tile arrival's fate. -/
  held : Bool
  /-- Performed or refused: the stamp that every die must cover before the answer (R315), its reason and its data. -/
  done : Option (VClk × Nat × List Byte)
deriving DecidableEq, Repr

/-- A stream of another device at this one, or of this device's groups (R332, R414): the numbers that name it, the sequence
number that comes next, and the stamps of its writes so far. -/
structure StreamSeq where
  key : List Nat
  next : Nat
  last : VClk
deriving DecidableEq, Repr

/-- A host access through BAR2 that has not completed (R411): `op` is 0 for a read, 1 for a write, 2 for FetchAdd, 3 for Swap
and 4 for CAS (R407). -/
structure BarReq where
  n : Nat
  port : Nat
  fn : Nat
  off : Nat
  op : Nat
  data : List Byte
deriving DecidableEq, Repr

/-- A packet that is being placed in memory (R426): its operation, the port it came through, its offset and its bytes. -/
structure Placing where
  op : Nat
  port : Nat
  off : Nat
  data : List Byte
deriving DecidableEq, Repr

/-- A multicast acknowledgement whose report is being written (R418): the access, the members addressed and those that
performed the request, and the negatives; once the report has been written, its stamp. -/
structure McAck where
  acc : Nat
  expd : Nat
  pos : Nat
  neg : List Byte
  done : Option VClk
deriving DecidableEq, Repr

/-- What the device sends out over its ports (R414 to R420). -/
inductive OutMsg where
  | request (acc dev fn grp stream seq faddr kind size : Nat) (data : List Byte)
  | multicast (acc grp faddr : Nat) (data : List Byte)
  | reply (src stream faddr reason : Nat) (data : List Byte)
  | freeze (src stream code : Nat)
  | resume (src stream : Nat)
  | abort (src stream : Nat)
  | heartbeat (port : Nat)
  | allowances (dev n : Nat)
  | snoopDone (port page : Nat) (sectors : List (Nat × List Byte))
  | hostSnoopDone (line : Nat)
  | completion (off : Nat) (data : List Byte) (abort : Bool)
  | packet (conn tag off len : Nat) (data : List Byte)
  | packetAck (conn msg off reason : Nat)
  | spdm (data : List Byte)
deriving DecidableEq, Repr

/-- A connection's state (R425). -/
inductive ConnSt where
  | closed
  | opened
  | closing
deriving DecidableEq, Repr

/-- A network connection (R425). -/
structure Conn where
  st : ConnSt
  pasid : Nat
  peer : Nat
  /-- The arriving messages that have been discarded (R426). -/
  gone : List Nat
deriving DecidableEq, Repr

/-- An NSEND or NPOST that has not completed (R258, R426). -/
structure NetOp where
  n : Nat
  send : Bool
  g : GRef
  pasid : Nat
  part : Nat
  core : Nat
  conn : Nat
  tag : Nat
  len : Nat
  addr : Nat
  tile : Bool
  placed : Nat
  fail : Nat
  flying : Nat
  /-- The message it has matched. -/
  matched : Option Nat
  /-- The stamps of its writes, and the pool sectors they lie in (R427). -/
  stamps : VClk
  stored : List Nat
deriving DecidableEq, Repr

/-- A request over Shecel of one of the device's own units: the numbers that name the unit, the access, the address, whether
it writes, and the reason and the data of its answer once that has come (assumption log 17). -/
structure UnitReq where
  own : List Nat
  acc : Nat
  va : Nat
  wr : Bool
  answer : Option (Nat × List Byte)
deriving DecidableEq, Repr

/-- The fabrics and the network (R407 to R427). -/
structure Fabric where
  self : Nat
  out : List OutMsg
  peers : Tab Peer
  /-- Send allowances, by 16 times 4096·function + peer device, and the peer's function (R422). -/
  allow : Tab Nat
  exports : Tab Export
  inReqs : List InReq
  reqNext : Nat
  links : Tab Bool
  lastBeat : Tab Nat
  quenched : Tab Nat
  dropped : Nat
  conns : Tab Conn
  netOps : List NetOp
  netNext : Nat
  reports : Tab Nat
  bar2 : Tab Nat
  rtt : Nat
  units : List UnitReq
  /-- The host's translation, by 2^48·PASID + page: one more than the host page, or 0 where the host answers with an error
  status; a page that is not listed is its own (R408). -/
  hostMap : Tab Nat
  /-- The streams of incoming and of outgoing requests (R332, R414). -/
  inSeq : List StreamSeq
  outSeq : List StreamSeq
  /-- Host accesses, placements and reports under way, oldest first (R411, R418, R426). -/
  bars : List BarReq
  placing : List Placing
  mcAcks : List McAck
deriving DecidableEq, Repr

/-- An HBM channel's controller (R436, R439): replays made for one command and when the last began, whether the channel
waits to be retrained or is quiesced, the refreshes a back-off still owes, when its alert came, and the mitigation refreshes
it still owes. -/
structure Chan where
  replays : Nat
  replayAt : Nat
  stopped : Bool
  quiesced : Bool
  owed : Nat
  backoff : Option Nat
  mitig : Nat
deriving DecidableEq, Repr

/-- A stack's scrubber (R437). -/
structure Scrub where
  covered : Nat
  started : Nat
  forced : Bool
  corrected : Nat
deriving DecidableEq, Repr

/-- A firmware component (R445, R447). -/
structure Firm where
  running : Bool
  digest : BitVec 384
  failures : Nat
  recovery : Bool
deriving DecidableEq, Repr

/-- A power island (R449, R450). -/
structure Island where
  req : Nat
  grant : Nat
  cap : Nat
  temp : Nat
  power : Nat
  hot : Bool
deriving DecidableEq, Repr

/-- A mailbox message (R444). -/
inductive MailMsg where
  | repair (stack chan row spare left : Nat)
  | retrain (stack chan : Nat) (ok : Bool)
  | scrubstat (stack covered corrected : Nat) (forced : Bool)
  | telem (stack temp rate power : Nat)
  | reset (stack chan : Nat)
deriving DecidableEq, Repr

/-- Reliability, firmware and power (R436 to R450). -/
structure Mgmt where
  chans : Tab Chan
  scrubs : Tab Scrub
  passHours : Nat
  log : List ErrEnt
  logDrop : Nat
  counters : Tab Nat
  firm : Tab Firm
  measured : List (BitVec 384)
  mail : Tab (List MailMsg)
  /-- By mailbox, the dtime since which its oldest message waits (R446). -/
  mailAt : Tab Nat
  islands : Tab Island
  dumpAt : Nat
  spares : List (Nat × Nat × Nat × Nat)
  /-- What a fatal error reports through physical function 0 (R446). -/
  pf0 : Option Nat
deriving DecidableEq, Repr

/-- An issue granted by a partition (R276): the group, the key and the threads. -/
structure Grant where
  g : GRef
  prio : Nat
  pc : Nat
  set : List Nat
deriving DecidableEq, Repr

/-- What comes next from outside (assumption log 3): a step of the device or its surroundings, or time that passes. -/
inductive Sched where
  | ev (i : Instr)
  | wait (ns : Nat)
deriving DecidableEq, Repr

/-- The whole machine. -/
structure State where
  /-- dtime in ns (R3). -/
  now : Nat
  /-- A fatal error has stopped every core (R446). -/
  fatal : Bool
  /-- Issues granted and not yet executed (R276). -/
  grants : List Grant
  /-- The issue being executed. -/
  cur : Grant
  /-- Queues that have gone from empty to non-empty, as group and port, whose pending bits are still to be set (R363). -/
  srcs : List (GRef × Nat)
  /-- What comes next from outside; the model's own (assumption log 3). -/
  agenda : List Sched
  /-- Counter of free values used; the model's own. -/
  free : Nat
  /-- Where the default order of events stands; the model's own. -/
  turn : Nat
  /-- The next access's number. -/
  accNext : Nat
  /-- Device memory, as the home dies hold it (R17). -/
  hbm : Mem
  /-- Pool memory (R393). -/
  pool : Mem
  /-- Host memory (R408), and the newest writes of its bytes (R317, R320). -/
  host : Mem
  hmarks : Tab Mark
  dies : Tab Die
  cores : Tab Core
  teams : List Team
  /-- The outstanding-transaction tables' entries and the other accesses outstanding, oldest first (R206). -/
  accs : List Acc
  /-- Tile arrivals on their way (R288). -/
  arrivals : List Arrival
  cp : CmdProc
  parts : Tab Part
  leases : Tab Lease
  frames : Tab FrameE
  /-- Decay ticks that have fallen (R386). -/
  decays : Nat
  pageReqs : List PageReq
  weirs : Tab Weir
  weirIdle : Tab Nat
  fab : Fabric
  mg : Mgmt
deriving DecidableEq, Repr

/-- A core after reset: nothing resident, no clk counted (R49). -/
def Core.fresh : Core :=
  { l1 := [], tlb := [], code := [], recs := [], bricks := [], accs := [], seq := [], opNext := 0, pins := [], jobs := [], jobNext := 0,
    overflow := 0, rr := [], busy := [], lag := [], clk := 0, yieldP := [] }

/-- A die after reset: its vector is zero (R317). -/
def Die.fresh : Die := { v := .zero, l2 := [], marks := [], rmw := [], inbox := [] }

/-- A queue after reset (R343, R344). -/
def Queue.fresh : Queue :=
  { base := 0, pasid := 0, maxd := 0, logsz := 4, quant := 32, age := 1000, swap := false, pri := 0, st := .closed,
    head := 0, tail := 0, reject := 0, discard := 0, deficit := 0, aged := false, ring := [], kids := [], conts := [],
    readmit := [], head? := none, readySince := none, lastAdmit := 0 }

/-- An island after reset: REQ is 2,100 MHz (R450); the other fields 0. -/
def Island.fresh : Island := { req := 2100, grant := 0, cap := 0, temp := 0, power := 0, hot := false }

/-- A channel after reset: idle. -/
def Chan.fresh : Chan :=
  { replays := 0, replayAt := 0, stopped := false, quiesced := false, owed := 0, backoff := none, mitig := 0 }

/-- A scrubber after reset: a pass begins. -/
def Scrub.fresh : Scrub := { covered := 0, started := 0, forced := false, corrected := 0 }

/-- A firmware component after reset; its digest is the model's (assumption log 10). -/
def Firm.fresh : Firm := { running := true, digest := 0#384, failures := 0, recovery := false }

/-- A weir bucket after reset (R299): it does not limit. -/
def Weir.fresh : Weir := { dep := 65535, rate := 64, tokens := 65535, debt := 0 }

/-- No issue. -/
def Grant.none : Grant := ⟨⟨0, 0, 0⟩, 0, 0, []⟩

/-- The command processor after reset: nothing held; the first gridid is 1 (R349). -/
def CmdProc.fresh : CmdProc :=
  { ctxs := [], queues := [], handles := [], grids := [], gridNext := 1, apers := [], hold := [], lastQ := 0,
    reports := [], fenceDev := .zero, fenceSys := .zero, closedRep := [],
    spawns := [], qwrites := [], qstamp := .zero }

/-- The fabrics after reset: no export, no connection, no message; RTTMAX 20 µs (R423). -/
def Fabric.fresh : Fabric :=
  { self := 0, out := [], peers := [], allow := [], exports := [], inReqs := [], reqNext := 0, links := [], lastBeat := [],
    quenched := [], dropped := 0, conns := [], netOps := [], netNext := 0, reports := [], bar2 := [], rtt := 20000,
    units := [], hostMap := [], inSeq := [], outSeq := [], bars := [], placing := [], mcAcks := [] }

/-- Management after reset: empty logs, pass length 24 hours (R437). -/
def Mgmt.fresh : Mgmt :=
  { chans := [], scrubs := [], passHours := 24, log := [], logDrop := 0, counters := [], firm := [], measured := [],
    mail := [], mailAt := [], islands := [], dumpAt := 0, spares := [], pf0 := none }

/-- The machine right after reset: dtime 0 (R3), vectors zero (R317), queues and exports at their reset values (R343,
R415), nothing resident, memory with nothing listed. -/
def State.reset : State :=
  { now := 0, fatal := false, grants := [], cur := .none, srcs := [], agenda := [], free := 0, turn := 0, accNext := 0,
    hbm := [], pool := [], host := [], hmarks := [], dies := [], cores := [], teams := [], accs := [], arrivals := [],
    cp := .fresh, parts := [], leases := [], frames := [], decays := 0, pageReqs := [], weirs := [], weirIdle := [],
    fab := .fresh, mg := .fresh }

end Sys2Proof.Machine
end

