-- ==== Sys2Proof/Machine/Mem.lean ====
section
/-! DEFINITION. Memory: the dies and their vectors (R315 to R320), the copies of L1 and L2 (R14, R16, R298), translation
(R376 to R379), leases (R393, R395), where a page goes (R408), and the bytes that each party and each unit of the device reads
and writes (assumption log 17). -/

namespace Sys2Proof.Machine

namespace VClk

/-- The count of die d (R317). -/
def get (v : VClk) (d : Nat) : Nat :=
  match d with | 0 => v.d0 | 1 => v.d1 | 2 => v.d2 | _ => v.d3

/-- The vector with die d's count set. -/
def put (v : VClk) (d n : Nat) : VClk :=
  match d with
  | 0 => { v with d0 := n } | 1 => { v with d1 := n } | 2 => { v with d2 := n } | _ => { v with d3 := n }

/-- Die d's count raised by one (R317). -/
def bump (v : VClk) (d : Nat) : VClk := v.put d (v.get d + 1)

/-- The larger count in each place. -/
def join (a b : VClk) : VClk := ⟨max a.d0 b.d0, max a.d1 b.d1, max a.d2 b.d2, max a.d3 b.d3⟩

/-- Does `a` cover `b` (R319): is every count at least b's? -/
def covers (a b : VClk) : Bool :=
  decide (b.d0 ≤ a.d0) && decide (b.d1 ≤ a.d1) && decide (b.d2 ≤ a.d2) && decide (b.d3 ≤ a.d3)

/-- The sum of the counts: the first part of a write's key (R320). -/
def sum (v : VClk) : Nat := v.d0 + v.d1 + v.d2 + v.d3

end VClk

/-- The die that holds a core (R13). -/
def dieOfCore (c : Nat) : Nat := c / 48

/-- Bytes in a page and frame (R17). -/
def pageSize : Nat := 65536

/-- Frames of the device (R17). -/
def frameCount : Nat := 3145728

/-- The home die of a frame (R17): stacks 2d and 2d+1 attach to die d. -/
def homeOfFrame (f : Nat) : Nat := f / 393216 / 2

/-- Host memory by physical address stands above device memory's: host address a is here hostBase + a. -/
def hostBase : Nat := 2 ^ 60

/-- The home die of a physical address (R17, R376); that of a coherent host line is the die of its port (R410). -/
def homeOf (pa : Nat) : Nat :=
  if hostBase ≤ pa then (if bitN pa 12 then 2 else 0) else homeOfFrame (pa / pageSize)

/-- A core's state. -/
def State.core (s : State) (c : Nat) : Core := Tab.getD s.cores .fresh c

/-- Change a core. -/
def State.updCore (s : State) (c : Nat) (f : Core → Core) : State :=
  { s with cores := Tab.put s.cores .fresh c (f (s.core c)) }

/-- A die's state. -/
def State.die (s : State) (d : Nat) : Die := Tab.getD s.dies .fresh d

/-- Change a die. -/
def State.updDie (s : State) (d : Nat) (f : Die → Die) : State :=
  { s with dies := Tab.put s.dies .fresh d (f (s.die d)) }

/-! ### Copies (R298, R316 to R320) -/

/-- Is a key below another (R320)? -/
def keyLt (a b : Nat × Nat) : Bool := decide (a.1 < b.1) || (a.1 == b.1 && decide (a.2 < b.2))

/-- The mark of a write to device memory (R317, R320). -/
def Mark.of (st : VClk) (o : Nat) : Mark := ⟨st, (st.sum, o)⟩

/-- A byte as its home holds it (R17): the frame's, or host memory's. -/
def State.homeCopy (s : State) (pa : Nat) : Copy :=
  if hostBase ≤ pa then ⟨Mem.read s.host (pa - hostBase), Tab.getD s.hmarks .zero (pa - hostBase)⟩
  else ⟨Mem.read s.hbm pa, Tab.getD (s.die (homeOf pa)).marks .zero pa⟩

/-- Has a die a byte at hand: is it its home, or does its L2 hold the sector? Host memory has no other copy in an L2
(assumption log 7). -/
def State.dieCopy (s : State) (d pa : Nat) : Option Copy :=
  if hostBase ≤ pa ∨ homeOf pa = d then some (s.homeCopy pa)
  else (Tab.find? (s.die d).l2 (pa / 64)).bind (·[pa % 64]?)

/-- May a die fetch bytes of a home die's frames: has the home applied every write that the die has (R318, R331)? -/
def State.mayFill (s : State) (d h : Nat) : Bool := (s.die h).v.covers (s.die d).v

/-- A byte as an access of a die meets it (R316): at hand, or as its home holds it. None while the home lags behind. -/
def State.copyFor (s : State) (d pa : Nat) : Option Copy :=
  match s.dieCopy d pa with
  | some c => some c
  | none => if s.mayFill d (homeOf pa) then some (s.homeCopy pa) else none

/-- The byte at a physical address for a unit of a die that does not wait: at hand, or the home's. -/
def State.devByte (s : State) (d pa : Nat) : Byte := ((s.dieCopy d pa).getD (s.homeCopy pa)).b

/-- The n bytes from a physical address up, as a die reads them. -/
def State.devBytes (s : State) (d pa : Nat) : Nat → List Byte
  | 0 => []
  | n + 1 => s.devByte d pa :: State.devBytes s d (pa + 1) n

/-- The place in a die's L2 of a sector, by its number: slice and set (R298) as one number. -/
def l2Place (sec : Nat) : Nat := sec / 8 % (80 * 192)

/-- The slice of a physical address (R298). -/
def l2Slice (pa : Nat) : Nat := pa / 512 % 80

/-- Is a line pinned for an MLDG of a core of a die (R245, R301)? -/
def State.linePinned (s : State) (d line : Nat) : Bool :=
  s.cores.any fun c => dieOfCore c.1 == d && c.2.pins.any fun p => p.lines.any fun l => l.2 == line

/-- The lines that a die's L2 holds at a sector's place (R16, R298). -/
def Die.linesAt (d : Die) (sec : Nat) : List Nat :=
  insNats ((List.filter (fun x => l2Place x.1 == l2Place sec) d.l2).map (·.1 / 8)) []

/-- A sector takes its place in a die's L2. A place holds 16 lines (R16): when all are taken, a line that is not pinned
leaves, which one is a free value; when every one is pinned, the sector is not held. -/
def State.holdL2 (s : State) (d sec : Nat) (cs : List Copy) : State :=
  let lines := (s.die d).linesAt sec
  if lines.contains (sec / 8) || decide (lines.length < 16) then
    s.updDie d fun die => { die with l2 := Tab.set die.l2 sec cs }
  else
    let out := lines.filter fun l => !s.linePinned d l
    match out[(Config.freeWord s.free).toNat % out.length]? with
    | none => s
    | some l =>
      { s.updDie d fun die => { die with l2 := Tab.set (List.filter (fun x => x.1 / 8 != l) die.l2) sec cs } with
        free := s.free + 1 }

/-- The sectors that some bytes lie in. -/
def sectorsOf (pa n : Nat) : List Nat := span (pa / 64) (ceilDiv (pa % 64 + n) 64)

/-- Count an access at a frame of the cache part (R386). -/
def State.countFrame (s : State) (f : Nat) : State :=
  { s with frames := Tab.adjust s.frames f fun e => if e.loc then e else { e with cnt := min 255 (e.cnt + 1) } }

/-- A miss fills a sector of a die's L2 (R298), when it may; the frame that serves it counts it (R386). -/
def State.fillSector (s : State) (d sec : Nat) : State :=
  if (s.dieCopy d (64 * sec)).isSome || !s.mayFill d (homeOf (64 * sec)) then s
  else (s.holdL2 d sec ((span (64 * sec) 64).map s.homeCopy)).countFrame (sec / 1024)

/-- The sectors of some bytes are filled. -/
def State.fillSectors (s : State) (d pa n : Nat) : State := (sectorsOf pa n).foldl (fun s k => s.fillSector d k) s

/-- Bytes replaced in a table of sectors, where they are held and the write there does not come later (R318, R320). -/
def mergeCopies (m : Tab (List Copy)) : Nat → List Copy → Tab (List Copy)
  | _, [] => m
  | pa, x :: t =>
    mergeCopies (Tab.adjust m (pa / 64) fun cs =>
      match cs[pa % 64]? with
      | some c => if keyLt x.mark.key c.mark.key then cs else setNth cs (pa % 64) x
      | none => cs) (pa + 1) t

/-- Bytes replaced in a frame at its home die (R318, R320): one held under a larger key stays. -/
def State.writeHome (s : State) (h : Nat) (mark : Mark) : Nat → List Byte → State
  | _, [] => s
  | pa, b :: t =>
    let die := s.die h
    let s := if keyLt mark.key (Tab.getD die.marks .zero pa).key then s
      else { s with
        hbm := Mem.write s.hbm pa b
        dies := Tab.put s.dies .fresh h { die with marks := Tab.put die.marks .zero pa mark } }
    State.writeHome s h mark (pa + 1) t

/-- One write applied at a die (R318): into the frame when the die is its home, into the L2 where it holds the sector. A
write to host memory moves the die's vector alone. -/
def State.applyBytes (s : State) (d : Nat) (mark : Mark) (pa : Nat) (bs : List Byte) : State :=
  if hostBase ≤ pa then s
  else if homeOf pa = d then s.writeHome d mark pa bs
  else s.updDie d fun die => { die with l2 := mergeCopies die.l2 pa (bs.map (Copy.mk · mark)) }

/-- Mark the sectors of a frame that a write touches dirty, when the frame caches a pool page (R382). A whole 64-byte
store also ends a lost mark (R438). -/
def State.dirtyFrame (s : State) (pa n : Nat) : State :=
  let f := pa / pageSize
  { s with
    frames := Tab.adjust s.frames f fun e =>
      let sec := pa % pageSize / 64
      { e with
        dirty := if e.loc then e.dirty else insNats (span sec (ceilDiv (pa % 64 + n) 64)) e.dirty
        lost := if pa % 64 = 0 ∧ 64 ≤ n then delNats (span sec (n / 64)) e.lost else e.lost } }

/-- The dies other than one. -/
def otherDies (o : Nat) : List Nat := [0, 1, 2, 3].filter (· ≠ o)

/-- The vector advances at a write of origin o (R317), and the stamped write goes to the three other dies. -/
def State.sendStamped (s : State) (o pa : Nat) (bs : List Byte) : State × VClk :=
  let v := (s.die o).v.bump o
  let s := s.updDie o fun d => { d with v := v }
  let m : Stamped := ⟨o, v, pa, bs⟩
  (otherDies o |>.foldl (fun s d => s.updDie d fun die => { die with inbox := die.inbox ++ [m] }) s, v)

/-- One write to device memory of origin o (R317): the origin's L2 fills the sectors it may, the vector advances, and the
origin's copy takes the bytes. Answers the mark. -/
def State.devWrite (s : State) (o pa : Nat) (bs : List Byte) : State × Mark :=
  let (s, v) := (s.fillSectors o pa bs.length).sendStamped o pa bs
  let m := Mark.of v o
  ((s.applyBytes o m pa bs).dirtyFrame pa bs.length, m)

/-- The marks of host bytes after a write (R320): its number at each byte. -/
def hostMarks (m : Tab Mark) (v : VClk) : Nat → Nat → Tab Mark
  | _, 0 => m
  | a, n + 1 => hostMarks (Tab.set m a ⟨v, ((Tab.getD m .zero a).key.1 + 1, 0)⟩) v (a + 1) n

/-- One write to host memory of origin o (R317, R410): the host takes it at once, and its stamp goes to every die. -/
def State.hostWrite (s : State) (o a : Nat) (bs : List Byte) : State × VClk :=
  let (s, v) := s.sendStamped o (hostBase + a) []
  ({ s with host := Mem.writeList s.host a bs, hmarks := hostMarks s.hmarks v a bs.length }, v)

/-- One write at an address, of an origin: the machine, the stamp, and the bytes as its core may hold them. -/
def State.writeAt (s : State) (o pa : Nat) (bs : List Byte) : State × VClk × List Copy :=
  if hostBase ≤ pa then
    let r := s.hostWrite o (pa - hostBase) bs
    (r.1, r.2, (span pa bs.length).map r.1.homeCopy)
  else
    let r := s.devWrite o pa bs
    (r.1, r.2.st, bs.map (Copy.mk · r.2))

/-- May die e apply a stamped write (R318)? -/
def canApply (v : VClk) (m : Stamped) : Bool :=
  m.s.get m.origin == v.get m.origin + 1
  && (otherDies m.origin).all (fun k => decide (m.s.get k ≤ v.get k))

/-- The index of the oldest stamped write of an origin in an inbox. -/
def firstOf (o : Nat) : List Stamped → Nat → Option (Nat × Stamped)
  | [], _ => none
  | m :: t, n => if m.origin = o then some (n, m) else firstOf o t (n + 1)

/-- Die e applies the next stamped write of origin o, if it may (R318). -/
def State.applyStamped (s : State) (e o : Nat) : State :=
  match firstOf o (s.die e).inbox 0 with
  | none => s
  | some (n, m) =>
    if canApply (s.die e).v m then
      let s := s.updDie e fun d => { d with v := d.v.put o (m.s.get o), inbox := dropNth d.inbox n }
      s.applyBytes e (Mark.of m.s o) m.addr m.data
    else s

/-- May a write of key k to some bytes be made: does it fall before no read-modify-write of them (R321)? -/
def State.afterRmw (s : State) (k : Nat × Nat) (pa n : Nat) : Bool :=
  hostBase ≤ pa || (span pa n).all fun x => !keyLt k (Tab.getD (s.die (homeOf pa)).rmw (0, 0) x)

/-- Is no write of a key below k on its way to the home die of some bytes (R321)? -/
def State.noneBetween (s : State) (k : Nat × Nat) (pa n : Nat) : Bool :=
  (s.die (homeOf pa)).inbox.all fun m =>
    !(decide (m.addr < pa + n) && decide (pa < m.addr + m.data.length) && keyLt (Mark.of m.s m.origin).key k)

/-! ### Translation -/

/-- A context's descriptor. -/
def State.ctx (s : State) (pasid : Nat) : Option Ctx := Tab.find? s.cp.ctxs pasid

/-- A tenant partition. -/
def State.part (s : State) (p : Nat) : Option Part := Tab.find? s.parts p

/-- Is a frame in the local part of a partition's quota (R385)? -/
def State.isLocal (s : State) (p f : Nat) : Bool :=
  match s.part p with
  | some q => decide (q.frame0 ≤ f) && decide (f < q.frame0 + q.locals) && decide (f < frameCount)
  | none => false

/-- A fault found by a check: its code, its KIND where that is not the access's own, and REPLAY (R379, R395). -/
structure Fail where
  code : Nat
  kind : Option Nat
  replay : Bool
  lease : Nat
deriving DecidableEq, Repr

/-- The index bits of VA at a level of the walk, as lowest bit and number of bits (R376). -/
def levelBits (lv : Nat) : Nat × Nat :=
  match lv with | 0 => (43, 14) | 1 => (30, 13) | 2 => (21, 9) | _ => (16, 5)

/-- Pages, as a power of two, that a leaf maps at a level (R376, R378). -/
def leafPages (lv : Nat) : Nat := match lv with | 1 => 14 | 2 => 5 | _ => 0

/-- The walk from a table at a level (R376 to R379); the fuel is the levels left. -/
def State.walkAt (s : State) (p va : Nat) : Nat → Nat → Nat → Except Fail Leaf
  | 0, _, _ => .error ⟨0x07, none, true, 0⟩
  | fuel + 1, lv, table =>
    let pa := table + 8 * (va / 2 ^ (levelBits lv).1 % 2 ^ (levelBits lv).2)
    if ¬ s.isLocal p (pa / pageSize) then .error ⟨0x07, some 0x0A, false, 0⟩
    else
      let e := ofLE (s.devBytes (homeOf pa) pa 8)
      if ¬ bitN e 0 then .error ⟨0x07, none, true, 0⟩
      else if bitN e 1 then
        let n := leafPages lv
        if lv = 0 ∨ fld e 15 5 ≠ 0 ∨ fld e 39 16 % 2 ^ n ≠ 0 then .error ⟨0x07, none, true, 0⟩
        else .ok ⟨fld e 63 40, fld e 39 16 + va / pageSize % 2 ^ n, bitN e 2, bitN e 3, bitN e 4, 0⟩
      else if lv = 3 ∨ fld e 7 2 ≠ 0 ∨ fld e 63 52 ≠ 0 then .error ⟨0x07, none, true, 0⟩
      else State.walkAt s p va fuel (lv + 1) (fld e 51 8 * 256)

/-- The four-level walk of a context (R376). -/
def State.walk (s : State) (pasid va : Nat) : Except Fail Leaf :=
  match s.ctx pasid with
  | none => .error ⟨0x07, none, true, 0⟩
  | some c => (s.walkAt c.part va 4 0 c.ptroot).map fun l => { l with pasid := pasid }

/-- The key of a page in a core's cached translations (R380). -/
def tlbKey (pasid va : Nat) : Nat := pasid * 2 ^ 48 + va / pageSize

/-- A translation as a core gets it: the cached one, or the walk's (R380). -/
def State.leafFor (s : State) (core pasid va : Nat) : Except Fail Leaf :=
  match Tab.find? (s.core core).tlb (tlbKey pasid va) with
  | some l => .ok l
  | none => s.walk pasid va

/-- What an access needs of a leaf (R379). -/
structure Need where
  r : Bool
  w : Bool
  x : Bool
deriving DecidableEq, Repr

/-- The checks of a leaf for an access (R379): rights, then a device-local frame's place in the quota. -/
def State.leafCheck (s : State) (p : Nat) (l : Leaf) (n : Need) : Except Fail Leaf :=
  if (n.r && !l.r) || (n.w && !l.w) || (n.x && !l.x) then .error ⟨0x08, none, false, l.lease⟩
  else if l.lease = 0 ∧ ¬ s.isLocal p l.pg then .error ⟨0x08, none, false, 0⟩
  else .ok l

/-- The partition of a context. -/
def State.partOf (s : State) (pasid : Nat) : Nat :=
  match s.ctx pasid with | some c => c.part | none => 0

/-- Translation and protection of an access (R379), lease apart. -/
def State.translate (s : State) (core pasid va : Nat) (n : Need) : Except Fail Leaf :=
  match s.leafFor core pasid va with
  | .error f => .error f
  | .ok l => s.leafCheck (s.partOf pasid) l n

/-- Keep a valid translation in the core's cache (R380). -/
def State.cacheLeaf (s : State) (core pasid va : Nat) (l : Leaf) : State :=
  s.updCore core fun c => { c with tlb := Tab.set c.tlb (tlbKey pasid va) l }

/-- Has a lease expired at this dtime (R391)? -/
def State.leaseExpired (s : State) (l : Lease) : Bool := l.st == .expired || decide (l.expiry ≤ s.now)

/-- The lease checks, when an access is performed (R395). -/
def State.leaseCheck (s : State) (l : Leaf) (write : Bool) : Except Fail Unit :=
  if l.lease = 0 then .ok ()
  else
    match Tab.find? s.leases l.lease with
    | none => .error ⟨0x0A, none, true, l.lease⟩
    | some e =>
      match e.st with
      | .lost => .error ⟨0x0B, none, true, l.lease⟩
      | .revoking _ _ _ | .revoked => .error ⟨0x0A, none, true, l.lease⟩
      | _ =>
        if s.leaseExpired e then .error ⟨0x09, none, true, l.lease⟩
        else if e.pages < l.pg then .error ⟨0x08, none, false, l.lease⟩
        else if write && !e.rw then .error ⟨0x08, none, false, l.lease⟩
        else .ok ()

/-- The host page of a page of a context, as the host translates it, one more than its number; 0 where it refuses it (R408). -/
def State.hostPage (s : State) (pasid page : Nat) : Nat := Tab.getD s.fab.hostMap (page + 1) (pasid * 2 ^ 48 + page)

/-- The checks when an access is performed: the lease's (R395), and the host's answer, whose error status is a Protection fault
(R408). -/
def State.doneCheck (s : State) (l : Leaf) (write : Bool) : Except Fail Unit :=
  match s.leaseCheck l write with
  | .error f => .error f
  | .ok _ =>
    match (if l.lease = 0 then none else Tab.find? s.leases l.lease) with
    | some e =>
      if 0xF000 ≤ e.node && s.hostPage l.pasid (e.base + l.pg) == 0 then .error ⟨0x08, none, false, l.lease⟩ else .ok ()
    | none => .ok ()

/-- Where a translated address lies (R378, R393, R408, R409). -/
inductive Place where
  | dev (pa : Nat)
  | pool (page off : Nat)
  | hostC (a : Nat)
  | hostN (a : Nat)
  | remote (dev fa : Nat)
  | mcast (grp fa : Nat)
deriving DecidableEq, Repr

/-- The place of an address under its leaf. -/
def State.placeOf (s : State) (l : Leaf) (va : Nat) : Place :=
  let off := va % pageSize
  if l.lease = 0 then .dev (l.pg * pageSize + off)
  else
    match Tab.find? s.leases l.lease with
    | none => .pool l.pg off
    | some e =>
      let page := e.base + l.pg
      if e.node < 0x1000 then .pool page off
      else if e.node < 0x5000 then .remote (e.node - 0x4000) (page * pageSize + off)
      else if e.node < 0x6000 then .mcast (e.node - 0x5000) (page * pageSize + off)
      else
        let a := (s.hostPage l.pasid page - 1) * pageSize + off
        if e.node = 0xF000 then .hostC a else .hostN a

/-- The frame that caches a pool page of a partition and may serve accesses (R382). -/
def State.frameOf (s : State) (p page : Nat) : Option (Nat × FrameE) :=
  List.find? (fun e => !e.2.loc && e.2.part == p && e.2.page == page && e.2.st != FrameSt.free) s.frames

/-- Is a pool sector ready to be accessed (R383, R384): its frame valid, or filling with the sector arrived? -/
def State.sectorReady (s : State) (p page off : Nat) : Option Nat :=
  match s.frameOf p page with
  | some (f, e) =>
    match e.st with
    | .valid => some f
    | .filling => if e.arrived.contains (off / 64) then some f else none
    | _ => none
  | none => none

/-- Is a sector marked lost (R438)? -/
def State.lostAt (s : State) (pa : Nat) : Bool :=
  match Tab.find? s.frames (pa / pageSize) with
  | some e => e.lost.contains (pa % pageSize / 64)
  | none => false

/-- Is one of some sectors marked lost (R438)? A store of whole sectors does not meet the mark. -/
def State.lostIn (s : State) (pa n : Nat) (write : Bool) : Bool :=
  (sectorsOf pa n).any (fun k => s.lostAt (64 * k)) && !(write && pa % 64 == 0 && n % 64 == 0)

/-- The number of the channel of a physical address, among the 256 of the eight stacks (R17, R436). -/
def chanOfPa (pa : Nat) : Nat := 32 * (pa / pageSize / 393216) + Config.channelOf (pa / 64) % 32

/-- Does the channel of a physical address wait to be retrained, so that requests for it wait (R436, R444)? -/
def State.chanHeld (s : State) (pa : Nat) : Bool :=
  s.mg.chans.any fun c => (c.2.stopped || c.2.quiesced) && c.1 == chanOfPa pa

/-- The address at which the bytes of a place are accessed now: in device memory, in sectors of a frame that have arrived
(R383, R384), or in host memory. -/
def State.placeDev (s : State) (p : Nat) (pl : Place) (n : Nat) : Option Nat :=
  let open? := fun (pa : Nat) => if s.chanHeld pa then none else some pa
  match pl with
  | .dev pa => open? pa
  | .pool page off =>
    if (sectorsOf off n).all fun k => (s.sectorReady p page (64 * k)).isSome then
      (s.sectorReady p page off).bind fun f => open? (f * pageSize + off)
    else none
  | .hostC a | .hostN a => some (hostBase + a)
  | .remote _ _ | .mcast _ _ => none

/-- A page of a partition that an access waits for (R384): once for the page. -/
def State.needPage (s : State) (q : PageReq) : State :=
  if s.pageReqs.any (fun r => r.part == q.part && r.page == q.page && r.group == 0) then s
  else { s with pageReqs := s.pageReqs ++ [q] }

/-! ### L1 (R297) -/

/-- Drop every sector of a core's L1. -/
def State.dropL1 (s : State) (core : Nat) : State := s.updCore core fun c => { c with l1 := [] }

/-- The sectors of an L1: 128 KiB (R14). -/
def l1Sectors : Nat := 2048

/-- A sector takes its place in a core's L1; in a full one another sector leaves, which one is a free value. -/
def State.holdL1 (s : State) (core sec : Nat) (cs : List Copy) : State :=
  let l1 := (s.core core).l1
  if (Tab.find? l1 sec).isSome || decide (l1.length < l1Sectors) then s.updCore core fun c => { c with l1 := Tab.set c.l1 sec cs }
  else
    match l1[(Config.freeWord s.free).toNat % l1.length]? with
    | none => s
    | some x => { s.updCore core fun c => { c with l1 := Tab.set (Tab.del c.l1 x.1) sec cs } with free := s.free + 1 }

/-- The copies in a core's L1 are brought up to some bytes that it has written or read (R284, R297, R315). -/
def State.refreshL1 (s : State) (core pa : Nat) (cs : List Copy) : State :=
  s.updCore core fun c => { c with l1 := mergeCopies c.l1 pa cs }

/-- The copy a core's L1 holds of a byte. -/
def State.l1Copy (s : State) (core pa : Nat) : Option Copy := (Tab.find? (s.core core).l1 (pa / 64)).bind (·[pa % 64]?)

/-- The copy of a byte that a weak load of a core may return (R316): the L1's, unless the load passes the L1 by, or the
die's; `ok` says which copies its thread may still meet (R331). None while it has to wait. -/
def State.loadCopy (s : State) (core : Nat) (fresh : Bool) (ok : Copy → Bool) (pa : Nat) : Option Copy :=
  match (if fresh then none else (s.l1Copy core pa).filter ok) with
  | some c => some c
  | none => (s.copyFor (dieOfCore core) pa).filter ok

/-- The sectors of some bytes are filled into the L2 of a core's die and into its L1 (R297). -/
def State.fillL1 (s : State) (core pa n : Nat) : State :=
  let d := dieOfCore core
  (sectorsOf pa n).foldl (fun s k =>
    let s := s.fillSector d k
    match (span (64 * k) 64).mapM (s.dieCopy d) with
    | some cs => s.holdL1 core k cs
    | none => s) s

/-! ### Accesses of the device's own units (assumption log 17)

The command processor, handler entry, instruction fetch, the network and the engines' descriptors read and write a
context's memory with every check of R379, R395 and R438. An access whose page is absent, or whose bytes are not there yet,
waits; one of another device's memory is a request over Shecel. -/

/-- A unit as it accesses memory: the numbers that name it and what it acts for, the core whose cached translations it
uses, its context, and whether its accesses are strong, at system scope. -/
structure Agent where
  own : List Nat
  core : Nat
  pasid : Nat
  strong : Bool
deriving DecidableEq, Repr

/-- What a unit's access answers: a fault, a wait, or the bytes. -/
inductive UnitRes where
  | fail (f : Fail)
  | wait
  | done (bs : List Byte)
deriving DecidableEq, Repr

/-- Is a peer lost (R420)? -/
def State.peerLost (s : State) (d : Nat) : Bool :=
  match Tab.find? s.fab.peers d with | some p => p.lost | none => false

/-- A unit's request to another device: its answer, or a wait; a lost peer fails it (R420). -/
def State.unitAnswer (s : State) (g : Agent) (va : Nat) (wr : Bool) (dev lease : Nat) : UnitRes :=
  match List.find? (fun (u : UnitReq) => u.own == g.own && u.va == va && u.wr == wr) s.fab.units with
  | some u =>
    (match u.answer with
     | some (0, bs) => .done bs
     | some (r, _) => .fail ⟨r, none, false, lease⟩
     | none => .wait)
  | none => if s.peerLost dev then .fail ⟨0x15, none, false, lease⟩ else .wait

/-- The requests of a unit are no longer needed; one that has not been sent goes. -/
def State.unitsDone (s : State) (g : Agent) : State :=
  let mine := s.fab.units.filter fun u => u.own == g.own
  { s with
    accs := s.accs.filter fun a => !(a.st == .pending && mine.any fun u => u.acc == a.id)
    fab := { s.fab with units := s.fab.units.filter fun u => u.own != g.own } }

/-- The bytes that a unit reads at an address: its die's, or for a strong load the home's (R213). -/
def State.unitBytes (s : State) (g : Agent) (pa n : Nat) : Option (List Byte) :=
  (span pa n).mapM fun x => (if g.strong then some (s.homeCopy x) else s.copyFor (dieOfCore g.core) x).map Copy.b

/-- The leaf of a unit's access, with the checks of R379 and R395. -/
def State.unitLeaf (s : State) (g : Agent) (va : Nat) (need : Need) : Except Fail Leaf :=
  match s.translate g.core g.pasid va need with
  | .error f => .error f
  | .ok l => (s.doneCheck l need.w).map fun _ => l

/-- A unit reads n bytes within one page. -/
def State.unitGet (s : State) (g : Agent) (va n : Nat) (need : Need) : UnitRes :=
  match s.unitLeaf g va need with
  | .error f => .fail f
  | .ok l =>
    match s.placeOf l va with
    | .mcast _ _ => .fail ⟨0x08, none, false, l.lease⟩
    | .remote dev _ => s.unitAnswer g va false dev l.lease
    | pl =>
      match s.placeDev (s.partOf g.pasid) pl n with
      | none => .wait
      | some pa =>
        if s.lostIn pa n false then .fail ⟨0x0B, none, false, l.lease⟩
        else match s.unitBytes g pa n with | some bs => .done bs | none => .wait

/-- A unit reads n bytes, in parts that lie in 256 bytes each (R414); the fuel bounds the parts. -/
def State.unitGetParts (s : State) (g : Agent) (need : Need) : Nat → Nat → Nat → UnitRes
  | 0, _, _ => .done []
  | k + 1, va, n =>
    let m := min n (256 - va % 256)
    if n = 0 then .done []
    else
      match s.unitGet g va m need with
      | .done bs =>
        (match State.unitGetParts s g need k (va + m) (n - m) with
         | .done bs' => .done (bs ++ bs')
         | r => r)
      | r => r

/-- A unit reads n bytes that may cross pages. -/
def State.unitGetLong (s : State) (g : Agent) (va n : Nat) (need : Need) : UnitRes := s.unitGetParts g need (n / 256 + 2) va n

/-- What a unit's write answers: a fault, a wait, or the machine and the write's stamp. -/
inductive PutRes where
  | fail (f : Fail)
  | wait
  | done (s : State) (v : VClk)

/-- A unit writes bytes within one page, as one write: with its core's die as origin, which updates the copy in the core's L1
(R297), or for a strong store the home die. -/
def State.unitPut (s : State) (g : Agent) (va : Nat) (bs : List Byte) : PutRes :=
  match s.unitLeaf g va ⟨false, true, false⟩ with
  | .error f => .fail f
  | .ok l =>
    match s.placeOf l va with
    | .mcast _ _ => .fail ⟨0x08, none, false, l.lease⟩
    | .remote dev _ =>
      (match s.unitAnswer g va true dev l.lease with
       | .fail f => .fail f
       | .wait => .wait
       | .done _ => .done s .zero)
    | pl =>
      match s.placeDev (s.partOf g.pasid) pl bs.length with
      | none => .wait
      | some pa =>
        let o := if g.strong then homeOf pa else dieOfCore g.core
        let v := (s.die o).v.bump o
        if s.lostIn pa bs.length true then .fail ⟨0x0B, none, false, l.lease⟩
        else if s.afterRmw (v.sum, o) pa bs.length then
          let r := s.writeAt o pa bs
          .done (if g.strong then r.1 else r.1.refreshL1 g.core pa r.2.2) r.2.1
        else .wait

/-- A unit writes bytes, in parts that lie in 256 bytes each; the stamp joins the parts'. -/
def State.unitPutParts (g : Agent) : Nat → Nat → List Byte → VClk → State → PutRes
  | 0, _, _, v, s => .done s v
  | k + 1, va, bs, v, s =>
    let m := 256 - va % 256
    if bs.isEmpty then .done s v
    else
      match s.unitPut g va (bs.take m) with
      | .done s w => State.unitPutParts g k (va + m) (bs.drop m) (v.join w) s
      | r => r

/-- A unit writes bytes that may cross pages: all of them, or none. -/
def State.unitPutLong (s : State) (g : Agent) (va : Nat) (bs : List Byte) : PutRes :=
  if bs.length ≤ 256 - va % 256 then s.unitPut g va bs else State.unitPutParts g (bs.length / 256 + 2) va bs .zero s

end Sys2Proof.Machine
end

