-- ==== Sys2Proof/Machine/Ops.lean ====
section
/-! DEFINITION. The named operations over teams, groups, threads and registers; the frontier (R273, R278); the queues and
interrupt sources; the error logs; and TAKING A FAULT: routing (R356), handler entry (R359 to R361), the kill of a grid
(R362) and the return from a handler. -/

namespace Sys2Proof.Machine

/-! ### Teams, groups and threads -/

/-- A team by its grid and number. -/
def State.team? (s : State) (g t : Nat) : Option Team := List.find? (fun x => x.grid == g && x.team == t) s.teams

/-- Change the first element that has a property. -/
def changeFirst {α : Type} (p : α → Bool) (f : α → α) : List α → List α
  | [] => []
  | x :: t => if p x then f x :: t else x :: changeFirst p f t

/-- Change a team. -/
def State.updTeam (s : State) (g t : Nat) (f : Team → Team) : State :=
  { s with teams := changeFirst (fun x => x.grid == g && x.team == t) f s.teams }

/-- Change a grid. -/
def State.updGrid (s : State) (g : Nat) (f : Grid → Grid) : State :=
  { s with cp := { s.cp with grids := Tab.adjust s.cp.grids g f } }

/-- A group with its team. -/
def State.group? (s : State) (r : GRef) : Option (Team × Group) :=
  match s.team? r.grid r.team with
  | some t => (Tab.find? t.groups r.gid).map fun g => (t, g)
  | none => none

/-- Change a group. -/
def State.updGroup (s : State) (r : GRef) (f : Group → Group) : State :=
  s.updTeam r.grid r.team fun t => { t with groups := Tab.adjust t.groups r.gid f }

/-- A thread with its team and group. -/
def State.thread? (s : State) (t : TRef) : Option (Team × Group × Thread) :=
  match s.group? t.g with
  | some (tm, g) => (Tab.find? g.threads t.tid).map fun th => (tm, g, th)
  | none => none

/-- Change a thread. -/
def State.updThread (s : State) (t : TRef) (f : Thread → Thread) : State :=
  s.updGroup t.g fun g => { g with threads := Tab.adjust g.threads t.tid f }

/-- The reference of a group of a team. -/
def Team.ref (t : Team) (gid : Nat) : GRef := ⟨t.grid, t.team, gid⟩

/-- Is a team on its cores (R270)? -/
def Team.resident (t : Team) : Bool := match t.st with | .running | .stopped _ => true | _ => false

/-- May a team's threads issue (R366, R367)? -/
def Team.issues (t : Team) : Bool := match t.st with | .running => true | _ => false

/-- The member core of a team by its number (R266). -/
def Team.coreAt (t : Team) (c : Nat) : Nat := t.cores.getD c 0

/-- Which member core a core is, for a team (R203, R266). -/
def Team.memberOf (t : Team) (core : Nat) : Nat := t.cores.idxOf core

/-- Bytes of the team's scratchpad that each member core holds (R267, R285). -/
def Team.partBytes (t : Team) : Nat := ceilDiv t.kern.scratch (64 * t.cores.length) * 64

/-- Is a thread live (R271)? -/
def Thread.live (t : Thread) : Bool := t.st != .exited

/-- A thread as a team's admission leaves it, its place in the code and rs apart (R49, R60, R271, R360). -/
def Thread.fresh : Thread :=
  { w := [], we := [], idx := [], p := 0#7, link := 0#32, fp := 0#32, rs := 0#32, af := 0#8, ri := 0, pc := 0, hdr := 0,
    cend := 0, code := [], inside := false, intd := false, prio := 0, from? := none, st := .ready,
    frame := ⟨0, 0, 0, [], false, 0, false, 0, 0#32, 0#32, .none, false⟩,
    pend := 0#5, defd := [], wrote := .zero, seen := .zero, popped := none, arrived := [], fenceV := none, pinned := 0,
    floor := [], stored := [] }

/-! ### Registers (R42 to R56) -/

/-- A lane register's value. -/
def Thread.reg (t : Thread) (n : Nat) : Word := Tab.getD t.w 0#32 n

/-- Write a lane register: it holds the value and is full (R54). -/
def Thread.setReg (t : Thread) (n : Nat) (v : Word) : Thread :=
  { t with w := Tab.put t.w 0#32 n v, we := delNat n t.we }

/-- Write several lane registers, in order. -/
def Thread.setRegs (t : Thread) (l : List (Nat × Word)) : Thread := l.foldl (fun t p => t.setReg p.1 p.2) t

/-- Mark lane registers empty (R53). -/
def Thread.markEmpty (t : Thread) (rs : List Nat) : Thread := { t with we := insNats rs t.we }

/-- Make lane registers full with the values they hold (R54). -/
def Thread.refill (t : Thread) (rs : List Nat) : Thread := { t with we := delNats rs t.we }

/-- A predicate; p7 reads as true (R45). -/
def Thread.pred (t : Thread) (n : Nat) : Bool := if n = 7 then true else t.p.getLsbD n

/-- Write a predicate; a write to p7 is ignored (R45). -/
def Thread.setPred (t : Thread) (n : Nat) (b : Bool) : Thread :=
  if n = 7 then t
  else { t with p := BitVec.ofNat 7 (putFld t.p.toNat n n (ofB b)) }

/-- An index register (R44). -/
def Thread.ireg (t : Thread) (n : Nat) : BitVec 16 := Tab.getD t.idx 0#16 n

/-- Write an index register (R44). -/
def Thread.setIreg (t : Thread) (n : Nat) (v : BitVec 16) : Thread := { t with idx := Tab.put t.idx 0#16 n v }

/-- A uniform register's value (R47). -/
def Group.reg (g : Group) (n : Nat) : Word := Tab.getD g.g 0#32 n

/-- Write a uniform register: it is full (R54). -/
def Group.setReg (g : Group) (n : Nat) (v : Word) : Group := { g with g := Tab.put g.g 0#32 n v, ge := delNat n g.ge }

/-- Write several uniform registers, in order. -/
def Group.setRegs (g : Group) (l : List (Nat × Word)) : Group := l.foldl (fun g p => g.setReg p.1 p.2) g

/-- Mark uniform registers empty (R53). -/
def Group.markEmpty (g : Group) (rs : List Nat) : Group := { g with ge := insNats rs g.ge }

/-- The number held in registers, the lowest first (R43). -/
def joinWords : List Word → Nat
  | [] => 0
  | v :: t => v.toNat + 2 ^ 32 * joinWords t

/-- A number cut into n registers (R43). -/
def cutWords : Nat → Nat → List Word
  | 0, _ => []
  | n + 1, x => BitVec.ofNat 32 x :: cutWords n (x / 2 ^ 32)

/-- Registers n, n+1, … with the words of a number. -/
def wordsAt (n cnt x : Nat) : List (Nat × Word) := (span n cnt).zip (cutWords cnt x)

/-- The 64-bit value of a uniform pair. -/
def Group.pair (g : Group) (n : Nat) : Nat := joinWords [g.reg n, g.reg (n + 1)]

/-- The stochastic generator's stored value: 0 stores 0x6D2B_79F5 (R52). -/
def fixRs (v : Word) : Word := if v = 0#32 then 0x6D2B79F5#32 else v

/-- A thread's generator at launch (R52). -/
def rsSeed (tmthread teamid : Nat) : Word :=
  fixRs (BitVec.ofNat 32 ((tmthread + 1) * 0x9E3779B9) ^^^ BitVec.ofNat 32 teamid)

/-! ### Waking -/

/-- A parked thread whose wait is of a kind becomes Ready and meets its condition again (R271). -/
def Thread.wake (f : Wait → Bool) (t : Thread) : Thread :=
  match t.st with
  | .parked w => if f w then { t with st := .ready } else t
  | _ => t

/-- Wake threads of a group. -/
def Group.wake (f : Wait → Bool) (g : Group) : Group := { g with threads := Tab.mapV g.threads (Thread.wake f) }

/-- Wake threads of a whole team. -/
def Team.wake (f : Wait → Bool) (t : Team) : Team := { t with groups := Tab.mapV t.groups (Group.wake f) }

/-- A wait that a register's filling, a retired access or a job's end may clear. -/
def Wait.onRegs : Wait → Bool
  | .reg | .exit | .fence | .pins _ => true
  | _ => false

/-- A wait on pins. -/
def Wait.onPins : Wait → Bool
  | .pins _ => true
  | _ => false

/-- A wait on a transaction barrier. -/
def Wait.onBar : Wait → Bool
  | .tbar => true
  | _ => false

/-- A wait on a queue. -/
def Wait.onQueue : Wait → Bool
  | .push | .launch => true
  | _ => false

/-- A wait on a tile or transaction barrier. -/
def Wait.onTile : Wait → Bool
  | .tile | .tbar => true
  | _ => false

/-! ### The frontier (R273, R278) -/

/-- The distinct keys of a list of threads. -/
def keysOf : List (Nat × Thread) → List (Nat × Nat)
  | [] => []
  | (_, t) :: r =>
    let k := keysOf r
    if t.live && !k.contains (t.prio, t.pc) then (t.prio, t.pc) :: k else k

/-- The entry of a frontier that holds a thread. -/
def entryOf (front : List FEntry) (tid : Nat) : Option FEntry := front.find? (·.mask.contains tid)

/-- A spin detector that watches nothing (R281). -/
def Spin.none : Spin := ⟨0, 0, 0, false⟩

/-- The entry of a key after threads have moved (R278). -/
def entryFor (front : List FEntry) (threads : Tab Thread) (k : Nat × Nat) : FEntry :=
  let ms := (List.filter (fun p => p.2.live && decide ((p.2.prio, p.2.pc) = k)) threads).map (·.1)
  let srcs := ms.filterMap (entryOf front)
  match front.find? (fun e => decide ((e.prio, e.pc) = k)) with
  | some e =>
    { e with mask := ms, idle := srcs.foldl (fun a x => max a x.idle) e.idle }
  | none =>
    let one := match srcs with
      | e :: r => if r.all (fun x => decide ((x.prio, x.pc) = (e.prio, e.pc))) then some e else none
      | [] => none
    { prio := k.1, pc := k.2, mask := ms, idle := 0, aged := one.bind (·.aged)
      demo := match one with | some e => if e.mask.all ms.contains then e.demo else 0 | none => 0
      spin := match one with | some e => e.spin | none => .none }

/-- Every live thread joins the entry of its key; an entry whose mask is empty is removed (R273, R278). -/
def Group.settle (g : Group) : Group :=
  { g with front := (keysOf g.threads).map (entryFor g.front g.threads) }

/-- Settle a group's frontier. -/
def State.settle (s : State) (r : GRef) : State := s.updGroup r Group.settle

/-! ### Headers -/

/-- A core as it fetches the code of a context. -/
def fetcher (core pasid : Nat) : Agent := ⟨[0, core, pasid], core, pasid, false⟩

/-- A word of code (R95): it lies in the user-virtual window and is read with X; none while the read waits. -/
def State.codeWord (s : State) (core pasid va : Nat) : Except Fail (Option Nat) :=
  if 2 ^ 57 ≤ va then .error ⟨0x06, none, false, 0⟩
  else
    match s.unitGet (fetcher core pasid) va 4 ⟨false, false, true⟩ with
    | .done bs => .ok (some (ofLE bs))
    | .wait => .ok none
    | .fail f => .error f

/-- The block priority of the header at an address (R93); the thread keeps its own when the word cannot be read. -/
def State.headerPrio (s : State) (core pasid va old : Nat) : Nat :=
  match s.codeWord core pasid va with
  | .ok (some w) => fld w 20 13
  | _ => old

/-- A thread moved to a clause header (R93, R273). -/
def Thread.toHeader (t : Thread) (pc prio : Nat) (from? : Option Nat) : Thread :=
  { t with pc := pc, hdr := pc, inside := false, intd := false, prio := prio, from? := from?, st := .ready }

/-- Move a thread to a header of its team's code. -/
def State.goHeader (s : State) (t : TRef) (pc : Nat) (from? : Option Nat) : State :=
  match s.thread? t with
  | some (tm, g, th) =>
    s.updThread t fun th' => th'.toHeader pc (s.headerPrio g.core tm.pasid pc th.prio) from?
  | none => s

/-! ### Error logs (R441 to R443) -/

/-- Do two entries coalesce (R442)? -/
def ErrEnt.same (a b : ErrEnt) : Bool :=
  a.cls == b.cls && a.unit == b.unit && a.die == b.die && a.addr == b.addr && a.pasid == b.pasid

/-- Append an entry to a log of 1,024, coalescing it into the newest (R442). Answers the log and whether it was dropped. -/
def logAppend (l : List ErrEnt) (e : ErrEnt) : List ErrEnt × Bool :=
  match l.getLast? with
  | some x =>
    if x.same e then (l.dropLast ++ [{ x with count := min 0xFFFFFFFF (x.count + 1) }], false)
    else if l.length < 1024 then (l ++ [e], false) else (l, true)
  | none => ([e], false)

/-- Raise a unit's counter of a class (R443). -/
def State.countErr (s : State) (die unit cls : Nat) : State :=
  let k := (die * 256 + unit) * 16 + cls
  { s with mg := { s.mg with counters := Tab.put s.mg.counters 0 k (min 0xFFFFFFFF (Tab.getD s.mg.counters 0 k + 1)) } }

/-- Log an error: a context's to its partition's ring, any other to the device log (R442). -/
def State.logErr (s : State) (part : Option Nat) (cls die unit pasid detail addr : Nat) : State :=
  let e : ErrEnt := ⟨cls, die, unit, pasid, detail, 1, s.now, addr⟩
  let s := s.countErr die unit cls
  match part.bind fun p => (s.part p).map fun q => (p, q) with
  | some (p, q) =>
    let (l, dropped) := logAppend q.errs e
    { s with parts := Tab.set s.parts p { q with errs := l, errDrop := q.errDrop + ofB dropped } }
  | none =>
    let (l, dropped) := logAppend s.mg.log e
    { s with mg := { s.mg with log := l, logDrop := s.mg.logDrop + ofB dropped } }

/-- Does the command processor take launches: no fatal error has stopped the device (R446), and its firmware runs (R445)? -/
def State.cpUp (s : State) : Bool := !s.fatal && (Tab.getD s.mg.firm .fresh 2).running

/-! ### Interrupt sources and queues (R57, R58, R363) -/

/-- Set a pending bit in every live thread of a group (R363). -/
def Group.setPend (bit : Nat) (g : Group) : Group :=
  { g with
    threads := Tab.mapV g.threads fun t =>
      if t.live then { t with pend := t.pend ||| BitVec.ofNat 5 (2 ^ bit) } else t }

/-- A source event (R363): bits 0 to 2 and 4 belong to one group, bit 3 to every group of the team. -/
def State.sourceEvent (s : State) (r : GRef) (bit : Nat) : State :=
  if bit = 3 then s.updTeam r.grid r.team fun t => { t with groups := Tab.mapV t.groups (Group.setPend 3) }
  else s.updGroup r (Group.setPend bit)

/-- The entries of a group's own port or of a channel (R57). -/
def queueOf (t : Team) (g : Group) (port : Nat) : List Word :=
  match port with
  | 0 => g.q0 | 1 => g.q1 | 2 => g.q2
  | n => Tab.getD t.chans [] n

/-- The depth of a port (R57). -/
def portDepth (port : Nat) : Nat :=
  match port with | 0 => 16 | 1 => 4 | 2 => 32 | _ => 16

/-- Replace a port's entries. -/
def State.setQueue (s : State) (r : GRef) (port : Nat) (l : List Word) : State :=
  match port with
  | 0 => s.updGroup r fun g => { g with q0 := l }
  | 1 => s.updGroup r fun g => { g with q1 := l }
  | 2 => s.updGroup r fun g => { g with q2 := l }
  | n => s.updTeam r.grid r.team fun t => { t with chans := Tab.put t.chans [] n l }

/-- Append an entry to a port; a queue that was empty owes its source event (R363). -/
def State.pushPort (s : State) (r : GRef) (port : Nat) (v : Word) : State :=
  match s.group? r with
  | none => s
  | some (t, g) =>
    let l := queueOf t g port
    let s := s.setQueue r port (l ++ [v])
    if l.isEmpty then { s with srcs := s.srcs ++ [(r, if port < 3 then port else 3)] } else s

/-- A push made by the device to q0, q1 or q2; held while the team is not resident (R61). -/
def State.devPush (s : State) (r : GRef) (port : Nat) (v : Word) : State :=
  match s.team? r.grid r.team with
  | some t =>
    if t.resident then s.pushPort r port v
    else s.updTeam r.grid r.team fun t => { t with notes := t.notes ++ [.push r.gid port v] }
  | none => s

/-! ### Fault records (R8) -/

/-- The record of a fault of a thread at an instruction. -/
def State.mkRec (s : State) (t : TRef) (code kind pc va : Nat) : FRec :=
  let (core, part, ri) := match s.thread? t with
    | some (_, g, th) => (g.core, g.part, th.ri)
    | none => (0, 0, 0)
  { code := code, kind := kind, ri := ri, eng := false, replay := false, thread := t.tid, group := t.g.gid,
    team := t.g.team, grid := t.g.grid, pc := pc, va := va, smask := 0, eprog := 0, lease := 0, dtime := s.now,
    core := core, part := part, chan := 0xFF }

/-- The record with what a failed check of memory adds (R379, R395). -/
def FRec.withFail (r : FRec) (f : Fail) : FRec :=
  { r with code := f.code, kind := f.kind.getD r.kind, replay := f.replay, lease := f.lease }

/-- The 64 bytes of a record (R8). -/
def FRec.bytes (r : FRec) : List Byte :=
  toLE 1 r.code ++ toLE 1 r.kind ++ toLE 1 r.ri ++ toLE 1 (1 + 2 * ofB r.eng + 4 * ofB r.replay)
  ++ toLE 2 r.thread ++ toLE 2 r.group ++ toLE 4 r.team ++ toLE 4 r.grid ++ toLE 8 r.pc ++ toLE 8 r.va
  ++ toLE 8 r.smask ++ toLE 4 r.eprog ++ toLE 4 (r.lease % 2 ^ 24) ++ toLE 8 r.dtime
  ++ toLE 1 r.core ++ toLE 1 r.part ++ toLE 1 r.chan ++ toLE 5 0

/-! ### The fault ring (R398) -/

/-- Entries of a fault ring, and of a command ring. -/
def ringDepth : Nat := 256

/-- The 128 bytes of a fault-ring entry. -/
def FRing.bytes (x : FRing) : List Byte :=
  let head := fun (kind a b c : Nat) => toLE 2 kind ++ toLE 2 a ++ toLE 4 b ++ toLE 8 c
  match x with
  | .fault fid count pasid r => head 1 fid count pasid ++ r.bytes ++ toLE 48 0
  | .event reason pasid page => head 2 reason pasid page ++ toLE 112 0
  | .done tag status sectors late => head 3 tag status (sectors + 2 ^ 63 * ofB late) ++ toLE 112 0
  | .nodeLoss node lost sectors ids index =>
    head 4 node lost sectors ++ (span 0 16).flatMap (fun k => toLE 4 (ids.getD k 0)) ++ toLE 4 index ++ toLE 44 0

/-- Write the fault-ring entry of a number. -/
def Part.setEntry (q : Part) (n : Nat) (x : FRing) : Part :=
  { q with svc := Mem.writeList q.svc (q.fring + 128 * (n % ringDepth)) x.bytes }

/-- The device writes an entry and then advances the ring's tail. -/
def Part.put (q : Part) (x : FRing) : Part :=
  let q := q.setEntry q.ftail x
  { q with ring := q.ring ++ [x], ftail := q.ftail + 1 }

/-- An entry for the ring: while the ring is full, it waits. -/
def Part.push (q : Part) (x : FRing) : Part :=
  if q.ring.length < ringDepth ∧ q.late = [] then q.put x else { q with late := q.late ++ [x] }

/-- Entries that wait are written as far as there is room. -/
def Part.fill : List FRing → Part → Part
  | [], q => { q with late := [] }
  | x :: t, q => if q.ring.length < ringDepth then Part.fill t (q.put x) else { q with late := x :: t }

/-- The pager takes n entries. -/
def Part.consume (q : Part) (n : Nat) : Part := Part.fill q.late { q with ring := q.ring.drop n }

/-! ### The kill of a grid (R352, R362) -/

/-- Is grid g the grid k or one descended from it (R352)? The fuel bounds the nesting. -/
def State.descends (s : State) (k : Nat) : Nat → Nat → Bool
  | 0, g => g == k
  | n + 1, g =>
    g == k ||
    match Tab.find? s.cp.grids g with
    | some x => (match x.parent with | some (p, _) => State.descends s k n p | none => false)
    | none => false

/-- A stopped thread (R362). -/
def Thread.stop (t : Thread) : Thread := { t with st := .exited, defd := [], popped := none, ri := 0 }

/-- A group whose threads have all stopped. -/
def Group.stop (g : Group) : Group :=
  { g with threads := Tab.mapV g.threads Thread.stop, front := [], sfq := [], ge := [] }

/-- Has a group ended: its threads have exited and none of its registers is empty (R143)? -/
def Group.over (g : Group) : Bool := g.threads.all (fun p => !p.2.live) && g.ge.isEmpty

/-- A team whose threads have all stopped, and whose copy jobs are abandoned (R362). -/
def Team.stop (t : Team) : Team :=
  { t with groups := Tab.mapV t.groups Group.stop, pops := [], pushes := [], pend := [], preempt := none,
           saved := Tab.mapV t.saved fun c => { c with jobs := [] } }

/-- The copy jobs of a grid. -/
def State.gridJobs (s : State) (g : Nat) : List Job :=
  (s.cores.flatMap fun c => c.2.jobs.filter fun j => j.t.g.grid == g)
  ++ s.teams.flatMap fun t => if t.grid = g then t.saved.flatMap fun c => c.2.jobs else []

/-- A killed grid (R352): the writes of its abandoned jobs count at its completion (R334). -/
def Grid.kill (x : Grid) (jobs : List Job) : Grid :=
  { x with killed := true, stamps := jobs.foldl (fun v j => v.join j.stamps) x.stamps }

/-- Kill a grid and every grid descended from it (R352, R362): their threads stop, their copy jobs are abandoned, and no
team of them is admitted any more. Outstanding accesses drain. -/
def State.killGrid (s : State) (g : Nat) : State :=
  let hit := fun x => s.descends g 16 x
  { s with
    teams := s.teams.map fun t => if hit t.grid then t.stop else t
    grants := s.grants.filter fun x => !hit x.g.grid
    cores := Tab.mapV s.cores fun c =>
      { c with jobs := c.jobs.filter fun j => !hit j.t.g.grid }
    cp := { s.cp with grids := Tab.mapV s.cp.grids fun x => if hit x.id then x.kill (s.gridJobs x.id) else x } }

/-- Kill a grid for a fault that no handler takes: the record goes to the partition's service core (R362), and the kill
is reported (class 0x08 of R441). -/
def State.killFor (s : State) (pasid : Nat) (r : FRec) : State :=
  let s := s.killGrid r.grid
  let p := s.partOf pasid
  let s := { s with parts := Tab.adjust s.parts p fun q => { q with killRecs := q.killRecs ++ [r] } }
  s.logErr (some p) 0x08 (r.core / 48) (r.core % 48) pasid r.code r.va

/-! ### Handler entry (R359 to R361) -/

/-- The resume point at the instruction where a thread stands. -/
def Thread.here (t : Thread) : Resume := ⟨t.pc, t.hdr, t.cend, t.inside⟩

/-- A core as it enters a handler for a thread. -/
def enterer (core pasid : Nat) (t : TRef) : Agent := ⟨[1, t.g.grid, t.g.team, t.g.gid, t.tid], core, pasid, false⟩

/-- What the read of a trap table entry answers (R359): it cannot be read, it waits, it is not valid, or the handler. -/
inductive TrapRes where
  | fail
  | wait
  | invalid
  | handler (pc : Nat)
deriving DecidableEq, Repr

/-- The address of a context's trap table entry (R359). -/
def State.trapVa (s : State) (pasid c : Nat) : Nat := (match s.ctx pasid with | some x => x.trapTab | none => 0) + 8 * c

/-- A trap table entry's handler (R359). -/
def State.trapEntry (s : State) (tm : Team) (core : Nat) (t : TRef) (c : Nat) : TrapRes :=
  match s.unitGet (enterer core tm.pasid t) (s.trapVa tm.pasid c) 8 ⟨true, false, false⟩ with
  | .fail _ => .fail
  | .wait => .wait
  | .done bs =>
    let e := ofLE bs
    let h := e / 4 * 4
    if e % 2 = 1 ∧ tm.kern.code ≤ h ∧ h - tm.kern.code < 2 ^ 32 then .handler h else .invalid

/-- The entry that a fault of a code takes: its own, or entry 0 where that is not valid (R359). -/
def State.trapFor (s : State) (tm : Team) (core : Nat) (t : TRef) (code : Nat) : TrapRes :=
  match s.trapEntry tm core t code with
  | .invalid => s.trapEntry tm core t 0
  | x => x

/-- The slot of a thread in its context's record area (R359). -/
def recSlot (area : Nat) (g : Group) (tid : Nat) : Nat :=
  area + 64 * (2048 * g.core + 64 * (8 * g.part + g.slot) + tid)

/-- A thread at its handler (R360). Its ri is 0, as R360's steps set it; R50 has a handler find the repeat there, which
TRI and the record's RI hold (assumption log 61). -/
def Thread.enter (t : Thread) (k : TKind) (res : Resume) (fp link : Word) : Thread :=
  { t with
    frame := ⟨res.pc, res.hdr, res.cend, t.code, t.intd || k == .interrupt, t.prio, res.inside, t.ri, t.link, t.fp, k, true⟩
    fp := fp, link := link, ri := 0, popped := none, fenceV := none, pinned := 0 }

/-- The agent of the pins of an MLDG for the lines of other devices' memory. -/
def pinner (core pasid key : Nat) : Agent := ⟨[3, core, key], core, pasid, false⟩

/-- How a pinned line of another device's memory is named: by the number of its pins. -/
def farLine (key : Nat) : Nat := 2 ^ 61 + key

/-- Release the pins of some MLDG operations of a core (R245, R301). -/
def State.releasePins (s : State) (core : Nat) (f : Pin → Bool) : State :=
  let gone := (s.core core).pins.filter f
  let lines := gone.flatMap fun p => p.lines.map (·.2)
  let s := lines.foldl (fun s l => if 2 ^ 61 ≤ l then s.unitsDone (pinner core 0 (l - 2 ^ 61)) else s) s
  let frames := lines.map (· / 128)
  let s := s.updCore core fun c => { c with pins := c.pins.filter fun p => !f p }
  { s with frames := frames.foldl (fun m k => Tab.adjust m k fun e => { e with pins := e.pins - 1 }) s.frames }

/-- The record slot of a thread of a context (R359). -/
def State.slotOf (s : State) (pasid : Nat) (g : Group) (tid : Nat) : Nat :=
  recSlot (match s.ctx pasid with | some c => c.recArea | none => 0) g tid

/-- Enter the handler of a fault (R360), or kill the grid; while a read or write of the entry waits, the thread does. -/
def State.enterFault (s : State) (t : TRef) (r : FRec) (k : TKind) (res : Resume) : State :=
  match s.thread? t with
  | none => s
  | some (tm, g, th) =>
    if th.frame.inh then s.killFor tm.pasid r
    else
      let s := if th.pinned = 0 then s else s.releasePins g.core fun p => p.waits && p.op + 1 == th.pinned
      let wait := s.updThread t fun th => { th with st := .taking r k res }
      match s.trapFor tm g.core t r.code with
      | .fail | .invalid => s.killFor tm.pasid r
      | .wait => wait
      | .handler h =>
        let slot := s.slotOf tm.pasid g t.tid
        let ag := enterer g.core tm.pasid t
        match s.unitPut ag slot r.bytes with
        | .fail _ => s.killFor tm.pasid r
        | .wait => wait
        | .done s v =>
          let s := (s.unitsDone ag).updThread t fun th =>
            { th.enter k res (BitVec.ofNat 32 slot) (BitVec.ofNat 32 (slot / 2 ^ 32)) with wrote := th.wrote.join v }
          (s.goHeader t h none).settle t.g

/-- Hold a thread for the pager (R356, R399): its fault waits to be reported. -/
def State.holdThread (s : State) (t : TRef) (r : FRec) : State :=
  match s.thread? t with
  | none => s
  | some (tm, _, _) =>
    let s := s.updThread t fun th => { th with st := .held 0 }
    { s with
      parts := Tab.adjust s.parts (s.partOf tm.pasid) fun q =>
        { q with waiting := q.waiting ++ [(.thread t, tm.pasid, r)] } }

/-- Is a thread live (R271)? -/
def State.liveAt (s : State) (t : TRef) : Bool := match s.thread? t with | some (_, _, th) => th.live | none => false

/-- Take a fault of a thread (R356): a record with REPLAY goes to the pager, every other is delivered at once. A thread that
a kill has stopped takes none (R362). -/
def State.takeFault (s : State) (t : TRef) (r : FRec) (k : TKind) (res : Resume) : State :=
  if !s.liveAt t then s else if r.replay then s.holdThread t r else s.enterFault t r k res

/-- A fault of the instruction a thread stands at, resumed there (R361). -/
def State.raise (s : State) (t : TRef) (code kind va : Nat) : State :=
  match s.thread? t with
  | some (_, _, th) => s.takeFault t (s.mkRec t code kind th.pc va) .fault th.here
  | none => s

/-- Add a deferred fault (R357). -/
def State.defer (s : State) (t : TRef) (d : Deferred) : State :=
  s.updThread t fun th => { th with defd := th.defd ++ [d] }

/-- The destination of a load whose fault is delivered is full with its previous value (R54, R455). -/
def State.refillFor (s : State) (t : TRef) (k : DefKind) : State :=
  match k with
  | .load 0 rs => s.updThread t (Thread.refill · rs)
  | .load _ rs => s.updGroup t.g fun g => { g with ge := delNats rs g.ge }
  | _ => s

/-- Deliver a thread's deferred fault number n in place of what it stands at (R357, R361). -/
def State.deliverDeferred (s : State) (t : TRef) (n : Nat) : State :=
  match s.thread? t with
  | some (_, _, th) =>
    match th.defd[n]? with
    | some d =>
      let s := (s.updThread t fun th => { th with defd := dropNth th.defd n }).refillFor t d.kind
      s.takeFault t { d.rcd with replay := false } .fault th.here
    | none => s
  | none => s

/-- Enter the handler of a user-level interrupt source (R360); an entry that is not valid drops it. The record of the kill
when the entry cannot be read is the model's choice: code 0x07, KIND 0x01 and VA 0, whatever fault the read met (assumption
log 62). -/
def State.enterInterrupt (s : State) (t : TRef) (src : Nat) : State :=
  match s.thread? t with
  | none => s
  | some (tm, g, th) =>
    let taken := s.updThread t fun th => { th with pend := th.pend &&& ~~~ BitVec.ofNat 5 (2 ^ src) }
    match s.trapEntry tm g.core t (32 + src) with
    | .handler h =>
      let s := (taken.unitsDone (enterer g.core tm.pasid t)).updThread t fun th' =>
        th'.enter .interrupt th.here 0#32 (BitVec.ofNat 32 src)
      (s.goHeader t h none).settle t.g
    | .invalid => taken
    | .wait => s
    | .fail => taken.killFor tm.pasid (s.mkRec t 0x07 0x01 th.pc 0)

/-- A thread returned from its handler (R362). -/
def Thread.uliret (t : Thread) : Thread :=
  let f := t.frame
  { t with
    pc := f.tpc, hdr := f.thdr, cend := f.tcend, code := f.tcode, inside := f.tin, intd := f.tint, prio := f.tprio, ri := f.tri,
    link := f.tlink, fp := f.tfp, from? := none, st := .ready, frame := { f with inh := false } }

end Sys2Proof.Machine
end

