-- ==== Sys2Proof/Decode.lean ====
section
/-! DEFINITION. Decoding (R100, R101, R105, R109, R112): total on any bytes, refusing by name; and the encoder, written
from the same tables. A device step has no encoding, so decoding never answers one and encoding one answers none. -/

namespace Sys2Proof

/-- Why bytes are no instruction. Every reason but the first makes the device raise Illegal Instruction (R115). -/
inductive DecErr where
  /-- Fewer bytes than the instruction's words: no word there to decode. -/
  | tooShort
  /-- A prefix stands where the base word belongs (R100). -/
  | malformed
  /-- An Illegal cell of the opcode map (R112). -/
  | illegalCell
  /-- A field the form leaves zero is not zero, or a function selects no row (R110). -/
  | reservedField
  /-- REP bits [6:0] are not zero (R106). -/
  | repReserved
deriving DecidableEq, Repr

/-- The n bits of w from bit lo up. -/
def bitsAt (n w lo : Nat) : BitVec n := BitVec.ofNat n (w / 2 ^ lo)

/-- Bit lo of w as a truth value. -/
def flagAt (w lo : Nat) : Bool := w / 2 ^ lo % 2 == 1

/-- The MOD prefix word's fields (R101). -/
def decodeMod (w : Nat) : Mod :=
  ⟨flagAt w 26, flagAt w 25, bitsAt 3 w 22, bitsAt 2 w 20, bitsAt 2 w 18, bitsAt 2 w 16, flagAt w 15, flagAt w 14,
   flagAt w 13, flagAt w 12, bitsAt 2 w 10, bitsAt 4 w 6, bitsAt 3 w 3, flagAt w 2, flagAt w 1, flagAt w 0⟩

/-- The REP prefix word's fields (R105). -/
def decodeRep (w : Nat) : Rep :=
  ⟨bitsAt 6 w 21, flagAt w 20, flagAt w 19, flagAt w 18, bitsAt 2 w 16, flagAt w 15, flagAt w 14, flagAt w 13,
   bitsAt 2 w 11, bitsAt 2 w 9, bitsAt 2 w 7⟩

/-- The instruction, when the bits the form leaves zero are zero (R110). -/
def whenZero (bad : Nat) (i : Instr) : Except DecErr Instr :=
  if bad = 0 then .ok i else .error .reservedField

/-- Opcode 0xA8, PREF: the KIND bits select the row, and only `.tier` may use D and B[3] (R221). -/
def decodePref (w : Nat) (pf : Pfx) : Except DecErr Instr :=
  match w % 4 with
  | 0 => whenZero (fld w 7 3 + fld w 23 16) (.prefL1 pf (bitsAt 8 w 8) (bitsAt 1 w 2))
  | 1 => whenZero (fld w 7 3 + fld w 23 16) (.prefL2 pf (bitsAt 8 w 8) (bitsAt 1 w 2))
  | 2 => whenZero (fld w 7 3 + fld w 23 16) (.prefHbm pf (bitsAt 8 w 8) (bitsAt 1 w 2))
  | _ => whenZero (fld w 7 4) (.prefTier pf (bitsAt 8 w 16) (bitsAt 8 w 8) (bitsAt 1 w 3) (bitsAt 1 w 2))

/-- Opcode 0xA9, RESID: the function bits select the row (R224). -/
def decodeResid (w : Nat) (pf : Pfx) : Except DecErr Instr :=
  match w % 4 with
  | 0 => whenZero (fld w 7 2) (.residQ pf (bitsAt 8 w 16) (bitsAt 8 w 8))
  | 1 => whenZero (fld w 7 2 + fld w 23 16) (.residKeep pf (bitsAt 8 w 8))
  | 2 => whenZero (fld w 7 2 + fld w 23 16) (.residEvict pf (bitsAt 8 w 8))
  | _ => .error .reservedField

/-- Row 0x0_ of the opcode map (R112). -/
def decodeRow0 (op w : Nat) (pf : Pfx) : Except DecErr Instr :=
  match op with
  | 0x0 => .ok (.iadd pf (bitsAt 8 w 16) (bitsAt 8 w 8) (bitsAt 8 w 0))
  | 0x1 => .ok (.isub pf (bitsAt 8 w 16) (bitsAt 8 w 8) (bitsAt 8 w 0))
  | 0x2 => .ok (.imul pf (bitsAt 8 w 16) (bitsAt 8 w 8) (bitsAt 8 w 0))
  | 0x3 => .ok (.imulh pf (bitsAt 8 w 16) (bitsAt 8 w 8) (bitsAt 8 w 0))
  | 0x4 => .ok (.imulhHu pf (bitsAt 8 w 16) (bitsAt 8 w 8) (bitsAt 8 w 0))
  | 0x5 => .ok (.imad pf (bitsAt 8 w 16) (bitsAt 8 w 8) (bitsAt 8 w 0))
  | 0x6 => .ok (.add64 pf (bitsAt 8 w 16) (bitsAt 8 w 8) (bitsAt 8 w 0))
  | 0x7 => .ok (.sub64 pf (bitsAt 8 w 16) (bitsAt 8 w 8) (bitsAt 8 w 0))
  | 0x8 => .ok (.mul64 pf (bitsAt 8 w 16) (bitsAt 8 w 8) (bitsAt 8 w 0))
  | 0x9 => .ok (.addc pf (bitsAt 8 w 16) (bitsAt 8 w 8) (bitsAt 8 w 0))
  | 0xA => .ok (.subb pf (bitsAt 8 w 16) (bitsAt 8 w 8) (bitsAt 8 w 0))
  | 0xB => .ok (.imin pf (bitsAt 8 w 16) (bitsAt 8 w 8) (bitsAt 8 w 0))
  | 0xC => .ok (.iminNu pf (bitsAt 8 w 16) (bitsAt 8 w 8) (bitsAt 8 w 0))
  | 0xD => .ok (.imax pf (bitsAt 8 w 16) (bitsAt 8 w 8) (bitsAt 8 w 0))
  | 0xE => .ok (.imaxNu pf (bitsAt 8 w 16) (bitsAt 8 w 8) (bitsAt 8 w 0))
  | 0xF => .ok (.lea pf (bitsAt 8 w 16) (bitsAt 8 w 8) (bitsAt 8 w 0))
  | _ => .error .illegalCell

/-- Row 0x1_ of the opcode map (R112). -/
def decodeRow1 (op w : Nat) (pf : Pfx) : Except DecErr Instr :=
  match op with
  | 0x10 => .ok (.and pf (bitsAt 8 w 16) (bitsAt 8 w 8) (bitsAt 8 w 0))
  | 0x11 => .ok (.or pf (bitsAt 8 w 16) (bitsAt 8 w 8) (bitsAt 8 w 0))
  | 0x12 => .ok (.xor pf (bitsAt 8 w 16) (bitsAt 8 w 8) (bitsAt 8 w 0))
  | 0x13 => .ok (.andn pf (bitsAt 8 w 16) (bitsAt 8 w 8) (bitsAt 8 w 0))
  | 0x14 => .ok (.shl pf (bitsAt 8 w 16) (bitsAt 8 w 8) (bitsAt 8 w 0))
  | 0x15 => .ok (.shr pf (bitsAt 8 w 16) (bitsAt 8 w 8) (bitsAt 8 w 0))
  | 0x16 => .ok (.sar pf (bitsAt 8 w 16) (bitsAt 8 w 8) (bitsAt 8 w 0))
  | 0x17 => .ok (.rot pf (bitsAt 8 w 16) (bitsAt 8 w 8) (bitsAt 8 w 0))
  | 0x18 => .ok (.funnel pf (bitsAt 8 w 16) (bitsAt 8 w 8) (bitsAt 8 w 0))
  | 0x19 => .ok (.bfe pf (bitsAt 8 w 16) (bitsAt 8 w 8) (bitsAt 8 w 0))
  | 0x1A => .ok (.bfi pf (bitsAt 8 w 16) (bitsAt 8 w 8) (bitsAt 8 w 0))
  | 0x1B => whenZero (fld w 7 0) (.popc pf (bitsAt 8 w 16) (bitsAt 8 w 8))
  | 0x1C => whenZero (fld w 7 0) (.clz pf (bitsAt 8 w 16) (bitsAt 8 w 8))
  | 0x1D => whenZero (fld w 7 0) (.ctz pf (bitsAt 8 w 16) (bitsAt 8 w 8))
  | 0x1E => whenZero (fld w 7 0) (.brev pf (bitsAt 8 w 16) (bitsAt 8 w 8))
  | 0x1F => whenZero (fld w 7 0) (.mov pf (bitsAt 8 w 16) (bitsAt 8 w 8))
  | _ => .error .illegalCell

/-- Row 0x2_ of the opcode map (R112). -/
def decodeRow2 (op w : Nat) (pf : Pfx) : Except DecErr Instr :=
  match op with
  | 0x20 => .ok (.sel pf (bitsAt 8 w 16) (bitsAt 8 w 8) (bitsAt 8 w 0))
  | 0x21 => .ok (.isetp pf (bitsAt 5 w 19) (bitsAt 3 w 16) (bitsAt 8 w 8) (bitsAt 8 w 0))
  | 0x22 => .ok (.isetp64 pf (bitsAt 5 w 19) (bitsAt 3 w 16) (bitsAt 8 w 8) (bitsAt 8 w 0))
  | 0x23 => whenZero (fld w 7 3 + fld w 15 11) (.psetp pf (bitsAt 5 w 19) (bitsAt 3 w 16) (bitsAt 3 w 8) (bitsAt 3 w 0))
  | 0x24 => .ok (.movi pf (bitsAt 8 w 16) (bitsAt 16 w 0))
  | 0x25 => .ok (.movhi pf (bitsAt 8 w 16) (bitsAt 16 w 0))
  | 0x26 => .ok (.idot4 pf (bitsAt 8 w 16) (bitsAt 8 w 8) (bitsAt 8 w 0))
  | 0x27 => .ok (.dmuls pf (bitsAt 8 w 16) (bitsAt 8 w 8) (bitsAt 8 w 0))
  | 0x28 => .ok (.hash pf (bitsAt 8 w 16) (bitsAt 8 w 8) (bitsAt 8 w 0))
  | 0x29 => .ok (.hcomb pf (bitsAt 8 w 16) (bitsAt 8 w 8) (bitsAt 8 w 0))
  | 0x2A => .ok (.part pf (bitsAt 8 w 16) (bitsAt 8 w 8) (bitsAt 8 w 0))
  | 0x2B => .ok (.bloom pf (bitsAt 8 w 16) (bitsAt 8 w 8) (bitsAt 8 w 0))
  | 0x2C => .ok (.scmp pf (bitsAt 8 w 16) (bitsAt 8 w 8) (bitsAt 8 w 0))
  | 0x2D => .ok (.sfind pf (bitsAt 8 w 16) (bitsAt 8 w 8) (bitsAt 8 w 0))
  | 0x2E => whenZero (fld w 7 0) (.slen pf (bitsAt 8 w 16) (bitsAt 8 w 8))
  | 0x2F => .ok (.shash pf (bitsAt 8 w 16) (bitsAt 8 w 8) (bitsAt 8 w 0))
  | _ => .error .illegalCell

/-- Row 0x3_ of the opcode map (R112). -/
def decodeRow3 (op w : Nat) (pf : Pfx) : Except DecErr Instr :=
  match op with
  | 0x30 => .ok (.fadd pf (bitsAt 8 w 16) (bitsAt 8 w 8) (bitsAt 8 w 0))
  | 0x31 => .ok (.fmul pf (bitsAt 8 w 16) (bitsAt 8 w 8) (bitsAt 8 w 0))
  | 0x32 => .ok (.ffma pf (bitsAt 8 w 16) (bitsAt 8 w 8) (bitsAt 8 w 0))
  | 0x33 => .ok (.fmin pf (bitsAt 8 w 16) (bitsAt 8 w 8) (bitsAt 8 w 0))
  | 0x34 => .ok (.fmax pf (bitsAt 8 w 16) (bitsAt 8 w 8) (bitsAt 8 w 0))
  | 0x35 => .ok (.fcmp pf (bitsAt 5 w 19) (bitsAt 3 w 16) (bitsAt 8 w 8) (bitsAt 8 w 0))
  | 0x36 => whenZero (fld w 7 0) (.fclass pf (bitsAt 8 w 16) (bitsAt 8 w 8))
  | 0x37 => whenZero (fld w 7 0) (.frnd pf (bitsAt 8 w 16) (bitsAt 8 w 8))
  | 0x38 => .ok (.hadd2 pf (bitsAt 8 w 16) (bitsAt 8 w 8) (bitsAt 8 w 0))
  | 0x39 => .ok (.hmul2 pf (bitsAt 8 w 16) (bitsAt 8 w 8) (bitsAt 8 w 0))
  | 0x3A => .ok (.hfma2 pf (bitsAt 8 w 16) (bitsAt 8 w 8) (bitsAt 8 w 0))
  | 0x3B => .ok (.bdot2 pf (bitsAt 8 w 16) (bitsAt 8 w 8) (bitsAt 8 w 0))
  | 0x3C => .ok (.dadd pf (bitsAt 8 w 16) (bitsAt 8 w 8) (bitsAt 8 w 0))
  | 0x3D => .ok (.dmul pf (bitsAt 8 w 16) (bitsAt 8 w 8) (bitsAt 8 w 0))
  | 0x3E => .ok (.dfma pf (bitsAt 8 w 16) (bitsAt 8 w 8) (bitsAt 8 w 0))
  | 0x3F => .ok (.dcmp pf (bitsAt 5 w 19) (bitsAt 3 w 16) (bitsAt 8 w 8) (bitsAt 8 w 0))
  | _ => .error .illegalCell

/-- Row 0x4_ of the opcode map (R112). -/
def decodeRow4 (op w : Nat) (pf : Pfx) : Except DecErr Instr :=
  match op with
  | 0x40 => .ok (.shfl pf (bitsAt 8 w 16) (bitsAt 8 w 8) (bitsAt 4 w 4) (bitsAt 4 w 0))
  | 0x41 => .ok (.shflx pf (bitsAt 8 w 16) (bitsAt 8 w 8) (bitsAt 4 w 4) (bitsAt 4 w 0))
  | 0x42 => whenZero (fld w 3 0) (.perm pf (bitsAt 8 w 16) (bitsAt 8 w 8) (bitsAt 4 w 4))
  | 0x43 => .ok (.vote pf (bitsAt 8 w 16) (bitsAt 8 w 8) (bitsAt 4 w 4) (bitsAt 4 w 0))
  | 0x44 => .ok (.matchL pf (bitsAt 8 w 16) (bitsAt 8 w 8) (bitsAt 4 w 4) (bitsAt 4 w 0))
  | 0x45 => .ok (.reduce pf (bitsAt 8 w 16) (bitsAt 8 w 8) (bitsAt 4 w 4) (bitsAt 4 w 0))
  | 0x46 => .ok (.reduceF pf (bitsAt 8 w 16) (bitsAt 8 w 8) (bitsAt 4 w 4) (bitsAt 4 w 0))
  | 0x47 => .ok (.scan pf (bitsAt 8 w 16) (bitsAt 8 w 8) (bitsAt 4 w 4) (bitsAt 4 w 0))
  | 0x48 => .ok (.scanF pf (bitsAt 8 w 16) (bitsAt 8 w 8) (bitsAt 4 w 4) (bitsAt 4 w 0))
  | 0x49 => .ok (.popm pf (bitsAt 8 w 16) (bitsAt 8 w 8) (bitsAt 4 w 4) (bitsAt 4 w 0))
  | 0x4A => whenZero (fld w 3 0) (.hdm16 pf (bitsAt 8 w 16) (bitsAt 8 w 8) (bitsAt 4 w 4))
  | 0x4B => whenZero (fld w 3 0) (.hdm32 pf (bitsAt 8 w 16) (bitsAt 8 w 8) (bitsAt 4 w 4))
  | 0x4C => .ok (.hadd2Bf16 pf (bitsAt 8 w 16) (bitsAt 8 w 8) (bitsAt 8 w 0))
  | 0x4D => .ok (.hmul2Bf16 pf (bitsAt 8 w 16) (bitsAt 8 w 8) (bitsAt 8 w 0))
  | 0x4E => .ok (.hfma2Bf16 pf (bitsAt 8 w 16) (bitsAt 8 w 8) (bitsAt 8 w 0))
  | _ => .error .illegalCell

/-- Row 0x5_ of the opcode map (R112). -/
def decodeRow5 (op w : Nat) (pf : Pfx) : Except DecErr Instr :=
  match op with
  | 0x50 => whenZero (fld w 7 4) (.ckpack pf (bitsAt 8 w 16) (bitsAt 8 w 8) (bitsAt 1 w 3) (bitsAt 3 w 0))
  | 0x51 => whenZero (fld w 2 0 + fld w 7 4) (.ckunpk pf (bitsAt 8 w 16) (bitsAt 8 w 8) (bitsAt 1 w 3))
  | 0x52 => .ok (.ckadd pf (bitsAt 8 w 16) (bitsAt 8 w 8) (bitsAt 8 w 0))
  | 0x53 => .ok (.cksub pf (bitsAt 8 w 16) (bitsAt 8 w 8) (bitsAt 8 w 0))
  | 0x54 => whenZero (fld w 7 4) (.ckaxis pf (bitsAt 8 w 16) (bitsAt 8 w 8) (bitsAt 1 w 3) (bitsAt 3 w 0))
  | 0x55 => whenZero (fld w 7 4) (.ckins pf (bitsAt 8 w 16) (bitsAt 8 w 8) (bitsAt 1 w 3) (bitsAt 3 w 0))
  | 0x56 => .ok (.ckcmp pf (bitsAt 5 w 19) (bitsAt 3 w 16) (bitsAt 8 w 8) (bitsAt 8 w 0))
  | 0x57 => .ok (.ckbox pf (bitsAt 5 w 19) (bitsAt 3 w 16) (bitsAt 8 w 8) (bitsAt 8 w 0))
  | 0x58 => .ok (.cknext pf (bitsAt 8 w 16) (bitsAt 8 w 8) (bitsAt 8 w 0))
  | 0x59 => .ok (.ckprev pf (bitsAt 8 w 16) (bitsAt 8 w 8) (bitsAt 8 w 0))
  | 0x5A => whenZero (fld w 15 0) (.cksplit pf (bitsAt 8 w 16))
  | 0x5B => .ok (.ckrlist pf (bitsAt 8 w 16) (bitsAt 8 w 8) (bitsAt 8 w 0))
  | 0x5C => .ok (.cklvl pf (bitsAt 8 w 16) (bitsAt 8 w 8) (bitsAt 2 w 6) (bitsAt 6 w 0))
  | 0x5D => whenZero (fld w 7 1) (.ckwide pf (bitsAt 8 w 16) (bitsAt 8 w 8) (bitsAt 1 w 0))
  | _ => .error .illegalCell

/-- Row 0x6_ of the opcode map (R112). -/
def decodeRow6 (op w : Nat) (pf : Pfx) : Except DecErr Instr :=
  match op with
  | 0x60 => .ok (.uadd pf (bitsAt 8 w 16) (bitsAt 8 w 8) (bitsAt 8 w 0))
  | 0x61 => .ok (.usub pf (bitsAt 8 w 16) (bitsAt 8 w 8) (bitsAt 8 w 0))
  | 0x62 => .ok (.umul pf (bitsAt 8 w 16) (bitsAt 8 w 8) (bitsAt 8 w 0))
  | 0x63 => .ok (.uand pf (bitsAt 8 w 16) (bitsAt 8 w 8) (bitsAt 8 w 0))
  | 0x64 => .ok (.uor pf (bitsAt 8 w 16) (bitsAt 8 w 8) (bitsAt 8 w 0))
  | 0x65 => .ok (.uxor pf (bitsAt 8 w 16) (bitsAt 8 w 8) (bitsAt 8 w 0))
  | 0x66 => .ok (.ushl pf (bitsAt 8 w 16) (bitsAt 8 w 8) (bitsAt 8 w 0))
  | 0x67 => .ok (.ushr pf (bitsAt 8 w 16) (bitsAt 8 w 8) (bitsAt 8 w 0))
  | 0x68 => .ok (.usetp pf (bitsAt 5 w 19) (bitsAt 3 w 16) (bitsAt 8 w 8) (bitsAt 8 w 0))
  | 0x69 => .ok (.usel pf (bitsAt 8 w 16) (bitsAt 8 w 8) (bitsAt 8 w 0))
  | 0x6A => whenZero (fld w 7 0) (.umov pf (bitsAt 8 w 16) (bitsAt 8 w 8))
  | 0x6B => .ok (.umovi pf (bitsAt 8 w 16) (bitsAt 16 w 0))
  | 0x6C => .ok (.umovhi pf (bitsAt 8 w 16) (bitsAt 16 w 0))
  | 0x6D => whenZero (fld w 7 0) (.elect pf (bitsAt 5 w 19) (bitsAt 3 w 16) (bitsAt 8 w 8))
  | 0x6E => whenZero (fld w 7 7) (.ubcast pf (bitsAt 8 w 16) (bitsAt 8 w 8) (bitsAt 1 w 6) (bitsAt 6 w 0))
  | _ => .error .illegalCell

/-- Row 0x7_ of the opcode map (R112). -/
def decodeRow7 (op w : Nat) (pf : Pfx) : Except DecErr Instr :=
  match op with
  | 0x70 => whenZero (fld w 7 0) (.rcp pf (bitsAt 8 w 16) (bitsAt 8 w 8))
  | 0x71 => whenZero (fld w 7 0) (.rsq pf (bitsAt 8 w 16) (bitsAt 8 w 8))
  | 0x72 => whenZero (fld w 7 0) (.sqrt pf (bitsAt 8 w 16) (bitsAt 8 w 8))
  | 0x73 => whenZero (fld w 7 0) (.exp2 pf (bitsAt 8 w 16) (bitsAt 8 w 8))
  | 0x74 => whenZero (fld w 7 0) (.log2 pf (bitsAt 8 w 16) (bitsAt 8 w 8))
  | 0x75 => whenZero (fld w 7 0) (.sin pf (bitsAt 8 w 16) (bitsAt 8 w 8))
  | 0x76 => whenZero (fld w 7 0) (.cos pf (bitsAt 8 w 16) (bitsAt 8 w 8))
  | 0x77 => whenZero (fld w 7 0) (.tanh pf (bitsAt 8 w 16) (bitsAt 8 w 8))
  | 0x78 => .ok (.fdiv pf (bitsAt 8 w 16) (bitsAt 8 w 8) (bitsAt 8 w 0))
  | 0x79 => .ok (.idiv pf (bitsAt 8 w 16) (bitsAt 8 w 8) (bitsAt 8 w 0))
  | 0x7A => .ok (.idivNu pf (bitsAt 8 w 16) (bitsAt 8 w 8) (bitsAt 8 w 0))
  | 0x7B => .ok (.irem pf (bitsAt 8 w 16) (bitsAt 8 w 8) (bitsAt 8 w 0))
  | 0x7C => .ok (.iremNu pf (bitsAt 8 w 16) (bitsAt 8 w 8) (bitsAt 8 w 0))
  | _ => .error .illegalCell

/-- Row 0x8_ of the opcode map (R112). -/
def decodeRow8 (op w : Nat) (pf : Pfx) : Except DecErr Instr :=
  match op with
  | 0x80 => .ok (.f2f pf (bitsAt 8 w 16) (bitsAt 8 w 8) (bitsAt 4 w 4) (bitsAt 4 w 0))
  | 0x81 => .ok (.f2i pf (bitsAt 8 w 16) (bitsAt 8 w 8) (bitsAt 4 w 4) (bitsAt 4 w 0))
  | 0x82 => .ok (.i2f pf (bitsAt 8 w 16) (bitsAt 8 w 8) (bitsAt 4 w 4) (bitsAt 4 w 0))
  | 0x83 => .ok (.qscale pf (bitsAt 8 w 16) (bitsAt 8 w 8) (bitsAt 8 w 0))
  | 0x84 => .ok (.qscaleAdapt pf (bitsAt 8 w 16) (bitsAt 8 w 8) (bitsAt 8 w 0))
  | 0x85 => .ok (.qpack pf (bitsAt 8 w 16) (bitsAt 8 w 8) (bitsAt 8 w 0))
  | 0x86 => whenZero (fld w 7 7) (.qunpk pf (bitsAt 8 w 16) (bitsAt 8 w 8) (bitsAt 3 w 4) (bitsAt 4 w 0))
  | _ => .error .illegalCell

/-- Row 0x9_ of the opcode map (R112). -/
def decodeRow9 (op w : Nat) (pf : Pfx) : Except DecErr Instr :=
  match op with
  | 0x90 => .ok (.ldZ8 pf (bitsAt 8 w 16) (bitsAt 8 w 8) (bitsAt 8 w 0))
  | 0x91 => .ok (.ldS8 pf (bitsAt 8 w 16) (bitsAt 8 w 8) (bitsAt 8 w 0))
  | 0x92 => .ok (.ldZ16 pf (bitsAt 8 w 16) (bitsAt 8 w 8) (bitsAt 8 w 0))
  | 0x93 => .ok (.ldS16 pf (bitsAt 8 w 16) (bitsAt 8 w 8) (bitsAt 8 w 0))
  | 0x94 => .ok (.ld pf (bitsAt 8 w 16) (bitsAt 8 w 8) (bitsAt 8 w 0))
  | 0x95 => .ok (.ldB64 pf (bitsAt 8 w 16) (bitsAt 8 w 8) (bitsAt 8 w 0))
  | 0x96 => .ok (.ldB128 pf (bitsAt 8 w 16) (bitsAt 8 w 8) (bitsAt 8 w 0))
  | 0x97 => .ok (.ldC pf (bitsAt 8 w 16) (bitsAt 8 w 8) (bitsAt 8 w 0))
  | 0x98 => .ok (.ldCB128 pf (bitsAt 8 w 16) (bitsAt 8 w 8) (bitsAt 8 w 0))
  | 0x99 => .ok (.stB8 pf (bitsAt 8 w 16) (bitsAt 8 w 8) (bitsAt 8 w 0))
  | 0x9A => .ok (.stB16 pf (bitsAt 8 w 16) (bitsAt 8 w 8) (bitsAt 8 w 0))
  | 0x9B => .ok (.st pf (bitsAt 8 w 16) (bitsAt 8 w 8) (bitsAt 8 w 0))
  | 0x9C => .ok (.stB64 pf (bitsAt 8 w 16) (bitsAt 8 w 8) (bitsAt 8 w 0))
  | 0x9D => .ok (.stB128 pf (bitsAt 8 w 16) (bitsAt 8 w 8) (bitsAt 8 w 0))
  | 0x9E => whenZero (fld w 7 5) (.lds pf (bitsAt 8 w 16) (bitsAt 8 w 8) (bitsAt 2 w 3) (bitsAt 3 w 0))
  | 0x9F => whenZero (fld w 7 5) (.sts pf (bitsAt 8 w 16) (bitsAt 8 w 8) (bitsAt 2 w 3) (bitsAt 3 w 0))
  | _ => .error .illegalCell

/-- Row 0xA_ of the opcode map (R112). -/
def decodeRowA (op w : Nat) (pf : Pfx) : Except DecErr Instr :=
  match op with
  | 0xA0 => .ok (.uld pf (bitsAt 8 w 16) (bitsAt 8 w 8) (bitsAt 8 w 0))
  | 0xA1 => .ok (.uldB64 pf (bitsAt 8 w 16) (bitsAt 8 w 8) (bitsAt 8 w 0))
  | 0xA2 => .ok (.ust pf (bitsAt 8 w 16) (bitsAt 8 w 8) (bitsAt 8 w 0))
  | 0xA3 => .ok (.ustB64 pf (bitsAt 8 w 16) (bitsAt 8 w 8) (bitsAt 8 w 0))
  | 0xA4 => .ok (.atom pf (bitsAt 8 w 16) (bitsAt 8 w 8) (bitsAt 4 w 4) (bitsAt 1 w 3) (bitsAt 3 w 0))
  | 0xA5 => whenZero (fld w 7 5) (.cas pf (bitsAt 8 w 16) (bitsAt 8 w 8) (bitsAt 2 w 3) (bitsAt 3 w 0))
  | 0xA6 => .ok (.red pf (bitsAt 8 w 16) (bitsAt 8 w 8) (bitsAt 4 w 4) (bitsAt 1 w 3) (bitsAt 3 w 0))
  | 0xA7 => whenZero (fld w 23 5) (.fence pf (bitsAt 2 w 3) (bitsAt 3 w 0))
  | 0xA8 => decodePref w pf
  | 0xA9 => decodeResid w pf
  | 0xAA => whenZero (fld w 7 5) (.sldx pf (bitsAt 8 w 16) (bitsAt 8 w 8) (bitsAt 1 w 4) (bitsAt 4 w 0))
  | 0xAB => whenZero (fld w 7 5) (.sstx pf (bitsAt 8 w 16) (bitsAt 8 w 8) (bitsAt 1 w 4) (bitsAt 4 w 0))
  | _ => .error .illegalCell

/-- Row 0xB_ of the opcode map (R112). -/
def decodeRowB (op w : Nat) (pf : Pfx) : Except DecErr Instr :=
  match op with
  | 0xB0 => whenZero (fld w 7 0) (.tdef pf (bitsAt 8 w 16) (bitsAt 8 w 8))
  | 0xB1 => .ok (.tarm pf (bitsAt 8 w 16) (bitsAt 8 w 8) (bitsAt 8 w 0))
  | 0xB2 => whenZero (fld w 7 0) (.twait pf (bitsAt 8 w 16) (bitsAt 8 w 8))
  | 0xB3 => whenZero (fld w 15 0) (.tcons pf (bitsAt 8 w 16))
  | 0xB4 => whenZero (fld w 7 0) (.tstat pf (bitsAt 8 w 16) (bitsAt 8 w 8))
  | 0xB5 => whenZero (fld w 23 6) (.bar pf (bitsAt 1 w 5) (bitsAt 1 w 4) (bitsAt 4 w 0))
  | 0xB6 => whenZero (fld w 7 0) (.tbinit pf (bitsAt 8 w 16) (bitsAt 8 w 8))
  | 0xB7 => whenZero (fld w 7 0) (.tbexp pf (bitsAt 8 w 16) (bitsAt 8 w 8))
  | 0xB8 => whenZero (fld w 7 0) (.tbarr pf (bitsAt 8 w 16) (bitsAt 8 w 8))
  | 0xB9 => whenZero (fld w 7 3) (.tbwait pf (bitsAt 8 w 16) (bitsAt 8 w 8) (bitsAt 3 w 0))
  | 0xBA => whenZero (fld w 7 3) (.ctrwait pf (bitsAt 8 w 16) (bitsAt 8 w 8) (bitsAt 3 w 0))
  | 0xBB => whenZero (fld w 7 3) (.ctrwaitYield pf (bitsAt 8 w 16) (bitsAt 8 w 8) (bitsAt 3 w 0))
  | _ => .error .illegalCell

/-- Row 0xC_ of the opcode map (R112). -/
def decodeRowC (op w : Nat) (pf : Pfx) : Except DecErr Instr :=
  match op with
  | 0xC0 => whenZero (fld w 7 0 + fld w 23 20) (.mres pf (bitsAt 4 w 16) (bitsAt 8 w 8))
  | 0xC1 => whenZero (fld w 7 0 + fld w 23 20) (.mrel pf (bitsAt 4 w 16) (bitsAt 8 w 8))
  | 0xC2 => whenZero (fld w 23 20) (.mldt pf (bitsAt 4 w 16) (bitsAt 8 w 8) (bitsAt 8 w 0))
  | 0xC3 => whenZero (fld w 23 20) (.mldtC pf (bitsAt 4 w 16) (bitsAt 8 w 8) (bitsAt 8 w 0))
  | 0xC4 => whenZero (fld w 23 20) (.mldg pf (bitsAt 4 w 16) (bitsAt 8 w 8) (bitsAt 8 w 0))
  | 0xC5 => whenZero (fld w 15 0 + fld w 23 20) (.mzero pf (bitsAt 4 w 16))
  | 0xC6 => whenZero (fld w 7 4 + fld w 15 12 + fld w 23 20) (.mma pf (bitsAt 4 w 16) (bitsAt 4 w 8) (bitsAt 4 w 0))
  | 0xC7 => whenZero (fld w 7 4 + fld w 15 12 + fld w 23 20) (.mmap pf (bitsAt 4 w 16) (bitsAt 4 w 8) (bitsAt 4 w 0))
  | 0xC8 => whenZero (fld w 15 12) (.mstt pf (bitsAt 8 w 16) (bitsAt 4 w 8) (bitsAt 8 w 0))
  | 0xC9 => whenZero (fld w 7 0) (.launch pf (bitsAt 8 w 16) (bitsAt 8 w 8))
  | 0xCA => whenZero (fld w 15 0) (.nsend pf (bitsAt 8 w 16))
  | 0xCB => whenZero (fld w 15 0) (.npost pf (bitsAt 8 w 16))
  | _ => .error .illegalCell

/-- Row 0xD_ of the opcode map (R112). -/
def decodeRowD (op w : Nat) (pf : Pfx) : Except DecErr Instr :=
  match op with
  | 0xD0 => whenZero (fld w 23 16) (.bra pf (bitsAt 16 w 0))
  | 0xD1 => .ok (.brau pf (bitsAt 8 w 16) (bitsAt 16 w 0))
  | 0xD2 => whenZero (fld w 7 0 + fld w 23 16) (.brx pf (bitsAt 8 w 8))
  | 0xD3 => whenZero (fld w 23 16) (.call pf (bitsAt 16 w 0))
  | 0xD4 => whenZero (fld w 7 0 + fld w 23 16) (.callx pf (bitsAt 8 w 8))
  | 0xD5 => whenZero (fld w 23 0) (.ret pf)
  | 0xD6 => whenZero (fld w 7 0 + fld w 23 16) (.csw pf (bitsAt 8 w 8))
  | 0xD7 => whenZero (fld w 3 0 + fld w 15 8) (.rejoin pf (bitsAt 8 w 16) (bitsAt 4 w 4))
  | 0xD8 => whenZero (fld w 23 0) (.exit pf)
  | 0xD9 => whenZero (fld w 23 0) (.yield pf)
  | 0xDA => whenZero (fld w 23 0) (.nop pf)
  | 0xDB => whenZero (fld w 15 8) (.sread pf (bitsAt 8 w 16) (bitsAt 8 w 0))
  | 0xDC => whenZero (fld w 7 0) (.sreadW pf (bitsAt 8 w 16) (bitsAt 8 w 8))
  | _ => .error .illegalCell

/-- Row 0xE_ of the opcode map (R112). -/
def decodeRowE (op w : Nat) (pf : Pfx) : Except DecErr Instr :=
  match op with
  | 0xE0 => whenZero (fld w 23 16) (.trap pf (bitsAt 16 w 0))
  | 0xE1 => whenZero (fld w 23 16) (.syscall pf (bitsAt 16 w 0))
  | 0xE2 => whenZero (fld w 23 5) (.ulien pf (bitsAt 5 w 0))
  | 0xE3 => whenZero (fld w 23 5) (.ulidis pf (bitsAt 5 w 0))
  | 0xE4 => whenZero (fld w 23 0) (.uliret pf)
  | 0xE5 => whenZero (fld w 23 16) (.brkpt pf (bitsAt 16 w 0))
  | 0xE6 => whenZero (fld w 23 16) (.event pf (bitsAt 16 w 0))
  | _ => .error .illegalCell

/-- The instruction of a base word with its prefixes. -/
def decodeBase (w : Nat) (pf : Pfx) : Except DecErr Instr :=
  let op := w / 2 ^ 24 % 256
  match op / 16 with
  | 0x0 => decodeRow0 op w pf
  | 0x1 => decodeRow1 op w pf
  | 0x2 => decodeRow2 op w pf
  | 0x3 => decodeRow3 op w pf
  | 0x4 => decodeRow4 op w pf
  | 0x5 => decodeRow5 op w pf
  | 0x6 => decodeRow6 op w pf
  | 0x7 => decodeRow7 op w pf
  | 0x8 => decodeRow8 op w pf
  | 0x9 => decodeRow9 op w pf
  | 0xA => decodeRowA op w pf
  | 0xB => decodeRowB op w pf
  | 0xC => decodeRowC op w pf
  | 0xD => decodeRowD op w pf
  | 0xE => decodeRowE op w pf
  | 0xF => .error .malformed
  | _ => .error .illegalCell

/-- Is the word a REP prefix (R100)? -/
def isRep (w : Nat) : Bool := w / 2 ^ 27 == 31

/-- Is the word a MOD prefix (R100)? -/
def isMod (w : Nat) : Bool := w / 2 ^ 27 == 30

/-- The instruction at the head of a list of words, and how many words it takes. -/
def decodeWords : List Nat → Except DecErr (Instr × Nat)
  | [] => .error .tooShort
  | w :: t =>
    if isRep w then
      match t with
      | [] => .error .tooShort
      | w1 :: t1 =>
        if isMod w1 then
          match t1 with
          | [] => .error .tooShort
          | w2 :: _ =>
            if fld w 6 0 ≠ 0 then .error .repReserved
            else (decodeBase w2 ⟨some (decodeRep w), some (decodeMod w1)⟩).map (·, 3)
        else if fld w 6 0 ≠ 0 then .error .repReserved
        else (decodeBase w1 ⟨some (decodeRep w), none⟩).map (·, 2)
    else if isMod w then
      match t with
      | [] => .error .tooShort
      | w1 :: _ => (decodeBase w1 ⟨none, some (decodeMod w)⟩).map (·, 2)
    else (decodeBase w Pfx.none).map (·, 1)

/-- Bytes gathered into 32-bit words, each little-endian (R1); bytes short of a word are dropped. -/
def wordsOf : List Byte → List Nat
  | a :: b :: c :: d :: t => ofLE [a, b, c, d] :: wordsOf t
  | _ => []

/-- The instruction at the head of a list of bytes, and how many bytes it takes. -/
def decode (bs : List Byte) : Except DecErr (Instr × Nat) :=
  (decodeWords (wordsOf bs)).map (fun p => (p.1, 4 * p.2))

/-- The instruction the decoder reads from an opcode-table word (bit 0 least significant of the first word), with zeros
in every bit above nbits up to the longest instruction. -/
def decodeTableWord (nbits w : Nat) : Option Instr :=
  match decode (toLE 12 (w % 2 ^ nbits)) with
  | .ok (i, _) => some i
  | .error _ => none

/-- The MOD prefix word (R101). -/
def encodeMod (m : Mod) : Nat :=
  30 * 2 ^ 27 + ofB m.gen * 2 ^ 26 + ofB m.gneg * 2 ^ 25 + m.gp.toNat * 2 ^ 22 + m.fd.toNat * 2 ^ 20
  + m.fa.toNat * 2 ^ 18 + m.fb.toNat * 2 ^ 16 + ofB m.nega * 2 ^ 15 + ofB m.negb * 2 ^ 14 + ofB m.absa * 2 ^ 13
  + ofB m.absb * 2 ^ 12 + m.satc.toNat * 2 ^ 10 + m.scl.toNat * 2 ^ 6 + m.rnd.toNat * 2 ^ 3 + ofB m.reuse * 2 ^ 2
  + ofB m.feta * 2 ^ 1 + ofB m.fetb

/-- The REP prefix word (R105). -/
def encodeRep (r : Rep) : Nat :=
  31 * 2 ^ 27 + r.cnt.toNat * 2 ^ 21 + ofB r.sd * 2 ^ 20 + ofB r.sa * 2 ^ 19 + ofB r.sb * 2 ^ 18
  + r.stride.toNat * 2 ^ 16 + ofB r.xd * 2 ^ 15 + ofB r.xa * 2 ^ 14 + ofB r.xb * 2 ^ 13 + r.kd.toNat * 2 ^ 11
  + r.ka.toNat * 2 ^ 9 + r.kb.toNat * 2 ^ 7

/-- A word with field v added at bit lo. -/
def putF {n : Nat} (v : BitVec n) (lo w : Nat) : Nat := w + v.toNat * 2 ^ lo

/-- The base word: the opcode, then the fields at their places (R100, R109). -/
def encodeBase : Instr → Option Nat
  | .iadd _ d a b => some (putF d 16 (putF a 8 (putF b 0 (0x0))))
  | .isub _ d a b => some (putF d 16 (putF a 8 (putF b 0 (0x1000000))))
  | .imul _ d a b => some (putF d 16 (putF a 8 (putF b 0 (0x2000000))))
  | .imulh _ d a b => some (putF d 16 (putF a 8 (putF b 0 (0x3000000))))
  | .imulhHu _ d a b => some (putF d 16 (putF a 8 (putF b 0 (0x4000000))))
  | .imad _ d a b => some (putF d 16 (putF a 8 (putF b 0 (0x5000000))))
  | .add64 _ d a b => some (putF d 16 (putF a 8 (putF b 0 (0x6000000))))
  | .sub64 _ d a b => some (putF d 16 (putF a 8 (putF b 0 (0x7000000))))
  | .mul64 _ d a b => some (putF d 16 (putF a 8 (putF b 0 (0x8000000))))
  | .addc _ d a b => some (putF d 16 (putF a 8 (putF b 0 (0x9000000))))
  | .subb _ d a b => some (putF d 16 (putF a 8 (putF b 0 (0xA000000))))
  | .imin _ d a b => some (putF d 16 (putF a 8 (putF b 0 (0xB000000))))
  | .iminNu _ d a b => some (putF d 16 (putF a 8 (putF b 0 (0xC000000))))
  | .imax _ d a b => some (putF d 16 (putF a 8 (putF b 0 (0xD000000))))
  | .imaxNu _ d a b => some (putF d 16 (putF a 8 (putF b 0 (0xE000000))))
  | .lea _ d a b => some (putF d 16 (putF a 8 (putF b 0 (0xF000000))))
  | .and _ d a b => some (putF d 16 (putF a 8 (putF b 0 (0x10000000))))
  | .or _ d a b => some (putF d 16 (putF a 8 (putF b 0 (0x11000000))))
  | .xor _ d a b => some (putF d 16 (putF a 8 (putF b 0 (0x12000000))))
  | .andn _ d a b => some (putF d 16 (putF a 8 (putF b 0 (0x13000000))))
  | .shl _ d a b => some (putF d 16 (putF a 8 (putF b 0 (0x14000000))))
  | .shr _ d a b => some (putF d 16 (putF a 8 (putF b 0 (0x15000000))))
  | .sar _ d a b => some (putF d 16 (putF a 8 (putF b 0 (0x16000000))))
  | .rot _ d a b => some (putF d 16 (putF a 8 (putF b 0 (0x17000000))))
  | .funnel _ d a b => some (putF d 16 (putF a 8 (putF b 0 (0x18000000))))
  | .bfe _ d a b => some (putF d 16 (putF a 8 (putF b 0 (0x19000000))))
  | .bfi _ d a b => some (putF d 16 (putF a 8 (putF b 0 (0x1A000000))))
  | .popc _ d a => some (putF d 16 (putF a 8 (0x1B000000)))
  | .clz _ d a => some (putF d 16 (putF a 8 (0x1C000000)))
  | .ctz _ d a => some (putF d 16 (putF a 8 (0x1D000000)))
  | .brev _ d a => some (putF d 16 (putF a 8 (0x1E000000)))
  | .mov _ d a => some (putF d 16 (putF a 8 (0x1F000000)))
  | .sel _ d a b => some (putF d 16 (putF a 8 (putF b 0 (0x20000000))))
  | .isetp _ c p a b => some (putF c 19 (putF p 16 (putF a 8 (putF b 0 (0x21000000)))))
  | .isetp64 _ c p a b => some (putF c 19 (putF p 16 (putF a 8 (putF b 0 (0x22000000)))))
  | .psetp _ c p x y => some (putF c 19 (putF p 16 (putF x 8 (putF y 0 (0x23000000)))))
  | .movi _ d i => some (putF d 16 (putF i 0 (0x24000000)))
  | .movhi _ d i => some (putF d 16 (putF i 0 (0x25000000)))
  | .idot4 _ d a b => some (putF d 16 (putF a 8 (putF b 0 (0x26000000))))
  | .dmuls _ d a b => some (putF d 16 (putF a 8 (putF b 0 (0x27000000))))
  | .hash _ d a b => some (putF d 16 (putF a 8 (putF b 0 (0x28000000))))
  | .hcomb _ d a b => some (putF d 16 (putF a 8 (putF b 0 (0x29000000))))
  | .part _ d a b => some (putF d 16 (putF a 8 (putF b 0 (0x2A000000))))
  | .bloom _ d a b => some (putF d 16 (putF a 8 (putF b 0 (0x2B000000))))
  | .scmp _ d a b => some (putF d 16 (putF a 8 (putF b 0 (0x2C000000))))
  | .sfind _ d a b => some (putF d 16 (putF a 8 (putF b 0 (0x2D000000))))
  | .slen _ d a => some (putF d 16 (putF a 8 (0x2E000000)))
  | .shash _ d a b => some (putF d 16 (putF a 8 (putF b 0 (0x2F000000))))
  | .fadd _ d a b => some (putF d 16 (putF a 8 (putF b 0 (0x30000000))))
  | .fmul _ d a b => some (putF d 16 (putF a 8 (putF b 0 (0x31000000))))
  | .ffma _ d a b => some (putF d 16 (putF a 8 (putF b 0 (0x32000000))))
  | .fmin _ d a b => some (putF d 16 (putF a 8 (putF b 0 (0x33000000))))
  | .fmax _ d a b => some (putF d 16 (putF a 8 (putF b 0 (0x34000000))))
  | .fcmp _ c p a b => some (putF c 19 (putF p 16 (putF a 8 (putF b 0 (0x35000000)))))
  | .fclass _ d a => some (putF d 16 (putF a 8 (0x36000000)))
  | .frnd _ d a => some (putF d 16 (putF a 8 (0x37000000)))
  | .hadd2 _ d a b => some (putF d 16 (putF a 8 (putF b 0 (0x38000000))))
  | .hmul2 _ d a b => some (putF d 16 (putF a 8 (putF b 0 (0x39000000))))
  | .hfma2 _ d a b => some (putF d 16 (putF a 8 (putF b 0 (0x3A000000))))
  | .bdot2 _ d a b => some (putF d 16 (putF a 8 (putF b 0 (0x3B000000))))
  | .dadd _ d a b => some (putF d 16 (putF a 8 (putF b 0 (0x3C000000))))
  | .dmul _ d a b => some (putF d 16 (putF a 8 (putF b 0 (0x3D000000))))
  | .dfma _ d a b => some (putF d 16 (putF a 8 (putF b 0 (0x3E000000))))
  | .dcmp _ c p a b => some (putF c 19 (putF p 16 (putF a 8 (putF b 0 (0x3F000000)))))
  | .shfl _ d a n f => some (putF d 16 (putF a 8 (putF n 4 (putF f 0 (0x40000000)))))
  | .shflx _ d a n f => some (putF d 16 (putF a 8 (putF n 4 (putF f 0 (0x41000000)))))
  | .perm _ d a n => some (putF d 16 (putF a 8 (putF n 4 (0x42000000))))
  | .vote _ d a n f => some (putF d 16 (putF a 8 (putF n 4 (putF f 0 (0x43000000)))))
  | .matchL _ d a n f => some (putF d 16 (putF a 8 (putF n 4 (putF f 0 (0x44000000)))))
  | .reduce _ d a n f => some (putF d 16 (putF a 8 (putF n 4 (putF f 0 (0x45000000)))))
  | .reduceF _ d a n f => some (putF d 16 (putF a 8 (putF n 4 (putF f 0 (0x46000000)))))
  | .scan _ d a n f => some (putF d 16 (putF a 8 (putF n 4 (putF f 0 (0x47000000)))))
  | .scanF _ d a n f => some (putF d 16 (putF a 8 (putF n 4 (putF f 0 (0x48000000)))))
  | .popm _ d a n f => some (putF d 16 (putF a 8 (putF n 4 (putF f 0 (0x49000000)))))
  | .hdm16 _ d a n => some (putF d 16 (putF a 8 (putF n 4 (0x4A000000))))
  | .hdm32 _ d a n => some (putF d 16 (putF a 8 (putF n 4 (0x4B000000))))
  | .hadd2Bf16 _ d a b => some (putF d 16 (putF a 8 (putF b 0 (0x4C000000))))
  | .hmul2Bf16 _ d a b => some (putF d 16 (putF a 8 (putF b 0 (0x4D000000))))
  | .hfma2Bf16 _ d a b => some (putF d 16 (putF a 8 (putF b 0 (0x4E000000))))
  | .ckpack _ d a q n => some (putF d 16 (putF a 8 (putF q 3 (putF n 0 (0x50000000)))))
  | .ckunpk _ d a q => some (putF d 16 (putF a 8 (putF q 3 (0x51000000))))
  | .ckadd _ d a b => some (putF d 16 (putF a 8 (putF b 0 (0x52000000))))
  | .cksub _ d a b => some (putF d 16 (putF a 8 (putF b 0 (0x53000000))))
  | .ckaxis _ d a q x => some (putF d 16 (putF a 8 (putF q 3 (putF x 0 (0x54000000)))))
  | .ckins _ d a q x => some (putF d 16 (putF a 8 (putF q 3 (putF x 0 (0x55000000)))))
  | .ckcmp _ c p a b => some (putF c 19 (putF p 16 (putF a 8 (putF b 0 (0x56000000)))))
  | .ckbox _ c p a b => some (putF c 19 (putF p 16 (putF a 8 (putF b 0 (0x57000000)))))
  | .cknext _ d a b => some (putF d 16 (putF a 8 (putF b 0 (0x58000000))))
  | .ckprev _ d a b => some (putF d 16 (putF a 8 (putF b 0 (0x59000000))))
  | .cksplit _ d => some (putF d 16 (0x5A000000))
  | .ckrlist _ d a b => some (putF d 16 (putF a 8 (putF b 0 (0x5B000000))))
  | .cklvl _ d a m l => some (putF d 16 (putF a 8 (putF m 6 (putF l 0 (0x5C000000)))))
  | .ckwide _ d a w => some (putF d 16 (putF a 8 (putF w 0 (0x5D000000))))
  | .uadd _ d a b => some (putF d 16 (putF a 8 (putF b 0 (0x60000000))))
  | .usub _ d a b => some (putF d 16 (putF a 8 (putF b 0 (0x61000000))))
  | .umul _ d a b => some (putF d 16 (putF a 8 (putF b 0 (0x62000000))))
  | .uand _ d a b => some (putF d 16 (putF a 8 (putF b 0 (0x63000000))))
  | .uor _ d a b => some (putF d 16 (putF a 8 (putF b 0 (0x64000000))))
  | .uxor _ d a b => some (putF d 16 (putF a 8 (putF b 0 (0x65000000))))
  | .ushl _ d a b => some (putF d 16 (putF a 8 (putF b 0 (0x66000000))))
  | .ushr _ d a b => some (putF d 16 (putF a 8 (putF b 0 (0x67000000))))
  | .usetp _ c p a b => some (putF c 19 (putF p 16 (putF a 8 (putF b 0 (0x68000000)))))
  | .usel _ d a b => some (putF d 16 (putF a 8 (putF b 0 (0x69000000))))
  | .umov _ d a => some (putF d 16 (putF a 8 (0x6A000000)))
  | .umovi _ d i => some (putF d 16 (putF i 0 (0x6B000000)))
  | .umovhi _ d i => some (putF d 16 (putF i 0 (0x6C000000)))
  | .elect _ c p a => some (putF c 19 (putF p 16 (putF a 8 (0x6D000000))))
  | .ubcast _ d a f l => some (putF d 16 (putF a 8 (putF f 6 (putF l 0 (0x6E000000)))))
  | .rcp _ d a => some (putF d 16 (putF a 8 (0x70000000)))
  | .rsq _ d a => some (putF d 16 (putF a 8 (0x71000000)))
  | .sqrt _ d a => some (putF d 16 (putF a 8 (0x72000000)))
  | .exp2 _ d a => some (putF d 16 (putF a 8 (0x73000000)))
  | .log2 _ d a => some (putF d 16 (putF a 8 (0x74000000)))
  | .sin _ d a => some (putF d 16 (putF a 8 (0x75000000)))
  | .cos _ d a => some (putF d 16 (putF a 8 (0x76000000)))
  | .tanh _ d a => some (putF d 16 (putF a 8 (0x77000000)))
  | .fdiv _ d a b => some (putF d 16 (putF a 8 (putF b 0 (0x78000000))))
  | .idiv _ d a b => some (putF d 16 (putF a 8 (putF b 0 (0x79000000))))
  | .idivNu _ d a b => some (putF d 16 (putF a 8 (putF b 0 (0x7A000000))))
  | .irem _ d a b => some (putF d 16 (putF a 8 (putF b 0 (0x7B000000))))
  | .iremNu _ d a b => some (putF d 16 (putF a 8 (putF b 0 (0x7C000000))))
  | .f2f _ d a y x => some (putF d 16 (putF a 8 (putF y 4 (putF x 0 (0x80000000)))))
  | .f2i _ d a y x => some (putF d 16 (putF a 8 (putF y 4 (putF x 0 (0x81000000)))))
  | .i2f _ d a y x => some (putF d 16 (putF a 8 (putF y 4 (putF x 0 (0x82000000)))))
  | .qscale _ d a b => some (putF d 16 (putF a 8 (putF b 0 (0x83000000))))
  | .qscaleAdapt _ d a b => some (putF d 16 (putF a 8 (putF b 0 (0x84000000))))
  | .qpack _ d a b => some (putF d 16 (putF a 8 (putF b 0 (0x85000000))))
  | .qunpk _ d a e f => some (putF d 16 (putF a 8 (putF e 4 (putF f 0 (0x86000000)))))
  | .ldZ8 _ d a b => some (putF d 16 (putF a 8 (putF b 0 (0x90000000))))
  | .ldS8 _ d a b => some (putF d 16 (putF a 8 (putF b 0 (0x91000000))))
  | .ldZ16 _ d a b => some (putF d 16 (putF a 8 (putF b 0 (0x92000000))))
  | .ldS16 _ d a b => some (putF d 16 (putF a 8 (putF b 0 (0x93000000))))
  | .ld _ d a b => some (putF d 16 (putF a 8 (putF b 0 (0x94000000))))
  | .ldB64 _ d a b => some (putF d 16 (putF a 8 (putF b 0 (0x95000000))))
  | .ldB128 _ d a b => some (putF d 16 (putF a 8 (putF b 0 (0x96000000))))
  | .ldC _ d a t => some (putF d 16 (putF a 8 (putF t 0 (0x97000000))))
  | .ldCB128 _ d a t => some (putF d 16 (putF a 8 (putF t 0 (0x98000000))))
  | .stB8 _ d a b => some (putF d 16 (putF a 8 (putF b 0 (0x99000000))))
  | .stB16 _ d a b => some (putF d 16 (putF a 8 (putF b 0 (0x9A000000))))
  | .st _ d a b => some (putF d 16 (putF a 8 (putF b 0 (0x9B000000))))
  | .stB64 _ d a b => some (putF d 16 (putF a 8 (putF b 0 (0x9C000000))))
  | .stB128 _ d a b => some (putF d 16 (putF a 8 (putF b 0 (0x9D000000))))
  | .lds _ d a z s => some (putF d 16 (putF a 8 (putF z 3 (putF s 0 (0x9E000000)))))
  | .sts _ d a z s => some (putF d 16 (putF a 8 (putF z 3 (putF s 0 (0x9F000000)))))
  | .uld _ d a b => some (putF d 16 (putF a 8 (putF b 0 (0xA0000000))))
  | .uldB64 _ d a b => some (putF d 16 (putF a 8 (putF b 0 (0xA1000000))))
  | .ust _ d a b => some (putF d 16 (putF a 8 (putF b 0 (0xA2000000))))
  | .ustB64 _ d a b => some (putF d 16 (putF a 8 (putF b 0 (0xA3000000))))
  | .atom _ d a o k s => some (putF d 16 (putF a 8 (putF o 4 (putF k 3 (putF s 0 (0xA4000000))))))
  | .cas _ d a z s => some (putF d 16 (putF a 8 (putF z 3 (putF s 0 (0xA5000000)))))
  | .red _ d a o k s => some (putF d 16 (putF a 8 (putF o 4 (putF k 3 (putF s 0 (0xA6000000))))))
  | .fence _ k s => some (putF k 3 (putF s 0 (0xA7000000)))
  | .prefL1 _ a r => some (putF a 8 (putF r 2 (0xA8000000)))
  | .prefL2 _ a r => some (putF a 8 (putF r 2 (0xA8000001)))
  | .prefHbm _ a r => some (putF a 8 (putF r 2 (0xA8000002)))
  | .prefTier _ d a t r => some (putF d 16 (putF a 8 (putF t 3 (putF r 2 (0xA8000003)))))
  | .residQ _ d a => some (putF d 16 (putF a 8 (0xA9000000)))
  | .residKeep _ a => some (putF a 8 (0xA9000001))
  | .residEvict _ a => some (putF a 8 (0xA9000002))
  | .sldx _ d a u n => some (putF d 16 (putF a 8 (putF u 4 (putF n 0 (0xAA000000)))))
  | .sstx _ d a u n => some (putF d 16 (putF a 8 (putF u 4 (putF n 0 (0xAB000000)))))
  | .tdef _ t a => some (putF t 16 (putF a 8 (0xB0000000)))
  | .tarm _ t a b => some (putF t 16 (putF a 8 (putF b 0 (0xB1000000))))
  | .twait _ t a => some (putF t 16 (putF a 8 (0xB2000000)))
  | .tcons _ t => some (putF t 16 (0xB3000000))
  | .tstat _ d t => some (putF d 16 (putF t 8 (0xB4000000)))
  | .bar _ u v k => some (putF u 5 (putF v 4 (putF k 0 (0xB5000000))))
  | .tbinit _ d a => some (putF d 16 (putF a 8 (0xB6000000)))
  | .tbexp _ d a => some (putF d 16 (putF a 8 (0xB7000000)))
  | .tbarr _ d a => some (putF d 16 (putF a 8 (0xB8000000)))
  | .tbwait _ d a p => some (putF d 16 (putF a 8 (putF p 0 (0xB9000000))))
  | .ctrwait _ d a s => some (putF d 16 (putF a 8 (putF s 0 (0xBA000000))))
  | .ctrwaitYield _ d a s => some (putF d 16 (putF a 8 (putF s 0 (0xBB000000))))
  | .mres _ r a => some (putF r 16 (putF a 8 (0xC0000000)))
  | .mrel _ r a => some (putF r 16 (putF a 8 (0xC1000000)))
  | .mldt _ r t b => some (putF r 16 (putF t 8 (putF b 0 (0xC2000000))))
  | .mldtC _ r t b => some (putF r 16 (putF t 8 (putF b 0 (0xC3000000))))
  | .mldg _ r a b => some (putF r 16 (putF a 8 (putF b 0 (0xC4000000))))
  | .mzero _ r => some (putF r 16 (0xC5000000))
  | .mma _ c a b => some (putF c 16 (putF a 8 (putF b 0 (0xC6000000))))
  | .mmap _ c a b => some (putF c 16 (putF a 8 (putF b 0 (0xC7000000))))
  | .mstt _ t a b => some (putF t 16 (putF a 8 (putF b 0 (0xC8000000))))
  | .launch _ d a => some (putF d 16 (putF a 8 (0xC9000000)))
  | .nsend _ d => some (putF d 16 (0xCA000000))
  | .npost _ d => some (putF d 16 (0xCB000000))
  | .bra _ o => some (putF o 0 (0xD0000000))
  | .brau _ g o => some (putF g 16 (putF o 0 (0xD1000000)))
  | .brx _ a => some (putF a 8 (0xD2000000))
  | .call _ o => some (putF o 0 (0xD3000000))
  | .callx _ a => some (putF a 8 (0xD4000000))
  | .ret _ => some (0xD5000000)
  | .csw _ a => some (putF a 8 (0xD6000000))
  | .rejoin _ k n => some (putF k 16 (putF n 4 (0xD7000000)))
  | .exit _ => some (0xD8000000)
  | .yield _ => some (0xD9000000)
  | .nop _ => some (0xDA000000)
  | .sread _ d s => some (putF d 16 (putF s 0 (0xDB000000)))
  | .sreadW _ s a => some (putF s 16 (putF a 8 (0xDC000000)))
  | .trap _ c => some (putF c 0 (0xE0000000))
  | .syscall _ c => some (putF c 0 (0xE1000000))
  | .ulien _ m => some (putF m 0 (0xE2000000))
  | .ulidis _ m => some (putF m 0 (0xE3000000))
  | .uliret _ => some (0xE4000000)
  | .brkpt _ c => some (putF c 0 (0xE5000000))
  | .event _ c => some (putF c 0 (0xE6000000))
  | _ => none

/-- Fields D, A and B of the base word (R100), each a byte; zero in a device step. -/
def Instr.fields : Instr → Nat × Nat × Nat
  | .iadd _ d a b => (d.toNat, a.toNat, b.toNat)
  | .isub _ d a b => (d.toNat, a.toNat, b.toNat)
  | .imul _ d a b => (d.toNat, a.toNat, b.toNat)
  | .imulh _ d a b => (d.toNat, a.toNat, b.toNat)
  | .imulhHu _ d a b => (d.toNat, a.toNat, b.toNat)
  | .imad _ d a b => (d.toNat, a.toNat, b.toNat)
  | .add64 _ d a b => (d.toNat, a.toNat, b.toNat)
  | .sub64 _ d a b => (d.toNat, a.toNat, b.toNat)
  | .mul64 _ d a b => (d.toNat, a.toNat, b.toNat)
  | .addc _ d a b => (d.toNat, a.toNat, b.toNat)
  | .subb _ d a b => (d.toNat, a.toNat, b.toNat)
  | .imin _ d a b => (d.toNat, a.toNat, b.toNat)
  | .iminNu _ d a b => (d.toNat, a.toNat, b.toNat)
  | .imax _ d a b => (d.toNat, a.toNat, b.toNat)
  | .imaxNu _ d a b => (d.toNat, a.toNat, b.toNat)
  | .lea _ d a b => (d.toNat, a.toNat, b.toNat)
  | .and _ d a b => (d.toNat, a.toNat, b.toNat)
  | .or _ d a b => (d.toNat, a.toNat, b.toNat)
  | .xor _ d a b => (d.toNat, a.toNat, b.toNat)
  | .andn _ d a b => (d.toNat, a.toNat, b.toNat)
  | .shl _ d a b => (d.toNat, a.toNat, b.toNat)
  | .shr _ d a b => (d.toNat, a.toNat, b.toNat)
  | .sar _ d a b => (d.toNat, a.toNat, b.toNat)
  | .rot _ d a b => (d.toNat, a.toNat, b.toNat)
  | .funnel _ d a b => (d.toNat, a.toNat, b.toNat)
  | .bfe _ d a b => (d.toNat, a.toNat, b.toNat)
  | .bfi _ d a b => (d.toNat, a.toNat, b.toNat)
  | .popc _ d a => (d.toNat, a.toNat, 0)
  | .clz _ d a => (d.toNat, a.toNat, 0)
  | .ctz _ d a => (d.toNat, a.toNat, 0)
  | .brev _ d a => (d.toNat, a.toNat, 0)
  | .mov _ d a => (d.toNat, a.toNat, 0)
  | .sel _ d a b => (d.toNat, a.toNat, b.toNat)
  | .isetp _ c p a b => (c.toNat * 8 + p.toNat, a.toNat, b.toNat)
  | .isetp64 _ c p a b => (c.toNat * 8 + p.toNat, a.toNat, b.toNat)
  | .psetp _ c p x y => (c.toNat * 8 + p.toNat, x.toNat, y.toNat)
  | .movi _ d i => (d.toNat, i.toNat / 256, i.toNat % 256)
  | .movhi _ d i => (d.toNat, i.toNat / 256, i.toNat % 256)
  | .idot4 _ d a b => (d.toNat, a.toNat, b.toNat)
  | .dmuls _ d a b => (d.toNat, a.toNat, b.toNat)
  | .hash _ d a b => (d.toNat, a.toNat, b.toNat)
  | .hcomb _ d a b => (d.toNat, a.toNat, b.toNat)
  | .part _ d a b => (d.toNat, a.toNat, b.toNat)
  | .bloom _ d a b => (d.toNat, a.toNat, b.toNat)
  | .scmp _ d a b => (d.toNat, a.toNat, b.toNat)
  | .sfind _ d a b => (d.toNat, a.toNat, b.toNat)
  | .slen _ d a => (d.toNat, a.toNat, 0)
  | .shash _ d a b => (d.toNat, a.toNat, b.toNat)
  | .fadd _ d a b => (d.toNat, a.toNat, b.toNat)
  | .fmul _ d a b => (d.toNat, a.toNat, b.toNat)
  | .ffma _ d a b => (d.toNat, a.toNat, b.toNat)
  | .fmin _ d a b => (d.toNat, a.toNat, b.toNat)
  | .fmax _ d a b => (d.toNat, a.toNat, b.toNat)
  | .fcmp _ c p a b => (c.toNat * 8 + p.toNat, a.toNat, b.toNat)
  | .fclass _ d a => (d.toNat, a.toNat, 0)
  | .frnd _ d a => (d.toNat, a.toNat, 0)
  | .hadd2 _ d a b => (d.toNat, a.toNat, b.toNat)
  | .hmul2 _ d a b => (d.toNat, a.toNat, b.toNat)
  | .hfma2 _ d a b => (d.toNat, a.toNat, b.toNat)
  | .bdot2 _ d a b => (d.toNat, a.toNat, b.toNat)
  | .dadd _ d a b => (d.toNat, a.toNat, b.toNat)
  | .dmul _ d a b => (d.toNat, a.toNat, b.toNat)
  | .dfma _ d a b => (d.toNat, a.toNat, b.toNat)
  | .dcmp _ c p a b => (c.toNat * 8 + p.toNat, a.toNat, b.toNat)
  | .shfl _ d a n f => (d.toNat, a.toNat, n.toNat * 16 + f.toNat)
  | .shflx _ d a n f => (d.toNat, a.toNat, n.toNat * 16 + f.toNat)
  | .perm _ d a n => (d.toNat, a.toNat, n.toNat * 16)
  | .vote _ d a n f => (d.toNat, a.toNat, n.toNat * 16 + f.toNat)
  | .matchL _ d a n f => (d.toNat, a.toNat, n.toNat * 16 + f.toNat)
  | .reduce _ d a n f => (d.toNat, a.toNat, n.toNat * 16 + f.toNat)
  | .reduceF _ d a n f => (d.toNat, a.toNat, n.toNat * 16 + f.toNat)
  | .scan _ d a n f => (d.toNat, a.toNat, n.toNat * 16 + f.toNat)
  | .scanF _ d a n f => (d.toNat, a.toNat, n.toNat * 16 + f.toNat)
  | .popm _ d a n f => (d.toNat, a.toNat, n.toNat * 16 + f.toNat)
  | .hdm16 _ d a n => (d.toNat, a.toNat, n.toNat * 16)
  | .hdm32 _ d a n => (d.toNat, a.toNat, n.toNat * 16)
  | .hadd2Bf16 _ d a b => (d.toNat, a.toNat, b.toNat)
  | .hmul2Bf16 _ d a b => (d.toNat, a.toNat, b.toNat)
  | .hfma2Bf16 _ d a b => (d.toNat, a.toNat, b.toNat)
  | .ckpack _ d a q n => (d.toNat, a.toNat, q.toNat * 8 + n.toNat)
  | .ckunpk _ d a q => (d.toNat, a.toNat, q.toNat * 8)
  | .ckadd _ d a b => (d.toNat, a.toNat, b.toNat)
  | .cksub _ d a b => (d.toNat, a.toNat, b.toNat)
  | .ckaxis _ d a q x => (d.toNat, a.toNat, q.toNat * 8 + x.toNat)
  | .ckins _ d a q x => (d.toNat, a.toNat, q.toNat * 8 + x.toNat)
  | .ckcmp _ c p a b => (c.toNat * 8 + p.toNat, a.toNat, b.toNat)
  | .ckbox _ c p a b => (c.toNat * 8 + p.toNat, a.toNat, b.toNat)
  | .cknext _ d a b => (d.toNat, a.toNat, b.toNat)
  | .ckprev _ d a b => (d.toNat, a.toNat, b.toNat)
  | .cksplit _ d => (d.toNat, 0, 0)
  | .ckrlist _ d a b => (d.toNat, a.toNat, b.toNat)
  | .cklvl _ d a m l => (d.toNat, a.toNat, m.toNat * 64 + l.toNat)
  | .ckwide _ d a w => (d.toNat, a.toNat, w.toNat)
  | .uadd _ d a b => (d.toNat, a.toNat, b.toNat)
  | .usub _ d a b => (d.toNat, a.toNat, b.toNat)
  | .umul _ d a b => (d.toNat, a.toNat, b.toNat)
  | .uand _ d a b => (d.toNat, a.toNat, b.toNat)
  | .uor _ d a b => (d.toNat, a.toNat, b.toNat)
  | .uxor _ d a b => (d.toNat, a.toNat, b.toNat)
  | .ushl _ d a b => (d.toNat, a.toNat, b.toNat)
  | .ushr _ d a b => (d.toNat, a.toNat, b.toNat)
  | .usetp _ c p a b => (c.toNat * 8 + p.toNat, a.toNat, b.toNat)
  | .usel _ d a b => (d.toNat, a.toNat, b.toNat)
  | .umov _ d a => (d.toNat, a.toNat, 0)
  | .umovi _ d i => (d.toNat, i.toNat / 256, i.toNat % 256)
  | .umovhi _ d i => (d.toNat, i.toNat / 256, i.toNat % 256)
  | .elect _ c p a => (c.toNat * 8 + p.toNat, a.toNat, 0)
  | .ubcast _ d a f l => (d.toNat, a.toNat, f.toNat * 64 + l.toNat)
  | .rcp _ d a => (d.toNat, a.toNat, 0)
  | .rsq _ d a => (d.toNat, a.toNat, 0)
  | .sqrt _ d a => (d.toNat, a.toNat, 0)
  | .exp2 _ d a => (d.toNat, a.toNat, 0)
  | .log2 _ d a => (d.toNat, a.toNat, 0)
  | .sin _ d a => (d.toNat, a.toNat, 0)
  | .cos _ d a => (d.toNat, a.toNat, 0)
  | .tanh _ d a => (d.toNat, a.toNat, 0)
  | .fdiv _ d a b => (d.toNat, a.toNat, b.toNat)
  | .idiv _ d a b => (d.toNat, a.toNat, b.toNat)
  | .idivNu _ d a b => (d.toNat, a.toNat, b.toNat)
  | .irem _ d a b => (d.toNat, a.toNat, b.toNat)
  | .iremNu _ d a b => (d.toNat, a.toNat, b.toNat)
  | .f2f _ d a y x => (d.toNat, a.toNat, y.toNat * 16 + x.toNat)
  | .f2i _ d a y x => (d.toNat, a.toNat, y.toNat * 16 + x.toNat)
  | .i2f _ d a y x => (d.toNat, a.toNat, y.toNat * 16 + x.toNat)
  | .qscale _ d a b => (d.toNat, a.toNat, b.toNat)
  | .qscaleAdapt _ d a b => (d.toNat, a.toNat, b.toNat)
  | .qpack _ d a b => (d.toNat, a.toNat, b.toNat)
  | .qunpk _ d a e f => (d.toNat, a.toNat, e.toNat * 16 + f.toNat)
  | .ldZ8 _ d a b => (d.toNat, a.toNat, b.toNat)
  | .ldS8 _ d a b => (d.toNat, a.toNat, b.toNat)
  | .ldZ16 _ d a b => (d.toNat, a.toNat, b.toNat)
  | .ldS16 _ d a b => (d.toNat, a.toNat, b.toNat)
  | .ld _ d a b => (d.toNat, a.toNat, b.toNat)
  | .ldB64 _ d a b => (d.toNat, a.toNat, b.toNat)
  | .ldB128 _ d a b => (d.toNat, a.toNat, b.toNat)
  | .ldC _ d a t => (d.toNat, a.toNat, t.toNat)
  | .ldCB128 _ d a t => (d.toNat, a.toNat, t.toNat)
  | .stB8 _ d a b => (d.toNat, a.toNat, b.toNat)
  | .stB16 _ d a b => (d.toNat, a.toNat, b.toNat)
  | .st _ d a b => (d.toNat, a.toNat, b.toNat)
  | .stB64 _ d a b => (d.toNat, a.toNat, b.toNat)
  | .stB128 _ d a b => (d.toNat, a.toNat, b.toNat)
  | .lds _ d a z s => (d.toNat, a.toNat, z.toNat * 8 + s.toNat)
  | .sts _ d a z s => (d.toNat, a.toNat, z.toNat * 8 + s.toNat)
  | .uld _ d a b => (d.toNat, a.toNat, b.toNat)
  | .uldB64 _ d a b => (d.toNat, a.toNat, b.toNat)
  | .ust _ d a b => (d.toNat, a.toNat, b.toNat)
  | .ustB64 _ d a b => (d.toNat, a.toNat, b.toNat)
  | .atom _ d a o k s => (d.toNat, a.toNat, o.toNat * 16 + k.toNat * 8 + s.toNat)
  | .cas _ d a z s => (d.toNat, a.toNat, z.toNat * 8 + s.toNat)
  | .red _ d a o k s => (d.toNat, a.toNat, o.toNat * 16 + k.toNat * 8 + s.toNat)
  | .fence _ k s => (0, 0, k.toNat * 8 + s.toNat)
  | .prefL1 _ a r => (0, a.toNat, r.toNat * 4)
  | .prefL2 _ a r => (0, a.toNat, r.toNat * 4 + 1)
  | .prefHbm _ a r => (0, a.toNat, r.toNat * 4 + 2)
  | .prefTier _ d a t r => (d.toNat, a.toNat, t.toNat * 8 + r.toNat * 4 + 3)
  | .residQ _ d a => (d.toNat, a.toNat, 0)
  | .residKeep _ a => (0, a.toNat, 1)
  | .residEvict _ a => (0, a.toNat, 2)
  | .sldx _ d a u n => (d.toNat, a.toNat, u.toNat * 16 + n.toNat)
  | .sstx _ d a u n => (d.toNat, a.toNat, u.toNat * 16 + n.toNat)
  | .tdef _ t a => (t.toNat, a.toNat, 0)
  | .tarm _ t a b => (t.toNat, a.toNat, b.toNat)
  | .twait _ t a => (t.toNat, a.toNat, 0)
  | .tcons _ t => (t.toNat, 0, 0)
  | .tstat _ d t => (d.toNat, t.toNat, 0)
  | .bar _ u v k => (0, 0, u.toNat * 32 + v.toNat * 16 + k.toNat)
  | .tbinit _ d a => (d.toNat, a.toNat, 0)
  | .tbexp _ d a => (d.toNat, a.toNat, 0)
  | .tbarr _ d a => (d.toNat, a.toNat, 0)
  | .tbwait _ d a p => (d.toNat, a.toNat, p.toNat)
  | .ctrwait _ d a s => (d.toNat, a.toNat, s.toNat)
  | .ctrwaitYield _ d a s => (d.toNat, a.toNat, s.toNat)
  | .mres _ r a => (r.toNat, a.toNat, 0)
  | .mrel _ r a => (r.toNat, a.toNat, 0)
  | .mldt _ r t b => (r.toNat, t.toNat, b.toNat)
  | .mldtC _ r t b => (r.toNat, t.toNat, b.toNat)
  | .mldg _ r a b => (r.toNat, a.toNat, b.toNat)
  | .mzero _ r => (r.toNat, 0, 0)
  | .mma _ c a b => (c.toNat, a.toNat, b.toNat)
  | .mmap _ c a b => (c.toNat, a.toNat, b.toNat)
  | .mstt _ t a b => (t.toNat, a.toNat, b.toNat)
  | .launch _ d a => (d.toNat, a.toNat, 0)
  | .nsend _ d => (d.toNat, 0, 0)
  | .npost _ d => (d.toNat, 0, 0)
  | .bra _ o => (0, o.toNat / 256, o.toNat % 256)
  | .brau _ g o => (g.toNat, o.toNat / 256, o.toNat % 256)
  | .brx _ a => (0, a.toNat, 0)
  | .call _ o => (0, o.toNat / 256, o.toNat % 256)
  | .callx _ a => (0, a.toNat, 0)
  | .ret _ => (0, 0, 0)
  | .csw _ a => (0, a.toNat, 0)
  | .rejoin _ k n => (k.toNat, 0, n.toNat * 16)
  | .exit _ => (0, 0, 0)
  | .yield _ => (0, 0, 0)
  | .nop _ => (0, 0, 0)
  | .sread _ d s => (d.toNat, 0, s.toNat)
  | .sreadW _ s a => (s.toNat, a.toNat, 0)
  | .trap _ c => (0, c.toNat / 256, c.toNat % 256)
  | .syscall _ c => (0, c.toNat / 256, c.toNat % 256)
  | .ulien _ m => (0, 0, m.toNat)
  | .ulidis _ m => (0, 0, m.toNat)
  | .uliret _ => (0, 0, 0)
  | .brkpt _ c => (0, c.toNat / 256, c.toNat % 256)
  | .event _ c => (0, c.toNat / 256, c.toNat % 256)
  | _ => (0, 0, 0)

/-- The prefixes of an instruction. -/
def Instr.pfx : Instr → Pfx
  | .iadd pf _ _ _ => pf
  | .isub pf _ _ _ => pf
  | .imul pf _ _ _ => pf
  | .imulh pf _ _ _ => pf
  | .imulhHu pf _ _ _ => pf
  | .imad pf _ _ _ => pf
  | .add64 pf _ _ _ => pf
  | .sub64 pf _ _ _ => pf
  | .mul64 pf _ _ _ => pf
  | .addc pf _ _ _ => pf
  | .subb pf _ _ _ => pf
  | .imin pf _ _ _ => pf
  | .iminNu pf _ _ _ => pf
  | .imax pf _ _ _ => pf
  | .imaxNu pf _ _ _ => pf
  | .lea pf _ _ _ => pf
  | .and pf _ _ _ => pf
  | .or pf _ _ _ => pf
  | .xor pf _ _ _ => pf
  | .andn pf _ _ _ => pf
  | .shl pf _ _ _ => pf
  | .shr pf _ _ _ => pf
  | .sar pf _ _ _ => pf
  | .rot pf _ _ _ => pf
  | .funnel pf _ _ _ => pf
  | .bfe pf _ _ _ => pf
  | .bfi pf _ _ _ => pf
  | .popc pf _ _ => pf
  | .clz pf _ _ => pf
  | .ctz pf _ _ => pf
  | .brev pf _ _ => pf
  | .mov pf _ _ => pf
  | .sel pf _ _ _ => pf
  | .isetp pf _ _ _ _ => pf
  | .isetp64 pf _ _ _ _ => pf
  | .psetp pf _ _ _ _ => pf
  | .movi pf _ _ => pf
  | .movhi pf _ _ => pf
  | .idot4 pf _ _ _ => pf
  | .dmuls pf _ _ _ => pf
  | .hash pf _ _ _ => pf
  | .hcomb pf _ _ _ => pf
  | .part pf _ _ _ => pf
  | .bloom pf _ _ _ => pf
  | .scmp pf _ _ _ => pf
  | .sfind pf _ _ _ => pf
  | .slen pf _ _ => pf
  | .shash pf _ _ _ => pf
  | .fadd pf _ _ _ => pf
  | .fmul pf _ _ _ => pf
  | .ffma pf _ _ _ => pf
  | .fmin pf _ _ _ => pf
  | .fmax pf _ _ _ => pf
  | .fcmp pf _ _ _ _ => pf
  | .fclass pf _ _ => pf
  | .frnd pf _ _ => pf
  | .hadd2 pf _ _ _ => pf
  | .hmul2 pf _ _ _ => pf
  | .hfma2 pf _ _ _ => pf
  | .bdot2 pf _ _ _ => pf
  | .dadd pf _ _ _ => pf
  | .dmul pf _ _ _ => pf
  | .dfma pf _ _ _ => pf
  | .dcmp pf _ _ _ _ => pf
  | .shfl pf _ _ _ _ => pf
  | .shflx pf _ _ _ _ => pf
  | .perm pf _ _ _ => pf
  | .vote pf _ _ _ _ => pf
  | .matchL pf _ _ _ _ => pf
  | .reduce pf _ _ _ _ => pf
  | .reduceF pf _ _ _ _ => pf
  | .scan pf _ _ _ _ => pf
  | .scanF pf _ _ _ _ => pf
  | .popm pf _ _ _ _ => pf
  | .hdm16 pf _ _ _ => pf
  | .hdm32 pf _ _ _ => pf
  | .hadd2Bf16 pf _ _ _ => pf
  | .hmul2Bf16 pf _ _ _ => pf
  | .hfma2Bf16 pf _ _ _ => pf
  | .ckpack pf _ _ _ _ => pf
  | .ckunpk pf _ _ _ => pf
  | .ckadd pf _ _ _ => pf
  | .cksub pf _ _ _ => pf
  | .ckaxis pf _ _ _ _ => pf
  | .ckins pf _ _ _ _ => pf
  | .ckcmp pf _ _ _ _ => pf
  | .ckbox pf _ _ _ _ => pf
  | .cknext pf _ _ _ => pf
  | .ckprev pf _ _ _ => pf
  | .cksplit pf _ => pf
  | .ckrlist pf _ _ _ => pf
  | .cklvl pf _ _ _ _ => pf
  | .ckwide pf _ _ _ => pf
  | .uadd pf _ _ _ => pf
  | .usub pf _ _ _ => pf
  | .umul pf _ _ _ => pf
  | .uand pf _ _ _ => pf
  | .uor pf _ _ _ => pf
  | .uxor pf _ _ _ => pf
  | .ushl pf _ _ _ => pf
  | .ushr pf _ _ _ => pf
  | .usetp pf _ _ _ _ => pf
  | .usel pf _ _ _ => pf
  | .umov pf _ _ => pf
  | .umovi pf _ _ => pf
  | .umovhi pf _ _ => pf
  | .elect pf _ _ _ => pf
  | .ubcast pf _ _ _ _ => pf
  | .rcp pf _ _ => pf
  | .rsq pf _ _ => pf
  | .sqrt pf _ _ => pf
  | .exp2 pf _ _ => pf
  | .log2 pf _ _ => pf
  | .sin pf _ _ => pf
  | .cos pf _ _ => pf
  | .tanh pf _ _ => pf
  | .fdiv pf _ _ _ => pf
  | .idiv pf _ _ _ => pf
  | .idivNu pf _ _ _ => pf
  | .irem pf _ _ _ => pf
  | .iremNu pf _ _ _ => pf
  | .f2f pf _ _ _ _ => pf
  | .f2i pf _ _ _ _ => pf
  | .i2f pf _ _ _ _ => pf
  | .qscale pf _ _ _ => pf
  | .qscaleAdapt pf _ _ _ => pf
  | .qpack pf _ _ _ => pf
  | .qunpk pf _ _ _ _ => pf
  | .ldZ8 pf _ _ _ => pf
  | .ldS8 pf _ _ _ => pf
  | .ldZ16 pf _ _ _ => pf
  | .ldS16 pf _ _ _ => pf
  | .ld pf _ _ _ => pf
  | .ldB64 pf _ _ _ => pf
  | .ldB128 pf _ _ _ => pf
  | .ldC pf _ _ _ => pf
  | .ldCB128 pf _ _ _ => pf
  | .stB8 pf _ _ _ => pf
  | .stB16 pf _ _ _ => pf
  | .st pf _ _ _ => pf
  | .stB64 pf _ _ _ => pf
  | .stB128 pf _ _ _ => pf
  | .lds pf _ _ _ _ => pf
  | .sts pf _ _ _ _ => pf
  | .uld pf _ _ _ => pf
  | .uldB64 pf _ _ _ => pf
  | .ust pf _ _ _ => pf
  | .ustB64 pf _ _ _ => pf
  | .atom pf _ _ _ _ _ => pf
  | .cas pf _ _ _ _ => pf
  | .red pf _ _ _ _ _ => pf
  | .fence pf _ _ => pf
  | .prefL1 pf _ _ => pf
  | .prefL2 pf _ _ => pf
  | .prefHbm pf _ _ => pf
  | .prefTier pf _ _ _ _ => pf
  | .residQ pf _ _ => pf
  | .residKeep pf _ => pf
  | .residEvict pf _ => pf
  | .sldx pf _ _ _ _ => pf
  | .sstx pf _ _ _ _ => pf
  | .tdef pf _ _ => pf
  | .tarm pf _ _ _ => pf
  | .twait pf _ _ => pf
  | .tcons pf _ => pf
  | .tstat pf _ _ => pf
  | .bar pf _ _ _ => pf
  | .tbinit pf _ _ => pf
  | .tbexp pf _ _ => pf
  | .tbarr pf _ _ => pf
  | .tbwait pf _ _ _ => pf
  | .ctrwait pf _ _ _ => pf
  | .ctrwaitYield pf _ _ _ => pf
  | .mres pf _ _ => pf
  | .mrel pf _ _ => pf
  | .mldt pf _ _ _ => pf
  | .mldtC pf _ _ _ => pf
  | .mldg pf _ _ _ => pf
  | .mzero pf _ => pf
  | .mma pf _ _ _ => pf
  | .mmap pf _ _ _ => pf
  | .mstt pf _ _ _ => pf
  | .launch pf _ _ => pf
  | .nsend pf _ => pf
  | .npost pf _ => pf
  | .bra pf _ => pf
  | .brau pf _ _ => pf
  | .brx pf _ => pf
  | .call pf _ => pf
  | .callx pf _ => pf
  | .ret pf => pf
  | .csw pf _ => pf
  | .rejoin pf _ _ => pf
  | .exit pf => pf
  | .yield pf => pf
  | .nop pf => pf
  | .sread pf _ _ => pf
  | .sreadW pf _ _ => pf
  | .trap pf _ => pf
  | .syscall pf _ => pf
  | .ulien pf _ => pf
  | .ulidis pf _ => pf
  | .uliret pf => pf
  | .brkpt pf _ => pf
  | .event pf _ => pf
  | _ => Pfx.none

/-- The words of an instruction (R100): REP, MOD, base. A device step has none. -/
def encodeWords (i : Instr) : Option (List Nat) :=
  (encodeBase i).map fun w =>
    (match i.pfx.rep with | some r => [encodeRep r] | none => [])
    ++ (match i.pfx.mod with | some m => [encodeMod m] | none => []) ++ [w]

/-- The bytes of an instruction, each word little-endian (R1). -/
def encode (i : Instr) : Option (List Byte) :=
  (encodeWords i).map fun ws => ws.flatMap (toLE 4)

end Sys2Proof
end

