-- ==== Sys2Proof/Machine/Encoding.lean ====
section
/-! DEFINITION. What the encoding of each instruction allows (R102 to R107, R109 to R113 and the descriptions): its home
class and file, what fields D, A and B name, the MOD fields it honours, and the checks of R114 step 2 that need no
register value. -/

namespace Sys2Proof

/-- The two register files (R113). -/
inductive RegFile where
  | w
  | g
deriving DecidableEq, Repr

/-- What one field of the base word names (R109): the registers read and written, as offsets from the register named;
the multiple that register must be (R43); the selectors the field takes (R102). A field that names no register has no
offsets and selector 0 only. -/
structure FieldSpec where
  rd : List Nat
  wr : List Nat
  align : Nat
  sel : List Nat
  file : RegFile
deriving DecidableEq, Repr

/-- A field that names no register (R110). -/
def FieldSpec.none : FieldSpec := ⟨[], [], 1, [0], .w⟩

/-- Does the field name a register (R110)? -/
def FieldSpec.named (f : FieldSpec) : Bool := !(f.rd.isEmpty && f.wr.isEmpty && f.sel == [0])

/-- Does the field name a register, read or written (R104)? -/
def FieldSpec.isReg (f : FieldSpec) : Bool := !(f.rd.isEmpty && f.wr.isEmpty)

/-- What an instruction's encoding allows. -/
structure OpSpec where
  cls : Nat
  file : RegFile
  d : FieldSpec
  a : FieldSpec
  b : FieldSpec
  mask : Option Nat
  gAlso : Bool
  pred : Bool
  nega : Bool
  negb : Bool
  absa : Bool
  absb : Bool
  satc : List Nat
  scl : List Nat
  rnd : List Nat
  reuse : Bool
  fet : Bool
  /-- Does D grow by four registers for each range that B asks for, up to eight (CKRLIST, R197)? -/
  rlist : Bool
  /-- Is field A no operand A (CSW's pair): an empty register of it parks, whatever FETA (R55, R140)? -/
  parkA : Bool
  guarded : Bool
  selGp : Bool
  noMod : Bool
  rep : Bool
  long : Bool
  ok : Bool
deriving DecidableEq, Repr

namespace Enc

/-- A register read. -/
def rdF (n al : Nat) (sel : List Nat) (f : RegFile := .w) : FieldSpec := ⟨span 0 n, [], al, sel, f⟩

/-- A register written. -/
def wrF (n al : Nat) (sel : List Nat) (f : RegFile := .w) : FieldSpec := ⟨[], span 0 n, al, sel, f⟩

/-- A register read, then written. -/
def rwF (n al : Nat) (sel : List Nat) (f : RegFile := .w) : FieldSpec := ⟨span 0 n, span 0 n, al, sel, f⟩

/-- All sixteen values of SCL (R101). -/
def anyScl : List Nat := span 0 16

/-- An instruction that honours the guard and nothing else. -/
def bare (cls : Nat) (d a b : FieldSpec) : OpSpec :=
  { cls := cls, file := .w, d := d, a := a, b := b, mask := none, gAlso := false, pred := false,
    nega := false, negb := false, absa := false, absb := false, satc := [0], scl := [0], rnd := [0],
    reuse := false, fet := false, rlist := false, parkA := false, guarded := true, selGp := false, noMod := false, rep := false, long := false,
    ok := true }

/-- A lane instruction of class 0: it also honours REUSE, FETA and FETB, and takes REP (R104, R106, R118). -/
def lane (d a b : FieldSpec) : OpSpec := { bare 0 d a b with reuse := true, fet := true, rep := true }

/-- TRI of width 32 (R109): D may be a queue port, A a pop, B an immediate (R102, R129). -/
def tri : OpSpec := lane (wrF 1 1 [0, 1, 3]) (rdF 1 1 [0, 1, 2, 3]) (rdF 1 1 [0, 1, 2, 3])
/-- TRI of width 64. -/
def tri64 : OpSpec := lane (wrF 2 2 [0, 1]) (rdF 2 2 [0, 1, 2]) (rdF 2 2 [0, 1, 2, 3])
/-- ACC of width 32. -/
def acc : OpSpec := lane (rwF 1 1 [0, 1]) (rdF 1 1 [0, 1, 2, 3]) (rdF 1 1 [0, 1, 2, 3])
/-- ACC of width 64. -/
def acc64 : OpSpec := lane (rwF 2 2 [0, 1]) (rdF 2 2 [0, 1, 2]) (rdF 2 2 [0, 1, 2, 3])
/-- UNA of width 32. -/
def una : OpSpec := lane (wrF 1 1 [0, 1, 3]) (rdF 1 1 [0, 1, 2, 3]) .none
/-- CMP of width 32. -/
def cmp : OpSpec := { lane .none (rdF 1 1 [0, 1, 2, 3]) (rdF 1 1 [0, 1, 2, 3]) with pred := true }
/-- CMP of width 64. -/
def cmp64 : OpSpec := { lane .none (rdF 2 2 [0, 1, 2]) (rdF 2 2 [0, 1, 2, 3]) with pred := true }

/-- The MOD fields of a rounded two-operand floating instruction (R150, R155 to R157). -/
def flt (s : OpSpec) : OpSpec :=
  { s with
    nega := true, negb := true, absa := true, absb := true, satc := [0, 1, 2, 3], scl := anyScl,
    rnd := [0, 1, 2, 3, 4, 5] }

/-- A floating instruction that honours the sign modifiers alone (R150, R152). -/
def fsign (s : OpSpec) : OpSpec := { s with nega := true, negb := true, absa := true, absb := true }

/-- A cross-lane instruction (R168): no queue port on A, and the member mask pair g(2n):g(2n+1). -/
def xl (d : FieldSpec) (an al : Nat) (n : Nat) : OpSpec :=
  { lane d (rdF an al [0, 1, 2]) .none with mask := some (2 * n) }

/-- A uniform instruction (R130): home file g, no guard, no REUSE. -/
def unif (d a b : FieldSpec) : OpSpec :=
  { bare 1 d a b with file := .g, fet := true, guarded := false, rep := true }

/-- A uniform TRI. -/
def utri : OpSpec := unif (wrF 1 1 [0, 1, 3] .g) (rdF 1 1 [0, 1, 3] .g) (rdF 1 1 [0, 1, 3] .g)

/-- A queued instruction of class 3 (R161): a long-latency producer without REUSE or queue ports. -/
def sfu (d a b : FieldSpec) : OpSpec := { bare 3 d a b with fet := true, rep := true, long := true }

/-- A queued special function (R162). -/
def sfn : OpSpec :=
  { sfu (wrF 1 1 [0, 1]) (rdF 1 1 [0, 1, 2]) .none with
    nega := true, absa := true, satc := [0, 1, 2, 3], rnd := [0, 1, 2, 3, 4, 5] }

/-- A memory instruction (R207). -/
def mem (d a b : FieldSpec) : OpSpec := { bare 2 d a b with fet := true, rep := true }

/-- The MEM form (R208): a base pair and an offset, which O64 (ABSB) makes a pair. -/
def memForm (d : FieldSpec) (o64 : Bool) : OpSpec :=
  { mem d (rdF 2 2 [0, 1, 2]) (if o64 then rdF 2 2 [0, 1, 2, 3] else rdF 1 1 [0, 1, 2, 3]) with
    negb := true, absb := true, scl := anyScl }

/-- The uniform MEM form (R210). -/
def umemForm (d : FieldSpec) (o64 : Bool) : OpSpec :=
  { memForm d o64 with
    file := .g, guarded := false, d := { d with file := .g }, a := rdF 2 2 [0, 1] .g,
    b := if o64 then rdF 2 2 [0, 1, 3] .g else rdF 1 1 [0, 1, 3] .g }

/-- The MFN form (R109): data register and address pair. -/
def mfn (d : FieldSpec) : OpSpec := mem d (rdF 2 2 [0, 1, 2]) .none

/-- Registers of an access of n bytes: a word, pair or quad. -/
def regs (bytes : Nat) : Nat := if bytes ≤ 4 then 1 else bytes / 4

/-- The size code of LDS, STS and CAS (R214, R216). -/
def szBytes (z : Nat) : Nat := 4 * 2 ^ z

/-- A tile instruction (R225): guard only, no REP, FETA not honoured (R207). -/
def til (d a b : FieldSpec) : OpSpec := bare 2 d a b

/-- A class 4 instruction (R238). -/
def cis (d a b : FieldSpec) : OpSpec := { bare 4 d a b with fet := true }

/-- A control instruction (R136). -/
def ctl (d a b : FieldSpec) : OpSpec := { bare 5 d a b with fet := true }

/-- A floating format code (R148). -/
def fmtOk (x : Nat) : Bool := decide (x < 8)

end Enc

open Enc in
/-- What the encoding of each instruction allows. A device step (a row without an encoding) has none. -/
def Instr.spec : Instr → Option OpSpec
  | .iadd _ _ _ _ | .isub _ _ _ _ | .imul _ _ _ _ => some { tri with satc := [0, 1] }
  | .imulh _ _ _ _ | .imulhHu _ _ _ _ => some tri
  | .imad _ _ _ _ => some { acc with satc := [0, 1] }
  | .add64 _ _ _ _ | .sub64 _ _ _ _ => some { tri64 with satc := [0, 1] }
  | .mul64 _ _ _ _ => some tri64
  | .addc _ _ _ _ | .subb _ _ _ _ => some { acc with d := ⟨[0], [0, 1], 1, [0, 1], .w⟩ }
  | .imin _ _ _ _ | .iminNu _ _ _ _ | .imax _ _ _ _ | .imaxNu _ _ _ _ => some tri
  | .lea _ _ _ _ =>
    some { lane (wrF 2 2 [0, 1]) (rdF 2 2 [0, 1, 2]) (rdF 1 1 [0, 1, 2, 3]) with scl := span 0 8 }
  | .and _ _ _ _ | .or _ _ _ _ | .xor _ _ _ _ | .andn _ _ _ _ => some tri
  | .shl _ _ _ _ | .shr _ _ _ _ | .sar _ _ _ _ | .rot _ _ _ _ => some tri
  | .funnel _ _ _ _ => some acc
  | .bfe _ _ _ _ => some { tri with b := rdF 1 1 [0, 1, 2] }
  | .bfi _ _ _ _ => some { acc with b := rdF 1 1 [0, 1, 2] }
  | .popc _ _ _ | .clz _ _ _ | .ctz _ _ _ | .brev _ _ _ | .mov _ _ _ => some una
  | .sel _ _ _ _ => some { tri with selGp := true }
  | .isetp _ c _ _ _ => some { cmp with ok := decide (c.toNat < 10) }
  | .isetp64 _ c _ _ _ => some { cmp64 with ok := decide (c.toNat < 10) }
  | .psetp _ c _ _ y =>
    some { lane .none .none .none with
           pred := true, fet := false,
           ok := decide (c.toNat < 7) || (c == 7#5 && y == 0#3) }
  | .movi _ _ _ => some { lane (wrF 1 1 [0, 1, 3]) .none .none with fet := false }
  | .movhi _ _ _ => some { lane (rwF 1 1 [0, 1]) .none .none with fet := false }
  | .idot4 _ _ _ _ => some { acc with satc := [0, 1] }
  | .dmuls _ _ _ _ =>
    some { acc64 with d := ⟨[0], span 0 4, 4, [0, 1], .w⟩, rnd := [0, 1, 2, 3, 4, 5] }
  | .hash _ _ _ _ | .hcomb _ _ _ _ | .part _ _ _ _ | .bloom _ _ _ _ => some tri
  | .scmp _ _ _ _ => some { tri with a := rdF 4 4 [0, 1], b := rdF 4 4 [0, 1] }
  | .sfind _ _ _ _ | .shash _ _ _ _ => some { tri with a := rdF 4 4 [0, 1] }
  | .slen _ _ _ => some { una with a := rdF 4 4 [0, 1] }
  | .fadd _ _ _ _ | .fmul _ _ _ _ => some (flt tri)
  | .ffma _ _ _ _ => some (flt acc)
  | .fmin _ _ _ _ | .fmax _ _ _ _ => some (fsign tri)
  | .fcmp _ c _ _ _ => some { fsign cmp with ok := decide (c.toNat < 14) }
  | .fclass _ _ _ => some una
  | .frnd _ _ _ =>
    some { una with nega := true, absa := true, satc := [0, 1, 2, 3], rnd := [0, 1, 2, 3, 4, 5] }
  | .hadd2 _ _ _ _ | .hmul2 _ _ _ _ | .hadd2Bf16 _ _ _ _ | .hmul2Bf16 _ _ _ _ => some (flt tri)
  | .hfma2 _ _ _ _ | .hfma2Bf16 _ _ _ _ | .bdot2 _ _ _ _ => some (flt acc)
  | .dadd _ _ _ _ | .dmul _ _ _ _ => some (flt tri64)
  | .dfma _ _ _ _ => some (flt acc64)
  | .dcmp _ c _ _ _ => some { fsign cmp64 with ok := decide (c.toNat < 14) }
  | .shfl _ _ _ n f => some { xl (rwF 1 1 [0, 1]) 1 1 n.toNat with ok := decide (f.toNat < 5) }
  | .shflx _ _ _ n f =>
    some { xl ⟨[0], [0, 1], 2, [0, 1], .w⟩ 2 2 n.toNat with ok := decide (f.toNat < 5) }
  | .perm _ _ _ n => some (xl (rwF 1 1 [0, 1]) 1 1 n.toNat)
  | .vote _ _ _ n f => some { xl (wrF 2 2 [2] .g) 1 1 n.toNat with ok := decide (f.toNat < 4) }
  | .matchL _ _ _ n f =>
    let k := if f.getLsbD 0 then 2 else 1
    some { xl (wrF 2 2 [0, 1]) k k n.toNat with ok := decide (f.toNat < 4) }
  | .reduce _ _ _ n f => some { xl (wrF 1 1 [2] .g) 1 1 n.toNat with ok := decide (f.toNat < 8) }
  | .reduceF _ _ _ n f =>
    some { xl (wrF 1 1 [2] .g) 1 1 n.toNat with ok := decide (f.toNat < 3), nega := true, absa := true }
  | .scan _ _ _ n _ => some { xl (wrF 1 1 [0, 1]) 1 1 n.toNat with gAlso := true }
  | .scanF _ _ _ n f =>
    some { xl (wrF 1 1 [0, 1]) 1 1 n.toNat with
           gAlso := true, ok := decide (f.toNat % 8 < 3), nega := true, absa := true }
  | .popm _ _ _ n f => some { xl (wrF 1 1 [0, 1, 3]) 1 1 n.toNat with ok := decide (f.toNat < 2) }
  | .hdm16 _ _ _ n | .hdm32 _ _ _ n => some (xl (wrF 1 1 [0, 1, 3]) 1 1 n.toNat)
  | .ckpack _ _ _ q n =>
    let k := if q == 1#1 then 2 else 1
    some { lane (wrF (2 * k) (2 * k) [0, 1]) (rdF (k * (n.toNat + 1)) k [0, 1, 2]) .none with satc := [0, 1] }
  | .ckunpk _ _ _ q =>
    if q == 1#1 then some (lane ⟨[], [0, 1], 2, [0, 1], .w⟩ (rdF 4 4 [0, 1]) .none)
    else some (lane (wrF 1 1 [0, 1]) (rdF 2 2 [0, 1, 2]) .none)
  | .ckadd _ _ _ _ | .cksub _ _ _ _ => some { tri64 with satc := [0, 1] }
  | .ckaxis _ _ _ q _ =>
    if q == 1#1 then some (lane (wrF 2 2 [0, 1]) (rdF 4 4 [0, 1]) .none)
    else some (lane (wrF 1 1 [0, 1]) (rdF 2 2 [0, 1, 2]) .none)
  | .ckins _ _ _ q _ =>
    let k := if q == 1#1 then 2 else 1
    some { lane (rwF (2 * k) (2 * k) [0, 1]) (rdF k k [0, 1, 2]) .none with satc := [0, 1] }
  | .ckcmp _ c _ _ _ =>
    if c.toNat < 8 then some { cmp64 with ok := decide (c.toNat < 7) }
    else some { lane .none (rdF 4 4 [0, 1]) (rdF 4 4 [0, 1]) with pred := true, ok := decide (c.toNat < 15) }
  | .ckbox _ c _ _ _ =>
    some { lane .none (rdF 2 2 [0, 1, 2]) (rdF 4 4 [0, 1]) with pred := true, ok := decide (c.toNat < 3) }
  | .cknext _ _ _ b | .ckprev _ _ _ b =>
    some { lane (rwF 2 2 [0, 1]) (rdF 4 4 [0, 1]) ⟨[], [], 1, [3], .w⟩ with ok := decide (b.toNat < 2) }
  | .cksplit _ _ => some { lane ⟨span 0 4, span 0 8, 4, [0, 1], .w⟩ .none .none with fet := false }
  | .ckrlist _ _ _ _ =>
    some { lane ⟨[0, 1], span 0 4, 4, [0, 1], .w⟩ (rdF 4 4 [0, 1]) (rdF 1 1 [0, 1, 2, 3]) with rlist := true }
  | .cklvl _ _ _ m l =>
    if m == 2#2 then some { lane (wrF 1 1 [0, 1]) (rdF 2 2 [0, 1, 2]) .none with ok := l == 0#6 }
    else some { lane (wrF 2 2 [0, 1]) (rdF 2 2 [0, 1, 2]) .none with ok := m != 3#2 }
  | .ckwide _ _ _ w =>
    if w == 0#1 then some { lane (wrF 4 4 [0, 1]) (rdF 2 2 [0, 1, 2]) .none with satc := [0, 1] }
    else some { lane (wrF 2 2 [0, 1]) (rdF 4 4 [0, 1]) .none with satc := [0, 1] }
  | .uadd _ _ _ _ | .usub _ _ _ _ | .umul _ _ _ _ => some { utri with satc := [0, 1] }
  | .uand _ _ _ _ | .uor _ _ _ _ | .uxor _ _ _ _ | .ushl _ _ _ _ | .ushr _ _ _ _ => some utri
  | .usetp _ c _ _ _ => some { utri with d := .none, pred := true, ok := decide (c.toNat < 10) }
  | .usel _ _ _ _ => some { utri with selGp := true }
  | .umov _ _ _ => some { utri with b := .none }
  | .umovi _ _ _ => some { unif (wrF 1 1 [0, 1, 3] .g) .none .none with fet := false }
  | .umovhi _ _ _ => some { unif (rwF 1 1 [0, 1] .g) .none .none with fet := false }
  | .elect _ c _ a =>
    if c.toNat < 2 then some { unif .none .none .none with pred := true, fet := false, ok := a == 0#8 }
    else if c.toNat = 2 then some { unif .none (rdF 2 2 [0, 1] .g) .none with pred := true }
    else some { unif .none (rdF 1 1 [0, 1] .g) .none with pred := true, ok := c == 3#5 }
  | .ubcast _ _ _ f l =>
    some { unif (wrF 1 1 [0, 1, 3] .g) (rdF 1 1 [0, 1] .w) .none with ok := f == 0#1 || l == 0#6 }
  | .rcp _ _ _ | .rsq _ _ _ | .sqrt _ _ _ | .exp2 _ _ _ | .log2 _ _ _ | .sin _ _ _ | .cos _ _ _ | .tanh _ _ _ =>
    some sfn
  | .fdiv _ _ _ _ => some { sfn with b := rdF 1 1 [0, 1, 2, 3], negb := true, absb := true }
  | .idiv _ _ _ _ =>
    some { sfu (wrF 1 1 [0, 1]) (rdF 1 1 [0, 1, 2]) (rdF 1 1 [0, 1, 2, 3]) with satc := [0, 1] }
  | .idivNu _ _ _ _ | .irem _ _ _ _ | .iremNu _ _ _ _ =>
    some (sfu (wrF 1 1 [0, 1]) (rdF 1 1 [0, 1, 2]) (rdF 1 1 [0, 1, 2, 3]))
  | .f2f _ _ _ y x =>
    let n := if y == 3#4 then 2 else 1
    let k := if x == 3#4 then 2 else 1
    some { sfu (wrF n n [0, 1]) (rdF k k [0, 1, 2]) .none with
           nega := true, absa := true, satc := [0, 1, 2, 3], scl := anyScl, rnd := [0, 1, 2, 3, 4, 5, 6],
           ok := fmtOk x.toNat && fmtOk y.toNat }
  | .f2i _ _ _ y x =>
    let n := if y == 2#4 || y == 3#4 then 2 else 1
    let k := if x == 3#4 then 2 else 1
    some { sfu (wrF n n [0, 1]) (rdF k k [0, 1, 2]) .none with
           nega := true, absa := true, scl := anyScl, rnd := [0, 1, 2, 3, 4, 5, 6],
           ok := fmtOk x.toNat && fmtOk y.toNat }
  | .i2f _ _ _ y x =>
    let n := if y == 3#4 then 2 else 1
    let k := if x == 2#4 || x == 3#4 then 2 else 1
    some { sfu (wrF n n [0, 1]) (rdF k k [0, 1, 2]) .none with
           satc := [0, 1, 2, 3], scl := anyScl, rnd := [0, 1, 2, 3, 4, 5],
           ok := fmtOk x.toNat && fmtOk y.toNat }
  | .qscale _ _ _ b =>
    some { sfu (wrF 1 1 [0, 1]) (rdF 1 1 [0, 1, 2]) ⟨[], [], 1, [3], .w⟩ with
           absa := true, ok := decide (4 ≤ b.toNat) && decide (b.toNat < 8) }
  | .qscaleAdapt _ _ _ _ =>
    some { sfu (rwF 1 1 [0, 1]) (rdF 1 1 [0, 1, 2]) (rdF 1 1 [0, 1, 2, 3]) with absa := true }
  | .qpack _ _ _ _ =>
    some { sfu ⟨[1], [0, 1], 2, [0, 1], .w⟩ (rdF 4 4 [0, 1]) (rdF 1 1 [0, 1, 2]) with
           satc := [0, 1], rnd := [0, 1, 2, 3, 4, 5, 6] }
  | .qunpk _ _ _ e f =>
    some { sfu (wrF 1 1 [0, 1]) (rdF 2 2 [0, 1, 2]) .none with
           satc := [0, 1, 2, 3], rnd := [0, 1, 2, 3, 4, 5],
           ok := decide (4 ≤ f.toNat) && decide (f.toNat < 8) && (f == 6#4 || decide (e.toNat < 4)) }
  | .ldZ8 pf _ _ _ | .ldS8 pf _ _ _ | .ldZ16 pf _ _ _ | .ldS16 pf _ _ _ | .ld pf _ _ _ =>
    some { memForm (wrF 1 1 [0, 1]) pf.m.absb with long := true }
  | .ldB64 pf _ _ _ => some { memForm (wrF 2 2 [0, 1]) pf.m.absb with long := true }
  | .ldB128 pf _ _ _ => some { memForm (wrF 4 4 [0, 1]) pf.m.absb with long := true }
  | .ldC _ _ _ _ => some { mem (wrF 1 1 [0, 1]) (rdF 2 2 [0, 1, 2]) .none with long := true }
  | .ldCB128 _ _ _ _ => some { mem (wrF 4 4 [0, 1]) (rdF 2 2 [0, 1, 2]) .none with long := true }
  | .stB8 pf _ _ _ | .stB16 pf _ _ _ | .st pf _ _ _ => some (memForm (rdF 1 1 [0, 1]) pf.m.absb)
  | .stB64 pf _ _ _ => some (memForm (rdF 2 2 [0, 1]) pf.m.absb)
  | .stB128 pf _ _ _ => some (memForm (rdF 4 4 [0, 1]) pf.m.absb)
  | .lds _ _ _ z s =>
    let n := regs (szBytes z.toNat)
    some { mfn (wrF n n [0, 1]) with
           satc := [0, 1], scl := anyScl, long := true, ok := z != 3#2 && decide (s.toNat < 5) }
  | .sts _ _ _ z s =>
    let n := regs (szBytes z.toNat)
    some { mfn (rdF n n [0, 1]) with satc := [0, 2], scl := anyScl, ok := z != 3#2 && decide (s.toNat < 5) }
  | .uld pf _ _ _ => some { umemForm (wrF 1 1 [0, 1]) pf.m.absb with long := true }
  | .uldB64 pf _ _ _ => some { umemForm (wrF 2 2 [0, 1]) pf.m.absb with long := true }
  | .ust pf _ _ _ => some (umemForm (rdF 1 1 [0, 1]) pf.m.absb)
  | .ustB64 pf _ _ _ => some (umemForm (rdF 2 2 [0, 1]) pf.m.absb)
  | .atom pf _ _ o k s =>
    let n := k.toNat + 1
    let nr := pf.m.rnd == 1#3
    some { mfn (if nr then rdF n n [0, 1] else rwF n n [0, 1]) with
           satc := [0, 1, 2, 3], scl := anyScl, rnd := [0, 1], long := !nr,
           ok := decide (o.toNat < 12) && decide (s.toNat < 5) }
  | .cas _ _ _ z s =>
    let n := regs (szBytes z.toNat)
    some { mfn ⟨span 0 (2 * n), span 0 n, min 4 (2 * n), [0, 1], .w⟩ with
           satc := [0, 1, 2, 3], scl := anyScl, long := true, ok := z != 3#2 && decide (s.toNat < 5) }
  | .red _ _ _ o k s =>
    let n := k.toNat + 1
    some { mfn (rdF n n [0, 1]) with
           satc := [0, 2], scl := anyScl, ok := decide (o.toNat < 12) && o != 8#4 && decide (s.toNat < 5) }
  | .fence _ k s =>
    some { bare 2 .none .none .none with
           ok := k != 3#2 && decide (1 ≤ s.toNat) && decide (s.toNat < 5) }
  | .prefL1 _ _ _ | .prefL2 _ _ _ | .prefHbm _ _ _ => some (mfn .none)
  | .prefTier _ _ _ t _ => some (mfn (if t == 1#1 then rdF 2 2 [0, 1] else rdF 1 1 [0, 1]))
  | .residQ _ _ _ => some { mfn (wrF 1 1 [0, 1]) with long := true }
  | .residKeep _ _ | .residEvict _ _ => some (mfn .none)
  | .sldx _ _ _ _ _ => some { mfn (wrF 4 4 [0, 1]) with long := true }
  | .sstx _ _ _ _ _ => some (mfn (rdF 4 4 [0, 1]))
  | .tdef _ _ _ => some (til .none (rdF 2 2 [0, 1]) .none)
  | .tarm _ _ _ _ => some (til .none (rdF 1 1 [0, 1]) (rdF 1 1 [0, 1, 3]))
  | .twait _ _ _ => some (til .none (rdF 1 1 [0, 1]) .none)
  | .tcons _ _ => some (til .none .none .none)
  | .tstat _ _ _ => some (til (wrF 2 2 [0, 1]) .none .none)
  | .bar _ _ _ _ => some (bare 2 .none .none .none)
  | .tbinit _ _ _ | .tbexp _ _ _ => some (mfn (rdF 1 1 [0, 1]))
  | .tbarr _ _ _ => some { mfn (wrF 1 1 [0, 1]) with long := true }
  | .tbwait _ _ _ _ => some (mfn (rdF 1 1 [0, 1]))
  | .ctrwait _ _ _ s | .ctrwaitYield _ _ _ s =>
    some { mfn (rdF 2 2 [0, 1]) with ok := decide (2 ≤ s.toNat) && decide (s.toNat < 5) }
  | .mres _ _ _ => some (cis .none (rdF 1 1 [0, 1]) .none)
  | .mrel _ _ _ => some { cis .none (wrF 1 1 [0, 1]) .none with long := true }
  | .mldt _ _ _ _ | .mldtC _ _ _ _ => some (cis .none .none (rdF 2 2 [0, 1]))
  | .mldg _ _ _ _ => some (cis .none (rdF 2 2 [0, 1, 2]) (rdF 2 2 [0, 1]))
  | .mzero _ _ => some (cis .none .none .none)
  | .mma _ _ _ _ | .mmap _ _ _ _ => some { cis .none .none .none with reuse := true }
  | .mstt _ _ _ _ =>
    some { cis .none .none (rdF 1 1 [0, 1]) with
           satc := [0, 1, 2, 3], scl := anyScl, rnd := [0, 1, 2, 3, 4, 5, 6] }
  | .launch _ _ _ =>
    some { cis (rdF 8 8 [0, 1] .g) (rdF 2 2 [0, 1] .g) .none with file := .g, guarded := false }
  | .nsend _ _ | .npost _ _ => some (cis (rdF 4 4 [0, 1]) .none .none)
  | .bra _ _ | .call _ _ => some (ctl .none .none .none)
  | .brau _ _ _ => some { ctl (rdF 1 1 [0, 1] .g) .none .none with file := .g, guarded := false }
  | .brx _ _ | .callx _ _ => some (ctl .none (rdF 1 1 [0, 1, 2]) .none)
  | .ret _ | .exit _ | .yield _ | .nop _ => some (ctl .none .none .none)
  | .csw _ _ => some { ctl .none (rwF 2 2 [0, 1]) .none with parkA := true }
  | .rejoin _ _ n => some { ctl .none .none .none with noMod := true, guarded := false, mask := some (2 * n.toNat) }
  | .sread _ _ s =>
    let n := if s == 6#8 || s == 7#8 then 2 else 1
    some { ctl (wrF n n [0, 1]) .none .none with
           long := n == 2, ok := decide (s.toNat ≤ 0x0C) || (decide (0x10 ≤ s.toNat) && decide (s.toNat ≤ 0x13)) }
  | .sreadW _ s _ =>
    some { ctl .none (rdF 1 1 [0, 1]) .none with
           ok := (decide (0x09 ≤ s.toNat) && decide (s.toNat ≤ 0x0C)) ||
                 (decide (0x10 ≤ s.toNat) && decide (s.toNat ≤ 0x13)) }
  | .trap _ _ | .syscall _ _ | .ulien _ _ | .ulidis _ _ | .uliret _ | .brkpt _ _ | .event _ _ =>
    some (bare 5 .none .none .none)
  | _ => none

/-- A queue port number of field D: q8 to q15 (R57). -/
def portD (n : Nat) : Bool := decide (8 ≤ n) && decide (n < 16)

/-- A queue port number of field A: q0 to q2 and q8 to q15 (R57). -/
def portA (n : Nat) : Bool := decide (n < 3) || portD n

/-- The checks of R114 step 2 on the prefixes and fields, but for what needs a register value: selectors (R102), queue
ports (R57), honouring (R104), REP (R106) and the function (R110). Da, Aa and Ba are the fields of the base word. -/
def encOk (sp : OpSpec) (pf : Pfx) (D A : Nat) : Bool :=
  let m := pf.m
  sp.ok
  && (!sp.noMod || pf.mod.isNone)
  && (sp.guarded || !m.gen)
  && (sp.guarded || sp.selGp || (!m.gneg && m.gp == 0#3))
  && (!sp.selGp || !m.gen)
  && sp.d.sel.contains m.fd.toNat && sp.a.sel.contains m.fa.toNat && sp.b.sel.contains m.fb.toNat
  && (m.fd != 3#2 || portD D)
  && (m.fa != 3#2 || (portA A && m.fd != 3#2))
  && (sp.nega || !m.nega) && (sp.negb || !m.negb) && (sp.absa || !m.absa) && (sp.absb || !m.absb)
  && (sp.cls != 2 || m.fb != 3#2 || (!m.negb && !m.absb))
  && sp.satc.contains m.satc.toNat && sp.scl.contains m.scl.toNat && sp.rnd.contains m.rnd.toNat
  && (sp.reuse || !m.reuse)
  && (!m.feta || (sp.fet && sp.a.isReg && m.fa != 3#2))
  && (!m.fetb || (sp.fet && sp.b.isReg && m.fb != 3#2))
  && (match pf.rep with
      | none => true
      | some r =>
        sp.rep
        && (!r.sd || (sp.d.named && m.fd != 3#2)) && (!r.sa || (sp.a.named && m.fa != 3#2))
        && (!r.sb || (sp.b.named && m.fb != 3#2))
        && (!r.xd || (sp.d.named && sp.d.file == .w && m.fd == 0#2))
        && (!r.xa || (sp.a.named && sp.a.file == .w && m.fa == 0#2))
        && (!r.xb || (sp.b.named && sp.b.file == .w && m.fb == 0#2))
        && (r.xd || r.kd == 0#2) && (r.xa || r.ka == 0#2) && (r.xb || r.kb == 0#2))

/-- The home class of an opcode (R91, R112); none for a prefix or an Illegal cell. -/
def classOf (op : Nat) : Option Nat :=
  if op < 0x4F then some 0
  else if 0x50 ≤ op ∧ op < 0x5E then some 0
  else if 0x60 ≤ op ∧ op < 0x6F then some 1
  else if 0x70 ≤ op ∧ op < 0x7D then some 3
  else if 0x80 ≤ op ∧ op < 0x87 then some 3
  else if 0x90 ≤ op ∧ op < 0xAC then some 2
  else if 0xB0 ≤ op ∧ op < 0xBC then some 2
  else if 0xC0 ≤ op ∧ op < 0xCC then some 4
  else if 0xD0 ≤ op ∧ op < 0xDD then some 5
  else if 0xE0 ≤ op ∧ op < 0xE7 then some 5
  else none

/-- Is the opcode a control transfer (R96)? -/
def isTransfer (op : Nat) : Bool :=
  [0xD0, 0xD1, 0xD2, 0xD3, 0xD4, 0xD5, 0xD6, 0xD8, 0xE4, 0xE0, 0xE1, 0xE5].contains op

end Sys2Proof
end

