-- ==== Sys2Proof/WellFormed.lean ====
section
/-! DEFINITION. Well-formed instructions: those whose prefixes and fields pass every check of R114 step 2 that needs no
register value. The checks stand in Machine/Encoding.lean; the registers' alignment after indirection, the allocation and
what the instruction itself states are checked when it executes. -/

namespace Sys2Proof

/-- An encoded instruction whose prefixes and fields pass the checks of its encoding (R102 to R107, R110). -/
def Instr.wf (i : Instr) : Bool :=
  match i.spec with
  | some sp => encOk sp i.pfx i.fields.1 i.fields.2.1
  | none => false

end Sys2Proof
end

