-- ==== Sys2Proof/Machine/Operands.lean ====
section
/-! DEFINITION. Every operand form (R102, R103, R107, R109): which registers a field names in a repeat, their alignment
(R43), allocation (R42, R47) and emptiness (R55, R56), the values they hold, and the order of an instruction's checks
(R114). -/

namespace Sys2Proof.Machine

/-- The words an instruction takes (R100). -/
def instrWords (pf : Pfx) : Nat := 1 + ofB pf.rep.isSome + ofB pf.mod.isSome

/-- What one field of the base word stands for in a repeat. -/
inductive Opd where
  | none
  | lane (n : Nat)
  | unif (n : Nat)
  | port (q : Nat)
  | imm (v : Nat)
deriving DecidableEq, Repr

/-- The indirection and stepping of one field (R105, R107): the base an index register gives, and the step. -/
structure Step where
  ind : Option Nat
  step : Nat
deriving DecidableEq, Repr

/-- Neither stepped nor indirect. -/
def Step.none : Step := ⟨Option.none, 0⟩

/-- Field D's stepping in repeat k. -/
def stepD (r : Option Rep) (k : Nat) : Step :=
  match r with
  | some r => ⟨if r.xd then some r.kd.toNat else Option.none, if r.sd then k * 2 ^ r.stride.toNat else 0⟩
  | Option.none => .none

/-- Field A's stepping in repeat k. -/
def stepA (r : Option Rep) (k : Nat) : Step :=
  match r with
  | some r => ⟨if r.xa then some r.ka.toNat else Option.none, if r.sa then k * 2 ^ r.stride.toNat else 0⟩
  | Option.none => .none

/-- Field B's stepping in repeat k. -/
def stepB (r : Option Rep) (k : Nat) : Step :=
  match r with
  | some r => ⟨if r.xb then some r.kb.toNat else Option.none, if r.sb then k * 2 ^ r.stride.toNat else 0⟩
  | Option.none => .none

/-- What a field stands for (R102, R105, R107): bank or index base, field and step, unwrapped. Selector 3 is a port or,
on field B, an immediate. -/
def opdOf (fs : FieldSpec) (sel F : Nat) (st : Step) (ix : Nat → Nat) (isB : Bool) : Opd :=
  if !fs.named then .none
  else if sel = 3 then (if isB then .imm F else .port (F % 32))
  else
    let base := match st.ind with | some k => ix k | Option.none => if sel = 1 then 256 else 0
    let n := base + F + st.step
    if sel = 2 then .unif (F + st.step)
    else match fs.file with | .w => .lane n | .g => .unif n

/-- The registers an operand covers at the given offsets. -/
def Opd.lanes (o : Opd) (offs : List Nat) : List Nat :=
  match o with | .lane n => offs.map (n + ·) | _ => []

/-- The uniform registers an operand covers at the given offsets. -/
def Opd.unifs (o : Opd) (offs : List Nat) : List Nat :=
  match o with | .unif n => offs.map (n + ·) | _ => []

/-- Is the operand's first register a multiple of the alignment (R43, R47)? -/
def Opd.aligned (o : Opd) (al : Nat) : Bool :=
  match o with | .lane n | .unif n => n % al == 0 | _ => true

/-- The three operands of an instruction in a repeat, for a thread's index registers. -/
structure Opds where
  d : Opd
  a : Opd
  b : Opd
deriving DecidableEq, Repr

/-- An instruction as its meaning runs it: what its encoding allows, its prefixes and its fields. -/
structure Dec where
  sp : OpSpec
  pf : Pfx
  D : Nat
  A : Nat
  B : Nat
deriving DecidableEq, Repr

/-- The specification of an encoding that allows nothing: what a device step has. -/
def noSpec : OpSpec := { Enc.bare 0 .none .none .none with ok := false }

/-- An instruction's encoding, prefixes and fields. -/
def decOf (i : Instr) : Dec :=
  { sp := i.spec.getD noSpec, pf := i.pfx, D := i.fields.1, A := i.fields.2.1, B := i.fields.2.2 }

/-- The operands in repeat k. -/
def Dec.opds (x : Dec) (ix : Nat → Nat) (k : Nat) : Opds :=
  let m := x.pf.m
  { d := opdOf x.sp.d m.fd.toNat x.D (stepD x.pf.rep k) ix false
    a := opdOf x.sp.a m.fa.toNat x.A (stepA x.pf.rep k) ix false
    b := opdOf x.sp.b m.fb.toNat x.B (stepB x.pf.rep k) ix true }

/-- Index of the last repeat (R105). -/
def Dec.cnt (x : Dec) : Nat := match x.pf.rep with | some r => r.cnt.toNat | Option.none => 0

/-- Are the operands of every repeat aligned (R43, R146)? Checked before repeat 0. -/
def Dec.alignedAll (x : Dec) (ix : Nat → Nat) : Bool :=
  (span 0 (x.cnt + 1)).all fun k =>
    let o := x.opds ix k
    o.d.aligned x.sp.d.align && o.a.aligned x.sp.a.align && o.b.aligned x.sp.b.align

/-- The encoding checks of R114 step 2 for a thread. -/
def Dec.legal (x : Dec) (t : Thread) : Bool :=
  encOk x.sp x.pf x.D x.A && (t.ri != 0 || x.alignedAll fun k => (t.ireg k).toNat)

/-- The guard (R46); the uniform-file instructions and SEL have none. -/
def Dec.guard (x : Dec) (t : Thread) : Bool :=
  if x.pf.m.gen then (t.pred x.pf.m.gp.toNat).xor x.pf.m.gneg else true

/-- Lane registers the instruction names (R42). -/
def Dec.laneRegs (x : Dec) (o : Opds) : List Nat :=
  o.d.lanes (x.sp.d.rd ++ x.sp.d.wr) ++ o.a.lanes (x.sp.a.rd ++ x.sp.a.wr) ++ o.b.lanes (x.sp.b.rd ++ x.sp.b.wr)

/-- Uniform registers the instruction names, with the member mask pair and the second destination of a SCAN (R47, R110,
R174). -/
def Dec.unifRegs (x : Dec) (o : Opds) : List Nat :=
  o.d.unifs (x.sp.d.rd ++ x.sp.d.wr) ++ o.a.unifs (x.sp.a.rd ++ x.sp.a.wr) ++ o.b.unifs (x.sp.b.rd ++ x.sp.b.wr)
  ++ (match x.sp.mask with | some n => [n, n + 1] | Option.none => [])
  ++ (if x.sp.gAlso then o.d.lanes [0] else [])

/-- The allocation check (R42, R47). -/
def Dec.allocated (x : Dec) (k : Kernel) (o : Opds) : Bool :=
  (x.laneRegs o).all (decide <| · < k.wregs) && (x.unifRegs o).all (decide <| · < k.gregs)

/-- Does an operand read an empty register (R55)? -/
def Opd.emptyAt (o : Opd) (offs : List Nat) (t : Thread) (g : Group) : Bool :=
  (o.lanes offs).any t.we.contains || (o.unifs offs).any g.ge.contains

/-- The number an operand holds at the given offsets. -/
def Opd.value (o : Opd) (offs : List Nat) (t : Thread) (g : Group) : Nat :=
  match o with
  | .lane n => joinWords (offs.map fun k => t.reg (n + k))
  | .unif n => joinWords (offs.map fun k => g.reg (n + k))
  | .imm v => wrapI (32 * offs.length) (sx 8 v)
  | _ => 0

/-- The range registers of a CKRLIST, as far as its limit is known: a limit in an empty register is not (R186, R197). -/
def Dec.lateRegs (x : Dec) (o : Opds) (t : Thread) (g : Group) : List Nat :=
  if !x.sp.rlist || o.b.emptyAt x.sp.b.rd t g then []
  else o.d.lanes (span 4 (4 * min 8 (o.b.value [0] t g)))

/-- The allocation check of a thread (R42, R47, R186). -/
def Dec.allocatedIn (x : Dec) (k : Kernel) (o : Opds) (t : Thread) (g : Group) : Bool :=
  x.allocated k o && (x.lateRegs o t g).all (decide <| · < k.wregs)

/-- Does the instruction write an empty register (R56)? Every register that it may write counts, also those of a CKSPLIT
that divides nothing and of the ranges that a CKRLIST does not list (assumption log 60). -/
def Dec.dstEmpty (x : Dec) (o : Opds) (t : Thread) (g : Group) : Bool :=
  o.d.emptyAt x.sp.d.wr t g || o.a.emptyAt x.sp.a.wr t g || (x.sp.gAlso && (o.d.lanes [0]).any g.ge.contains)
  || (x.lateRegs o t g).any t.we.contains

/-- Is the member mask pair empty (R168)? -/
def Dec.maskEmpty (x : Dec) (g : Group) : Bool :=
  match x.sp.mask with | some n => [n, n + 1].any g.ge.contains | Option.none => false

/-- What the checks of R114 steps 2 to 5 answer for a thread. -/
inductive Verdict where
  /-- The guard is false: the thread passes the instruction by (R46). -/
  | skip
  | fault (code : Nat)
  /-- The thread parks on a register (R55, R56). -/
  | park
  /-- Deferred fault n of the thread is due: the instruction reads the register its load was to fill (R357, R455). -/
  | deferred (n : Nat)
  | go (o : Opds)
deriving DecidableEq, Repr

/-- Does a deferred load fault name a register that the instruction reads (R455)? -/
def Dec.meets (x : Dec) (o : Opds) (d : Deferred) : Bool :=
  match d.kind with
  | .load f rs =>
    let rd := fun (p : Opd) (fs : FieldSpec) => if f = 0 then p.lanes fs.rd else p.unifs fs.rd
    (rd o.d x.sp.d ++ rd o.a x.sp.a ++ rd o.b x.sp.b).any rs.contains
  | _ => false

/-- A thread that would park on an empty source: a deferred fault due there takes the place of the wait (R357). -/
def Dec.parkOr (x : Dec) (o : Opds) (t : Thread) : Verdict :=
  match t.defd.findIdx? (x.meets o) with | some n => .deferred n | none => .park

/-- The checks of R114 in order for a thread: encoding, guard, allocation, empty sources, empty destination. -/
def Dec.check (x : Dec) (k : Kernel) (g : Group) (t : Thread) : Verdict :=
  if !x.legal t then .fault 0x01
  else if !x.guard t then .skip
  else
    let o := x.opds (fun n => (t.ireg n).toNat) t.ri
    if !x.allocatedIn k o t g then .fault 0x03
    else
      let ea := o.a.emptyAt x.sp.a.rd t g
      let eb := o.b.emptyAt x.sp.b.rd t g
      if (ea && x.pf.m.feta && !x.sp.parkA) || (eb && x.pf.m.fetb) then .fault 0x04
      else if ea || eb || o.d.emptyAt x.sp.d.rd t g || x.maskEmpty g then x.parkOr o t
      else if x.dstEmpty o t g then .park
      else .go o

/-- What a lane meaning sees: the MOD fields, the values of A, B and D, the first register of D, whether B is an
immediate, the thread and its tid. -/
structure LIn where
  m : Mod
  a : Nat
  b : Nat
  d : Nat
  dreg : Nat
  bImm : Bool
  t : Thread
  tid : Nat
deriving DecidableEq, Repr

/-- What a lane meaning answers: the value for D, as a number of `cnt` words (none: D keeps its value); further lane
registers; predicates; af bits set; the generator's new state; registers whose allocation is found only now; a fault. -/
structure LOut where
  val : Option Nat
  cnt : Nat
  more : List (Nat × Word)
  preds : List (Nat × Bool)
  af : Nat
  rs : Option Word
  need : List Nat
  fault : Option Nat
  recAdd : Option (Nat × Nat × Nat)
deriving DecidableEq, Repr

/-- Nothing written. -/
def LOut.nil : LOut := ⟨Option.none, 1, [], [], 0, Option.none, [], Option.none, Option.none⟩

/-- One 32-bit result. -/
def LOut.word (v : Nat) : LOut := { LOut.nil with val := some v }

/-- A result of n registers. -/
def LOut.words (n v : Nat) : LOut := { LOut.nil with val := some v, cnt := n }

/-- A predicate. -/
def LOut.pred (p : Nat) (b : Bool) : LOut := { LOut.nil with preds := [(p, b)] }

/-- A lane meaning. -/
abbrev LaneSem := LIn → LOut

/-- The values a thread reads (R116). -/
def Dec.linOf (x : Dec) (o : Opds) (g : Group) (t : Thread) (tid : Nat) : LIn :=
  { m := x.pf.m
    a := o.a.value x.sp.a.rd t g
    b := o.b.value (if x.pf.m.fb = 3#2 then (if x.sp.b.rd.isEmpty then [0] else x.sp.b.rd) else x.sp.b.rd) t g
    d := o.d.value x.sp.d.rd t g
    dreg := match o.d with | .lane n | .unif n => n | _ => 0
    bImm := x.pf.m.fb == 3#2
    t := t, tid := tid }

end Sys2Proof.Machine
end

