-- ==== Sys2Proof/Machine/Lane.lean ====
section
/-! DEFINITION. How an issue runs: the threads that perform the repeat (R145, R146), the lane, queued and uniform
pipelines, pushes and pops (R58, R129), the advance past an instruction, and what is settled after an issue (R278, R281,
R282). A meaning gives its own effect to one of these. -/

namespace Sys2Proof.Machine

/-- The threads of the issue set that perform the repeat: those whose repeat index is least (assumption log 14). -/
def Group.active (g : Group) (set : List Nat) : List (Nat × Thread) :=
  let l := set.filterMap fun tid => (Tab.find? g.threads tid).map fun t => (tid, t)
  let k := l.foldl (fun a p => min a p.2.ri) 64
  List.filter (fun p => p.2.ri == k) l

/-- Past the instruction (R89, R93, R145): the next repeat; or the next instruction's first word, or the header at the
clause's end, with that header's priority. -/
def Thread.advance (x : Dec) (hp : Nat → Nat → Nat) (t : Thread) : Thread :=
  if t.ri < x.cnt then { t with ri := t.ri + 1, popped := none, st := .ready }
  else
    let pc := t.pc + 4 * instrWords x.pf
    let t := { t with ri := 0, popped := none, st := .ready }
    if pc = t.cend then t.toHeader pc (hp pc t.prio) none else { t with pc := pc }

/-- What a thread's issue leaves to be applied in ascending thread order (R6, R58). -/
inductive LAct where
  | none
  | fault (code kind va : Nat)
  | deferred (n : Nat)
  | push (port : Nat) (out : LOut)
  | pop (port : Nat) (dst : Option Nat) (bval dval : Nat) (pv : Bool)
  | sfu (res : List (Nat × Word)) (rcd : Option (Nat × Nat × Nat))
deriving DecidableEq, Repr

/-- Write a lane meaning's results to a thread (R116): D's registers, further registers, predicates, af and rs. -/
def Thread.commit (t : Thread) (dst : List Nat) (o : LOut) : Thread :=
  let t := match o.val with
    | some v => t.setRegs (dst.zip (cutWords o.cnt v))
    | none => t
  let t := t.setRegs o.more
  let t := o.preds.foldl (fun t p => t.setPred p.1 p.2) t
  { t with af := t.af ||| BitVec.ofNat 8 o.af, rs := match o.rs with | some r => r | none => t.rs }

/-- One thread's issue of a lane instruction (R114 to R116). A pop whose destination is a predicate parks the thread until
its entry has arrived (R129); a thread that pushes goes on, or parks, as its push is applied. -/
def laneThread (x : Dec) (sem : LaneSem) (k : Kernel) (g : Group) (hp : Nat → Nat → Nat) (tid : Nat) (t : Thread) :
    Thread × LAct :=
  match x.check k g t with
  | .skip => (t.advance x hp, .none)
  | .fault c => (t, .fault c 0 0)
  | .park => ({ t with st := .parked .reg }, .none)
  | .deferred n => (t, .deferred n)
  | .go o =>
    let li := x.linOf o g t tid
    match o.a with
    | .port q =>
      let pv := (t.pred x.pf.m.gp.toNat).xor x.pf.m.gneg
      if x.sp.pred then ({ t with st := .parked .pop }, .pop q none li.b li.d pv)
      else
        let t' := (t.markEmpty (o.d.lanes x.sp.d.wr)).advance x hp
        (t', .pop q (some li.dreg) li.b li.d pv)
    | _ =>
      let out := sem li
      match out.fault with
      | some c => (t, .fault c 0 0)
      | none =>
        if !out.need.all (decide <| · < k.wregs) then (t, .fault 0x03 0 0)
        else if out.need.any t.we.contains then ({ t with st := .parked .reg }, .none)
        else
          match o.d with
          | .port q => (t, .push q out)
          | _ => ((t.commit (o.d.lanes x.sp.d.wr) out).advance x hp, .none)

/-- Does a port take no further push (R58): it is full, or an earlier push waits? -/
def Team.pushFull (tm : Team) (port : Nat) : Bool :=
  decide (16 ≤ (Tab.getD tm.chans [] port).length) || tm.pushes.any (·.port == port)

/-- Put threads back into a group. -/
def Group.putThreads (g : Group) (l : List (Nat × Thread)) : Group :=
  { g with threads := l.foldl (fun m p => Tab.set m p.1 p.2) g.threads }

/-- Put the threads of an issue back. -/
def State.putThreads (s : State) (r : GRef) (l : List (Nat × Thread)) : State := s.updGroup r fun g => g.putThreads l

/-- The priority of a header of the code that a group runs. -/
def State.hp (s : State) (tm : Team) (g : Group) (pc old : Nat) : Nat := s.headerPrio g.core tm.pasid pc old

/-- A thread whose instruction has pushed its result, with what the instruction leaves besides. -/
def Thread.pushed (w : PushWait) (t : Thread) : Thread :=
  t.commit [] { LOut.nil with preds := w.preds, af := w.af, rs := w.rs }

/-- Change threads of a group. -/
def State.updThreads (s : State) (r : GRef) (set : List Nat) (f : Thread → Thread) : State :=
  set.foldl (fun s tid => s.updThread ⟨r, tid⟩ f) s

/-- A push is performed: its entry stands in the queue, and its threads are past the instruction (R58). -/
def State.performPush (s : State) (w : PushWait) : State :=
  let s := s.pushPort w.g w.port w.v
  match s.group? w.g with
  | some (tm, g) => s.updThreads w.g w.set fun t => (t.pushed w).advance (decOf w.i) (s.hp tm g)
  | none => s

/-- A push is applied (R58): it is performed, or its threads park and it waits behind those before it. -/
def State.applyPush (s : State) (w : PushWait) : State :=
  match s.team? w.g.grid w.g.team with
  | some tm =>
    if tm.pushFull w.port then
      (s.updTeam w.g.grid w.g.team fun t => { t with pushes := t.pushes ++ [w] }).updThreads w.g w.set fun t =>
        { t with st := .parked .push }
    else s.performPush w
  | none => s

/-- What a live thread's issue left (R58): a fault is taken, an entry pushed, a pop made pending. -/
def State.actOf (s : State) (i : Instr) (r : GRef) (tid : Nat) : LAct → State
  | .none => s
  | .fault c k va => s.raise ⟨r, tid⟩ c k va
  | .deferred n => s.deliverDeferred ⟨r, tid⟩ n
  | .push q o => s.applyPush ⟨r, [tid], i, q, BitVec.ofNat 32 (o.val.getD 0), o.preds, o.af, o.rs⟩
  | .pop q dst b d pv =>
    s.updTeam r.grid r.team fun t => { t with pops := t.pops ++ [⟨r, false, [tid], q, i, dst, b, d, pv⟩] }
  | .sfu _ _ => s

/-- Apply what a thread's issue left, unless a kill has stopped the thread meanwhile (R362). -/
def State.laneAct (s : State) (i : Instr) (r : GRef) (tid : Nat) (a : LAct) : State :=
  if s.liveAt ⟨r, tid⟩ then s.actOf i r tid a else s

/-- Is a thread parked? -/
def Thread.isParked (t : Thread) : Bool := match t.st with | .parked _ => true | _ => false

/-- Did a write change a register of the threads (R281)? -/
def regsChanged (a b : Group) (set : List Nat) : Bool :=
  decide (a.g ≠ b.g) ||
  set.any fun tid =>
    match Tab.find? a.threads tid, Tab.find? b.threads tid with
    | some x, some y => decide (x.w ≠ y.w) || decide (x.p ≠ y.p) || decide (x.idx ≠ y.idx)
    | _, _ => false

/-- A value has come back to threads that `s0` shows before it: where it changes a register that it fills, the iteration of
their entry is a changed one (R281). -/
def State.watchFill (s0 : State) (r : GRef) (set : List Nat) (s : State) : State :=
  match s0.group? r with
  | some (_, a) =>
    s.updGroup r fun b =>
      if regsChanged a b set then
        { b with front := b.front.map fun e =>
            if e.mask.any set.contains then { e with spin := { e.spin with changed := true } } else e }
      else b
  | none => s

/-- The spin detector at an issue (R281): the address issued, whether registers have changed, and the backward branch
taken, if one, with its header. Answers the detector and whether the entry is demoted. -/
def Spin.step (e : Spin) (pc : Nat) (changed : Bool) (br : Option (Nat × Nat)) : Spin × Bool :=
  let e := if e.br ≠ 0 ∧ ¬ (e.hdr ≤ pc ∧ pc ≤ e.br) then Spin.none else { e with changed := e.changed || changed }
  match br with
  | Option.none => (e, false)
  | some (b, h) =>
    if h < b ∧ b - h ≤ 64 then
      if e.br = b ∧ e.hdr = h then
        let n := if e.changed then 0 else e.count + 1
        if n = 4 then (⟨b, h, 0, false⟩, true) else (⟨b, h, n, false⟩, false)
      else (⟨b, h, 0, false⟩, false)
    else (e, false)

/-- Has an issue moved or stopped a thread of its set? A set that waits without parking has not (R272). -/
def moved (a b : Group) (set : List Nat) : Bool :=
  set.any fun tid => decide (Tab.find? a.threads tid ≠ Tab.find? b.threads tid)

/-- After an issue (R278, R281, R282): the issuing entry is no longer aged, its idle count is 0, its spin detector
advances; then every thread joins the entry of its key. -/
def State.finish (s : State) (g0 : Group) (br : Option (Nat × Nat)) : State :=
  let c := s.cur
  s.updGroup c.g fun g =>
    let ch := regsChanged g0 g c.set
    Group.settle { g with
      front := g.front.map fun e =>
        if e.prio = c.prio ∧ e.pc = c.pc ∧ moved g0 g c.set then
          let (sp, dem) := e.spin.step c.pc ch br
          { e with idle := 0, aged := none, spin := sp, demo := if dem then 1024 else e.demo }
        else e }

/-- Per-thread results of an issue, in ascending thread order. -/
def lanePass (x : Dec) (sem : LaneSem) (k : Kernel) (g : Group) (hp : Nat → Nat → Nat) (l : List (Nat × Thread)) :
    List (Nat × Thread × LAct) :=
  l.map fun p => (p.1, laneThread x sem k g hp p.1 p.2)

/-- Run a lane instruction of class 0 (R114, R116). -/
def State.runLane (s : State) (i : Instr) (sem : LaneSem) : State :=
  let r := s.cur.g
  match s.group? r with
  | none => s
  | some (tm, g) =>
    let res := lanePass (decOf i) sem tm.kern g (s.hp tm g) (g.active s.cur.set)
    let s := s.putThreads r (res.map fun p => (p.1, p.2.1))
    let s := res.foldl (fun s p => s.laneAct i r p.1 p.2.2) s
    s.finish g none

/-- One thread's issue of a queued instruction (R161): operands read, faults found and destinations emptied at issue. -/
def sfuThread (x : Dec) (sem : LaneSem) (k : Kernel) (g : Group) (hp : Nat → Nat → Nat) (tid : Nat) (t : Thread) :
    Thread × LAct :=
  match x.check k g t with
  | .skip => (t.advance x hp, .none)
  | .fault c => (t, .fault c 0 0)
  | .park => ({ t with st := .parked .reg }, .none)
  | .deferred n => (t, .deferred n)
  | .go o =>
    let out := sem (x.linOf o g t tid)
    match out.fault with
    | some c => (t, .fault c 0 0)
    | none =>
      let dst := o.d.lanes x.sp.d.wr
      let t' := { t with rs := match out.rs with | some r => r | none => t.rs }
      ((t'.markEmpty dst).advance x hp, .sfu (dst.zip (cutWords out.cnt (out.val.getD 0))) out.recAdd)

/-- Add a QPACK's counts to a reservation record, saturating (R166, R300). -/
def addCounts (c : Core) (n u k : Nat) : Core :=
  { c with recs := Tab.adjust c.recs n fun r =>
      { r with under := min 0xFFFF (r.under + u), clip := min 0xFFFF (r.clip + k) } }

/-- Run a queued instruction of class 3 (R161): one entry of the group's queue for each issue. -/
def State.runSfu (s : State) (i : Instr) (sem : Team → Core → LaneSem) : State :=
  let r := s.cur.g
  match s.group? r with
  | none => s
  | some (tm, g) =>
    if 32 ≤ g.sfq.length then s
    else
      let x := decOf i
      let core := s.core g.core
      let res := (g.active s.cur.set).map fun p => (p.1, sfuThread x (sem tm core) tm.kern g (s.hp tm g) p.1 p.2)
      let s := s.putThreads r (res.map fun p => (p.1, p.2.1))
      let ents := res.filterMap fun p => match p.2.2 with | .sfu l _ => some (p.1, l) | _ => none
      let s := if ents.isEmpty then s
        else s.updGroup r fun g => { g with sfq := g.sfq ++ [⟨g.sfNext, ents⟩], sfNext := g.sfNext + 1 }
      let s := res.foldl (fun s p => match p.2.2 with
        | .sfu _ (some (n, u, k)) => s.updCore g.core fun c => addCounts c n u k
        | _ => s) s
      let s := res.foldl (fun s p => s.laneAct i r p.1 p.2.2) s
      s.finish g none

/-- The meaning of a lane instruction: one issue of it (R116). -/
def runLaneOf (i : Instr) (sem : LaneSem) (s : State) : Host.Outcome State Fault Refusal := .next (s.runLane i sem)

/-- The meaning of a queued instruction: one issue of it (R161). -/
def runSfuOf (i : Instr) (sem : Team → Core → LaneSem) (s : State) : Host.Outcome State Fault Refusal :=
  .next (s.runSfu i sem)

/-! ### Uniform instructions (R48, R130) -/

/-- What a uniform meaning sees. -/
structure UIn where
  m : Mod
  a : Nat
  b : Nat
  d : Nat
  set : List (Nat × Thread)
  g : Group
deriving DecidableEq, Repr

/-- What a uniform meaning answers: the value for D, and predicates of threads. -/
structure UOut where
  val : Option Nat
  preds : List (Nat × Nat × Bool)
deriving DecidableEq, Repr

/-- A uniform meaning. -/
abbrev UniSem := UIn → UOut

/-- One 32-bit result. -/
def UOut.word (v : Nat) : UOut := ⟨some v, []⟩

/-- The checks of R114 for a uniform instruction, made once for the set (R130); `t` is the thread whose lane register
UBCAST reads, and whose index registers name it (R107, R134, assumption log 60). -/
def Dec.checkUnif (x : Dec) (k : Kernel) (g : Group) (t : Thread) : Verdict :=
  if !(encOk x.sp x.pf x.D x.A && (t.ri != 0 || x.alignedAll fun n => (t.ireg n).toNat)) then .fault 0x01
  else
    let o := x.opds (fun n => (t.ireg n).toNat) t.ri
    if !x.allocated k o then .fault 0x03
    else
      let ea := o.a.emptyAt x.sp.a.rd t g
      let eb := o.b.emptyAt x.sp.b.rd t g
      if (ea && x.pf.m.feta) || (eb && x.pf.m.fetb) then .fault 0x04
      else if ea || eb || o.d.emptyAt x.sp.d.rd t g then x.parkOr o t
      else if x.dstEmpty o t g then .park
      else .go o

/-- The values a uniform instruction reads (R116). -/
def Dec.uinOf (x : Dec) (o : Opds) (g : Group) (t : Thread) (set : List (Nat × Thread)) : UIn :=
  { m := x.pf.m, a := o.a.value x.sp.a.rd t g, b := o.b.value (if x.sp.b.rd.isEmpty then [0] else x.sp.b.rd) t g
    d := o.d.value x.sp.d.rd t g, set := set, g := g }

/-- Park the threads of a set. -/
def State.parkSet (s : State) (r : GRef) (set : List (Nat × Thread)) (w : Wait) : State :=
  s.putThreads r (set.map fun p => (p.1, { p.2 with st := .parked w }))

/-- The threads of a set past the instruction. -/
def State.advanceSet (s : State) (x : Dec) (hp : Nat → Nat → Nat) (r : GRef) (set : List (Nat × Thread)) : State :=
  s.putThreads r (set.map fun p => (p.1, p.2.advance x hp))

/-- Threads with predicates of a uniform instruction set. -/
def setPreds (preds : List (Nat × Nat × Bool)) (set : List (Nat × Thread)) : List (Nat × Thread) :=
  set.map fun p => (p.1, preds.foldl (fun t q => if q.1 = p.1 then t.setPred q.2.1 q.2.2 else t) p.2)

/-- Raise a fault in every thread of a set, each with its own record (R130, R238). -/
def State.raiseSet (s : State) (r : GRef) (set : List (Nat × Thread)) (code kind va : Nat) : State :=
  set.foldl (fun s p => s.raise ⟨r, p.1⟩ code kind va) s

/-- The body of a uniform instruction once its checks have passed; `src` is the thread whose lane register is read. -/
def State.unifGo (s : State) (i : Instr) (sem : UniSem) (x : Dec) (tm : Team) (g : Group) (o : Opds) (r : GRef)
    (set : List (Nat × Thread)) (lo : Nat × Thread) (src : Thread) : State :=
  let hp := s.hp tm g
  let ui := x.uinOf o g src set
  let tids := set.map (·.1)
  match o.a with
  | .port q =>
    let pv := (lo.2.pred x.pf.m.gp.toNat).xor x.pf.m.gneg
    let mk := fun dst => s.updTeam r.grid r.team fun t =>
      { t with pops := t.pops ++ [⟨r, true, tids, q, i, dst, ui.b, ui.d, pv⟩] }
    if x.sp.pred then (mk none).parkSet r set .pop
    else
      let dst := match o.d with | .unif n => n | _ => 0
      ((mk (some dst)).updGroup r fun g => g.markEmpty [dst]).advanceSet x hp r set
  | _ =>
    let out := sem ui
    match o.d with
    | .port q =>
      s.applyPush ⟨r, tids, i, q, BitVec.ofNat 32 (out.val.getD 0), [], 0, none⟩
    | _ =>
      let s := match o.d, out.val with
        | .unif n, some v => s.updGroup r fun g => g.setReg n (BitVec.ofNat 32 v)
        | _, _ => s
      s.putThreads r ((setPreds out.preds set).map fun p => (p.1, p.2.advance x hp))

/-- Run a uniform instruction of class 1 (R48, R130): once for the issue set. `src` chooses the thread whose lane register
is read, by the lowest thread of the set (R134); a deferred fault due at that register is the source thread's own, when it
is of the set (R357, R455). -/
def State.runUnif (s : State) (i : Instr) (src : Group → Nat × Thread → Nat × Thread) (sem : UniSem) : State :=
  let r := s.cur.g
  match s.group? r with
  | none => s
  | some (tm, g) =>
    match g.active s.cur.set with
    | [] => s
    | lo :: rest =>
      let set := lo :: rest
      let x := decOf i
      let from' := src g lo
      let st := { from'.2 with ri := lo.2.ri }
      let s := match x.checkUnif tm.kern g st with
        | .fault c => s.raiseSet r set c 0 0
        | .park | .skip => s.parkSet r set .reg
        | .deferred n => if set.any (·.1 == from'.1) then s.deliverDeferred ⟨r, from'.1⟩ n else s.parkSet r set .reg
        | .go o => s.unifGo i sem x tm g o r set lo st
      s.finish g none

/-- The lowest thread of the set. -/
def ownThread : Group → Nat × Thread → Nat × Thread := fun _ p => p

/-- The meaning of a uniform instruction: one issue of it (R130). -/
def runUnifOf (i : Instr) (sem : UniSem) (s : State) : Host.Outcome State Fault Refusal := .next (s.runUnif i ownThread sem)

end Sys2Proof.Machine
end

