-- ==== Sys2Proof/Machine/Access.lean ====
section
/-! DEFINITION. How a memory instruction issues (R202 to R206): its address and windows, the checks in order, and the
outstanding-transaction entry it takes. -/

namespace Sys2Proof.Machine

/-- Where an access goes, by its window (R202, R203). -/
inductive Win where
  | user
  | scratch (c off : Nat)
  | card
  | tile
deriving DecidableEq, Repr

/-- What a memory instruction asks for, for one thread. -/
structure Plan where
  va : Nat
  size : Nat
  align : Nat
  kind : Nat
  strong : Bool
  scope : Nat
  acq : Bool
  rel : Bool
  stream : Nat
  op : AccOp
  dst : Nat
  isLoad : Bool
  isStore : Bool
  entry : Bool
  need : Need
  inUser : Bool
  inTile : Bool
  inCard : Bool
deriving DecidableEq, Repr

/-- A memory meaning. -/
abbrev MemSem := LIn → Plan

/-- A fault of the checks of a memory instruction, with its address. -/
structure MFail where
  va : Nat
  f : Fail
deriving DecidableEq, Repr

/-- A fault of a memory check that no pager can repair (R205). -/
def MFail.plain (code va : Nat) : MFail := ⟨va, code, none, false, 0⟩

/-- The window of an address (R202, R203, R254, R293); none is Address Window. -/
def windowOf (tm : Team) (va size : Nat) : Option Win :=
  match va / 2 ^ 56 with
  | 0 | 1 => some .user
  | 0xFE =>
    let c := fld va 21 20
    let off := fld va 19 0
    if fld va 55 22 ≠ 0 ∨ tm.cores.length ≤ c ∨ 0xC0000 ≤ off ∨ tm.partBytes < off + size then none
    else some (.scratch c off)
  | 0xFD => if fld va 55 10 = 0 ∧ fld va 5 4 = 0 then some .card else none
  | 0xFC => if fld va 29 20 = 0 then some .tile else none
  | _ => none

/-- The bytes that the window check at issue covers: a load that stops at a NUL has only its first for certain (R178). -/
def Plan.span (p : Plan) : Nat := match p.op with | .sldx _ true => 1 | _ => p.size

/-- The first byte of an access outside its window (R178). -/
def firstOut (tm : Team) (va n : Nat) : Nat := va + ((span 0 n).findIdx? fun i => (windowOf tm (va + i) 1).isNone).getD 0

/-- The window check of an instruction (R202). -/
def Plan.window (p : Plan) (tm : Team) : Option Win :=
  match windowOf tm p.va p.span with
  | some .user => if p.inUser then some .user else none
  | some .card => if p.inCard then some .card else none
  | some .tile => if p.inTile then some .tile else none
  | w => w

/-- Does the operation take the restricted set of PCIe 6 (R218)? -/
def AccOp.pcie (o : AccOp) : Bool :=
  match o with
  | .atom op _ _ _ => op == 0 || op == 8
  | .red _ _ _ => false
  | _ => true

/-- Is it a store? -/
def AccOp.isStore (o : AccOp) : Bool := match o with | .store _ => true | _ => false

/-- An instruction's own checks on where its page lies (R205 step 5, R218, R418). -/
def State.ownFail (s : State) (l : Leaf) (va : Nat) (o : AccOp) (strong : Bool) : Option MFail :=
  match s.placeOf l va with
  | .hostN _ => if o.pcie then none else some ⟨va, 0x08, some 0x05, false, l.lease⟩
  | .mcast _ _ => if !strong && o.isStore then none else some ⟨va, 0x08, none, false, l.lease⟩
  | _ => none

/-- The own checks at issue: they come after the lease's (R205), which a lease that does not hold is left to the
performance. -/
def State.ownCheck (s : State) (l : Leaf) (p : Plan) : Option MFail :=
  match s.leaseCheck l p.need.w with
  | .ok _ => s.ownFail l p.va p.op p.strong
  | .error _ => none

/-- The checks of a job card that need no template (R255). -/
def cardCheck (tm : Team) (va v : Nat) : Option MFail :=
  if fld v 15 13 ≠ 0 ∨ (bitN v 10 ∧ bitN v 11) then some (.plain 0x01 va)
  else if bitN v 11 ∧ tm.partBytes < 16 * fld v 31 16 + 16 then some (.plain 0x06 va)
  else none

/-- Bytes of an access before the next page. -/
def firstPart (va size : Nat) : Nat := min size (pageSize - va % pageSize)

/-- Translate an access and, where it crosses a page, its rest. The rest of a load that may stop at a NUL is left to its
performance (R178). -/
def State.planLeaves (s : State) (core : Nat) (tm : Team) (p : Plan) :
    Except MFail (Leaf × Option Leaf) :=
  match s.translate core tm.pasid p.va p.need with
  | .error f => .error ⟨p.va, f⟩
  | .ok l =>
    let n := firstPart p.va p.size
    if n = p.size then .ok (l, none)
    else
      let va2 := p.va + n
      let r := if 2 ^ 57 ≤ va2 then .error ⟨0x06, none, false, 0⟩ else s.translate core tm.pasid va2 p.need
      match p.op, r with
      | .sldx _ true, _ => .ok (l, none)
      | _, .ok l2 => .ok (l, some l2)
      | _, .error f => .error ⟨va2, f⟩

/-- The checks of R205 in order, lease apart. -/
def State.planCheck (s : State) (core : Nat) (tm : Team) (p : Plan) : Except MFail (Win × Option Leaf × Option Leaf) :=
  match p.window tm with
  | none => .error (.plain 0x06 (firstOut tm p.va p.span))
  | some w =>
    if p.va % p.align ≠ 0 then .error (.plain 0x05 p.va)
    else
      match w with
      | .user =>
        match s.planLeaves core tm p with
        | .error f => .error f
        | .ok (l, l2) =>
          match s.ownCheck l p with
          | some f => .error f
          | none => .ok (w, some l, l2)
      | .card =>
        match p.op with
        | .store bs => (match cardCheck tm p.va (ofLE bs) with | some f => .error f | none => .ok (w, none, none))
        | _ => .ok (w, none, none)
      | _ => .ok (w, none, none)

/-- The outstanding access of a plan, number apart. -/
def Plan.acc (p : Plan) (tm : Team) (g : Group) (set : List Nat) (t : Thread) (dest : Option Dest)
    (l l2 : Option Leaf) : Acc :=
  { id := 0, core := g.core, t := ⟨tm.ref g.gid, set.headD 0⟩, set := set, pasid := tm.pasid, part := tm.part
    pc := t.pc, ri := t.ri, va := p.va, size := p.size, kind := p.kind, strong := p.strong, scope := p.scope
    acq := p.acq, rel := p.rel, stream := p.stream, op := p.op, dest := dest, entry := p.entry
    isLoad := p.isLoad, isStore := p.isStore, leaf := l, leaf2 := l2, job := none, vreq := none, st := .pending
    prog := 0, again := false }

/-- Add an outstanding access (R206), keeping its translations cached (R380). -/
def State.addAcc (s : State) (a : Acc) : State :=
  let s := { s with accs := s.accs ++ [{ a with id := s.accNext }], accNext := s.accNext + 1 }
  let s := match a.leaf with | some l => s.cacheLeaf a.core a.pasid a.va l | none => s
  match a.leaf2 with
  | some l => s.cacheLeaf a.core a.pasid (a.va + firstPart a.va a.size) l
  | none => s

/-- The entries of a core's outstanding-transaction table in use (R206). -/
def State.otUsed (s : State) (core : Nat) : Nat := (s.accs.filter fun a => a.core == core && a.entry).length

/-- Take a fault of a memory check of a thread (R205, R356). -/
def State.raiseMem (s : State) (t : TRef) (kind : Nat) (m : MFail) : State :=
  match s.thread? t with
  | some (_, _, th) => s.takeFault t ((s.mkRec t m.f.code kind th.pc m.va).withFail m.f) .fault th.here
  | none => s

/-- What a thread's issue of a memory instruction leaves to be done. -/
inductive MAct where
  | none
  | fault (code : Nat)
  | fail (kind : Nat) (m : MFail)
  | deferred (n : Nat)
  | acc (a : Acc)
  /-- The engine has accepted the thread's card (true), or has still to accept it. -/
  | card (taken : Bool)
deriving DecidableEq, Repr

/-- The destination of an access. -/
def destOf (o : Opd) (n : Nat) : Option Dest :=
  if n = 0 then none
  else match o with | .lane r => some ⟨false, r, n⟩ | .unif r => some ⟨true, r, n⟩ | _ => none

/-- A 16-byte store to the copy-engine window carries a job card (R254). -/
def Plan.cardPlan (p : Plan) : Plan := { p with op := match p.op with | .store bs => .card (ofLE bs) | o => o }

/-- The store of a job card of a thread that its channel has still to accept (R254). -/
def Acc.cardOf (t : TRef) (pc ri : Nat) (a : Acc) : Bool :=
  (match a.op with | .card _ => true | _ => false) && decide (a.t = t) && a.pc == pc && a.ri == ri

/-- One thread's issue of a memory instruction (R114, R205). A thread that issues a job card stands at the store, not parked
(R272), until the cards of the whole set have been accepted (R254); the mark in `popped` tells it that its own has been. -/
def memThread (x : Dec) (sem : MemSem) (s : State) (tm : Team) (g : Group) (hp : Nat → Nat → Nat) (tid : Nat)
    (t : Thread) : Thread × MAct :=
  match x.check tm.kern g t with
  | .skip => (t.advance x hp, .none)
  | .fault c => (t, .fault c)
  | .park => ({ t with st := .parked .reg }, .none)
  | .deferred n => (t, .deferred n)
  | .go o =>
    let p := sem (x.linOf o g t tid)
    match s.planCheck g.core tm p with
    | .error m => (t, .fail p.kind m)
    | .ok (.card, _, _) =>
      if t.popped.isSome then (t, .card true)
      else if s.accs.any (Acc.cardOf ⟨tm.ref g.gid, tid⟩ t.pc t.ri) then (t, .card false)
      else (t, .acc (p.cardPlan.acc tm g [tid] t none none none))
    | .ok (_, l, l2) =>
      ((t.markEmpty (o.d.lanes x.sp.d.wr)).advance x hp, .acc (p.acc tm g [tid] t (destOf o.d p.dst) l l2))

/-- Apply what a live thread's issue of a memory instruction left. -/
def State.memActOf (s : State) (r : GRef) (tid : Nat) : MAct → State
  | .none | .card _ => s
  | .fault c => s.raise ⟨r, tid⟩ c 0 0
  | .fail k m => s.raiseMem ⟨r, tid⟩ k m
  | .deferred n => s.deliverDeferred ⟨r, tid⟩ n
  | .acc a => s.addAcc a

/-- Apply what a thread's issue of a memory instruction left, unless a kill has stopped the thread meanwhile (R362). -/
def State.memAct (s : State) (r : GRef) (tid : Nat) (a : MAct) : State :=
  if s.liveAt ⟨r, tid⟩ then s.memActOf r tid a else s

/-- Does a thread's issue wait for its channel (R254)? -/
def MAct.awaitsCard : MAct → Bool
  | .card taken => !taken
  | .acc a => match a.op with | .card _ => true | _ => false
  | _ => false

/-- Threads whose cards have been accepted go on together, once no thread of the set waits for its channel (R254, R272). -/
def passCards (x : Dec) (hp : Nat → Nat → Nat) (l : List (Nat × Thread × MAct)) : List (Nat × Thread × MAct) :=
  if l.any fun p => p.2.2.awaitsCard then l
  else l.map fun p => match p.2.2 with | .card true => (p.1, p.2.1.advance x hp, .none) | _ => p

/-- The threads of the issue that may take a table entry. -/
def Dec.takers (x : Dec) (act : List (Nat × Thread)) : Nat := (List.filter (fun p => x.legal p.2 && x.guard p.2) act).length

/-- Run a memory instruction of the lane file (R205, R206): while the table lacks an entry for every thread of G the set
waits. -/
def State.runMem (s : State) (i : Instr) (sem : MemSem) : State :=
  let r := s.cur.g
  match s.group? r with
  | none => s
  | some (tm, g) =>
    let x := decOf i
    let act := g.active s.cur.set
    if 1024 < s.otUsed g.core + x.takers act then s
    else
      let res := passCards x (s.hp tm g) (act.map fun p => (p.1, memThread x sem s tm g (s.hp tm g) p.1 p.2))
      let s := s.putThreads r (res.map fun p => (p.1, p.2.1))
      (res.foldl (fun s p => s.memAct r p.1 p.2.2) s).finish g none

/-- The meaning of a memory instruction: one issue of it. -/
def runMemOf (i : Instr) (sem : MemSem) (s : State) : Host.Outcome State Fault Refusal := .next (s.runMem i sem)

/-- Run a uniform memory instruction (R210): one access for the issue set. -/
def State.runUMem (s : State) (i : Instr) (sem : MemSem) : State :=
  let r := s.cur.g
  match s.group? r with
  | none => s
  | some (tm, g) =>
    match g.active s.cur.set with
    | [] => s
    | lo :: rest =>
      let set : List (Nat × Thread) := lo :: rest
      let x := decOf i
      let hp := s.hp tm g
      if 1024 < s.otUsed g.core + 1 then s
      else
        let s := match x.checkUnif tm.kern g lo.2 with
          | .fault c => s.raiseSet r set c 0 0
          | .park | .skip => s.parkSet r set .reg
          | .deferred n => s.deliverDeferred ⟨r, lo.1⟩ n
          | .go o =>
            let p := sem (x.linOf o g lo.2 lo.1)
            match s.planCheck g.core tm p with
            | .error m => set.foldl (fun s (q : Nat × Thread) => s.raiseMem ⟨r, q.1⟩ p.kind m) s
            | .ok (_, l, l2) =>
              let a := p.acc tm g (set.map fun (q : Nat × Thread) => q.1) lo.2 (destOf o.d p.dst) l l2
              let s := (s.addAcc a).updGroup r fun g => g.markEmpty (o.d.unifs x.sp.d.wr)
              s.advanceSet x hp r set
        s.finish g none

/-- The meaning of a uniform memory instruction: one issue of it (R210). -/
def runUMemOf (i : Instr) (sem : MemSem) (s : State) : Host.Outcome State Fault Refusal := .next (s.runUMem i sem)

/-! ### What each kind of access asks for -/

/-- A signed offset of w bits (R208). -/
def LIn.offset (x : LIn) : Int :=
  let w := if x.bImm then 32 else if x.m.absb then 64 else 32
  let z := sx w x.b
  if x.m.negb then -z else z

/-- The address of the MEM form (R208). -/
def LIn.memVa (x : LIn) : Nat := wrapI 64 (x.a + x.offset)

/-- A weak access (R208). -/
def weakPlan (va size align kind stream : Nat) (op : AccOp) : Plan :=
  { va := va, size := size, align := align, kind := kind, strong := false, scope := 0, acq := false, rel := false
    stream := stream, op := op, dst := 0, isLoad := false, isStore := false, entry := true
    need := ⟨false, false, false⟩, inUser := true, inTile := false, inCard := false }

/-- A weak load of n bytes (R208). -/
def loadPlan (x : LIn) (n : Nat) (sgn : Bool) : Plan :=
  { weakPlan x.memVa n n 0x01 x.m.scl.toNat (.load n sgn) with
    dst := Enc.regs n, isLoad := true, need := ⟨true, false, false⟩ }

/-- A weak store of the low n bytes of D (R208, R212). Sixteen bytes may also go to the copy engine (R202). -/
def storePlan (x : LIn) (n : Nat) : Plan :=
  { weakPlan x.memVa n n 0x02 x.m.scl.toNat (.store (toLE n x.d)) with
    isStore := true, need := ⟨false, true, false⟩, inTile := true }

/-- A strong access at pairA (R213, R214). ORDER bit 0 acquires and bit 1 releases (R207). -/
def strongPlan (x : LIn) (n kind scope : Nat) (op : AccOp) : Plan :=
  { weakPlan x.a n n kind x.m.scl.toNat op with
    strong := true, scope := scope, acq := x.m.satc.getLsbD 0, rel := x.m.satc.getLsbD 1 }

end Sys2Proof.Machine
end

