-- ==== Sys2Proof/Machine/Float.lean ====
section
/-! DEFINITION. Number formats (R62 to R83): decoding, rounding, the resolution of overflow and specials, the clamps, and
exact sums and products. A magnitude is m·2^e; with `sticky` it lies strictly between m·2^e and (m+1)·2^e. -/

namespace Sys2Proof.Machine

/-- A decoded value (R149): a real with its sign, an infinity, or NaN. -/
inductive FVal where
  | nan
  | inf (neg : Bool)
  | fin (neg : Bool) (m : Nat) (e : Int)
deriving DecidableEq, Repr

/-- The floating formats in the order of their codes (R148). -/
inductive Fmt where
  | f32
  | f16
  | bf16
  | f64
  | e4m3
  | e5m2
  | e2m1
  | t8
deriving DecidableEq, Repr

/-- The format of a code (R148); codes 8 to 15 are refused before this is asked. -/
def fmtOf (c : Nat) : Fmt :=
  match c with
  | 0 => .f32 | 1 => .f16 | 2 => .bf16 | 3 => .f64 | 4 => .e4m3 | 5 => .e5m2 | 6 => .e2m1 | _ => .t8

namespace Fmt

/-- Significand bits (R65, R68); T8 has its own grid. -/
def prec (f : Fmt) : Nat :=
  match f with | f32 => 24 | f16 => 11 | bf16 => 8 | f64 => 53 | e4m3 => 4 | e5m2 => 3 | e2m1 => 2 | t8 => 6

/-- The exponent of the smallest subnormal (R65, R68). -/
def qmin (f : Fmt) : Int :=
  match f with
  | f32 => -149 | f16 => -24 | bf16 => -133 | f64 => -1074 | e4m3 => -9 | e5m2 => -16 | e2m1 => -1 | t8 => -12

/-- Bits below the sign bit. -/
def body (f : Fmt) : Nat := match f with | f32 => 31 | f16 | bf16 => 15 | f64 => 63 | e2m1 => 3 | _ => 7

/-- The largest finite magnitude's code (R65, R68, R69). -/
def maxCode (f : Fmt) : Nat :=
  match f with
  | f32 => 0x7F7FFFFF | f16 => 0x7BFF | bf16 => 0x7F7F | f64 => 0x7FEFFFFFFFFFFFFF
  | e4m3 => 0x7E | e5m2 => 0x7B | e2m1 => 0x7 | t8 => 0x7F

/-- The code of 1. -/
def oneCode (f : Fmt) : Nat :=
  match f with
  | f32 => 0x3F800000 | f16 => 0x3C00 | bf16 => 0x3F80 | f64 => 0x3FF0000000000000
  | e4m3 => 0x38 | e5m2 => 0x3C | e2m1 => 0x2 | t8 => 0x40

/-- The NaN code written (R65, R68, R69, R81). -/
def nanCode (f : Fmt) : Nat :=
  match f with
  | f32 => 0x7FC00000 | f16 => 0x7E00 | bf16 => 0x7FC0 | f64 => 0x7FF8000000000000
  | e4m3 => 0x7F | e5m2 => 0x7F | e2m1 => 0 | t8 => 0x80

/-- The format has infinities (R65, R68). -/
def hasInf (f : Fmt) : Bool := match f with | f32 | f16 | bf16 | f64 | e5m2 => true | _ => false

/-- Registers a value of the format takes (R148). -/
def nregs (f : Fmt) : Nat := match f with | f64 => 2 | _ => 1

end Fmt

/-- The magnitude of a T8 code as a multiple of 2^−12 (R69); code 128 is the virtual 4.0 (R71). -/
def t8Mag (t : Nat) : Nat :=
  if t = 0 then 0
  else
    let p := Nat.log2 t
    if p = 0 then 1
    else if 7 ≤ p then 2 ^ 14
    else
      let nf := p - 1
      (2 ^ nf + t % 2 ^ nf) * 2 ^ (p + 1 + t / 2 ^ nf % 2)

/-- Decode the bits of a value in a format (R65, R66, R68, R69); bits above the format's are ignored. -/
def decodeF (f : Fmt) (x : Nat) : FVal :=
  let neg := bitN x f.body
  let c := x % 2 ^ f.body
  match f with
  | .t8 => if c = 0 then (if neg then .nan else .fin false 0 0) else .fin neg (t8Mag c) (-12)
  | _ =>
    if f.maxCode < c then
      if f.hasInf && c == f.maxCode + 1 then .inf neg else .nan
    else
      let w := f.prec - 1
      let ex := c / 2 ^ w
      if ex = 0 then .fin neg c f.qmin else .fin neg (2 ^ w + c % 2 ^ w) (f.qmin + (ex - 1))

/-! ### Rounding -/

/-- One step of the stochastic generator (R78). -/
def rsStep (x : BitVec 32) : BitVec 32 :=
  let x := x ^^^ (x <<< 13)
  let x := x ^^^ (x >>> 17)
  x ^^^ (x <<< 5)

/-- Does the rounding of a magnitude choose the upper neighbour (R77, R78)? The magnitude lies `rem` of `gap` above the
lower one, and a little more when sticky; `odd` tells whether the lower code has bit 0 set, `u` is the stochastic draw. -/
def roundUp (mode : Nat) (neg odd : Bool) (rem gap : Nat) (sticky : Bool) (u : Nat) : Bool :=
  if rem = 0 ∧ sticky = false then false
  else
    match mode with
    | 2 => false
    | 3 => !neg
    | 4 => neg
    | 5 => decide (gap ≤ 2 * rem)
    | 6 => decide (u * gap < rem * 2 ^ 24)
    | _ => decide (gap < 2 * rem) || (decide (2 * rem = gap) && (sticky || odd))

/-- The largest T8 grid point of 0 to n not above a magnitude x·2^−k (in units of 2^−12) (R71). -/
def t8Floor (x k : Nat) : Nat → Nat
  | 0 => 0
  | n + 1 => if t8Mag (n + 1) * 2 ^ k ≤ x then n + 1 else t8Floor x k n

/-- The magnitude's code after rounding on the unbounded grid (R77), or on that of R71 for T8. The code of the next
value is one more. -/
def roundMag (f : Fmt) (mode : Nat) (neg : Bool) (m : Nat) (e : Int) (sticky : Bool) (u : Nat) : Nat :=
  if m = 0 ∧ sticky = false then 0
  else
    match f with
    | .t8 =>
      let k := (-(e + 12)).toNat
      let x := m * 2 ^ (e + 12 + k).toNat
      let lo := t8Floor x k 128
      if lo = 128 then 128
      else
        let a := t8Mag lo * 2 ^ k
        let b := t8Mag (lo + 1) * 2 ^ k
        if roundUp mode neg (lo % 2 == 1) (x - a) (b - a) sticky u then lo + 1 else lo
    | _ =>
      let q := max (e + (Nat.log2 m + 1 : Nat) - f.prec) f.qmin
      let at? := (q - f.qmin).toNat * 2 ^ (f.prec - 1)
      if q ≤ e then at? + m * 2 ^ (e - q).toNat
      else
        let gap := 2 ^ (q - e).toNat
        let lo := m / gap
        at? + (if roundUp mode neg (lo % 2 == 1) (m % gap) gap sticky u then lo + 1 else lo)

/-- The class of a conversion into a narrow code (R82). -/
inductive FClass where
  | ordinary
  | underflow
  | clip
deriving DecidableEq, Repr

/-- Does an overflow give an infinity in a mode (R81)? -/
def overToInf (mode : Nat) (neg : Bool) : Bool :=
  match mode with | 2 => false | 3 => !neg | 4 => neg | _ => true

/-- A rounded result before the clamp: its special or magnitude code, with its sign, and its class (R81, R82). `satc`
is looked at for E4M3 alone, whose infinities SATC 01 makes finite. -/
inductive Rnd where
  | nan
  | inf (neg : Bool)
  | code (neg : Bool) (c : Nat)
deriving DecidableEq, Repr

/-- Round a value into a format and resolve overflow and specials (R77, R81), with the class of R82. -/
def resolve (f : Fmt) (mode satc : Nat) (v : FVal) (sticky : Bool) (u : Nat) : Rnd × FClass :=
  match v with
  | .nan => match f with | .e2m1 => (.code false 0, .clip) | _ => (.nan, .ordinary)
  | .inf neg =>
    match f with
    | .e2m1 => (.code neg f.maxCode, .clip)
    | .t8 => (.nan, .clip)
    | .e4m3 => (if satc = 1 then .code neg f.maxCode else .nan, .clip)
    | _ => (.inf neg, .ordinary)
  | .fin neg m e =>
    let c := roundMag f mode neg m e sticky u
    if f.maxCode < c then
      let r := match f with
        | .e2m1 | .t8 => .code neg f.maxCode
        | .e4m3 => if overToInf mode neg && satc != 1 then .nan else .code neg f.maxCode
        | _ => if overToInf mode neg then .inf neg else .code neg f.maxCode
      (r, .clip)
    else (.code neg c, if c = 0 ∧ ¬ (m = 0 ∧ sticky = false) then .underflow else .ordinary)

/-- The SATC clamp of a floating result (R79). -/
def clampF (f : Fmt) (satc : Nat) (r : Rnd) : Rnd :=
  match satc, r with
  | 1, .inf neg => .code neg f.maxCode
  | 2, .nan => .code false 0
  | 2, .inf neg => .code false (if neg then 0 else f.oneCode)
  | 2, .code neg c => .code false (if neg then 0 else min c f.oneCode)
  | 3, .nan => .code false 0
  | 3, .inf neg => .code neg f.oneCode
  | 3, .code neg c => .code neg (min c f.oneCode)
  | _, r => r

/-- The bits of a rounded result (R65, R68, R69). T8 has no −0. -/
def rndBits (f : Fmt) (r : Rnd) : Nat :=
  match r with
  | .nan => f.nanCode
  | .inf neg => ofB neg * 2 ^ f.body + f.maxCode + 1
  | .code neg c => if f = .t8 ∧ c = 0 then 0 else ofB neg * 2 ^ f.body + c

/-- A value times 2^k (R79). -/
def FVal.scale (v : FVal) (k : Int) : FVal := match v with | .fin n m e => .fin n m (e + k) | x => x

/-- The default mode is round to nearest even (R75). -/
def modeOr (rnd dflt : Nat) : Nat := if rnd = 0 then dflt else rnd

/-- Form a floating result (R79): scale, round once, resolve, clamp. -/
def formF (f : Fmt) (rnd satc : Nat) (scl : Int) (v : FVal) (sticky : Bool) : Nat :=
  rndBits f (clampF f satc (resolve f (modeOr rnd 1) satc (v.scale scl) sticky 0).1)

/-- The same where the mode may be stochastic (R78): the generator advances once for the element. -/
def convF (f : Fmt) (rnd satc : Nat) (scl : Int) (v : FVal) (rs : BitVec 32) : Nat × BitVec 32 × FClass :=
  let rs := if rnd = 6 then rsStep rs else rs
  let r := resolve f (modeOr rnd 1) satc (v.scale scl) false (rs.toNat / 256)
  (rndBits f (clampF f satc r.1), rs, r.2)

/-- FP32 under RNE. -/
def toF32 (v : FVal) : Nat := formF .f32 1 0 0 v false

/-! ### Exact arithmetic -/

/-- NEGA and NEGB, ABSA and ABSB on a value's bits (R67). -/
def modBits (f : Fmt) (neg abs : Bool) (x : Nat) : Nat :=
  let x := if abs then putFld x f.body f.body 0 else x
  if neg then putFld x f.body f.body (1 - x / 2 ^ f.body % 2) else x

/-- The bits of a small integer in a format: what an immediate converts to (R103). -/
def immBits (f : Fmt) (z : Int) : Nat := formF f 1 0 0 (.fin (decide (z < 0)) z.natAbs 0) false

/-- The exact product (R77, R86). -/
def FVal.mul (a b : FVal) : FVal :=
  match a, b with
  | .nan, _ | _, .nan => .nan
  | .inf s, .inf t => .inf (s != t)
  | .inf s, .fin t m _ => if m = 0 then .nan else .inf (s != t)
  | .fin s m _, .inf t => if m = 0 then .nan else .inf (s != t)
  | .fin s m e, .fin t n k => .fin (s != t) (m * n) (e + k)

/-- Negation. -/
def FVal.neg (a : FVal) : FVal := match a with | .nan => .nan | .inf s => .inf (!s) | .fin s m e => .fin (!s) m e

/-- Is a value NaN? -/
def FVal.isNan (a : FVal) : Bool := match a with | .nan => true | _ => false

/-- A finite value as a multiple of 2^e. -/
def FVal.at (e : Int) (a : FVal) : Int :=
  match a with
  | .fin s m k => let x : Int := (m * 2 ^ (k - e).toNat : Nat); if s then -x else x
  | _ => 0

/-- The least exponent of a list of values. -/
def minExp (l : List FVal) : Int :=
  l.foldl (fun a v => match v with | .fin _ _ e => min a e | _ => a) 0

/-- A zero with a given sign? -/
def FVal.isZero (neg : Bool) (a : FVal) : Bool := match a with | .fin s m _ => s == neg && m == 0 | _ => false

/-- The exact sum of terms (R77, R86, R88): NaN when a term is NaN or the infinities differ; the sign of a zero sum
depends on the terms and on the mode. -/
def fsum (mode : Nat) (l : List FVal) : FVal :=
  let pos := l.any (· == .inf false)
  let neg := l.any (· == .inf true)
  if l.any FVal.isNan || (pos && neg) then .nan
  else if pos then .inf false
  else if neg then .inf true
  else
    let e := minExp l
    let z := l.foldl (fun a v => a + FVal.at e v) 0
    if z = 0 then .fin (if mode = 4 then !l.all (FVal.isZero false) else l.all (FVal.isZero true)) 0 0
    else .fin (decide (z < 0)) z.natAbs e

/-- The order of two values that are not NaN: −1, 0 or 1. -/
def FVal.cmp (a b : FVal) : Int :=
  match a, b with
  | .inf s, .inf t => if s = t then 0 else if s then -1 else 1
  | .inf s, _ => if s then -1 else 1
  | _, .inf t => if t then 1 else -1
  | a, b =>
    let e := minExp [a, b]
    let x := a.at e
    let y := b.at e
    if x < y then -1 else if x = y then 0 else 1

/-- The smaller or larger operand, on the bits of a format (R151). -/
def fminmaxF (f : Fmt) (mx : Bool) (x y : Nat) : Nat :=
  let a := decodeF f x
  let b := decodeF f y
  if a.isNan then (if b.isNan then f.nanCode else y)
  else if b.isNan then x
  else
    let c := a.cmp b
    let less := c == -1 || (c == 0 && bitN x f.body)
    if less != mx then x else y

/-- FMIN and FMAX (R151). -/
def fminmax (mx : Bool) (x y : Nat) : Nat := fminmaxF .f32 mx x y

/-- Integer rounding of a magnitude num/den (R77, R78) with the draw u. -/
def roundRat (mode : Nat) (neg : Bool) (num den u : Nat) : Nat :=
  let lo := num / den
  if roundUp mode neg (lo % 2 == 1) (num % den) den false u then lo + 1 else lo

/-- The integer nearest to a finite value under a mode. -/
def roundInt (mode : Nat) (neg : Bool) (m : Nat) (e : Int) (u : Nat) : Int :=
  let k := (-e).toNat
  let r := roundRat mode neg (m * 2 ^ (e + k).toNat) (2 ^ k) u
  if neg then -(r : Int) else r

/-! ### Quotients, roots and the functions of the special-function unit (R162) -/

/-- A magnitude with its sticky bit and the value's sign. -/
structure Mag where
  neg : Bool
  m : Nat
  e : Int
  sticky : Bool
deriving DecidableEq, Repr

/-- The quotient of two finite magnitudes, the divisor not zero. -/
def divMag (neg : Bool) (m : Nat) (e : Int) (n : Nat) (k : Int) : Mag :=
  let sh := Nat.log2 n + 64
  ⟨neg, m * 2 ^ sh / n, e - k - sh, m * 2 ^ sh % n != 0⟩

/-- The integer square root, bit by bit. -/
def isqrtGo (x : Nat) : Nat → Nat → Nat
  | 0, r => r
  | n + 1, r => let c := r + 2 ^ n; isqrtGo x n (if c * c ≤ x then c else r)

/-- The integer square root. -/
def isqrt (x : Nat) : Nat := isqrtGo x (Nat.log2 x / 2 + 1) 0

/-- The square root of a positive magnitude. -/
def sqrtMag (m : Nat) (e : Int) : Mag :=
  let sh : Nat := 128 + (e % 2).toNat
  let x := m * 2 ^ sh
  let r := isqrt x
  ⟨false, r, (e - sh) / 2, r * r != x⟩

/-- The reciprocal square root of a positive magnitude. -/
def rsqMag (m : Nat) (e : Int) : Mag :=
  let o := (e % 2).toNat
  let m := m * 2 ^ o
  let p := Nat.log2 m / 2 + 64
  let y := 2 ^ (2 * p) / m
  let r := isqrt y
  ⟨false, r, -(e - o) / 2 - p, r * r * m != 2 ^ (2 * p)⟩

/-- Fraction bits of the fixed-point evaluation of EXP2, LOG2, SIN, COS and TANH. The value found lies within 2^−600 of
the exact one, which no input of FP32 brings that near to a rounding boundary (assumption log 8). -/
def fxBits : Nat := 704

/-- A fixed-point product. -/
def fxMul (a b : Nat) : Nat := a * b / 2 ^ fxBits

/-- The sum of z^(2k+1)/(2k+1), k from j up, with alternating signs when `alt`. -/
def atanGo (alt : Bool) (z2 : Nat) : Nat → Nat → Nat → Int
  | 0, _, _ => 0
  | n + 1, j, zp =>
    let t : Int := (zp / (2 * j + 1) : Nat)
    (if alt && j % 2 == 1 then -t else t) + atanGo alt z2 n (j + 1) (fxMul zp z2)

/-- atan or atanh of a fixed-point number of at most 1/3. -/
def fxAtan (alt : Bool) (z : Nat) : Nat := (atanGo alt (fxMul z z) 230 0 z).toNat

/-- ln 2, as twice atanh 1/3. -/
def fxLn2 : Nat := 2 * fxAtan false (2 ^ fxBits / 3)

/-- π, by Machin's sum. -/
def fxPi : Nat := 16 * fxAtan true (2 ^ fxBits / 5) - 4 * fxAtan true (2 ^ fxBits / 239)

/-- The sum of the terms y^k/k! from term k up. -/
def expGo (y : Nat) : Nat → Nat → Nat → Nat
  | 0, _, _ => 0
  | n + 1, k, t => t + expGo y n (k + 1) (fxMul t y / (k + 1))

/-- e^y for a fixed-point y below 1. -/
def fxExp (y : Nat) : Nat := expGo y 150 0 (2 ^ fxBits)

/-- The sum of the terms of sin from term k up, with alternating signs. -/
def sinGo (y2 : Nat) : Nat → Nat → Nat → Int
  | 0, _, _ => 0
  | n + 1, k, t => t - sinGo y2 n (k + 1) (fxMul t y2 / ((2 * k + 2) * (2 * k + 3)))

/-- sin of a fixed-point y of at most π/2. -/
def fxSin (y : Nat) : Nat := (sinGo (fxMul y y) 90 0 y).toNat

/-- A value found in fixed point. -/
def fxMag (neg : Bool) (a : Nat) : Mag := ⟨neg, a / 2 ^ 64, 64 - fxBits, true⟩

/-- 2^x for a finite x that is not zero (R162). -/
def exp2Mag (neg : Bool) (m : Nat) (e : Int) : Mag :=
  let z := (FVal.fin neg m e).at (min e 0)
  let d : Int := (2 ^ (-(min e 0)).toNat : Nat)
  let k := z / d
  let r := (z % d).toNat
  if 2 ^ 12 ≤ k then ⟨false, 1, 2 ^ 12, false⟩
  else if k ≤ -(2 ^ 12) then ⟨false, 2 ^ 64, -(2 ^ 12) - 64, true⟩
  else if r = 0 then ⟨false, 1, k, false⟩
  else
    let f := r * 2 ^ fxBits / d.toNat
    let g := fxMag false (fxExp (fxMul f fxLn2))
    { g with e := g.e + k }

/-- log2 x for a finite x > 0 (R162). -/
def log2Mag (m : Nat) (e : Int) : Mag :=
  let l := Nat.log2 m
  let k := e + l
  if m = 2 ^ l then ⟨decide (k < 0), k.natAbs, 0, false⟩
  else
    let z := (m - 2 ^ l) * 2 ^ fxBits / (m + 2 ^ l)
    let f := 2 * fxAtan false z * 2 ^ fxBits / fxLn2
    let v : Int := k * (2 ^ fxBits : Nat) + f
    fxMag (decide (v < 0)) v.natAbs

/-- sin(πr) for a dyadic r = x/d between 0 and 1/2, both excluded. -/
def sinPi (neg : Bool) (x d : Nat) : Mag := fxMag neg (fxSin (fxPi * x / d))

/-- sin(πx) for a finite x (R162): the zero of an integer has the sign of x. -/
def sinMag (neg : Bool) (m : Nat) (e : Int) : Mag :=
  let d := 2 ^ (-(min e 0)).toNat
  let r := m * 2 ^ (e - min e 0).toNat % (2 * d)
  let flip := decide (d < r)
  let r' := if d < r then r - d else r
  if r' % d = 0 then ⟨neg, 0, 0, false⟩
  else if 2 * r' = d then ⟨neg != flip, 1, 0, false⟩
  else sinPi (neg != flip) (min r' (d - r')) d

/-- cos(πx) for a finite x (R162). -/
def cosMag (m : Nat) (e : Int) : Mag :=
  let d := 2 * 2 ^ (-(min e 0)).toNat
  let r := 2 * m * 2 ^ (e - min e 0).toNat % (2 * d)
  let r := if d < r then 2 * d - r else r
  if r = 0 then ⟨false, 1, 0, false⟩
  else if r = d then ⟨true, 1, 0, false⟩
  else if 2 * r = d then ⟨false, 0, 0, false⟩
  else if 2 * r < d then sinPi false (d / 2 - r) d
  else sinPi true (r - d / 2) d

/-- tanh x for a finite x that is not zero (R162). -/
def tanhMag (neg : Bool) (m : Nat) (e : Int) : Mag :=
  let k := min e 0
  let d := 2 ^ (-k).toNat
  let x := 2 * m * 2 ^ (e - k).toNat
  if 128 * d ≤ x then fxMag neg (2 ^ fxBits - 1)
  else
    let y := x * 2 ^ fxBits / d
    let q := y / fxLn2
    let ex := fxExp (y % fxLn2) * 2 ^ q
    fxMag neg ((ex - 2 ^ fxBits) * 2 ^ fxBits / (ex + 2 ^ fxBits))

end Sys2Proof.Machine
end

