-- ==== Sys2Proof/Machine/Perform.lean ====
section
/-! DEFINITION. How an outstanding access is performed (R209, R213 to R217, R314 to R321, R323 to R328): when it may be,
what it does to the bytes it meets, and how its value is delivered and its entry retired (R53, R206). -/

namespace Sys2Proof.Machine

/-! ### What an operation makes of the bytes it meets -/

/-- The bytes an operation writes, if any, and the value it returns, if any. -/
structure Rmw where
  new : Option (List Byte)
  ret : Option Nat
deriving DecidableEq, Repr

/-- The new value of ATOM and RED on w bits (R215, R217). -/
def atomNew (op w old v : Nat) : Nat :=
  let f := if w = 64 then Fmt.f64 else Fmt.f32
  match op with
  | 0 => (old + v) % 2 ^ w
  | 1 => old &&& v
  | 2 => old ||| v
  | 3 => old ^^^ v
  | 4 => if sx w old ≤ sx w v then old else v
  | 5 => if sx w old ≤ sx w v then v else old
  | 6 => min old v
  | 7 => max old v
  | 8 => v
  | 9 => formF f 1 0 0 (fsum 1 [decodeF f old, decodeF f v]) false
  | 10 => fminmaxF f false old v
  | _ => fminmaxF f true old v

/-- The bytes up to and with the first NUL, the rest zero (R178). -/
def cutNul : List Byte → List Byte
  | [] => []
  | b :: t => if b = 0#8 then (b :: t).map fun _ => 0#8 else b :: cutNul t

/-- What an operation makes of old bytes. -/
def AccOp.rmw (o : AccOp) (old : List Byte) : Rmw :=
  let x := ofLE old
  match o with
  | .load n sgn => ⟨none, some (if sgn then wrapI 32 (sx (8 * n) x) else x)⟩
  | .store bs => ⟨some bs, none⟩
  | .atom op wide v ret =>
    let n := if wide then 8 else 4
    ⟨some (toLE n (atomNew op (8 * n) x v)), if ret then some x else none⟩
  | .red op wide v =>
    let n := if wide then 8 else 4
    ⟨some (toLE n (atomNew op (8 * n) x v)), none⟩
  | .cas n expd new => ⟨if x = expd then some (toLE n new) else none, some x⟩
  | .sldx _ nul => ⟨none, some (ofLE (if nul then cutNul old else old))⟩
  | .ldc _ _ | .ctr _ => ⟨none, some x⟩
  | _ => ⟨none, none⟩

/-! ### Transaction barriers (R234, R235) -/

/-- A barrier whose arrivals and sectors have reached zero completes (R235). -/
def tbSettle (x : Nat) (det : Bool) : Nat × Bool :=
  if fld x 31 8 = 0 ∧ fld x 63 32 = 0 then
    let x := putFld x 3 0 (fld x 3 0 + 1)
    let x := putFld x 4 4 (ofB det)
    (putFld x 31 8 (fld x 87 64), true)
  else (x, false)

/-- TBINIT (R235). -/
def tbInit (v : Nat) : Nat := (v % 2 ^ 24) * 2 ^ 64 + (v % 2 ^ 24) * 2 ^ 8

/-- SECT changed by n sectors that land (R235). -/
def tbLandObj (x : Nat) (n : Int) : Nat := putFld x 63 32 (wrapI 32 ((fld x 63 32 : Int) + n))

/-- The 16 bytes of a barrier in a team's scratchpad. -/
def Team.tbObj (t : Team) (mc off : Nat) : Nat := Mem.readN (Tab.getD t.scratch [] mc) off 16

/-- Write a barrier's bytes. -/
def Team.setTb (t : Team) (mc off x : Nat) : Team :=
  { t with scratch := Tab.set t.scratch mc (Mem.writeN (Tab.getD t.scratch [] mc) off 16 x) }

/-- Write a barrier after an operation that may complete it; the threads that wait at a barrier look again (R234). -/
def Team.tbDone (t : Team) (mc off x : Nat) : Team :=
  let (x, done) := tbSettle x (t.detached.contains (mc, off))
  let t := t.setTb mc off x
  (if done then { t with detached := t.detached.filter (· != (mc, off)) } else t).wake Wait.onBar

/-- n sectors land on a barrier (R222, R310); n may be negative, when sectors are added to the wait. -/
def State.tbLand (s : State) (g tm mc off : Nat) (n : Int) : State :=
  s.updTeam g tm fun t => t.tbDone mc off (tbLandObj (t.tbObj mc off) n)

/-! ### When an access may be performed -/

/-- Two ranges meet. -/
def rangesMeet (a n b m : Nat) : Bool := decide (a < b + m) && decide (b < a + n)

/-- The physical ranges of an access, as lease, address and length. -/
def Acc.phys (a : Acc) : List (Nat × Nat × Nat) :=
  let n := firstPart a.va a.size
  (match a.leaf with | some l => [(l.lease, l.pg * pageSize + a.va % pageSize, n)] | none => [])
  ++ (match a.leaf2 with | some l => [(l.lease, l.pg * pageSize, a.size - n)] | none => [])

/-- Do two accesses of a thread access a common address (R323)? -/
def Acc.meets (a b : Acc) : Bool :=
  rangesMeet a.va a.size b.va b.size ||
  a.phys.any fun p => b.phys.any fun q => p.1 == q.1 && rangesMeet p.2.1 p.2.2 q.2.1 q.2.2

/-- Do two accesses have a thread in common? -/
def Acc.sharesThread (a b : Acc) : Bool := decide (a.t.g = b.t.g) && a.set.any b.set.contains

/-- The target of an access that leaves over Shecel (R408): a device, or a multicast group above them. -/
def State.remoteOf (s : State) (a : Acc) : Option Nat :=
  match a.leaf with
  | none => none
  | some l =>
    match s.placeOf l a.va with
    | .remote d _ => some d
    | .mcast g _ => some (0x1000 + g)
    | _ => none

/-- Does the access reach host memory over PCIe 6 (R328)? -/
def State.pcieOf (s : State) (a : Acc) : Bool :=
  match a.leaf with
  | none => false
  | some l => (match s.placeOf l a.va with | .hostN _ => true | _ => false)

/-- Does an operation write? -/
def AccOp.writes (o : AccOp) : Bool :=
  match o with
  | .store _ | .atom _ _ _ _ | .cas _ _ _ | .red _ _ _ | .tbinit _ | .tbexp _ | .tbarr => true
  | _ => false

/-- Is an operation a load or a read-modify-write (R324)? -/
def AccOp.reads (o : AccOp) : Bool :=
  match o with
  | .store _ | .card _ | .resid | .clock _ => false
  | _ => true

/-- Is an operation a read-modify-write (R321)? -/
def AccOp.isRmw (o : AccOp) : Bool := match o with | .atom _ _ _ _ | .cas _ _ _ | .red _ _ _ => true | _ => false

/-- A weak store to user-virtual or scratchpad memory (R328). -/
def Acc.weakStore (a : Acc) : Bool := !a.strong && a.op.isStore && decide (a.va / 2 ^ 56 ≠ 0xFC)

/-- Does the K of two weak stores hold (R324)? Between two over PCIe 6 it reads A, and between two that leave over Shecel the
stream decides (R328). -/
def State.storesKept (s : State) (a b : Acc) : Bool :=
  a.weakStore && b.weakStore && !(s.pcieOf a && s.pcieOf b) && !((s.remoteOf a).isSome && (s.remoteOf b).isSome)

/-- The accesses of an access's threads that came before it and are outstanding. -/
def State.accsBefore (s : State) (a : Acc) : List Acc :=
  s.accs.filter fun b => decide (b.id < a.id) && a.sharesThread b && b.st != .acquiring

/-- Does every die's vector cover a stamp (R315)? -/
def State.allCover (s : State) (v : VClk) : Bool := (span 0 4).all fun d => (s.die d).v.covers v

/-- Do the vectors cover what a release of a thread needs (R315, R319): the die's, and at device or system scope every die's,
the stamps of the writes that the thread has made or met? -/
def State.releaseCovers (s : State) (core : Nat) (th : Thread) (scope : Nat) : Bool :=
  let v := th.wrote.join th.seen
  (s.die (dieOfCore core)).v.covers v && (decide (scope < 3) || s.allCover v)

/-- Has every dirty pool sector that holds a thread's stores been written back (R402)? -/
def State.storesBack (s : State) (th : Thread) : Bool :=
  s.frames.all fun e => e.2.loc || !(e.2.dirty.any fun k => th.stored.contains (e.2.page * 1024 + k))

/-- The threads of an access. -/
def State.accThreads (s : State) (a : Acc) : List Thread :=
  a.set.filterMap fun tid => (s.thread? ⟨a.t.g, tid⟩).map (·.2.2)

/-- Does the release of a releasing access hold (R207, R319)? -/
def State.releaseHolds (s : State) (a : Acc) : Bool :=
  (s.accsBefore a).isEmpty
  && (s.accThreads a).all (fun th => s.releaseCovers a.core th a.scope && (a.scope != 4 || s.storesBack th))

/-- Is it an operation on a transaction barrier (R235)? -/
def AccOp.isTb (o : AccOp) : Bool := match o with | .tbinit _ | .tbexp _ | .tbarr => true | _ => false

/-- Operations of one issue on one barrier are performed in ascending thread number (R235). -/
def State.tbTurn (s : State) (a : Acc) : Bool :=
  !a.op.isTb || s.accs.all fun b =>
    !(decide (b.id < a.id) && b.op.isTb && decide (b.t.g = a.t.g) && b.pc == a.pc && b.va == a.va)

/-- Does the order of an acquire or a release of an access's threads that came before hold it back (R322 to R327)? -/
def State.ordered (s : State) (a : Acc) : Bool :=
  s.accs.all fun b =>
    !(decide (b.id < a.id) && a.sharesThread b
      && (b.acq || (b.rel && a.op.writes && b.st == .pending && !s.releaseHolds b)))

/-- Does a request's stream let it go (R332, R333): no earlier request of the stream to its target waits, and the stream is
not frozen? -/
def State.streamFree (s : State) (a : Acc) : Bool :=
  match s.remoteOf a with
  | none => true
  | some tgt =>
    s.accs.all fun b =>
      !(decide (b.id < a.id) && decide (b.t.g = a.t.g) && b.stream == a.stream && (s.remoteOf b).isSome)
      || (b.st != .frozen && (decide (s.remoteOf b ≠ some tgt) || b.st == .sent || b.st == .acquiring))

/-- May an access be performed now (R323 to R328, R332)? -/
def State.accReady (s : State) (a : Acc) : Bool :=
  a.st == .pending && s.tbTurn a && s.ordered a
  && (s.accsBefore a).all (fun b =>
      (!a.meets b || ((s.remoteOf a).isSome && (s.remoteOf b).isSome)) && !s.storesKept a b)
  && (!a.rel || s.releaseHolds a) && s.streamFree a

/-- Is no acquire of some threads outstanding (R324 to R327: AQ before CO)? -/
def State.acqsDone (s : State) (r : GRef) (tids : List Nat) : Bool :=
  s.accs.all fun b => !(decide (b.t.g = r) && b.set.any tids.contains && b.acq)

/-- Has the order of the acquires and releases of some threads let a tile consume or a job's issue go (R324 to R327: AQ and RL
before TC and JI)? -/
def State.fencesHold (s : State) (r : GRef) (tids : List Nat) : Bool :=
  s.acqsDone r tids
  && s.accs.all fun b =>
    !(decide (b.t.g = r) && b.set.any tids.contains && b.rel && b.st == .pending && !s.releaseHolds b)

/-- Is no load, read-modify-write or acquire of some threads outstanding (R324: WL, SL, RMW and AQ before AQ)? -/
def State.readsDone (s : State) (r : GRef) (tids : List Nat) : Bool :=
  s.accs.all fun b => !(decide (b.t.g = r) && b.set.any tids.contains && (b.op.reads || b.acq))

/-! ### What a thread has met (R319, R320, R330, R331) -/

/-- The key a thread has met or made at a byte. -/
def Thread.floorAt (t : Thread) (pa : Nat) : Nat × Nat := Tab.getD t.floor (0, 0) pa

/-- May a thread still meet a copy of a byte (R331)? -/
def Thread.mayMeet (t : Thread) (pa : Nat) (c : Copy) : Bool := !keyLt c.mark.key (t.floorAt pa)

/-- Raise what a thread has met at a byte. -/
def Thread.raiseFloor (t : Thread) (pa : Nat) (k : Nat × Nat) : Thread :=
  if keyLt (t.floorAt pa) k then { t with floor := Tab.put t.floor (0, 0) pa k } else t

/-- A thread meets the copies of bytes from an address up. -/
def Thread.meet (t : Thread) : Nat → List Copy → Thread
  | _, [] => t
  | pa, c :: l => Thread.meet (t.raiseFloor pa c.mark.key) (pa + 1) l

/-- The join of the stamps of some copies. -/
def stampsOf (cs : List Copy) : VClk := cs.foldl (fun v c => v.join c.mark.st) .zero

/-- Would a write of key k come after what the threads have met at the bytes? -/
def floorBelow (ths : List Thread) (k : Nat × Nat) (pa n : Nat) : Bool :=
  (span pa n).all fun x => ths.all fun t => keyLt (t.floorAt x) k

/-- May a weak write of a die to some bytes be made now: after what its threads have met there (R331), and between no
read-modify-write and the write that it read (R321)? -/
def State.mayWrite (s : State) (ths : List Thread) (d pa n : Nat) : Bool :=
  let k := (((s.die d).v.bump d).sum, d)
  decide (hostBase ≤ pa) || (floorBelow ths k pa n && s.afterRmw k pa n)

/-- Change the threads of an access. -/
def State.updAccThreads (s : State) (a : Acc) (f : Thread → Thread) : State :=
  a.set.foldl (fun s tid => s.updThread ⟨a.t.g, tid⟩ f) s

/-! ### Delivery and retirement (R53, R206) -/

/-- Replace an outstanding access. -/
def State.setAcc (s : State) (a : Acc) : State := { s with accs := s.accs.map fun b => if b.id = a.id then a else b }

/-- An outstanding access by its number. -/
def State.acc? (s : State) (id : Nat) : Option Acc := List.find? (fun a => a.id == id) s.accs

/-- Threads of a group that wait for registers or retired accesses look again. -/
def State.wakeRegs (s : State) (r : GRef) : State := s.updGroup r fun g => (g.wake Wait.onRegs).wake Wait.onTile

/-- The value of a long-latency producer arrives: its registers are full with it (R54). -/
def State.deliver (s : State) (t : TRef) (d : Option Dest) (v : Nat) : State :=
  match d with
  | none => s
  | some d =>
    let l := wordsAt d.reg d.cnt v
    s.watchFill t.g [t.tid]
      (if d.uniform then s.updGroup t.g fun g => g.setRegs l else s.updThread t fun th => th.setRegs l)

/-- Take an access off the table (R206). -/
def State.dropAcc (s : State) (a : Acc) : State :=
  ({ s with accs := s.accs.filter fun b => b.id != a.id }).wakeRegs a.t.g

/-- Does a die's vector cover what an acquire of a thread needs (R319): the vectors returned with its strong loads, and the
stamps of what it has read? -/
def State.acquireCovers (s : State) (core scope : Nat) (th : Thread) : Bool :=
  decide (scope < 3) || (s.die (dieOfCore core)).v.covers th.seen

/-- An acquire at team, device or system scope has completed: the core's L1 is invalid (R297). -/
def State.acquired (s : State) (core scope : Nat) : State := if scope < 2 then s else s.dropL1 core

/-- May the acquire of an access complete: after the earlier loads, read-modify-writes and acquires of its threads (R324), and
with its vector covered (R319)? -/
def State.acquireHolds (s : State) (a : Acc) : Bool :=
  s.accs.all (fun b => !(decide (b.id < a.id) && a.sharesThread b && (b.op.reads || b.acq)))
  && (s.accThreads a).all (s.acquireCovers a.core a.scope)

/-- An access that has been performed: its acquire completes, or waits (R319, R322); its entry retires. -/
def State.accDone (s : State) (a : Acc) : State :=
  if a.acq then
    if s.acquireHolds a then (s.acquired a.core a.scope).dropAcc a
    else
      (s.setAcc { a with st := .acquiring, isLoad := false, isStore := false, entry := false }).wakeRegs a.t.g
  else s.dropAcc a

/-! ### The bytes -/

/-- One piece of a weak access: a place, its address and its length. -/
structure Piece where
  pl : Place
  va : Nat
  n : Nat
  lease : Nat
deriving DecidableEq, Repr

/-- The pieces of an access. -/
def State.pieces (s : State) (a : Acc) : List Piece :=
  let n := firstPart a.va a.size
  (match a.leaf with | some l => [⟨s.placeOf l a.va, a.va, n, l.lease⟩] | none => [])
  ++ (match a.leaf2 with | some l => [⟨s.placeOf l (a.va + n), a.va + n, a.size - n, l.lease⟩] | none => [])

/-- The address at which a piece is accessed now (R383, R384). -/
def State.pieceDev (s : State) (part : Nat) (p : Piece) : Option Nat := s.placeDev part p.pl p.n

/-- Is a piece in memory that no cache holds (R410)? -/
def Piece.uncached (p : Piece) : Bool := match p.pl with | .hostN _ => true | _ => false

/-- The request that a piece in an absent pool page waits for (R384). -/
def Piece.request (p : Piece) (a : Acc) : Option PageReq :=
  match p.pl with
  | .pool page off =>
    some { part := a.part, pasid := a.pasid, page := page, lease := p.lease, sector := off / 64, group := 0,
           ord := 0, va := alignDown p.va pageSize, report := false, wait := true, bar := none }
  | _ => none

/-- The sectors of an absent pool page have been asked for. -/
def State.askPieces (s : State) (a : Acc) (ps : List Piece) : State :=
  ps.foldl (fun s p =>
    match s.pieceDev a.part p, p.request a with
    | none, some q =>
      (match s.frameOf a.part q.page with
       | some (_, e) => if e.st == .filling || e.st == .valid then s else s.needPage q
       | none => s.needPage q)
    | _, _ => s) s

/-- Count an access at the frame of a pool piece (R386). -/
def State.countPiece (s : State) (p : Piece) (pa : Nat) : State :=
  match p.pl with | .pool _ _ => s.countFrame (pa / pageSize) | _ => s

/-- Note a store of a thread to a pool page (R402). -/
def State.noteStored (s : State) (a : Acc) (p : Piece) : State :=
  match p.pl with
  | .pool page off =>
    s.updAccThreads a fun t => { t with stored := insNats (span (page * 1024 + off / 64) (ceilDiv (off % 64 + p.n) 64)) t.stored }
  | _ => s

/-- The copies that a weak load meets at a piece (R316, R331, R410); none while it waits. -/
def State.loadCopies (s : State) (a : Acc) (fresh : Bool) (p : Piece) : Option (List Copy) :=
  let ths := s.accThreads a
  match s.pieceDev a.part p with
  | none => none
  | some pa => (span pa p.n).mapM fun x =>
      let ok := fun c => ths.all fun t => t.mayMeet x c
      if p.uncached then (some (s.homeCopy x)).filter ok else s.loadCopy a.core fresh ok x

/-- Can a piece of a weak access be read or written now? -/
def State.weakReady (s : State) (a : Acc) (fresh : Bool) (p : Piece) : Bool :=
  if a.op.writes then
    match s.pieceDev a.part p with
    | none => false
    | some pa => s.mayWrite (s.accThreads a) (dieOfCore a.core) pa p.n
  else (s.loadCopies a fresh p).isSome

/-- The threads of an access have read copies of bytes (R330, R331). -/
def State.readMeets (s : State) (a : Acc) (pa : Nat) (cs : List Copy) : State :=
  s.updAccThreads a fun t => { t.meet pa cs with seen := t.seen.join (stampsOf cs) }

/-- Read a piece of a weak load (R316); a load that its core's L1 does not serve fills the sectors (R297). -/
def State.readPiece (s : State) (a : Acc) (fresh : Bool) (p : Piece) : List Byte × State :=
  match s.pieceDev a.part p, s.loadCopies a fresh p with
  | some pa, some cs =>
    let hit := !fresh && ((span pa p.n).zip cs).all fun x => decide (s.l1Copy a.core x.1 = some x.2)
    let s := if hit || p.uncached then s else s.fillL1 a.core pa p.n
    (cs.map Copy.b, s.readMeets a pa cs)
  | _, _ => ([], s)

/-- The threads of an access have written bytes under a stamp (R319, R320). -/
def State.writeMeets (s : State) (a : Acc) (pa : Nat) (v : VClk) (cs : List Copy) : State :=
  s.updAccThreads a fun t => { t.meet pa cs with wrote := t.wrote.join v }

/-- Write a piece of a weak store (R284, R317). -/
def State.writePiece (s : State) (a : Acc) (p : Piece) (bs : List Byte) : State :=
  match s.pieceDev a.part p with
  | some pa =>
    let r := s.writeAt (dieOfCore a.core) pa bs
    ((r.1.refreshL1 a.core pa r.2.2).writeMeets a pa r.2.1 r.2.2).noteStored a p
  | none => s

/-- Read the pieces of a weak load in order. -/
def State.readPieces (s : State) (a : Acc) (fresh : Bool) : List Piece → List Byte × State
  | [] => ([], s)
  | p :: t =>
    let (bs, s) := s.readPiece a fresh p
    let (bs', s) := State.readPieces s a fresh t
    (bs ++ bs', s)

/-- Write the pieces of a weak store in order. -/
def State.writePieces (s : State) (a : Acc) : List Piece → List Byte → State
  | [], _ => s
  | p :: t, bs => State.writePieces (s.writePiece a p (bs.take p.n)) a t (bs.drop p.n)

/-- The place of a strong access's performance (R213, R410): the home die, or the issuing core's where the completer performs
it (R218). -/
def strongHome (core : Nat) (p : Piece) (pa : Nat) : Nat := if p.uncached then dieOfCore core else homeOf pa

/-- Record a read-modify-write's key at its home (R321). -/
def State.noteRmw (s : State) (pa n : Nat) (k : Nat × Nat) : State :=
  s.updDie (homeOf pa) fun d => { d with rmw := (span pa n).foldl (fun m x => Tab.put m (0, 0) x k) d.rmw }

/-- May a strong access be performed at die h (R319, R321, R331): its vector covers what the access carries, the copies and the
new write come after what its threads have met, and no write falls between a read-modify-write and the write it reads? -/
def State.strongReady (s : State) (a : Acc) (h pa n : Nat) : Bool :=
  let ths := s.accThreads a
  let v := (s.die h).v
  let k := ((v.bump h).sum, h)
  let dev := decide (pa < hostBase)
  (match a.vreq with | some q => v.covers q | none => true)
  && (!a.op.writes || !dev || floorBelow ths k pa n)
  && (!a.op.reads || (span pa n).all fun x => ths.all fun t => t.mayMeet x (s.homeCopy x))
  && (!a.op.isRmw || !dev || s.noneBetween k pa n)

/-- Perform a strong access at an address (R213, R319, R321); none while its home die may not. -/
def State.strongAt (s : State) (a : Acc) (p : Piece) (pa : Nat) : Option (State × Option Nat) :=
  let h := strongHome a.core p pa
  if !s.strongReady a h pa p.n then none
  else
    let old := (span pa p.n).map s.homeCopy
    let back := (s.die h).v
    let r := a.op.rmw (old.map Copy.b)
    let s := if a.op.reads then
        ((s.refreshL1 a.core pa old).readMeets a pa old).updAccThreads a fun t => { t with seen := t.seen.join back }
      else s
    let s := match r.new with
      | some bs =>
        let w := s.writeAt h pa bs
        let s := if a.op.isRmw && decide (pa < hostBase) then w.1.noteRmw pa p.n (w.2.1.sum, h) else w.1
        ((s.refreshL1 a.core pa w.2.2).writeMeets a pa w.2.1 w.2.2).noteStored a p
      | none => s
    some (s.countPiece p pa, r.ret)

/-- Perform a strong access (R213, R218). -/
def State.strongPiece (s : State) (a : Acc) (p : Piece) : Option (State × Option Nat) :=
  (s.pieceDev a.part p).bind (s.strongAt a p)

/-! ### Requests that leave the device (R414, R416) -/

/-- The number of an operation in a request: 0 load, 1 store, 2 compare and swap, 3 strong load, 4 strong store, 16 + OP
an ATOM and 32 + OP a RED (assumption log 30). -/
def AccOp.number (o : AccOp) (strong : Bool) : Nat :=
  match o with
  | .store _ => if strong then 4 else 1
  | .cas _ _ _ => 2
  | .atom op _ _ _ => 16 + op
  | .red op _ _ => 32 + op
  | _ => if strong then 3 else 0

/-- The data a request carries. -/
def AccOp.sent (o : AccOp) : List Byte :=
  match o with
  | .store bs => bs
  | .cas n e v => toLE n e ++ toLE n v
  | .atom _ w v _ | .red _ w v => toLE (if w then 8 else 4) v
  | _ => []

/-- An operation of a request, from its number, its size and its data (R416). -/
def opOfNumber (k size : Nat) (data : List Byte) : AccOp :=
  let w := size == 8
  if k = 0 ∨ k = 3 then .load size false
  else if k = 1 ∨ k = 4 then .store data
  else if k = 2 then .cas size (ofLE (data.take size)) (ofLE (data.drop size))
  else if k < 32 then .atom (k - 16) w (ofLE data) true
  else .red (k - 32) w (ofLE data)

/-- The function of a partition (R421). -/
def State.fnOf (s : State) (p : Nat) : Nat := match s.part p with | some q => q.fn | none => 0

/-- SMASK of a store that a fault has stopped at its second page (R179): the sectors performed before. -/
def Acc.smask (a : Acc) : Nat := if a.prog = 0 then 0 else 2 ^ ceilDiv (a.va % 64 + a.prog) 64 - 1

/-- The record of a fault that an access of a thread meets when it is performed (R205, R455). -/
def State.accRec (s : State) (a : Acc) (t : TRef) (f : Fail) (va : Nat) : FRec :=
  { ((s.mkRec t f.code a.kind a.pc va).withFail f) with ri := a.ri, smask := a.smask }

/-- The answer to a request of one of the device's own units; an MLDG that waits for it looks again. -/
def State.unitReply (s : State) (id reason : Nat) (data : List Byte) : State :=
  if !(s.fab.units.any fun u => u.acc == id) then s
  else
    { s with
      teams := s.teams.map (Team.wake Wait.onPins)
      fab := { s.fab with
        units := s.fab.units.map fun u => if u.acc = id then { u with answer := some (reason, data) } else u } }

/-- A deferred fault of the threads of an access (R419, R455): a load's waits at its registers, a store's at the thread's
next wait for its stores. A join counter's is taken by its thread, which waits at its instruction (R237). The entry
retires. -/
def State.deferAt (s : State) (a : Acc) (f : Fail) (va : Nat) : State :=
  match a.op with
  | .ctr _ => ((s.dropAcc a).updThread a.t fun t => { t with st := .ready }).raiseMem a.t 0x03 ⟨va, f⟩
  | _ =>
    let s := s.unitReply a.id f.code []
    let kind := match a.dest with
      | some d => DefKind.load (ofB d.uniform) (span d.reg d.cnt)
      | none => .store
    let s := a.set.foldl (fun s tid =>
      let t : TRef := ⟨a.t.g, tid⟩
      s.defer t ⟨kind, { s.accRec a t f va with replay := false }⟩) s
    s.dropAcc a

/-- A deferred fault at the address of an access. -/
def State.deferAcc (s : State) (a : Acc) (f : Fail) : State := s.deferAt a f a.va

/-- The number that names a group in requests (R414; assumption log 30). -/
def GRef.number (r : GRef) : Nat := r.gid + 2 ^ 8 * r.team + 2 ^ 40 * r.grid

/-- A stream's entry; one that is not listed has made no request. -/
def seqOf (l : List StreamSeq) (key : List Nat) : StreamSeq := (List.find? (fun x => x.key == key) l).getD ⟨key, 0, .zero⟩

/-- Replace a stream's entry. -/
def seqSet (l : List StreamSeq) (x : StreamSeq) : List StreamSeq := l.filter (fun y => y.key != x.key) ++ [x]

/-- The sequence number of a request that leaves on a stream, which then counts one more (R414). -/
def State.outSeqTake (s : State) (key : List Nat) : Nat × State :=
  let x := seqOf s.fab.outSeq key
  (x.next, { s with fab := { s.fab with outSeq := seqSet s.fab.outSeq { x with next := x.next + 1 } } })

/-- Does a link of the device carry its traffic (R420)? -/
def State.linkUp (s : State) : Bool := (span 0 18).any fun k => Tab.getD s.fab.links true k

/-- The number of a sender's allowance at a peer's endpoint, a function of a peer device (R421, R422). -/
def allowKey (fn dev fa : Nat) : Nat := 16 * (4096 * fn + dev) + fld fa 63 60

/-- Send a request over Shecel (R414, R420, R422): it takes one allowance of the peer's endpoint; a lost peer fails it, and
with every link down it waits. -/
def State.sendAcc (s : State) (a : Acc) (pl : Place) : State :=
  match pl with
  | .remote dev fa =>
    let fn := s.fnOf a.part
    let key := allowKey fn dev fa
    let left := Tab.getD s.fab.allow 0 key
    if s.peerLost dev then s.deferAcc a ⟨0x15, none, false, match a.leaf with | some l => l.lease | none => 0⟩
    else if left = 0 ∨ Tab.getD s.fab.quenched 0 fn ≠ 0 ∨ !s.linkUp then s
    else
      let q := s.outSeqTake [dev, fn, a.t.g.number, a.stream]
      let s := q.2
      let m : OutMsg := .request a.id dev fn a.t.g.number a.stream q.1 fa (a.op.number a.strong) a.size a.op.sent
      ({ s with fab := { s.fab with out := s.fab.out ++ [m], allow := Tab.put s.fab.allow 0 key (left - 1) } }).setAcc
        { a with st := .sent }
  | .mcast grp fa =>
    if Tab.getD s.fab.quenched 0 (s.fnOf a.part) ≠ 0 ∨ !s.linkUp then s
    else
      ({ s with fab := { s.fab with out := s.fab.out ++ [OutMsg.multicast a.id grp fa a.op.sent] } }).setAcc { a with st := .sent }
  | _ => s

/-- The access of a request of a unit (assumption log 17). -/
def Agent.acc (g : Agent) (id part va n : Nat) (op : AccOp) (l : Leaf) : Acc :=
  { id := id, core := g.core, t := ⟨⟨0, 0, 0⟩, 0⟩, set := [], pasid := g.pasid, part := part, pc := 0, ri := 0, va := va
    size := n, kind := if op.isRmw then 5 else (if g.strong then 3 else 1) + ofB op.isStore, strong := g.strong, scope := 4
    acq := false, rel := false, stream := 1024 + g.own.headD 0, op := op, dest := none, entry := false, isLoad := false
    isStore := false, leaf := some l, leaf2 := none, job := none, vreq := none, st := .pending, prog := 0, again := false }

/-- A unit that waits asks for the page (R384), or makes its request over Shecel, once. -/
def State.unitAsk (s : State) (g : Agent) (va n : Nat) (op : AccOp) (need : Need) : State :=
  match s.unitLeaf g va need with
  | .error _ => s
  | .ok l =>
    let p := s.partOf g.pasid
    match s.placeOf l va with
    | .pool page off =>
      (match s.frameOf p page with
       | some _ => s
       | none => s.needPage
          { part := p, pasid := g.pasid, page := page, lease := l.lease, sector := off / 64, group := 0, ord := 0
            va := alignDown va pageSize, report := false, wait := true, bar := none })
    | .remote _ _ =>
      if s.fab.units.any fun u => u.own == g.own && u.va == va && u.wr == op.writes then s
      else
        { s with
          accs := s.accs ++ [g.acc s.accNext p va n op l]
          accNext := s.accNext + 1
          fab := { s.fab with units := s.fab.units ++ [⟨g.own, s.accNext, va, op.writes, none⟩] } }
    | _ => s

/-- A unit asks for what its read of some bytes waits for. -/
def State.unitAskLong (s : State) (g : Agent) (need : Need) : Nat → Nat → Nat → State
  | 0, _, _ => s
  | k + 1, va, n =>
    let m := min n (256 - va % 256)
    if n = 0 then s
    else
      match s.unitGet g va m need with
      | .wait => s.unitAsk g va m (.load m false) need
      | _ => State.unitAskLong s g need k (va + m) (n - m)

/-- A unit reads some bytes: what the read answers, with what it waits for asked for. -/
def State.unitRead (s : State) (g : Agent) (va n : Nat) (need : Need) : UnitRes × State :=
  match s.unitGetLong g va n need with
  | .wait => (.wait, s.unitAskLong g need (n / 256 + 2) va n)
  | r => (r, s.unitsDone g)

/-- A unit asks for what its write of some bytes waits for; the fuel bounds the parts. -/
def State.unitAskPut (s : State) (g : Agent) : Nat → Nat → List Byte → State
  | 0, _, _ => s
  | k + 1, va, bs =>
    let m := 256 - va % 256
    if bs.isEmpty then s
    else
      match s.unitPut g va (bs.take m) with
      | .wait => s.unitAsk g va (min m bs.length) (.store (bs.take m)) ⟨false, true, false⟩
      | _ => State.unitAskPut s g k (va + m) (bs.drop m)

/-- A unit writes some bytes: what the write answers, and while it waits the machine with what it waits for asked for. -/
def State.unitWrite (s : State) (g : Agent) (va : Nat) (bs : List Byte) : PutRes × State :=
  match s.unitPutLong g va bs with
  | .done s' v => (.done (s'.unitsDone g) v, s)
  | .wait => (.wait, s.unitAskPut g (bs.length / 256 + 2) va bs)
  | r => (r, s.unitsDone g)

/-! ### Residency (R224) -/

/-- The word RESID.q writes. -/
def State.residWord (s : State) (core pasid va : Nat) : Nat :=
  if va / 2 ^ 56 = 0xFE then 7
  else if 2 ^ 57 ≤ va then 0
  else
    match s.leafFor core pasid va with
    | .error _ => 0
    | .ok l =>
      if l.lease = 0 then 7
      else
        let lv := match s.leaseCheck l false with | .ok _ => 4 | .error _ => 0
        match s.placeOf l va with
        | .pool page _ =>
          (match s.frameOf (s.partOf pasid) page with
           | some (_, e) => 1 + 2 + lv + (if e.dirty.isEmpty then 0 else 8) + e.cnt * 256
           | none => 1 + lv)
        | _ => 1 + lv

/-! ### A fault met when an access is performed (R395, R438, R455) -/

/-- The second page of a load that may stop at a NUL, once its first page shows none (R178): a fault, or its leaf. -/
def State.laterLeaf (s : State) (a : Acc) : Except MFail (Option Leaf) :=
  let n := firstPart a.va a.size
  match a.op, a.leaf, a.leaf2 with
  | .sldx _ true, some l, none =>
    if n = a.size then .ok none
    else
      match s.loadCopies a false ⟨s.placeOf l a.va, a.va, n, l.lease⟩ with
      | none => .ok none
      | some cs =>
        if (cs.map Copy.b).contains 0#8 then .ok none
        else if 2 ^ 57 ≤ a.va + n then .error (.plain 0x06 (a.va + n))
        else
          match s.translate a.core a.pasid (a.va + n) ⟨true, false, false⟩ with
          | .error f => .error ⟨a.va + n, f⟩
          | .ok l2 => .ok (some l2)
  | _, _, _ => .ok none

/-- The lease, the instruction's own checks and the sectors of one page of an access (R205). -/
def State.pieceFault (s : State) (a : Acc) (va : Nat) (l : Leaf) (n : Nat) : Option MFail :=
  match s.doneCheck l a.op.writes with
  | .error f => some ⟨va, f⟩
  | .ok _ =>
    match s.ownFail l va a.op a.strong with
    | some m => some m
    | none =>
      match s.pieceDev a.part ⟨s.placeOf l va, va, n, l.lease⟩ with
      | some pa => if s.lostIn pa n a.op.writes then some ⟨va, 0x0B, none, false, l.lease⟩ else none
      | none => none

/-- The fault of the second page of an access, if one. -/
def State.laterFault (s : State) (a : Acc) : Option MFail :=
  let n := firstPart a.va a.size
  match a.leaf2, s.laterLeaf a with
  | some l2, _ | none, .ok (some l2) => s.pieceFault a (a.va + n) l2 (a.size - n)
  | none, .error f => some f
  | none, .ok none => none

/-- The fault an access meets when it is performed, if one. The first page of a store is performed before a fault of its
second (R179). -/
def State.accFault (s : State) (a : Acc) : Option MFail :=
  match a.leaf with
  | none => none
  | some l =>
    match (if a.prog = 0 then s.pieceFault a a.va l (firstPart a.va a.size) else none) with
    | some f => some f
    | none => if a.op.isStore && a.prog == 0 then none else s.laterFault a

/-! ### The scratchpad and the tile aperture -/

/-- The value of an access that has been performed: it arrives at its registers; a join counter's lets its thread go on once it
has reached the target (R237). -/
def State.accValue (s : State) (a : Acc) (ret : Option Nat) : State :=
  match a.op with
  | .ctr target =>
    (s.dropAcc a).updThread a.t fun t =>
      match t.st with
      | .parked (.ctr _ _ _ _ _) => if target ≤ ret.getD 0 then { t with st := .ready, popped := some 0#32 } else t
      | _ => t
  | _ => (s.deliver a.t a.dest (ret.getD 0)).accDone a

/-- Perform an access in the scratchpad window (R203, R211, R235). -/
def State.scratchAcc (s : State) (a : Acc) (c off : Nat) : State :=
  let g := a.t.g
  match s.team? g.grid g.team with
  | none => s.dropAcc a
  | some tm =>
    match a.op with
    | .tbinit v =>
      let s := s.updTeam g.grid g.team fun t =>
        ({ (t.setTb c off (tbInit v)) with detached := t.detached.filter (· != (c, off)) }).wake Wait.onBar
      s.accDone a
    | .tbexp v => (s.tbLand g.grid g.team c off (-(v : Int))).accDone a
    | .tbarr =>
      let x := tm.tbObj c off
      let s' := s.deliver a.t a.dest (fld x 3 0)
      if fld x 95 64 = 0 then (s'.updTeam g.grid g.team fun t => t.wake Wait.onBar).accDone a
      else if fld x 31 8 = 0 then s
      else (s'.updTeam g.grid g.team fun t => t.tbDone c off (putFld x 31 8 (fld x 31 8 - 1))).accDone a
    | .ldc _ tile =>
      let r := a.op.rmw (Mem.readList (Tab.getD tm.scratch [] c) off a.size)
      let s := s.deliver a.t a.dest (r.ret.getD 0)
      let s := s.updTeam g.grid g.team fun t =>
        { t with tiles := Tab.adjust t.tiles c fun m => Tab.adjust m tile fun e => { e with rds := e.rds - 1 } }
      s.accDone a
    | _ =>
      let old := Mem.readList (Tab.getD tm.scratch [] c) off a.size
      let room := tm.partBytes - off
      match a.op with
      | .sldx _ true =>
        if room < a.size ∧ ¬ (old.take room).contains 0#8 then s.deferAt a ⟨0x06, none, false, 0⟩ (a.va + room)
        else (s.deliver a.t a.dest ((a.op.rmw old).ret.getD 0)).accDone a
      | _ =>
        let r := a.op.rmw old
        let s := match r.new with
          | some bs => s.updTeam g.grid g.team fun t =>
            { t with scratch := Tab.set t.scratch c (Mem.writeList (Tab.getD t.scratch [] c) off bs) }
          | none => s
        s.accValue a r.ret

/-- The arrival that a store to the tile aperture makes (R288, R293). -/
def tileArrival (a : Acc) (bs : List Byte) : Arrival :=
  { ap := some (fld a.va 55 44), grid := 0, team := 0, mc := fld a.va 31 30, tile := fld a.va 39 32
    ph := fld a.va 43 40, off := fld a.va 19 0, swz := false, data := bs, prod := .store a.id }

/-! ### Performing -/

/-- Perform a weak store at its pieces (R179): all of them, or the first alone where the second page meets a fault. -/
def State.storePieces (s : State) (a : Acc) (ps : List Piece) (bs : List Byte) : State :=
  match ps with
  | p :: q :: _ =>
    if a.prog ≠ 0 then (s.writePiece a q (bs.drop p.n)).accDone a
    else if (s.laterFault a).isSome then (s.writePiece a p (bs.take p.n)).setAcc { a with prog := p.n }
    else (s.writePieces a ps bs).accDone a
  | _ => (s.writePieces a ps bs).accDone a

/-- The pieces of an access that are still to be performed now. -/
def State.piecesNow (s : State) (a : Acc) : List Piece :=
  match s.pieces a with
  | [p, q] =>
    if a.prog ≠ 0 then [q] else if a.op.isStore && (s.laterFault a).isSome then [p] else [p, q]
  | ps => ps

/-- Perform an access of user-virtual memory whose checks pass. -/
def State.userAcc (s : State) (a : Acc) (fresh : Bool) : State :=
  match s.piecesNow a with
  | [] => s
  | p :: ps =>
    if (s.remoteOf a).isSome then s.sendAcc a p.pl
    else if (p :: ps).any (fun q => (s.pieceDev a.part q).isNone && (q.request a).isSome) then s.askPieces a (p :: ps)
    else if a.strong then
      match s.strongPiece a p with
      | none => s
      | some (s, ret) => s.accValue a ret
    else if !(p :: ps).all (s.weakReady a fresh) then s
    else
      match a.op with
      | .store bs => s.storePieces a (s.pieces a) bs
      | _ =>
        let (bs, s) := s.readPieces a fresh (p :: ps)
        let r := a.op.rmw (bs ++ List.replicate (a.size - bs.length) 0#8)
        (s.deliver a.t a.dest (r.ret.getD 0)).accDone a

/-- The vector of its die that a strong access carries, from when it may leave (R319). -/
def State.leave (s : State) (a : Acc) : Acc :=
  if a.strong && a.vreq.isNone && a.leaf.isSome then { a with vreq := some (s.die (dieOfCore a.core)).v } else a

/-- Perform an outstanding access, if it may be performed; `fresh` lets a weak load pass the L1 by (R316). -/
def State.performAcc (s : State) (a : Acc) (fresh : Bool) : State :=
  if a.job.isSome || !(match s.team? a.t.g.grid a.t.g.team with | some t => t.resident | none => true) then s
  else
  match a.op with
  | .clock v => (s.deliver a.t a.dest v).dropAcc a
  | .resid => (s.deliver a.t a.dest (s.residWord a.core a.pasid a.va)).dropAcc a
  | .card _ => s
  | _ =>
    if a.st == .acquiring then
      (if s.acquireHolds a then (s.acquired a.core a.scope).dropAcc a else s)
    else if !s.accReady a then s
    else
      match s.team? a.t.g.grid a.t.g.team, a.leaf with
      | some tm, none =>
        (match windowOf tm a.va a.size with
         | some (.scratch c off) => s.scratchAcc a c off
         | some .tile =>
           (match a.op with
            | .store bs => ({ s with arrivals := s.arrivals ++ [tileArrival a bs] }).setAcc { a with st := .sent }
            | _ => s)
         | _ => s)
      | _, some _ =>
        (match s.accFault a with
         | some _ => s
         | none =>
           let a := s.leave (match s.laterLeaf a with | .ok (some l2) => { a with leaf2 := some l2 } | _ => a)
           (s.setAcc a).userAcc a fresh)
      | none, none => s.dropAcc a

end Sys2Proof.Machine
end

