-- ==== Sys2Proof/Machine/Each.lean ====
section
/-! DEFINITION. How the instructions issue that act on the machine thread by thread in ascending thread number (R225,
R235), and those that act once per issue (R225, R238). -/

namespace Sys2Proof.Machine

/-- One thread's issue of an instruction whose checks have passed. -/
structure One where
  r : GRef
  tm : Team
  g : Group
  tid : Nat
  t : Thread
  x : Dec
  o : Opds
deriving DecidableEq, Repr

namespace One

/-- The thread. -/
def ref (c : One) : TRef := ⟨c.r, c.tid⟩

/-- The values the thread reads. -/
def vals (c : One) : LIn := c.x.linOf c.o c.g c.t c.tid

/-- The first register of D. -/
def dreg (c : One) : Nat := match c.o.d with | .lane n | .unif n => n | _ => 0

/-- The member core the thread's group runs on (R266). -/
def mc (c : One) : Nat := c.tm.memberOf c.g.core

/-- The thread passes the instruction. -/
def done (c : One) (s : State) : State := s.updThread c.ref fun t => t.advance c.x (s.hp c.tm c.g)

/-- The thread writes lane registers and passes the instruction. -/
def write (c : One) (l : List (Nat × Word)) (s : State) : State := c.done (s.updThread c.ref fun t => t.setRegs l)

/-- The thread parks at the instruction. -/
def park (c : One) (w : Wait) (s : State) : State := s.updThread c.ref fun t => { t with st := .parked w }

/-- The thread faults at the instruction. -/
def fault (c : One) (code kind va : Nat) (s : State) : State := s.raise c.ref code kind va

/-- The thread faults on a check of memory. -/
def fail (c : One) (kind : Nat) (m : MFail) (s : State) : State := s.raiseMem c.ref kind m

end One

/-- What an instruction does in one thread. -/
abbrev EachSem := One → State → State

/-- One thread's part of an issue (R114): as the threads before it have left the machine. -/
def State.eachOne (s : State) (x : Dec) (sem : EachSem) (r : GRef) (ri tid : Nat) : State :=
  match s.thread? ⟨r, tid⟩ with
  | none => s
  | some (tm, g, t) =>
    if t.st != .ready || t.prio != s.cur.prio || t.pc != s.cur.pc || t.ri != ri then s
    else
      match x.check tm.kern g t with
      | .skip => s.updThread ⟨r, tid⟩ fun t => t.advance x (s.hp tm g)
      | .fault c => s.raise ⟨r, tid⟩ c 0 0
      | .park => s.updThread ⟨r, tid⟩ fun t => { t with st := .parked .reg }
      | .deferred n => s.deliverDeferred ⟨r, tid⟩ n
      | .go o => sem ⟨r, tm, g, tid, t, x, o⟩ s

/-- Run an instruction that acts thread by thread. -/
def State.runEach (s : State) (i : Instr) (sem : EachSem) : State :=
  let r := s.cur.g
  match s.group? r with
  | none => s
  | some (_, g) =>
    let x := decOf i
    let act := g.active s.cur.set
    (act.foldl (fun s p => s.eachOne x sem r p.2.ri p.1) s).finish g none

/-- The meaning of an instruction that acts thread by thread: one issue of it. -/
def runEachOf (i : Instr) (sem : EachSem) (s : State) : Host.Outcome State Fault Refusal := .next (s.runEach i sem)

/-- One issue of an instruction that acts once: the threads of the set, those of G, and the lowest of G with its
operands. -/
structure Once where
  r : GRef
  tm : Team
  g : Group
  set : List (Nat × Thread)
  gset : List (Nat × Thread)
  tid : Nat
  t : Thread
  x : Dec
  o : Opds
deriving DecidableEq, Repr

namespace Once

/-- The values read, from the lowest thread of G (R225, R238). -/
def vals (c : Once) : LIn := c.x.linOf c.o c.g c.t c.tid

/-- The lowest thread of G. -/
def ref (c : Once) : TRef := ⟨c.r, c.tid⟩

/-- The member core the group runs on (R266). -/
def mc (c : Once) : Nat := c.tm.memberOf c.g.core

/-- Threads that pass the instruction. -/
def pass (c : Once) (l : List (Nat × Thread)) (s : State) : State :=
  let hp := s.hp c.tm c.g
  l.foldl (fun s p => s.updThread ⟨c.r, p.1⟩ fun t => t.advance c.x hp) s

/-- The threads of the set that are not in G (R46). -/
def others (c : Once) : List (Nat × Thread) := List.filter (fun p => !(c.gset.any fun q => q.1 == p.1)) c.set

/-- Every thread of the set passes the instruction. -/
def done (c : Once) (s : State) : State := c.pass c.set s

/-- Every thread of G faults (R238); the others pass. -/
def fault (c : Once) (code kind va : Nat) (s : State) : State :=
  c.gset.foldl (fun s p => s.raise ⟨c.r, p.1⟩ code kind va) (c.pass c.others s)

/-- Every thread of G faults on a check of memory; the others pass. -/
def fail (c : Once) (kind : Nat) (m : MFail) (s : State) : State :=
  c.gset.foldl (fun s p => s.raiseMem ⟨c.r, p.1⟩ kind m) (c.pass c.others s)

/-- Every thread of G parks; the others pass. -/
def park (c : Once) (w : Wait) (s : State) : State :=
  c.gset.foldl (fun s p => s.updThread ⟨c.r, p.1⟩ fun t => { t with st := .parked w }) (c.pass c.others s)

end Once

/-- What an instruction that acts once does; a state unchanged is a set that waits without parking. -/
abbrev OnceSem := Once → State → State

/-- Run an instruction that acts once per issue (R225, R238): while the lowest thread of G lacks an operand, or a thread
of G a destination, G waits (assumption log 19). -/
def State.runOnce (s : State) (i : Instr) (sem : OnceSem) : State :=
  let r := s.cur.g
  match s.group? r with
  | none => s
  | some (tm, g) =>
    let x := decOf i
    let set := g.active s.cur.set
    let gset : List (Nat × Thread) := List.filter (fun p => !x.legal p.2 || x.guard p.2) set
    let s := match gset with
      | [] => set.foldl (fun (s : State) (p : Nat × Thread) => s.updThread ⟨r, p.1⟩ fun t => t.advance x (s.hp tm g)) s
      | lo :: _ =>
        let c : Once := ⟨r, tm, g, set, gset, lo.1, lo.2, x, ⟨.none, .none, .none⟩⟩
        match x.check tm.kern g lo.2 with
        | .fault n => c.fault n 0 0 s
        | .park | .skip => c.park .reg s
        | .deferred n => s.deliverDeferred ⟨r, lo.1⟩ n
        | .go o => if gset.any (fun p => x.dstEmpty o p.2 g) then c.park .reg s else sem { c with o := o } s
    s.finish g none

/-- The meaning of an instruction that acts once per issue. -/
def runOnceOf (i : Instr) (sem : OnceSem) (s : State) : Host.Outcome State Fault Refusal := .next (s.runOnce i sem)

end Sys2Proof.Machine
end

