-- ==== Sys2Proof/Machine/Arrive.lean ====
section
/-! DEFINITION. Tile table entries (R286, R287), arrivals (R288 to R292, R294, R296, R456) and the fault of a copy job
(R311). -/

namespace Sys2Proof.Machine

/-! ### Tile entries -/

/-- A tile entry of a team on a member core. -/
def Team.tile (t : Team) (mc n : Nat) : Tile := Tab.getD (Tab.getD t.tiles [] mc) .fresh n

/-- Change a tile entry. -/
def Team.updTile (t : Team) (mc n : Nat) (f : Tile → Tile) : Team :=
  { t with tiles := Tab.set t.tiles mc (Tab.set (Tab.getD t.tiles [] mc) n (f (t.tile mc n))) }

/-- Change a tile entry of a team; its waiters look again. -/
def State.updTile (s : State) (g tm mc n : Nat) (f : Tile → Tile) : State :=
  s.updTeam g tm fun t => (t.updTile mc n f).wake Wait.onTile

/-- phys(o): a logical offset through the tile's swizzle (R296). -/
def swizzle (span len o : Nat) : Nat :=
  let n := 2 ^ span
  let sp := 16 * n
  if o < 64 * len / sp * sp then
    let r := o / sp
    let c := o % sp / 16
    r * sp + 16 * (c ^^^ r % n) + o % 16
  else o

/-- One consume of a READY tile (R287, R229). -/
def Tile.consume (e : Tile) : Tile := { e with cons := e.cons - 1, st := if e.cons ≤ 1 then .draining else .ready }

/-- TARM's effect on an EMPTY tile (R287). -/
def Tile.arm (e : Tile) (exp cons : Nat) (mstt : Bool) : Tile :=
  { e with st := .filling, abytes := 0, exp := exp, cons := cons, mstt := mstt, rds := 0 }

/-- May a thread observe phase ph (R228): READY at it, or past it by 1 to 7? -/
def Tile.passed (e : Tile) (ph : Nat) : Bool :=
  (e.st == .ready && e.ph == ph) ||
  (let d := (e.ph + 16 - ph % 16) % 16
   decide (1 ≤ d) && decide (d ≤ 7))

/-! ### Copy jobs' faults (R311, R357) -/

/-- A copy job of a core by its number. -/
def Core.job? (c : Core) (num : Nat) : Option Job := List.find? (fun j => j.num == num) c.jobs

/-- Change a job. -/
def Core.updJob (c : Core) (num : Nat) (f : Job → Job) : Core :=
  { c with jobs := c.jobs.map fun j => if j.num = num then f j else j }

/-- The tile that a job was to fill, if its destination is one: the template's DST (R304, R309). -/
def Job.dstTile (j : Job) : Option Nat :=
  let ctl := ofLE ((j.tmpl.drop 0x10).take 4)
  if fld ctl 3 2 = 1 then some (ofLE ((j.tmpl.drop 8).take 1)) else none

/-- The tile that a job reads, if its source is one. -/
def Job.srcTile (j : Job) : Option Nat :=
  let ctl := ofLE ((j.tmpl.drop 0x10).take 4)
  if fld ctl 1 0 = 1 then some (ofLE (j.tmpl.take 1)) else none

/-- Has a job started (R309)? -/
def Job.started (j : Job) : Bool := match j.st with | .queued => false | _ => true

/-- Have a job's reads of its source tile been admitted and not finished (R287)? -/
def Job.reading (j : Job) : Bool := match j.st with | .queued | .landed => false | _ => true

/-- A job's reads of its source tile finish (R287). -/
def State.jobReadsDone (s : State) (core : Nat) (j : Job) : State :=
  match j.srcTile, s.team? j.t.g.grid j.t.g.team with
  | some n, some t =>
    if j.reading then s.updTile t.grid t.team (t.memberOf core) n fun e => { e with rds := e.rds - 1 } else s
  | _, _ => s

/-- The barrier a job lands on, as its scratchpad offset on the job's core (R310). -/
def Job.bar (j : Job) : Option Nat := if bitN j.card 11 then some (16 * fld j.card 31 16) else none

/-- The record of an engine fault (R311): SMASK and EPROG give the sectors performed (R10). -/
def State.engRec (s : State) (core : Nat) (j : Job) (f : Fail) (kind va : Nat) : FRec :=
  { ((s.mkRec j.t f.code kind j.pc va).withFail f) with
    eng := true, ri := 0, eprog := j.eprog, smask := 2 ^ (min j.eprog 64) - 1, chan := j.chan, core := core }

/-- Change a job by its number, where it stands: at a core, or in a saved team (R371). -/
def State.updJob (s : State) (num : Nat) (f : Job → Job) : State :=
  let g := fun (j : Job) => if j.num = num then f j else j
  { s with
    cores := Tab.mapV s.cores fun c => { c with jobs := c.jobs.map g }
    teams := s.teams.map fun t => { t with saved := Tab.mapV t.saved fun c => { c with jobs := c.jobs.map g } } }

/-- Take a job away, wherever it stands. -/
def State.delJob (s : State) (num : Nat) : State :=
  let g := fun (j : Job) => j.num != num
  { s with
    cores := Tab.mapV s.cores fun c => { c with jobs := c.jobs.filter g }
    teams := s.teams.map fun t => { t with saved := Tab.mapV t.saved fun c => { c with jobs := c.jobs.filter g } } }

/-- A job by its number with its core: in a saved team, the core it stood at. -/
def State.job? (s : State) (num : Nat) : Option (Nat × Job) :=
  match s.cores.findSome? fun c => (c.2.job? num).map fun j => (c.1, j) with
  | some x => some x
  | none => s.teams.findSome? fun t => t.saved.findSome? fun c =>
      (List.find? (fun j : Job => j.num == num) c.2.jobs).map fun j => (t.coreAt c.1, j)

/-- A job is abandoned (R311): it counts as completed, the stamps of its writes for its grid (R334), and its fault is deferred in
the card's thread. -/
def State.abandonJob (s : State) (core : Nat) (j : Job) (r : FRec) : State :=
  let mc := match s.team? j.t.g.grid j.t.g.team with | some t => t.memberOf core | none => 0
  let s := ((s.delJob j.num).jobReadsDone core j).updGrid j.t.g.grid fun g => { g with stamps := g.stamps.join j.stamps }
  let s := s.defer j.t ⟨.engine j.dstTile (j.bar.map fun o => (mc, o)), { r with replay := false }⟩
  s.wakeRegs j.t.g

/-- A job meets a fault (R311, R356): one for the pager holds it, every other abandons it. -/
def State.jobFault (s : State) (core : Nat) (j : Job) (f : Fail) (kind va : Nat) : State :=
  let r := s.engRec core j f kind va
  if f.replay then
    let s := s.updJob j.num fun k => { k with st := .held 0 }
    { s with parts := Tab.adjust s.parts j.part fun q => { q with waiting := q.waiting ++ [(.job j.num, j.pasid, r)] } }
  else s.abandonJob core j r

/-! ### What an arrival's producer learns (R292, R456) -/

/-- Are two requests of one stream (R332, R414)? -/
def InReq.sameStream (a b : InReq) : Bool :=
  a.src == b.src && a.fn == b.fn && a.grp == b.grp && a.stream == b.stream && a.mcast == b.mcast

/-- The answers that can leave: of requests performed or refused, whose stamp is covered, and with no earlier one of their
stream left (R315, R332); and the requests that stay. -/
def readyAnswers (cover : VClk → Bool) : List InReq → List InReq → List OutMsg → List InReq × List OutMsg
  | [], kept, out => (kept, out)
  | q :: t, kept, out =>
    match q.done with
    | some (v, r, d) =>
      if cover v && !kept.any q.sameStream then readyAnswers cover t kept (out ++ [.reply q.src q.stream q.faddr r d])
      else readyAnswers cover t (kept ++ [q]) out
    | none => readyAnswers cover t (kept ++ [q]) out

/-- Requests of peers that can be answered are (R315, R332). -/
def State.ackReqs (s : State) : State :=
  let r := readyAnswers s.allCover s.fab.inReqs [] []
  { s with fab := { s.fab with inReqs := r.1, out := s.fab.out ++ r.2 } }

/-- Change a request of a peer. -/
def State.updReq (s : State) (n : Nat) (f : InReq → InReq) : State :=
  { s with fab := { s.fab with inReqs := s.fab.inReqs.map fun q => if q.n = n then f q else q } }

/-- A request of a peer has been performed under a stamp, or refused: its answer leaves when it may (R315, R416). -/
def State.settleReq (s : State) (n : Nat) (v : VClk) (reason : Nat) (data : List Byte) : State :=
  (s.updReq n fun q => { q with held := false, done := some (v, reason, data) }).ackReqs

/-- Answer a request of a peer that has no stamp (R416). -/
def State.answerReq (s : State) (n reason : Nat) (data : List Byte) : State := s.settleReq n .zero reason data

/-- Change a network operation. -/
def State.updNet (s : State) (n : Nat) (f : NetOp → NetOp) : State :=
  { s with fab := { s.fab with netOps := s.fab.netOps.map fun o => if o.n = n then f o else o } }

/-- A packet has been placed, its writes under a stamp in some pool sectors, or has failed with a code (R426, R427). -/
def NetOp.place (o : NetOp) (n : Nat) (v : VClk) (secs : List Nat) : NetOp :=
  { o with placed := o.placed + n, stamps := o.stamps.join v, stored := insNats secs o.stored }

/-- The receiver acknowledges a packet of a placement, or tells that its message has failed (R426). -/
def State.ackNet (s : State) (o : NetOp) (off reason : Nat) : State :=
  match o.matched with
  | some m => { s with fab := { s.fab with out := s.fab.out ++ [.packetAck o.conn m off reason] } }
  | none => s

/-- The placement with number n. -/
def State.netOp? (s : State) (n : Nat) : Option NetOp := List.find? (fun (o : NetOp) => o.n == n) s.fab.netOps

/-- A packet of a placement has been placed (R426, R427). -/
def State.netPlaced (s : State) (n off len : Nat) (v : VClk) (secs : List Nat) : State :=
  match s.netOp? n with
  | some o => (s.updNet n fun x => x.place len v secs).ackNet o off 0
  | none => s

/-- A packet of a placement cannot be placed: its code is the NPOST's, and the rest of its message is discarded (R426). -/
def State.netFails (s : State) (n off code : Nat) : State :=
  match s.netOp? n with
  | some o =>
    let s := s.updNet n fun x => { x with fail := if x.fail = 0 then code else x.fail }
    ({ s with fab := { s.fab with
        conns := Tab.adjust s.fab.conns o.conn fun c =>
          { c with gone := match o.matched with | some m => insNat m c.gone | none => c.gone } } } : State).ackNet o off 0x0D
  | none => s

/-- The producer of an arrival learns that it has been applied (R456). -/
def State.ackArrival (s : State) (a : Arrival) : State :=
  match a.prod with
  | .store id => (match s.acc? id with | some acc => s.dropAcc acc | none => s)
  | .job num => s.updJob num fun j => { j with flying := j.flying - 1 }
  | .net n => (s.updNet n fun o => { o with flying := o.flying - 1 }).netPlaced n a.off a.data.length .zero []
  | .mstt => s
  | .peer n => s.answerReq n 0 []

/-- A tile-aperture store that was rejected (R212): 0x0D, deferred, with KIND 0x09. -/
def State.storeRejected (s : State) (id : Nat) : State :=
  match s.acc? id with
  | some a => s.deferAcc { a with dest := none, kind := 0x09 } ⟨0x0D, none, false, 0⟩
  | none => s

/-- The scratchpad-window address of an arrival's first byte: in its tile, where the team and the tile stand (R286, R292). -/
def State.arrivalAddr (s : State) (a : Arrival) : Nat :=
  let at' := 0xFE * 2 ^ 56 + a.mc * 2 ^ 20
  match s.team? a.grid a.team with
  | some t =>
    let e := t.tile a.mc a.tile
    at' + 64 * e.base + (if a.swz then swizzle e.span e.len a.off else a.off)
  | none => at' + a.off

/-- The context of an arrival's producer, where it is one of this device (R292). -/
def State.producerCtx (s : State) (a : Arrival) : Nat :=
  match a.prod with
  | .store id => (match s.acc? id with | some x => x.pasid | none => 0)
  | .job num => (match s.job? num with | some (_, j) => j.pasid | none => 0)
  | .net n => (match s.netOp? n with | some o => o.pasid | none => 0)
  | .mstt | .peer _ => 0

/-- A rejected arrival (R292): logged with its address, its producer's context and the reason, and its producer told. -/
def State.nackArrival (s : State) (a : Arrival) (why : Nat) : State :=
  let (core, part) := match s.team? a.grid a.team with
    | some t => (t.coreAt a.mc, some t.part)
    | none => (0, none)
  let s := s.logErr part 0x05 (core / 48) (core % 48) (s.producerCtx a) (Config.detail why) (s.arrivalAddr a)
  match a.prod with
  | .store id => s.storeRejected id
  | .job num =>
    (match s.job? num with
     | some (c, j) => s.jobFault c j ⟨0x0C, none, false, 0⟩ 0x08 (s.arrivalAddr a)
     | none => s)
  | .net n => (s.updNet n fun o => { o with flying := o.flying - 1 }).netFails n a.off 0x0D
  | .mstt => s
  | .peer n => s.answerReq n 0x0D []

/-! ### Application and holding (R289 to R291) -/

/-- The bytes an arrival counts: a copy job's sector counts whole, also its last (R309). -/
def Arrival.count (a : Arrival) : Nat := match a.prod with | .job _ => 64 | _ => a.data.length

/-- Write an arrival's bytes into a scratchpad, through the swizzle where they have logical offsets. -/
def placeBytes (m : Mem) (e : Tile) (swz : Bool) : Nat → List Byte → Mem
  | _, [] => m
  | o, b :: t => placeBytes (Mem.write m (64 * e.base + if swz then swizzle e.span e.len o else o) b) e swz (o + 1) t

/-- Apply an arrival to a FILLING tile in one step, or reject it (R289). -/
def State.applyArrival (s : State) (a : Arrival) : State :=
  match s.team? a.grid a.team with
  | none => s.nackArrival a 9
  | some tm =>
    let e := tm.tile a.mc a.tile
    if 64 * e.len < a.off + a.data.length then s.nackArrival a 4
    else if 64 * e.exp < e.abytes + a.count then s.nackArrival a 3
    else
      let n := e.abytes + a.count
      let s := s.updTeam a.grid a.team fun t =>
        { t with scratch := Tab.set t.scratch a.mc (placeBytes (Tab.getD t.scratch [] a.mc) e a.swz a.off a.data) }
      let s := s.updTile a.grid a.team a.mc a.tile fun e =>
        { e with abytes := n, st := if n = 64 * e.exp then .ready else e.st }
      s.ackArrival a

/-- Entries of an arrival buffer that an arrival takes: one for each sector it touches (R291). -/
def Arrival.sectors (a : Arrival) : Nat := ceilDiv (a.off % 64 + a.data.length) 64

/-- Mark a store whose arrival is held (R456). -/
def State.markHeld (s : State) (a : Arrival) : State :=
  match a.prod with
  | .store id => (match s.acc? id with | some x => s.setAcc { x with st := .arrHeld } | none => s)
  | _ => s

/-- Hold an arrival in its core's arrival buffer (R291). -/
def State.holdArrival (s : State) (a : Arrival) : State :=
  match s.team? a.grid a.team with
  | none => s.nackArrival a 9
  | some tm =>
    let core := tm.coreAt a.mc
    let used := s.teams.foldl (fun (n : Nat) (t : Team) =>
      t.heldArr.foldl (fun (n : Nat) (x : Arrival) => if t.resident && t.coreAt x.mc == core then n + x.sectors else n) n) 0
    if 64 < used + a.sectors then
      let s := s.updCore core fun c => { c with overflow := c.overflow + 1 }
      (s.logErr (some tm.part) 0x06 (core / 48) (core % 48) (s.producerCtx a) 0 (s.arrivalAddr a)).nackArrival a 5
    else (s.updTeam a.grid a.team fun t => { t with heldArr := t.heldArr ++ [a] }).markHeld a

/-- An arrival reaches its core (R290). -/
def State.reachTile (s : State) (a : Arrival) : State :=
  match s.team? a.grid a.team with
  | none => s.nackArrival a 9
  | some tm =>
    if tm.cores.length ≤ a.mc ∨ tm.kern.tiles ≤ a.tile then s.nackArrival a 11
    else
      let e := tm.tile a.mc a.tile
      if a.ph = e.ph then
        match e.st with
        | .filling => if e.mstt then s.nackArrival a 10 else s.applyArrival a
        | .empty => s.holdArrival a
        | _ => s.nackArrival a 2
      else if a.ph = (e.ph + 1) % 16 then s.holdArrival a
      else s.nackArrival a 1

/-- Arm an EMPTY tile (R287): its held arrivals of the phase are applied in order, or rejected when MSTT arms it. -/
def State.armTile (s : State) (g tm mc n exp cons : Nat) (mstt : Bool) : State :=
  match s.team? g tm with
  | none => s
  | some t =>
    let ph := (t.tile mc n).ph
    let mine := fun (a : Arrival) => a.mc == mc && a.tile == n && a.ph == ph
    let held := t.heldArr.filter mine
    let s := s.updTeam g tm fun t => { t with heldArr := t.heldArr.filter fun a => !mine a }
    let s := s.updTile g tm mc n fun e => e.arm exp cons mstt
    held.foldl (fun s a => if mstt then s.nackArrival a 10 else s.applyArrival a) s

/-- The entries of the hold store (R294) are full at this number. -/
def holdDepth : Nat := 4096

/-- An arrival through an aperture (R293, R294): its team is resident and the arrival reaches its core, or it is held. -/
def State.arrive (s : State) (a : Arrival) : State :=
  match a.ap with
  | none => s.reachTile a
  | some ap =>
    match Tab.find? s.cp.apers ap with
    | none => s.nackArrival a 7
    | some b =>
      let a := { a with grid := b.grid, team := b.team }
      let resident := match s.team? b.grid b.team with | some t => t.resident | none => false
      if resident then s.reachTile a
      else if holdDepth ≤ s.cp.hold.length then s.nackArrival a 6
      else ({ s with cp := { s.cp with hold := s.cp.hold ++ [HoldEnt.mk a (s.now + 2 ^ b.hold * 1000)] } }).markHeld a

/-- A team becomes resident: its arrivals in the hold store go on to their core, or are rejected where their time is over
(R294). -/
def State.forwardHeld (s : State) (g tm : Nat) : State :=
  let mine := fun (h : HoldEnt) => h.arr.grid == g && h.arr.team == tm
  let l := s.cp.hold.filter mine
  let s := { s with cp := { s.cp with hold := s.cp.hold.filter fun h => !mine h } }
  l.foldl (fun s h => if h.until_ < s.now then s.nackArrival h.arr 8 else s.reachTile h.arr) s

/-! ### Deferred engine faults at a wait (R357) -/

/-- The oldest deferred engine fault of a thread whose job was to complete a tile or a barrier. -/
def Thread.engineDue (t : Thread) (tile : Option Nat) (bar : Option (Nat × Nat)) : Option Nat :=
  t.defd.findIdx? fun d =>
    match d.kind with
    | .engine x y => (tile.isSome && x == tile) || (bar.isSome && y == bar)
    | _ => false

/-- Has a thread an outstanding access of its own to scratchpad bytes, tile reads apart (R328)? -/
def State.touching (s : State) (r : GRef) (tids : List Nat) (mc off n : Nat) : Bool :=
  s.accs.any fun a =>
    decide (a.t.g = r) && a.set.any tids.contains
    && (match a.op with | .ldc _ _ => false | _ => true)
    && rangesMeet a.va a.size (0xFE * 2 ^ 56 + mc * 2 ^ 20 + off) n

end Sys2Proof.Machine
end

