-- ==== Sys2Proof/Machine/Incoming.lean ====
section
/-! DEFINITION. Requests of other devices (R315, R317, R332, R414 to R416, R418): their order, the checks of the target, the performance and the
answer. -/

namespace Sys2Proof.Machine

/-- Change a partition. -/
def State.updPart (s : State) (p : Nat) (f : Part → Part) : State := { s with parts := Tab.adjust s.parts p f }

/-- A fault that waits to be reported to a partition's pager (R399). -/
def State.toPager (s : State) (p : Nat) (h : Holder) (pasid : Nat) (r : FRec) : State :=
  s.updPart p fun q => { q with waiting := q.waiting ++ [(h, pasid, r)] }

/-- The KIND of a request's operation (R9, R414; assumption log 30). -/
def kindOfNumber (k : Nat) : Nat := match k with | 0 => 0x01 | 1 => 0x02 | 3 => 0x03 | 4 => 0x04 | _ => 0x05

/-- What a request's operation needs (R415). -/
def needOfNumber (k : Nat) : Need :=
  ⟨decide (k = 0 ∨ k = 3) || (decide (k ≠ 1 ∧ k ≠ 4) && decide (k < 32)), decide (k ≠ 0 ∧ k ≠ 3), false⟩

/-- What the checks of a target find (R416): a negative answer, a fault, or the export's context and address. -/
inductive InCheck where
  | neg (reason : Nat)
  | fault (f : Fail) (va pasid : Nat)
  | mem (pasid va : Nat)
  | tile (va : Nat)
deriving DecidableEq, Repr

/-- The partition of a function (R421). -/
def State.partOfFn (s : State) (fn : Nat) : Option Nat := (List.find? (fun q => q.2.fn == fn) s.parts).map (·.1)

/-- The checks of R416 before translation. A RED to a tile counts among the read-modify-writes (assumption log 30). -/
def State.checkIn (s : State) (q : InReq) : InCheck :=
  let fn := fld q.faddr 63 60
  let off := fld q.faddr 49 0
  if Tab.getD s.fab.quenched 0 fn ≠ 0 ∨ (s.partOfFn fn).isNone then .neg 0x15
  else
    match Tab.find? s.fab.exports (1024 * fn + fld q.faddr 59 50) with
    | none => .fault ⟨0x07, none, true, 0⟩ q.faddr 0
    | some x =>
      let va := x.xbase + off
      let n := needOfNumber q.op
      if !x.v then .fault ⟨0x07, none, true, 0⟩ q.faddr 0
      else if pageSize * (x.pages + 1) ≤ off ∨ (n.r && !x.rd) ∨ (n.w && !x.w) ∨ (x.tileKind && (n.r || decide (32 ≤ q.op))) then
        .fault ⟨0x08, none, true, 0⟩ va x.pasid
      else if x.tileKind then .tile va
      else .mem x.pasid va

/-- The record of a fault at the target (R416), which lies in no scheduler partition (R8). -/
def State.inRec (s : State) (q : InReq) (f : Fail) (va : Nat) : FRec :=
  { code := f.code, kind := f.kind.getD (kindOfNumber q.op), ri := 0, eng := false, replay := true, thread := 0xFFFF
    group := 0xFFFF, team := 0xFFFFFFFF, grid := 0xFFFFFFFF, pc := 0, va := va, smask := 0, eprog := 0, lease := f.lease
    dtime := s.now, core := 0xFF, part := 0, chan := 0xFF }

/-- A request meets a fault: it goes to the pager of the function's partition and its stream is frozen at its source, or, of a
multicast member, is answered negative and logged (R333, R416, R418). -/
def State.inFault (s : State) (q : InReq) (f : Fail) (va pasid : Nat) : State :=
  match s.partOfFn (fld q.faddr 63 60) with
  | none => s.answerReq q.n 0x15 []
  | some p =>
    if q.mcast then (s.logErr (some p) 0x07 0 0xFF pasid f.code q.faddr).answerReq q.n f.code []
    else
      let s := s.updReq q.n fun q => { q with held := true }
      ({ s with fab := { s.fab with out := s.fab.out ++ [.freeze q.src q.stream f.code] } } : State).toPager p (.request q.n) pasid
        (s.inRec q f va)

/-- The die of a Shecel port (R18): five on dies 0 and 2 and four on dies 1 and 3, in port order (assumption log 30). -/
def shecelDie (port : Nat) : Nat := if port < 5 then 0 else if port < 9 then 1 else if port < 14 then 2 else 3

/-- What a unit's read-modify-write answers: a fault, a wait, or the machine, the write's stamp and the old value. -/
inductive RmwRes where
  | fail (f : Fail)
  | wait
  | done (s : State) (v : VClk) (old : Nat)

/-- A read-modify-write of one of the device's units, where its frame's home die performs it (R213, R320, R321, R386), the host
(R218), or another device. -/
def State.unitRmw (s : State) (g : Agent) (va n : Nat) (op : AccOp) : RmwRes :=
  match s.unitLeaf g va ⟨true, true, false⟩ with
  | .error f => .fail f
  | .ok l =>
    match s.placeOf l va with
    | .mcast _ _ => .fail ⟨0x08, none, false, l.lease⟩
    | .remote dev _ =>
      (match s.unitAnswer g va true dev l.lease with
       | .fail f => .fail f
       | .wait => .wait
       | .done bs => .done s .zero (ofLE bs))
    | pl =>
      match s.placeDev (s.partOf g.pasid) pl n with
      | none => .wait
      | some pa =>
        let h := homeOf pa
        let k := (((s.die h).v.bump h).sum, h)
        if s.lostIn pa n true then .fail ⟨0x0B, none, false, l.lease⟩
        else if decide (pa < hostBase) && !s.noneBetween k pa n then .wait
        else
          let r := op.rmw ((span pa n).map fun a => (s.homeCopy a).b)
          let s := if pa < hostBase then s.countFrame (pa / pageSize) else s
          match r.new with
          | none => .done s .zero (r.ret.getD 0)
          | some bs =>
            let w := s.writeAt h pa bs
            .done (if pa < hostBase then w.1.noteRmw pa n (w.2.1.sum, h) else w.1) w.2.1 (r.ret.getD 0)

/-- The stream of a request (R414). -/
def InReq.key (q : InReq) : List Nat := [q.src, q.fn, q.grp, q.stream, ofB q.mcast]

/-- Note the stamp of a request's write in its stream (R317, R332). -/
def State.noteIn (s : State) (q : InReq) (v : VClk) : State :=
  let x := seqOf s.fab.inSeq q.key
  { s with fab := { s.fab with inSeq := seqSet s.fab.inSeq { x with last := x.last.join v } } }

/-- Perform a request at an address (R317, R332): a store with the receiving port's die as its origin, anything else at the
home die; while the die has not applied the stream's earlier writes, or a write might fall beside a read-modify-write (R321),
it waits. -/
def State.inDev (s : State) (q : InReq) (pa : Nat) : State :=
  let op := opOfNumber q.op q.size q.data
  let h := homeOf pa
  let o := if op.isStore then shecelDie q.port else h
  let k := (((s.die o).v.bump o).sum, o)
  let dev := decide (pa < hostBase)
  if !(s.die o).v.covers (seqOf s.fab.inSeq q.key).last || (dev && op.isStore && !s.afterRmw k pa q.size)
      || (dev && op.isRmw && !s.noneBetween k pa q.size) then s
  else
    let r := op.rmw ((span pa q.size).map fun x => (s.homeCopy x).b)
    let data := match r.ret with | some x => toLE q.size x | none => []
    let s := if 3 ≤ q.op ∨ q.op = 2 then s.countFrame (pa / pageSize) else s
    match r.new with
    | none => s.answerReq q.n 0 data
    | some bs =>
      let w := s.writeAt o pa bs
      let s := if op.isRmw && dev then w.1.noteRmw pa q.size (w.2.1.sum, o) else w.1
      (s.noteIn q w.2.1).settleReq q.n w.2.1 0 data

/-- Perform a request whose export allows it, with the checks of translation and lease (R379, R395, R416). One whose page is
absent waits for it (R384); one of another device's memory raises Protection (assumption log 30). -/
def State.inMem (s : State) (q : InReq) (pasid va : Nat) : State :=
  if 2 ^ 57 ≤ va then s.inFault q ⟨0x08, none, true, 0⟩ va pasid
  else
    match s.translate 0 pasid va (needOfNumber q.op) with
    | .error f => s.inFault q f va pasid
    | .ok l =>
      match s.doneCheck l (needOfNumber q.op).w with
      | .error f => s.inFault q f va pasid
      | .ok _ =>
        match s.placeOf l va with
        | .remote _ _ | .mcast _ _ => s.inFault q ⟨0x08, none, true, l.lease⟩ va pasid
        | pl =>
          match s.placeDev (s.partOf pasid) pl q.size with
          | some pa =>
            if s.lostIn pa q.size (needOfNumber q.op).w then s.inFault q ⟨0x0B, none, true, l.lease⟩ va pasid
            else s.inDev q pa
          | none => s.unitAsk ⟨[2, q.n], 0, pasid, true⟩ va q.size (opOfNumber q.op q.size q.data) (needOfNumber q.op)

/-- Serve a request of a peer (R416). One for a tile is an arrival, whose fate answers it. -/
def State.serveIn (s : State) (q : InReq) : State :=
  match s.checkIn q with
  | .neg r => s.answerReq q.n r []
  | .fault f va pasid => s.inFault q f va pasid
  | .mem pasid va => s.inMem q pasid va
  | .tile va =>
    let a : Arrival :=
      { ap := some (fld va 55 44), grid := 0, team := 0, mc := fld va 31 30, tile := fld va 39 32, ph := fld va 43 40
        off := fld va 19 0, swz := false, data := q.data, prod := .peer q.n }
    { s.updReq q.n (fun q => { q with held := true }) with arrivals := s.arrivals ++ [a] }

/-- Is it the turn of a request: no earlier one of its stream, by sequence number, is missing or waits (R332, R414)? -/
def State.inTurn (s : State) (q : InReq) : Bool :=
  q.done.isNone && !q.held && decide (q.seq ≤ (seqOf s.fab.inSeq q.key).next)
  && s.fab.inReqs.all fun x => !(x.sameStream q && decide (x.seq < q.seq)) || x.done.isSome

/-- Serve a request when it is its turn; the stream then goes on to the next number. -/
def State.serveTurn (s : State) (n : Nat) : State :=
  match List.find? (fun q : InReq => q.n == n) s.fab.inReqs with
  | none => s
  | some q =>
    if !s.inTurn q then s
    else
      let x := seqOf s.fab.inSeq q.key
      ({ s with fab := { s.fab with inSeq := seqSet s.fab.inSeq { x with next := max x.next (q.seq + 1) } } }).serveIn q

end Sys2Proof.Machine
end

