-- ==== Sys2Proof/Machine/Accept.lean ====
section
/-! DEFINITION. Launch records and kernel descriptors (R339 to R341), queue memory (R344), capacity and placement (R266 to
R268, R349), the acceptance of grids (R349, R350, R355) and the order of launches on one handle (R335). -/

namespace Sys2Proof.Machine

/-! ### Records -/

/-- A launch record's fields (R339); the used handle slots are listed with their modes. -/
structure LRec where
  kdesc : Nat
  join : Nat
  pasid : Nat
  queue : Nat
  idem : Bool
  span : Nat
  groups : Nat
  teams : Nat
  handles : List (Nat × Nat)
  apv : Bool
  aper : Nat
  hold : Nat
  zero : Bool
  args : List Nat
deriving DecidableEq, Repr

/-- A record's fields from its 64 bytes (R339). -/
def parseRec (b : List Byte) : LRec :=
  let w := fun (o : Nat) => ofLE ((b.drop o).take 8)
  let x := w 0x10
  let y := w 0x18
  let slots := (span 0 3).map fun k => (fld y (14 * k + 11) (14 * k), fld y (14 * k + 13) (14 * k + 12))
  { kdesc := w 0, join := w 8, pasid := fld x 19 0, queue := fld x 29 20, idem := bitN x 32, span := fld x 34 33
    groups := fld x 39 35 + 1, teams := fld x 63 40, handles := slots.filter fun h => h.2 != 0, apv := bitN y 47
    aper := fld y 59 48, hold := fld y 63 60, zero := fld x 31 30 == 0 && fld y 46 42 == 0
    args := (span 0 8).map fun k => ofLE ((b.drop (0x20 + 4 * k)).take 4) }

/-- Does a list hold a number twice? -/
def hasTwice : List Nat → Bool
  | [] => false
  | x :: t => t.contains x || hasTwice t

/-- The record's own fields (R341 check 1). -/
def State.recOk (s : State) (r : LRec) : Bool :=
  r.zero && decide (r.hold ≤ 12) && decide (r.span ≤ 2) && decide (r.teams ≠ 0) && !hasTwice (r.handles.map (·.1))
  && (!r.apv || (decide (r.aper + r.teams ≤ 4096)
      && !(s.cp.apers.any fun a => decide (r.aper ≤ a.1) && decide (a.1 < r.aper + r.teams))))

/-- A kernel descriptor's fields (R340). -/
def parseKernel (b : List Byte) : Kernel × Nat :=
  let f := fun (o n : Nat) => ofLE ((b.drop o).take n)
  ({ wregs := f 4 2, gregs := f 6 2, scratch := f 8 4, tiles := f 12 2, entry := f 24 8 + f 16 8, code := f 24 8 }, f 16 8)

/-- The ranges of R340; `off` is ENTRY. -/
def kernelOk (k : Kernel) (off : Nat) : Bool :=
  decide (16 ≤ k.wregs) && decide (k.wregs ≤ 512) && k.wregs % 16 == 0 && decide (1 ≤ k.gregs) && decide (k.gregs ≤ 512)
  && k.scratch % 64 == 0 && decide (k.scratch ≤ 3145728) && decide (k.tiles ≤ 256) && k.code % 64 == 0
  && off % 4 == 0 && decide (off < 2 ^ 32)

/-! ### Capacity and placement (R266 to R268) -/

/-- Bytes of scratchpad of a core (R267). -/
def coreScratch : Nat := 0xC0000

/-- The member core and the scheduler partition of group g of a team on nc cores (R266). -/
def groupPlace (nc g : Nat) : Nat × Nat := (g % nc, g / nc % 4)

/-- Bytes of the team's scratchpad on each of nc cores (R267). -/
def scratchPart (k : Kernel) (nc : Nat) : Nat := ceilDiv k.scratch (64 * nc) * 64

/-- Groups of a team of G that fall to a partition of a member core. -/
def groupsAt (G nc mc p : Nat) : Nat := ((span 0 G).filter fun g => groupPlace nc g == (mc, p)).length

/-- The groups on a scheduler partition that have not ended, with their teams (R267, R269). -/
def State.groupsHeld (s : State) (core part : Nat) : List (Team × Group) :=
  s.teams.flatMap fun t =>
    if t.resident then
      t.groups.filterMap fun p => if p.2.core = core ∧ p.2.part = part ∧ ¬ p.2.over then some (t, p.2) else none
    else []

/-- Has a scheduler partition room for n more groups of a kernel (R267)? -/
def State.partRoom (s : State) (k : Kernel) (core part n : Nat) : Bool :=
  let l := s.groupsHeld core part
  let regs := l.foldl (fun a p => a + 64 * p.1.kern.wregs) 0
  decide (l.length + n ≤ 8) && decide (regs + n * (64 * k.wregs) ≤ 65536)

/-- The resident teams that a core holds. -/
def State.teamsOn (s : State) (core : Nat) : List Team := s.teams.filter fun t => t.resident && t.cores.contains core

/-- Has a core the scratchpad and tile entries for a team on nc cores (R267)? -/
def State.coreRoom (s : State) (k : Kernel) (nc core : Nat) : Bool :=
  let l := s.teamsOn core
  let used := l.foldl (fun a t => a + t.partBytes) 0
  let tiles := l.foldl (fun a t => a + t.kern.tiles) 0
  decide (used + scratchPart k nc ≤ coreScratch) && decide (tiles + k.tiles ≤ 256)

/-- Does a team of G groups fit some cores (R267)? -/
def State.fitsOn (s : State) (k : Kernel) (G : Nat) (cores : List Nat) : Bool :=
  let nc := cores.length
  ((span 0 nc).zip cores).all fun c =>
    s.coreRoom k nc c.2 && (span 0 4).all fun p => s.partRoom k c.2 p (groupsAt G nc c.1 p)

/-- The places of nc cores in a partition's quads, lowest first (R13, R266). -/
def placesOf (q : Part) (nc : Nat) : List (List Nat) :=
  let quads := insNats q.quads []
  quads.flatMap fun m => (span 0 (4 / nc)).map fun k => span (4 * m + nc * k) nc

/-- The place a team takes (R268, R349): the smallest nc of at least the span that fits, then the lowest-numbered cores. -/
def State.placeFor (s : State) (part : Nat) (k : Kernel) (G minNc : Nat) : Option (List Nat) :=
  match s.part part with
  | none => none
  | some q => ([1, 2, 4].filter (minNc ≤ ·)).findSome? fun nc => (placesOf q nc).find? (s.fitsOn k G)

/-- The cores of a minimum span (R339). -/
def spanCores (sp : Nat) : Nat := match sp with | 0 => 1 | 1 => 2 | _ => 4

/-- Does a team fit an idle quad of a partition (R268, R341 check 7)? -/
def State.fitsIdle (s : State) (part : Nat) (k : Kernel) (G minNc : Nat) : Bool :=
  ({ s with teams := [] }.placeFor part k G minNc).isSome

/-! ### The checks of R341 -/

/-- The command processor as it reads the kernel descriptor of a launch; `own` names the launch. -/
def kernelReader (own : List Nat) (pasid : Nat) : Agent := ⟨7 :: own, 0, pasid, false⟩

/-- Reads a kernel descriptor, a weak load: a status, the kernel, or none while the read waits (R341 checks 4 to 6). -/
def State.readKernel (s : State) (own : List Nat) (pasid va : Nat) : Except Nat (Option Kernel) :=
  if va % 32 ≠ 0 then .error 0x01
  else if 2 ^ 57 ≤ va then .error 0x06
  else
    match s.unitGet (kernelReader own pasid) va 32 ⟨true, false, false⟩ with
    | .fail f => .error f.code
    | .wait => .ok none
    | .done b =>
      let (k, off) := parseKernel b
      if kernelOk k off then .ok (some k) else .error 0x01

/-- Does a handle belong to a context, with its generation current (R341 check 3, R424)? -/
def State.handleOk (s : State) (pasid h : Nat) : Bool :=
  match Tab.find? s.cp.handles h with | some x => x.pasid == pasid && x.current | none => false

/-- Is a queue an open one of a context (R341 check 2)? -/
def State.queueOpen (s : State) (pasid q : Nat) : Bool :=
  match Tab.find? s.cp.queues q with | some x => x.pasid == pasid && x.st == QState.opened | none => false

/-- The checks of a record from a context, in order: the status of the first that fails, or the kernel (R341); none while its
descriptor cannot be read yet. -/
def State.recCheck (s : State) (own : List Nat) (pasid : Nat) (r : LRec) : Except Nat (Option Kernel) :=
  if !s.recOk r then .error 0x01
  else if r.pasid ≠ pasid ∨ !s.queueOpen pasid r.queue then .error 0x10
  else if !r.handles.all (fun h => s.handleOk pasid h.1) then .error 0x20
  else
    match s.readKernel own pasid r.kdesc with
    | .ok (some k) => if s.fitsIdle (s.partOf pasid) k r.groups (spanCores r.span) then .ok (some k) else .error 0x10
    | x => x

/-- A launch whose descriptor cannot be read yet: what the read waits for has been asked for. -/
def State.askKernel (s : State) (own : List Nat) (pasid va : Nat) : State :=
  s.unitAsk (kernelReader own pasid) va 32 (.load 32 false) ⟨true, false, false⟩

/-! ### Grids -/

/-- A grid by its gridid. -/
def State.grid? (s : State) (g : Nat) : Option Grid := Tab.find? s.cp.grids g

/-- Change a queue. -/
def State.updQueue (s : State) (q : Nat) (f : Queue → Queue) : State :=
  { s with cp := { s.cp with queues := Tab.adjust s.cp.queues q f } }

/-- The next gridid from n on (R349): not one whose low 24 bits are 0 and not a live grid's. -/
def nextGid (grids : Tab Grid) : Nat → Nat → Nat
  | 0, n => n
  | k + 1, n =>
    let n := n % 2 ^ 32
    if n % 2 ^ 24 = 0 ∨ (Tab.find? grids n).isSome then nextGid grids k (n + 1) else n

/-- What a launch waits for on a handle (R335): earlier grids, and whether their stamps are to be covered. Mode 1 reads. -/
def handleDeps (h : Handle) (mode : Nat) : List (Nat × Bool) :=
  h.writers.map (fun w => (w, true)) ++ if mode = 1 then [] else h.readers.map fun r => (r, false)

/-- The table's entry after a launch on a handle (R335). -/
def Handle.note (h : Handle) (mode g : Nat) : Handle :=
  if mode = 1 then { h with readers := h.readers ++ [g] } else { h with writers := h.writers ++ [g] }

/-- The grid of an accepted record, its gridid apart. -/
def State.gridOf (s : State) (r : LRec) (k : Kernel) (parent : Option (Nat × Nat)) (depth : Nat) (acq : VClk) (id : Nat) : Grid :=
  let hs := r.handles.filterMap fun h => (Tab.find? s.cp.handles h.1).map fun x => (x, h.2)
  { id := id, pasid := r.pasid, part := s.partOf r.pasid, queue := r.queue, depth := depth, kern := k, join := r.join
    teams := r.teams, groups := r.groups, minSpan := spanCores r.span, idem := r.idem, apv := r.apv, aper := r.aper
    hold := r.hold, handles := r.handles, args := r.args, nextTeam := 0, parent := parent, killed := false
    stamps := .zero, abandoned := false, acq := acq, deps := hs.flatMap fun p => handleDeps p.1 p.2
    need := hs.foldl (fun v p => v.join p.1.stamps) .zero, stored := [] }

/-- Bind a grid's apertures (R355). -/
def bindApers (m : Tab Aper) (g : Grid) : Tab Aper :=
  if g.apv then (span 0 g.teams).foldl (fun m i => Tab.set m (g.aper + i) ⟨g.id, i, g.hold, none⟩) m else m

/-- Accept a record (R349, R355): the grid with its gridid, its apertures and its entries in the handle table. -/
def State.acceptGrid (s : State) (r : LRec) (k : Kernel) (parent : Option (Nat × Nat)) (depth : Nat) (acq : VClk) : State × Nat :=
  let id := nextGid s.cp.grids (s.cp.grids.length + 4) s.cp.gridNext
  let g := s.gridOf r k parent depth acq id
  ({ s with cp := { s.cp with
      grids := Tab.set s.cp.grids id g
      gridNext := (id + 1) % 2 ^ 32
      apers := bindApers s.cp.apers g
      handles := g.handles.foldl (fun m h => Tab.adjust m h.1 fun x => x.note h.2 id) s.cp.handles } }, id)

/-! ### Queue memory (R344) -/

/-- Report Queue Closed for a context to its service core (R341, R346). -/
def State.reportClosed (s : State) (pasid : Nat) : State := { s with cp := { s.cp with closedRep := s.cp.closedRep ++ [pasid] } }

/-- A queue that cannot be written or whose memory is not mapped goes to error, and Queue Closed is reported (R346). -/
def State.failQueue (s : State) (q : Nat) : State :=
  match Tab.find? s.cp.queues q with
  | some x => if x.st = .opened then (s.updQueue q fun x => { x with st := .error }).reportClosed x.pasid else s
  | none => s

/-- Bytes of a queue's memory are to be written (R344). -/
def State.queueWrite (s : State) (q off : Nat) (bs : List Byte) : State :=
  match Tab.find? s.cp.queues q with
  | none => s
  | some x => { s with cp := { s.cp with qwrites := s.cp.qwrites ++ [⟨q, x.pasid, x.base + off, bs⟩] } }

/-- The command processor as it writes a queue's memory: with strong stores at system scope (R344). -/
def queueWriter (q pasid : Nat) : Agent := ⟨[8, q], 0, pasid, true⟩

/-- The write to a queue's memory that stands at place n is performed, the first of its queue, when every die has the earlier
ones (R344). -/
def State.queueStore (s : State) (n : Nat) : State :=
  match s.cp.qwrites[n]? with
  | none => s
  | some w =>
    if ((s.cp.qwrites.take n).any fun x => x.queue == w.queue) || !s.allCover s.cp.qstamp then s
    else
      let gone := fun (s : State) => { s with cp := { s.cp with qwrites := dropNth s.cp.qwrites n } }
      match s.unitWrite (queueWriter w.queue w.pasid) w.va w.data with
      | (.wait, s) => s
      | (.fail _, s) => (gone s).failQueue w.queue
      | (.done s v, _) => { gone s with cp := { (gone s).cp with qstamp := s.cp.qstamp.join v } }

/-- Is every page of a queue's header and ring mapped? -/
def State.ringMapped (s : State) (q : Queue) : Bool :=
  let n := 64 + 64 * 2 ^ q.logsz
  (span (q.base / pageSize) ((q.base + (n - 1)) / pageSize + 1 - q.base / pageSize)).all fun pg =>
    match s.walk q.pasid (pg * pageSize) with | .ok _ => true | .error _ => false

/-- A queue that is open while a page of its header or ring is unmapped goes to error, and Queue Closed is reported
(R346). -/
def State.ringCheck (s : State) (q : Nat) : State :=
  match Tab.find? s.cp.queues q with
  | some x => if s.ringMapped x then s else s.failQueue q
  | none => s

/-- One more record finished (R344). -/
def State.bumpHead (s : State) (q : Nat) : State :=
  match Tab.find? s.cp.queues q with
  | none => s
  | some x => (s.updQueue q fun x => { x with head := x.head + 1 }).queueWrite q 0 (toLE 8 (x.head + 1))

/-- One more host spawn rejected (R341, R345), when the queue is the context's. -/
def State.bumpReject (s : State) (pasid q : Nat) : State :=
  match Tab.find? s.cp.queues q with
  | none => s
  | some x =>
    if x.pasid ≠ pasid then s
    else (s.updQueue q fun x => { x with reject := x.reject + 1 }).queueWrite q 0x10 (toLE 4 (x.reject + 1))

/-- One more record abandoned part-way (R346). -/
def State.bumpDiscard (s : State) (q : Nat) : State :=
  match Tab.find? s.cp.queues q with
  | none => s
  | some x => (s.updQueue q fun x => { x with discard := x.discard + 1 }).queueWrite q 0x14 (toLE 4 (x.discard + 1))

/-- An accepted record goes into the ring, and TAIL rises (R345). -/
def State.pushRing (s : State) (q : Nat) (bs : List Byte) (g : Nat) : State :=
  match Tab.find? s.cp.queues q with
  | none => s
  | some x =>
    let s := s.queueWrite q (64 + 64 * (x.tail % 2 ^ x.logsz)) bs
    (s.updQueue q fun x => { x with tail := x.tail + 1, ring := x.ring ++ [g] }).queueWrite q 8 (toLE 8 (x.tail + 1))

/-! ### Host spawns (R345) -/

/-- The context of a spawn aperture: its function and its number there (R338, R411). -/
def State.ctxAt (s : State) (fn slot : Nat) : Option Nat :=
  (List.find? (fun c => c.2.fn == fn && c.2.slot == slot) s.cp.ctxs).map (·.1)

/-- The partition of a function counts a dropped write in its error log (R411). -/
def State.dropWrite (s : State) (fn addr why : Nat) : State :=
  s.logErr (s.partOfFn fn) 0x07 0 0xFF 0 (Config.detail why) addr

/-- The oldest host spawn of an aperture is taken, at place n of those that wait (R345). While its descriptor cannot be read
yet, it stays. -/
def State.spawnTake (s : State) (n : Nat) : State :=
  match s.cp.spawns[n]? with
  | none => s
  | some w =>
    if (s.cp.spawns.take n).any fun x => x.fn == w.fn && x.slot == w.slot then s
    else
      let gone : State := { s with cp := { s.cp with spawns := dropNth s.cp.spawns n } }
      match s.ctxAt w.fn w.slot with
      | none => gone
      | some pasid =>
        let r := parseRec w.rcd
        let own := [0, w.fn, w.slot]
        let gone := (gone.unitsDone (kernelReader own pasid)).ringCheck r.queue
        let full := match Tab.find? s.cp.queues r.queue with
          | some x => x.pasid == pasid && decide (x.tail - x.head = 2 ^ x.logsz)
          | none => false
        if full then gone.bumpReject pasid r.queue
        else
          match (s.ringCheck r.queue).recCheck own pasid r with
          | .error _ => (gone.reportClosed pasid).bumpReject pasid r.queue
          | .ok none => s.askKernel own pasid r.kdesc
          | .ok (some k) =>
            let (s, g) := gone.acceptGrid r k none 0 w.acq
            s.pushRing r.queue w.rcd g

/-- SPAWN_WRITE (R345, R411): a transaction of a host thread at offset `off` of a context's spawn aperture. One of another size
or alignment is rejected and logged; QUEUE stands in bytes 0x12 and 0x13 of the record. -/
def State.spawnWrite (s : State) (fn slot size off : Nat) (data : List Byte) : State :=
  if size ≠ 64 ∨ off % 64 ≠ 0 ∨ data.length ≠ 64 then
    (match s.ctxAt fn slot with
     | some pasid => if 20 ≤ data.length then s.bumpReject pasid (parseRec data).queue else s
     | none => s).dropWrite fn (4096 * slot + off) 21
  else
    let acq := (s.die 0).v.join (s.die 2).v
    let w : Spawn := { fn, slot, rcd := data, acq }
    ({ s with cp := { s.cp with spawns := s.cp.spawns ++ [w] } } : State).spawnTake s.cp.spawns.length

/-- SPAWN_WRITE. -/
def execEvSpawnWrite (fn ctx size off : Nat) (data : List Byte) (s : State) : Host.Outcome State Fault Refusal :=
  .next (if s.cpUp then s.spawnWrite fn ctx size off data else s)

/-! ### Nested grids (R350) -/

/-- Child grids the child store holds (R350). -/
def State.childGrids (s : State) : Nat := (s.cp.grids.filter fun g => g.2.parent.isSome).length

/-- A pending launch has been answered: its entry frees, and the word of R257 is pushed to q1 of the launching group. -/
def State.answerLaunch (s : State) (tm : Team) (gid status g : Nat) : State :=
  let r := tm.ref gid
  let s := s.updTeam tm.grid tm.team fun t => { t with pend := t.pend.drop 1 }
  let s := s.devPush r 1 (BitVec.ofNat 32 (status + g % 2 ^ 24 * 256))
  s.updTeam tm.grid tm.team fun t => t.wake fun w => decide (w = .launch)

/-- PENDING_LAUNCH_TAKE (R350): the oldest pending launch of a team. -/
def State.takeLaunch (s : State) (g t : Nat) : State :=
  match s.team? g t with
  | none => s
  | some tm =>
    match tm.pend, tm.resident || decide (tm.st = .awaiting) with
    | p :: _, true =>
      let r := parseRec p.rcd
      let own := [1, g, t]
      let gone := s.unitsDone (kernelReader own tm.pasid)
      (match s.recCheck own tm.pasid r with
       | .error c => gone.answerLaunch tm p.gid c 0
       | .ok none => s.askKernel own tm.pasid r.kdesc
       | .ok (some k) =>
         let maxd := match Tab.find? s.cp.queues r.queue with | some x => x.maxd | none => 0
         if maxd < tm.depth + 1 then gone.answerLaunch tm p.gid 0x0F 0
         else if 16384 ≤ s.childGrids then s
         else
           let (s, id) := gone.acceptGrid r k (some (g, t)) (tm.depth + 1) p.vec
           let s := s.updQueue r.queue fun x => { x with kids := x.kids ++ [id] }
           let s := s.updTeam g t fun t => { t with children := t.children + 1 }
           s.answerLaunch tm p.gid 0 id)
    | _, _ => s

/-- PENDING_LAUNCH_TAKE. -/
def execEvPendingLaunchTake (g t : Nat) (s : State) : Host.Outcome State Fault Refusal := .next (if s.cpUp then s.takeLaunch g t else s)

end Sys2Proof.Machine
end

