-- ==== Sys2Proof/Machine/PageIn.lean ====
section
/-! DEFINITION. The page-in engine (R383 to R388, R430): free frames and victims, the reading of a page, prefetch groups
and dropped hints. -/

namespace Sys2Proof.Machine

/-- Sectors of a page. -/
def pageSectors : Nat := 1024

/-- Are there stamped writes to a frame on their way (R318)? -/
def State.frameQuiet (s : State) (f : Nat) : Bool :=
  s.dies.all fun d => d.2.inbox.all fun m => decide (m.addr / pageSize ≠ f)

/-- Does an outstanding access lie in a pool page of a partition? -/
def State.pageInUse (s : State) (p page : Nat) : Bool :=
  s.accs.any fun a => a.part == p && (s.pieces a).any fun q => match q.pl with | .pool g _ => g == page | _ => false

/-- The lowest number from c up that no entry of the list occupies; the list rises. -/
def lowestFree : Nat → Tab FrameE → Nat
  | c, [] => c
  | c, (k, e) :: t => if k = c ∧ e.st ≠ FrameSt.free then lowestFree (c + 1) t else lowestFree c t

/-- The first frame of the cache part of a quota, and the first above it (R385); while the quota is being reduced, of the
frames that remain (R448). -/
def Part.cache (q : Part) : Nat × Nat :=
  let c := (q.frame0 + q.locals, min (q.frame0 + q.frames) frameCount)
  match q.keep with
  | some k => (max c.1 k.1, min c.2 k.2)
  | none => c

/-- May a frame be a victim for a request of a group (R386, R387)? Group 0 is an access. -/
def State.victimOk (s : State) (q : Part) (grp : Nat) (k : Nat) (e : FrameE) : Bool :=
  decide (q.cache.1 ≤ k) && decide (k < q.cache.2) && !e.loc && e.st == FrameSt.valid && e.pins == 0
  && !(grp != 0 && e.grp == grp) && !s.pageInUse e.part e.page && s.frameQuiet k

/-- The victim: the lowest count, ties to the lowest frame (R386). -/
def State.victim (s : State) (q : Part) (grp : Nat) : Option (Nat × FrameE) :=
  s.frames.foldl (fun b f =>
    if s.victimOk q grp f.1 f.2 then
      match b with
      | some x => if f.2.cnt < x.2.cnt then some f else b
      | none => some f
    else b) none

/-- What a team's threads have met at some device addresses is no longer a bound: other bytes stand there. -/
def Team.forget (keep : Nat → Bool) (t : Team) : Team :=
  { t with groups := Tab.mapV t.groups fun g =>
      { g with threads := Tab.mapV g.threads fun th => { th with floor := List.filter (fun b => keep b.1) th.floor } } }

/-- No die's L2 and no L1 holds a sector of a frame any more. -/
def State.dropLines (s : State) (f : Nat) : State :=
  let keep := fun (sec : Nat) => decide (sec / pageSectors ≠ f)
  { s with
    dies := Tab.mapV s.dies fun d => { d with l2 := List.filter (fun b => keep b.1) d.l2 }
    cores := Tab.mapV s.cores fun c => { c with l1 := List.filter (fun b => keep b.1) c.l1 } }

/-- A frame is emptied (R383): no die's L2 and no L1 holds a byte of it any more. -/
def State.freeFrame (s : State) (f : Nat) : State :=
  let keep := fun (x : Nat) => decide (x / pageSize ≠ f)
  let s := s.dropLines f
  { s with
    frames := Tab.del s.frames f
    teams := s.teams.map (Team.forget keep)
    dies := Tab.mapV s.dies fun d =>
      { d with marks := List.filter (fun b => keep b.1) d.marks, rmw := List.filter (fun b => keep b.1) d.rmw } }

/-- A frame starts to fill with a pool page (R383, R384), for an access or as a page of a prefetch group. -/
def State.startFill (s : State) (f p page lease sector : Nat) (rd : Nat × Nat) : State :=
  { s with
    frames := Tab.set s.frames f
      { st := .filling, loc := false, part := p, page := page, lease := lease, dirty := [], arrived := [],
        first := sector, cnt := 1, pins := 0, lost := [], retries := 0, grp := rd.1, rd := rd, since := s.now } }

/-- What a page-in finds when it looks for a frame (R384, R386). -/
inductive Take where
  | frame (f : Nat)
  /-- A dirty victim is to be written back first. -/
  | dirty (f : Nat)
  | nothing
deriving DecidableEq, Repr

/-- The frame a page-in takes. -/
def State.takeFrame (s : State) (p : Nat) (grp : Nat) : Take :=
  match s.part p with
  | none => .nothing
  | some q =>
    let f := lowestFree q.cache.1 (List.filter (fun e => decide (q.cache.1 ≤ e.1)) s.frames)
    if f < q.cache.2 then .frame f
    else
      match s.victim q grp with
      | some (k, e) => if e.dirty.all e.lost.contains then .frame k else .dirty k
      | none => .nothing

/-- Set a frame's state. -/
def State.setFrameSt (s : State) (f : Nat) (st : FrameSt) : State :=
  { s with frames := Tab.adjust s.frames f fun e => { e with st := st, since := s.now } }

/-- Sectors count at a prefetch group's barrier (R222). -/
def State.landBar (s : State) (bar : Option (Nat × Nat × Nat × Nat)) (n : Nat) : State :=
  match bar with
  | some (g, t, mc, off) => if n = 0 then s else s.tbLand g t mc off n
  | none => s

/-- A dropped hint is counted, and logged under `.report` (R388). -/
def State.dropHint (s : State) (pasid va reason : Nat) (report : Bool) : State :=
  let s := { s with cp := { s.cp with
    ctxs := Tab.adjust s.cp.ctxs pasid fun c => { c with hintDrops := min 0xFFFFFFFF (c.hintDrops + 1) } } }
  if report then
    { s with parts := Tab.adjust s.parts (s.partOf pasid) fun q => q.push (.event reason pasid (alignDown va pageSize)) }
  else s

/-- The checks of a hint (R223): the reason it is dropped for (R388), or its leaf. -/
def State.hintCheck (s : State) (core pasid va : Nat) (cacheOnly : Bool) : Except Nat Leaf :=
  if 2 ^ 57 ≤ va then .error 1
  else
    match s.leafFor core pasid va with
    | .error _ => .error 1
    | .ok l =>
      match s.leafCheck (s.partOf pasid) l ⟨true, false, false⟩ with
      | .error _ => .error 2
      | .ok _ =>
        match s.leaseCheck l false with
        | .error f => .error (if f.code = 0x08 then 2 else 3)
        | .ok _ =>
          match s.placeOf l va with
          | .dev _ | .pool _ _ => .ok l
          | _ => if cacheOnly then .error 5 else .ok l

/-- A frame stands under a prefetch group: no page of the group takes it as a victim (R387). -/
def State.noteGroup (s : State) (f grp : Nat) : State :=
  { s with frames := Tab.adjust s.frames f fun e => { e with grp := grp } }

/-- A request of a prefetch group with a barrier stays, while its page's sectors arrive. -/
def State.keepReq (s : State) (q : PageReq) : State :=
  if q.bar.isSome then { s with pageReqs := s.pageReqs ++ [{ q with wait := false }] } else s

/-- A page of a prefetch group finds its frame, is chosen one, or is dropped; the answer says that the group waits there until
a frame is FREE (R387). -/
def State.groupPage (s : State) (q : PageReq) : State × Bool :=
  match s.frameOf q.part q.page with
  | some (f, e) =>
    (match e.st with
     | .valid => ((s.noteGroup f q.group).landBar q.bar pageSectors, false)
     | .filling => (((s.noteGroup f q.group).landBar q.bar e.arrived.length).keepReq q, false)
     | _ => (s, true))
  | none =>
    match s.takeFrame q.part q.group with
    | .frame f => (((s.freeFrame f).startFill f q.part q.page q.lease 0 (q.group, q.ord)).keepReq q, false)
    | .dirty f => (s.setFrameSt f .writeback, true)
    | .nothing => ((s.dropHint q.pasid q.va 4 q.report).landBar q.bar pageSectors, false)

/-- The pages of a prefetch group that wait go on, in order, until one has to wait (R387). -/
def State.groupGo : List PageReq → State → State
  | [], s => s
  | q :: t, s =>
    let r := s.groupPage q
    if r.2 then r.1 else State.groupGo t { r.1 with pageReqs := r.1.pageReqs.filter (· != q) }

/-- The pages of a prefetch group that wait for frames go on (R387). -/
def State.groupStep (s : State) (grp : Nat) : State := State.groupGo (s.pageReqs.filter fun q => q.group == grp && q.wait) s

/-- A page of a prefetch group is checked (R223): it is dropped, it counts at once, or it asks for a frame. A frame that it has
already is none that the group may take (R387). -/
def State.groupAdd (s : State) (core pasid grp : Nat) (report : Bool) (bar : Option (Nat × Nat × Nat × Nat))
    (x : Nat × Nat) : State :=
  match s.hintCheck core pasid x.1 true with
  | .error r => (s.dropHint pasid x.1 r report).landBar bar pageSectors
  | .ok l =>
    match s.placeOf l x.1 with
    | .pool page _ =>
      let p := s.partOf pasid
      let s := match s.frameOf p page with | some (f, _) => s.noteGroup f grp | none => s
      { s with pageReqs := s.pageReqs ++ [{
          part := p, pasid := pasid, page := page, lease := l.lease, sector := 0, group := grp, ord := x.2
          va := alignDown x.1 pageSize, report := report, wait := true, bar := bar }] }
    | _ => s.landBar bar pageSectors

/-- A prefetch group of pages, in row-major order (R222, R223, R387): all are checked, then frames are chosen. -/
def State.tierGroup (s : State) (core pasid : Nat) (vas : List Nat) (report : Bool)
    (bar : Option (Nat × Nat × Nat × Nat)) : State :=
  let grp := s.accNext + 1
  let s := { s with accNext := s.accNext + 1 }
  (vas.zipIdx.foldl (fun s x => s.groupAdd core pasid grp report bar x) s).groupStep grp

/-- May sectors of a frame be read (R387): of a prefetch group, once frames are chosen for all its pages, and page by page in
its order? -/
def State.readTurn (s : State) (e : FrameE) : Bool :=
  e.rd.1 == 0
  || (!(s.pageReqs.any fun q => q.group == e.rd.1 && q.wait)
      && s.frames.all fun x => !(x.2.st == .filling && x.2.rd.1 == e.rd.1 && decide (x.2.rd.2 < e.rd.2)))

/-- The next sector of a page to be read (R384): the one needed first, then ascending. -/
def FrameE.nextSector (e : FrameE) : Option Nat :=
  if !e.arrived.contains e.first then some e.first
  else List.find? (fun k => !e.arrived.contains k) (span 0 pageSectors)

/-- The unfinished part of a page counts as dropped at the barriers of its groups (R430), which no longer wait for it. -/
def State.dropFill (s : State) (p page left : Nat) : State :=
  let mine := fun (q : PageReq) => q.part == p && q.page == page && !q.wait
  let l := s.pageReqs.filter mine
  let s := { s with pageReqs := s.pageReqs.filter fun q => !mine q }
  l.foldl (fun s q => s.landBar q.bar left) s

/-- A frame is set INVALIDATING (R383): the sectors that have not arrived count as dropped (R430). -/
def State.invalidateFrame (s : State) (f : Nat) : State :=
  match Tab.find? s.frames f with
  | some e =>
    if e.loc then s
    else
      match e.st with
      | .filling => (s.setFrameSt f .invalidating).dropFill e.part e.page (pageSectors - e.arrived.length)
      | .valid => s.setFrameSt f .invalidating
      | _ => s
  | none => s

/-- The bytes of a sector of a frame, as its home die holds them. -/
def State.frameSector (s : State) (f k : Nat) : List Byte := Mem.readList s.hbm (f * pageSize + 64 * k) 64

/-- Write a frame's dirty sectors back to the pool (R384); a lost sector is skipped (R438). -/
def State.writeback (s : State) (f : Nat) : State :=
  match Tab.find? s.frames f with
  | some e =>
    let l := e.dirty.filter fun k => !e.lost.contains k
    { s with
      pool := l.foldl (fun m k => Mem.writeList m (e.page * pageSize + 64 * k) (s.frameSector f k)) s.pool
      frames := Tab.set s.frames f { e with dirty := [], cnt := min 255 (e.cnt + l.length) } }
  | none => s

end Sys2Proof.Machine
end

