-- ==== Sys2Proof/Machine/Hints.lean ====
section
/-! DEFINITION. Prefetches and residency (R221 to R224). -/

namespace Sys2Proof.Machine

/-- The sector at an address is brought into the L2, and into the L1 as well (R221), unless no cache may hold it (R410) or the
die has still to wait for it; an absent pool page is paged in. -/
def State.prefNear (s : State) (core pasid va : Nat) (l : Leaf) (l1 : Bool) : State :=
  let a := alignDown va 64
  match s.placeOf l a, s.placeDev (s.partOf pasid) (s.placeOf l a) 64 with
  | .hostN _, _ => s
  | _, some pa => if l1 then s.fillL1 core pa 64 else s.fillSectors (dieOfCore core) pa 64
  | .pool page off, none =>
    (match s.frameOf (s.partOf pasid) page with
     | some _ => s
     | none => s.needPage
        { part := s.partOf pasid, pasid := pasid, page := page, lease := l.lease, sector := off / 64, group := 0, ord := 0
          va := alignDown va pageSize, report := false, wait := true, bar := none })
  | _, none => s

/-- PREF.l1 and PREF.l2 in one thread (R221, R223). -/
def prefNearSem (l1 report : Bool) : EachSem := fun c s =>
  let va := c.vals.a
  c.done (match s.hintCheck c.g.core c.tm.pasid va false with
    | .error r => s.dropHint c.tm.pasid va r report
    | .ok l => s.prefNear c.g.core c.tm.pasid va l l1)

/-- The meaning of PREF.l1. -/
def execPrefL1 (pf : Pfx) (a : BitVec 8) (r : BitVec 1) (s : State) : Host.Outcome State Fault Refusal :=
  runEachOf (.prefL1 pf a r) (prefNearSem true (r == 1#1)) s

/-- The meaning of PREF.l2. -/
def execPrefL2 (pf : Pfx) (a : BitVec 8) (r : BitVec 1) (s : State) : Host.Outcome State Fault Refusal :=
  runEachOf (.prefL2 pf a r) (prefNearSem false (r == 1#1)) s

/-- PREF.hbm in one thread: a group of one page (R221, R387). -/
def prefHbmSem (report : Bool) : EachSem := fun c s =>
  c.done (s.tierGroup c.g.core c.tm.pasid [alignDown c.vals.a pageSize] report none)

/-- The meaning of PREF.hbm. -/
def execPrefHbm (pf : Pfx) (a : BitVec 8) (r : BitVec 1) (s : State) : Host.Outcome State Fault Refusal :=
  runEachOf (.prefHbm pf a r) (prefHbmSem (r == 1#1)) s

/-- The pages of a tier group, in row-major order, from the geometry word (R222). -/
def tierPages (va geom : Nat) : List Nat :=
  (span 0 (fld geom 7 4 + 1)).flatMap fun r =>
    (span 0 (fld geom 3 0 + 1)).map fun c =>
      (alignDown va pageSize + (r * fld geom 31 8 + c) * pageSize) % 2 ^ 64

/-- PREF.tier in one thread; with `.tb` the group's sectors are added to what the barrier waits for (R222). -/
def prefTierSem (tb report : Bool) : EachSem := fun c s =>
  let v := c.vals
  let pages := tierPages v.a v.d
  if tb then
    let va := 0xFE * 2 ^ 56 + v.d / 2 ^ 32 % 2 ^ 22
    match windowOf c.tm va 16 with
    | some (.scratch mc off) =>
      if va % 16 ≠ 0 then c.fault 0x05 0x05 va s
      else
        let s := s.tbLand c.tm.grid c.tm.team mc off (-(pageSectors * pages.length : Nat))
        c.done (s.tierGroup c.g.core c.tm.pasid pages report (some (c.tm.grid, c.tm.team, mc, off)))
    | _ => c.fault 0x06 0x05 va s
  else c.done (s.tierGroup c.g.core c.tm.pasid pages report none)

/-- The meaning of PREF.tier. -/
def execPrefTier (pf : Pfx) (d a : BitVec 8) (t r : BitVec 1) (s : State) : Host.Outcome State Fault Refusal :=
  runEachOf (.prefTier pf d a t r) (prefTierSem (t == 1#1) (r == 1#1)) s

/-- RESID.q in one thread: D fills like a load's (R224). -/
def residQSem : EachSem := fun c s =>
  let p : Plan := weakPlan c.vals.a 1 1 0x01 0 .resid
  let a := { p.acc c.tm c.g [c.tid] c.t (destOf c.o.d 1) none none with entry := false }
  c.done ((s.addAcc a).updThread c.ref fun t => t.markEmpty (c.o.d.lanes c.x.sp.d.wr))

/-- The meaning of RESID.q. -/
def execResidQ (pf : Pfx) (d a : BitVec 8) (s : State) : Host.Outcome State Fault Refusal :=
  runEachOf (.residQ pf d a) residQSem s

/-- RESID.keep and RESID.evict in one thread: the frame's counter (R224, R428). -/
def residCntSem (cnt : Nat) : EachSem := fun c s =>
  let va := c.vals.a
  c.done (match s.hintCheck c.g.core c.tm.pasid va false with
    | .error r => s.dropHint c.tm.pasid va r false
    | .ok l =>
      match s.placeOf l va with
      | .pool page _ =>
        (match s.frameOf (s.partOf c.tm.pasid) page with
         | some (f, _) => { s with frames := Tab.adjust s.frames f fun e => { e with cnt := cnt } }
         | none => s)
      | _ => s)

/-- The meaning of RESID.keep. -/
def execResidKeep (pf : Pfx) (a : BitVec 8) (s : State) : Host.Outcome State Fault Refusal :=
  runEachOf (.residKeep pf a) (residCntSem 255) s

/-- The meaning of RESID.evict. -/
def execResidEvict (pf : Pfx) (a : BitVec 8) (s : State) : Host.Outcome State Fault Refusal :=
  runEachOf (.residEvict pf a) (residCntSem 0) s

end Sys2Proof.Machine
end

