-- ==== Sys2Proof/Machine/Tiles.lean ====
section
/-! DEFINITION. The tile instructions and the tile loads (R211, R225 to R232). -/

namespace Sys2Proof.Machine

/-- Is a tile number one of the kernel's, and defined (R225)? -/
def Team.tileOk (t : Team) (mc n : Nat) : Bool := decide (n < t.kern.tiles) && (t.tile mc n).defd

/-! ### LD.c (R211) -/

/-- What LD.c asks for: an address in the scratchpad window. -/
def ldcPlan (x : LIn) (n tile : Nat) : Plan :=
  { weakPlan x.a n n 0x01 0 (.ldc n tile) with dst := Enc.regs n, isLoad := true, inUser := false }

/-- Does the order of a thread's accesses let it consume a tile now: after its acquires and releases, and its own accesses to
the tile's bytes (R229, R324 to R328)? -/
def One.mayConsume (c : One) (mc : Nat) (e : Tile) (s : State) : Bool :=
  s.fencesHold c.r [c.tid] && !s.touching c.r [c.tid] mc (64 * e.base) (64 * e.len)

/-- LD.c in one thread: while the tile is READY it consumes the tile once, and its read is admitted (R211, R287). -/
def ldcSem (n tile : Nat) : EachSem := fun c s =>
  let p := ldcPlan c.vals n tile
  match p.window c.tm with
  | some (.scratch mc off) =>
    if p.va % n ≠ 0 then c.fault 0x05 0x01 p.va s
    else
      let e := c.tm.tile c.mc tile
      if !c.tm.tileOk c.mc tile || mc != c.mc || decide (off < 64 * e.base)
          || decide (64 * (e.base + e.len) < off + n) then c.fault 0x0C 0x01 p.va s
      else if e.st = .ready ∧ c.mayConsume mc e s then
        let s := s.updTile c.tm.grid c.tm.team mc tile fun e => { e.consume with rds := e.rds + 1 }
        let s := s.addAcc (p.acc c.tm c.g [c.tid] c.t (destOf c.o.d p.dst) none none)
        c.done (s.updThread c.ref fun t => t.markEmpty (c.o.d.lanes c.x.sp.d.wr))
      else
        match c.t.engineDue (some tile) none with
        | some k => s.deliverDeferred c.ref k
        | none => c.park .tile s
  | _ => c.fault 0x06 0x01 p.va s

/-- An issue waits while the table lacks an entry for every thread of G (R206). -/
def State.runEachMem (s : State) (i : Instr) (sem : EachSem) : State :=
  match s.group? s.cur.g with
  | none => s
  | some (_, g) =>
    if 1024 < s.otUsed g.core + (decOf i).takers (g.active s.cur.set) then s else s.runEach i sem

/-- The meaning of LD.c. -/
def execLdC (pf : Pfx) (d a t : BitVec 8) (s : State) : Host.Outcome State Fault Refusal :=
  .next (s.runEachMem (.ldC pf d a t) (ldcSem 4 t.toNat))

/-- The meaning of LD.c.b128. -/
def execLdCB128 (pf : Pfx) (d a t : BitVec 8) (s : State) : Host.Outcome State Fault Refusal :=
  .next (s.runEachMem (.ldCB128 pf d a t) (ldcSem 16 t.toNat))

/-! ### TDEF and TARM (R226, R227) -/

/-- The descriptor's fields into an entry; the phase is kept (R226, R287). -/
def Tile.define (e : Tile) (v owner : Nat) : Tile :=
  { e with
    defd := true, fmt := fld v 43 40, span := fld v 34 32, len := fld v 29 16, base := fld v 13 0, owner := owner }

/-- TDEF, once per issue (R226). -/
def tdefSem (n : Nat) : OnceSem := fun c s =>
  let v := c.vals.a
  let e := c.tm.tile c.mc n
  if c.tm.kern.tiles ≤ n ∨ e.st ≠ .empty ∨ fld v 29 16 = 0 ∨ c.tm.partBytes < 64 * (fld v 13 0 + fld v 29 16) then
    c.fault 0x0C 0x00 0 s
  else c.done (s.updTile c.tm.grid c.tm.team c.mc n fun e => e.define v c.g.gid)

/-- The meaning of TDEF. -/
def execTdef (pf : Pfx) (t a : BitVec 8) (s : State) : Host.Outcome State Fault Refusal :=
  runOnceOf (.tdef pf t a) (tdefSem t.toNat) s

/-- The checks of arming a tile by an instruction (R227, R252): may it be armed now (true), is it to be waited for
(false), or does it raise 0x0C (none)? -/
def Team.armCheck (t : Team) (mc n gid exp cons : Nat) : Option Bool :=
  let e := t.tile mc n
  if !t.tileOk mc n || e.owner != gid || exp == 0 || decide (e.len < exp) || cons == 0 || decide (65535 < cons) then none
  else
    match e.st with
    | .empty => some true
    | .filling => none
    | _ => some false

/-- A set that waits at a tile without parking: a due engine fault of a thread of G takes the place of its wait (R357). -/
def Once.waitTile (c : Once) (n : Nat) (s : State) : State :=
  c.gset.foldl (fun s p =>
    match p.2.engineDue (some n) none with
    | some k => s.deliverDeferred ⟨c.r, p.1⟩ k
    | none => s) s

/-- TARM, once per issue (R227). -/
def tarmSem (n : Nat) : OnceSem := fun c s =>
  match c.tm.armCheck c.mc n c.g.gid c.vals.a c.vals.b with
  | none => c.fault 0x0C 0x00 0 s
  | some true => c.done (s.armTile c.tm.grid c.tm.team c.mc n c.vals.a c.vals.b false)
  | some false => c.waitTile n s

/-- The meaning of TARM. -/
def execTarm (pf : Pfx) (t a b : BitVec 8) (s : State) : Host.Outcome State Fault Refusal :=
  runOnceOf (.tarm pf t a b) (tarmSem t.toNat) s

/-! ### TWAIT, TCONS and TSTAT (R228 to R230) -/

/-- TWAIT in one thread (R228), after its acquires (R324 to R327). -/
def twaitSem (n : Nat) : EachSem := fun c s =>
  if !c.tm.tileOk c.mc n then c.fault 0x0C 0x00 0 s
  else if (c.tm.tile c.mc n).passed (c.vals.a % 16) && s.acqsDone c.r [c.tid] then c.done s
  else
    match c.t.engineDue (some n) none with
    | some k => s.deliverDeferred c.ref k
    | none => c.park .tile s

/-- The meaning of TWAIT. -/
def execTwait (pf : Pfx) (t a : BitVec 8) (s : State) : Host.Outcome State Fault Refusal :=
  runEachOf (.twait pf t a) (twaitSem t.toNat) s

/-- TCONS in one thread (R229). -/
def tconsSem (n : Nat) : EachSem := fun c s =>
  let e := c.tm.tile c.mc n
  if !c.tm.tileOk c.mc n then c.fault 0x0C 0x00 0 s
  else if e.st = .ready ∧ c.mayConsume c.mc e s then
    c.done (s.updTile c.tm.grid c.tm.team c.mc n Tile.consume)
  else
    match c.t.engineDue (some n) none with
    | some k => s.deliverDeferred c.ref k
    | none => c.park .tile s

/-- The meaning of TCONS. -/
def execTcons (pf : Pfx) (t : BitVec 8) (s : State) : Host.Outcome State Fault Refusal :=
  runEachOf (.tcons pf t) (tconsSem t.toNat) s

/-- The number of a state (R230, R286). -/
def TileState.code : TileState → Nat
  | .empty => 0
  | .filling => 1
  | .ready => 2
  | .draining => 3

/-- The snapshot of TSTAT (R230). -/
def Team.tileStat (t : Team) (mc n : Nat) : Nat :=
  let e := t.tile mc n
  let held := t.heldArr.any fun a => a.mc == mc && a.tile == n
  e.st.code + e.ph * 2 ^ 4 + ofB held * 2 ^ 8 + e.cons * 2 ^ 16 + e.abytes / 64 * 2 ^ 32 + e.exp * 2 ^ 48

/-- TSTAT in one thread (R230). -/
def tstatSem (n : Nat) : EachSem := fun c s =>
  if !c.tm.tileOk c.mc n then c.fault 0x0C 0x00 0 s
  else c.write (wordsAt c.dreg 2 (c.tm.tileStat c.mc n)) s

/-- The meaning of TSTAT. -/
def execTstat (pf : Pfx) (d t : BitVec 8) (s : State) : Host.Outcome State Fault Refusal :=
  runEachOf (.tstat pf d t) (tstatSem t.toNat) s

end Sys2Proof.Machine
end

