-- ==== Sys2Proof/Machine/Sync.lean ====
section
/-! DEFINITION. Fences (R219, R220, R329), team barriers (R233), transaction barriers (R234 to R236) and join counters
(R237). -/

namespace Sys2Proof.Machine

/-! ### Fences -/

/-- The accesses of a thread that are outstanding. -/
def State.accsOf (s : State) (t : TRef) : List Acc := s.accs.filter fun a => decide (a.t.g = t.g) && a.set.contains t.tid

/-- Does the release part of a fence hold for a thread (R219, R319, R332, R402): after its accesses and its acquires (R324)? -/
def State.fenceReleased (s : State) (core : Nat) (t : TRef) (th : Thread) (scope : Nat) : Bool :=
  (s.accsOf t).all (fun a => match a.op with | .clock _ | .resid => true | _ => false)
  && s.releaseCovers core th scope && (scope != 4 || s.storesBack th)

/-- Does a request wait on a frozen stream (R333)? -/
def State.onFrozen (s : State) (a : Acc) : Bool :=
  (s.remoteOf a).isSome && s.accs.any fun b =>
    b.st == .frozen && decide (b.id ≤ a.id) && decide (b.t.g = a.t.g) && b.stream == a.stream

/-- Does the acquire part of a fence hold (R219, R319, R324): after the thread's loads, read-modify-writes and acquires, and its
requests on frozen streams (R333)? -/
def State.fenceAcquired (s : State) (core : Nat) (t : TRef) (th : Thread) (scope : Nat) : Bool :=
  s.readsDone t.g [t.tid] && (s.accsOf t).all (fun a => !s.onFrozen a) && s.acquireCovers core scope th

/-- The largest vector that a full fence of a scope must cover (R329). -/
def CmdProc.fenceVec (c : CmdProc) (scope : Nat) : VClk :=
  if scope = 4 then c.fenceDev.join c.fenceSys else if scope = 3 then c.fenceDev else .zero

/-- A full fence reports its die's vector (R329). -/
def CmdProc.report (c : CmdProc) (scope : Nat) (v : VClk) : CmdProc :=
  if scope = 4 then { c with fenceDev := c.fenceDev.join v, fenceSys := c.fenceSys.join v }
  else if scope = 3 then { c with fenceDev := c.fenceDev.join v }
  else c

/-- The oldest deferred fault of a thread that is due at a fence: a store's or an engine's at a release or full one (R357),
Fabric Stream (0x14) at any (R333, assumption log 63). -/
def Thread.fenceDue (t : Thread) (kind : Nat) : Option Nat :=
  t.defd.findIdx? fun d => d.rcd.code == 0x14 || (kind != 0 && match d.kind with | .load _ _ => false | _ => true)

/-- FENCE in one thread (R219, R220): kind 0 acquire, 1 release, 2 full. -/
def fenceSem (kind scope : Nat) : EachSem := fun c s =>
  match c.t.fenceDue kind with
  | some n => s.deliverDeferred c.ref n
  | none =>
    let core := c.g.core
    let rel := kind == 0 || s.fenceReleased core c.ref c.t scope
    let acq := kind == 1 || s.fenceAcquired core c.ref c.t scope
    if !(rel && acq) then c.park .fence s
    else if kind ≠ 2 then c.done (if kind = 0 then s.acquired core scope else s)
    else
      let v := (s.die (dieOfCore core)).v
      let (goal, s) := match c.t.fenceV with
        | some g => (g, s)
        | none => (s.cp.fenceVec scope, { s with cp := s.cp.report scope v })
      if v.covers goal then c.done ((s.acquired core scope).updThread c.ref fun t => { t with fenceV := none })
      else c.park .fence (s.updThread c.ref fun t => { t with fenceV := some goal })

/-- The meaning of FENCE. -/
def execFence (pf : Pfx) (k : BitVec 2) (sc : BitVec 3) (s : State) : Host.Outcome State Fault Refusal :=
  runEachOf (.fence pf k sc) (fenceSem k.toNat sc.toNat) s

/-! ### Team barriers -/

/-- Has a group arrived at a barrier (R233)? An exited thread counts as arrived. -/
def Group.hasArrived (g : Group) (k : Nat) : Bool :=
  (Tab.listed g.threads).all fun p => !p.2.live || p.2.arrived.contains k

/-- A thread when barrier k completes: one that waits there goes on, one at a second BAR looks again. -/
def Thread.barDone (k : Nat) (t : Thread) : Thread :=
  let t := { t with arrived := delNat k t.arrived }
  if t.st = .barred k then { t with st := .ready, popped := some 0#32 }
  else if t.st = .parked .bar then { t with st := .ready }
  else t

/-- Complete barrier k of a team, when every group has arrived or exited and some thread has (R233). -/
def Team.barCheck (t : Team) (k : Nat) : Team :=
  let l := Tab.listed t.groups
  let one := l.any fun g => (Tab.listed g.2.threads).any fun p => p.2.arrived.contains k
  if one && l.all (fun g => g.2.hasArrived k) then
    { t with groups := Tab.mapV t.groups fun g => { g with threads := Tab.mapV g.threads (Thread.barDone k) } }
  else t

/-- Complete every barrier of a team that can complete. -/
def State.barCheckAll (s : State) (g tm : Nat) : State := s.updTeam g tm fun t => (span 0 16).foldl Team.barCheck t

/-- BAR in one thread (R233). -/
def barSem (nofence arrive : Bool) (k : Nat) : EachSem := fun c s =>
  let core := c.g.core
  if c.t.popped.isSome then c.done (if nofence then s else s.acquired core 2)
  else if c.t.arrived.contains k then c.park .bar s
  else if !nofence && !s.fenceReleased core c.ref c.t 2 then c.park .fence s
  else
    let s := s.updThread c.ref fun t => { t with arrived := insNat k t.arrived, st := if arrive then t.st else .barred k }
    let s := if arrive then c.done s else s
    s.barCheckAll c.tm.grid c.tm.team

/-- The meaning of BAR. -/
def execBar (pf : Pfx) (u v : BitVec 1) (k : BitVec 4) (s : State) : Host.Outcome State Fault Refusal :=
  runEachOf (.bar pf u v k) (barSem (u == 1#1) (v == 1#1) k.toNat) s

/-! ### Transaction barriers -/

/-- What an operation on a barrier asks for (R234, R235). -/
def tbPlan (x : LIn) (op : AccOp) : Plan :=
  { weakPlan x.a 16 16 0x05 0 op with strong := true, inUser := false }

/-- TBINIT in one thread (R235). -/
def tbinitSem : MemSem := fun x => tbPlan x (.tbinit (x.d % 2 ^ 24))

/-- The meaning of TBINIT. -/
def execTbinit (pf : Pfx) (d a : BitVec 8) (s : State) : Host.Outcome State Fault Refusal :=
  runMemOf (.tbinit pf d a) tbinitSem s

/-- TBEXP in one thread (R235). -/
def tbexpSem : MemSem := fun x => tbPlan x (.tbexp x.d)

/-- The meaning of TBEXP. -/
def execTbexp (pf : Pfx) (d a : BitVec 8) (s : State) : Host.Outcome State Fault Refusal :=
  runMemOf (.tbexp pf d a) tbexpSem s

/-- The TBARRs on a barrier of a team that have issued and have not been performed. -/
def State.tbarrsOut (s : State) (tm : Team) (va : Nat) : Nat :=
  (s.accs.filter fun a => decide (a.op = .tbarr) && a.t.g.grid == tm.grid && a.t.g.team == tm.team && a.va == va).length

/-- TBARR in one thread: a release at team scope; while the phase has no arrival left for it, those that have issued before it
counted (assumption log 64), the thread parks (R235). -/
def tbarrSem : EachSem := fun c s =>
  let p := { tbPlan c.vals .tbarr with dst := 1, rel := true, scope := 2 }
  match s.planCheck c.g.core c.tm p with
  | .error m => c.fail 0x05 m s
  | .ok (.scratch mc off, _, _) =>
    let x := c.tm.tbObj mc off
    if fld x 95 64 ≠ 0 ∧ fld x 31 8 ≤ s.tbarrsOut c.tm p.va then
      (match c.t.engineDue none (some (mc, off)) with
       | some k => s.deliverDeferred c.ref k
       | none => c.park .tbar s)
    else
      let s := s.addAcc (p.acc c.tm c.g [c.tid] c.t (destOf c.o.d 1) none none)
      c.done (s.updThread c.ref fun t => t.markEmpty (c.o.d.lanes c.x.sp.d.wr))
  | _ => c.fail 0x05 (.plain 0x06 p.va) s

/-- The meaning of TBARR. -/
def execTbarr (pf : Pfx) (d a : BitVec 8) (s : State) : Host.Outcome State Fault Refusal :=
  .next (s.runEachMem (.tbarr pf d a) tbarrSem)

/-- TBWAIT in one thread: parks until the phase has changed, then pN = DET and an acquire at team scope (R236), after the
thread's loads, read-modify-writes and acquires (R324); what the jobs counted have written then counts as met (R330). -/
def tbwaitSem (pn : Nat) : EachSem := fun c s =>
  let v := c.vals
  match s.planCheck c.g.core c.tm (tbPlan v .tbarr) with
  | .error m => c.fail 0x05 m s
  | .ok (.scratch mc off, _, _) =>
    let x := c.tm.tbObj mc off
    if fld x 3 0 ≠ v.d % 16 ∧ ¬ s.touching c.r [c.tid] mc off 16 ∧ s.readsDone c.r [c.tid] then
      let jobs := Tab.getD c.tm.landed .zero (2 ^ 20 * mc + off)
      c.done ((s.acquired c.g.core 2).updThread c.ref fun t => { t.setPred pn (bitN x 4) with wrote := t.wrote.join jobs })
    else
      (match c.t.engineDue none (some (mc, off)) with
       | some k => s.deliverDeferred c.ref k
       | none => c.park .tbar s)
  | _ => c.fail 0x05 (.plain 0x06 v.a) s

/-- The meaning of TBWAIT. -/
def execTbwait (pf : Pfx) (d a : BitVec 8) (p : BitVec 3) (s : State) : Host.Outcome State Fault Refusal :=
  .next (s.runEachMem (.tbwait pf d a p) (tbwaitSem p.toNat))

/-! ### Join counters -/

/-- The load a CTRWAIT makes (R237): strong, 8 bytes, at the scope. -/
def ctrPlan (va target scope : Nat) : Plan :=
  { weakPlan va 8 8 0x03 0 (.ctr target) with strong := true, scope := scope, need := ⟨true, false, false⟩ }

/-- One load of the counter by a thread (R237). It is performed at once where it may be; a fault is raised in the thread. -/
def State.ctrLoad (s : State) (tm : Team) (g : Group) (t : TRef) (th : Thread) (va target scope : Nat) : State :=
  let p := ctrPlan va target scope
  match s.planCheck g.core tm p with
  | .error m => (s.updThread t fun th => { th with st := .ready }).raiseMem t 0x03 m
  | .ok (_, l, _) =>
    let a := { p.acc tm g [t.tid] th none l none with id := s.accNext, t := t }
    let s := s.addAcc a
    match (if s.accReady a then s.accFault a else none) with
    | some m => s.deferAt a m.f m.va
    | none => s.performAcc a false

/-- CTRWAIT in a thread whose counter has reached its target: an acquire at the scope (R237), after the thread's loads,
read-modify-writes and acquires (R324). -/
def One.ctrDone (c : One) (scope : Nat) (s : State) : State :=
  match s.thread? c.ref with
  | none => s
  | some (_, _, th) =>
    if s.readsDone c.r [c.tid] && s.acquireCovers c.g.core scope th then c.done (s.acquired c.g.core scope)
    else c.park .fence s

/-- CTRWAIT in one thread (R237): parks until a load answers at least T. -/
def ctrwaitSem (scope : Nat) (yields : Bool) : EachSem := fun c s =>
  let v := c.vals
  if c.t.popped.isSome then c.ctrDone scope s
  else
    let s := (c.park (.ctr v.a v.d scope (s.core c.g.core).clk yields) s).ctrLoad c.tm c.g c.ref c.t v.a v.d scope
    match s.thread? c.ref with
    | some (_, _, th) => if th.popped.isSome then c.ctrDone scope s else s
    | none => s

/-- The meaning of CTRWAIT. -/
def execCtrwait (pf : Pfx) (d a : BitVec 8) (sc : BitVec 3) (s : State) : Host.Outcome State Fault Refusal :=
  .next (s.runEachMem (.ctrwait pf d a sc) (ctrwaitSem sc.toNat false))

/-- The meaning of CTRWAIT.yield. -/
def execCtrwaitYield (pf : Pfx) (d a : BitVec 8) (sc : BitVec 3) (s : State) : Host.Outcome State Fault Refusal :=
  .next (s.runEachMem (.ctrwaitYield pf d a sc) (ctrwaitSem sc.toNat true))

/-- Has a thread a load of its counter outstanding? -/
def State.ctrOut (s : State) (t : TRef) : Bool := (s.accsOf t).any fun a => match a.op with | .ctr _ => true | _ => false

/-- CTRWAIT_POLL (R237): the load again for a thread that waits, once the one before has answered and the table has an entry
(R206). -/
def State.ctrPoll (s : State) (t : TRef) : State :=
  match s.thread? t with
  | some (tm, g, th) =>
    (match th.st with
     | .parked (.ctr va target scope _ _) =>
       if !tm.issues || s.ctrOut t || decide (1024 ≤ s.otUsed g.core) then s else s.ctrLoad tm g t th va target scope
     | _ => s)
  | none => s

/-- CTRWAIT_POLL. -/
def execEvCtrwaitPoll (g t i tid : Nat) (s : State) : Host.Outcome State Fault Refusal :=
  .next (s.ctrPoll ⟨⟨g, t, i⟩, tid⟩)

end Sys2Proof.Machine
end

