-- ==== Sys2Proof/Machine/Cistern.lean ====
section
/-! DEFINITION. The cistern and the matrix array (R239, R242, R243, R247 to R249, R300, R301): records, operand bricks,
accumulators, layouts and the sums of R87 and R88. -/

namespace Sys2Proof.Machine

/-! ### Records -/

/-- L: the scale block length of BLK (R239). -/
def Rec.blkLen (r : Rec) : Nat := match r.blk with | 0 => 48 | 1 => 16 | 2 => 32 | _ => 64

/-- Is the element format block-scaled (R72, R243)? -/
def Rec.scaled (r : Rec) : Bool := decide (4 ≤ r.efmt) && decide (r.efmt < 8)

/-- Has the record an accumulator (R240)? -/
def Rec.hasAcc (r : Rec) : Bool := decide (15 ≤ r.ngr)

/-- Slots of the record's range (R239). -/
def Rec.slots (r : Rec) : Nat := 2 * (r.ngr + 1)

/-- Bits of an element. -/
def Rec.bits (r : Rec) : Nat := match r.efmt with | 1 | 2 => 16 | 6 => 4 | _ => 8

/-- K of the element format (R242, R248). -/
def Rec.kLen (r : Rec) : Nat := match r.efmt with | 1 | 2 => 48 | 6 => 192 | _ => 96

/-- The value of an element's code. -/
def Rec.value (r : Rec) (code : Nat) : FVal := decodeF (fmtOf r.efmt) code

/-- A reservation descriptor's record for a team (R239); none when it breaks a limit. -/
def recOf (tm : Team) (v : Nat) : Option Rec :=
  let e := fld v 19 16
  if fld v 23 22 = 3 ∨ ¬ ([1, 2, 4, 5, 6, 7, 8].contains e) ∨ 63 < fld v 5 0 + fld v 13 8 then none
  else some { grid := tm.grid, team := tm.team, afmt := fld v 23 22, blk := fld v 21 20, efmt := e, ngr := fld v 13 8,
              base := fld v 5 0, clip := 0, under := 0 }

/-- Do two records' granules overlap? -/
def Rec.overlaps (a b : Rec) : Bool := rangesMeet a.base (a.ngr + 1) b.base (b.ngr + 1)

/-- A record of a team that is reserved, and of which no MREL is pending: later instructions of the team find it free at once,
while MRES finds it reserved until the release (R241; assumption log 66). -/
def Core.rec? (c : Core) (tm : Team) (n : Nat) : Option Rec :=
  match Tab.find? c.recs n with
  | some r =>
    if r.grid = tm.grid ∧ r.team = tm.team ∧ ¬ (c.seq.any fun o => match o.kind with | .mrel _ _ => o.c == n | _ => false)
    then some r else none
  | none => none

/-! ### Bricks and accumulators -/

/-- A brick after MRES (R240). -/
def Brick.fresh : Brick := ⟨[], [], none⟩

/-- The brick of a slot of the core. -/
def Core.brick (c : Core) (slot : Nat) : Brick := Tab.getD c.bricks .fresh slot

/-- A code of a brick. -/
def Brick.code (b : Brick) (i : Nat) : Nat :=
  match Tab.find? b.codes i, b.junk with
  | some x, _ => x
  | none, none => 0
  | none, some k => (Config.freeWord (k * 16384 + i)).toNat

/-- A scale byte of a brick. -/
def Brick.scale (b : Brick) (i : Nat) : Nat :=
  match Tab.find? b.scales i, b.junk with
  | some x, _ => x
  | none, none => 0x7F
  | none, some k => (Config.freeWord (k * 16384 + 8192 + i)).toNat % 256

/-- A word of an accumulator. -/
def Accum.word (a : Accum) (i : Nat) : Word :=
  match Tab.find? a.words i, a.junk with
  | some x, _ => x
  | none, none => 0#32
  | none, some k => Config.freeWord (k * 16384 + i)

/-- The accumulator of a record. -/
def Core.accum (c : Core) (n : Nat) : Accum := Tab.getD c.accs ⟨[], none⟩ n

/-- The accumulator of a record is written: the bricks that lie in its granules have free contents (assumption log 11). -/
def Core.setAccum (c : Core) (n : Nat) (r : Rec) (a : Accum) (seed : Nat) : Core :=
  { c with
    accs := Tab.set c.accs n a
    bricks := (span (2 * r.base) 32).foldl (fun m k => Tab.set m k ⟨[], [], some seed⟩) c.bricks }

/-- A brick of a record is written; in an accumulator's granules it leaves free contents there (assumption log 11). -/
def Core.setBrick (c : Core) (n : Nat) (r : Rec) (slot : Nat) (b : Brick) (seed : Nat) : Core :=
  { c with
    bricks := Tab.set c.bricks (2 * r.base + slot) b
    accs := if r.hasAcc && decide (slot < 32) then Tab.set c.accs n ⟨[], some seed⟩ else c.accs }

/-- A free value's number. -/
def State.seed (s : State) : Nat × State := (s.free, { s with free := s.free + 1 })

/-! ### Layouts (R243) -/

/-- A layout pair's fields (R243). -/
structure Layout where
  soff : Nat
  nk : Nat
  nr : Nat
  slot : Nat
  pitch : Nat
  swz : Nat
deriving DecidableEq, Repr

/-- The layout of a register pair. -/
def layoutOf (v : Nat) : Layout := ⟨fld v 47 32, fld v 31 28, fld v 27 24, fld v 22 16, fld v 15 8, fld v 2 0⟩

/-- Blocks of one row of the layout's operand. -/
def Layout.rowBlocks (l : Layout) (r : Rec) : Nat := 48 * (l.nk + 1) / r.blkLen

/-- The source offset, in bits, of an element (R243). -/
def Layout.elemBit (l : Layout) (r : Rec) (row k : Nat) : Nat := row * 128 * l.pitch + k * r.bits

/-- The source offset of a scale byte (R243). -/
def Layout.scaleAt (l : Layout) (r : Rec) (row j : Nat) : Nat := 16 * l.soff + row * l.rowBlocks r + j

/-- The rows of the operand. -/
def Layout.rows (l : Layout) : Nat := 16 * (l.nr + 1)

/-- The first source byte after the operand and its scales. -/
def Layout.limit (l : Layout) (r : Rec) : Nat :=
  let e := ceilDiv (l.elemBit r (l.rows - 1) (48 * (l.nk + 1))) 8
  if r.scaled then max e (l.scaleAt r (l.rows - 1) (l.rowBlocks r)) else e

/-- The checks of a layout against its record: the fault code (R243). -/
def Layout.check (l : Layout) (r : Rec) : Option Nat :=
  if l.pitch = 0 ∨ (r.scaled ∧ 48 * (l.nk + 1) % r.blkLen ≠ 0) then some 0x12
  else if r.slots ≤ l.slot + 8 * l.nk + l.nr then some 0x13
  else none

/-- The index of the first scale block that begins in K-brick kk or later (R242). -/
def Rec.firstBlk (r : Rec) (kk : Nat) : Nat := ceilDiv (48 * kk) r.blkLen

/-- The brick (i, kk) of an operand, from reads of source bytes by offset, of the codes and of the scales (R242, R243). -/
def Layout.brick (l : Layout) (r : Rec) (src scl : Nat → Byte) (i kk : Nat) : Brick :=
  let codes := (span 0 16).flatMap fun row => (span 0 48).map fun k =>
    let bit := l.elemBit r (16 * i + row) (48 * kk + k)
    let raw := (src (bit / 8)).toNat / 2 ^ (bit % 8) + (src (bit / 8 + 1)).toNat * 256
    (48 * row + k, raw % 2 ^ r.bits)
  let j0 := r.firstBlk kk
  let nb := r.firstBlk (kk + 1) - j0
  let scales := if r.scaled then
      (span 0 16).flatMap fun row => (span 0 nb).map fun j => (3 * row + j, (scl (l.scaleAt r (16 * i + row) (j0 + j))).toNat)
    else []
  ⟨List.filter (fun p => p.2 != 0) codes, scales, none⟩

/-- Write every brick of a layout into a record (R243). -/
def Core.loadBricks (c : Core) (n : Nat) (r : Rec) (l : Layout) (src scl : Nat → Byte) (seed : Nat) : Core :=
  (span 0 (l.nk + 1)).foldl (fun c kk =>
    (span 0 (l.nr + 1)).foldl (fun c i => c.setBrick n r (l.slot + 8 * kk + i) (l.brick r src scl i kk) seed) c) c

/-! ### The sums of R87 and R88 -/

/-- An operand record with its core. -/
structure Operand where
  c : Core
  r : Rec

/-- The code of element (row, k) (R242). -/
def Operand.code (o : Operand) (row k : Nat) : Nat :=
  (o.c.brick (2 * o.r.base + 8 * (k / 48) + row / 16)).code (48 * (row % 16) + k % 48)

/-- The scale byte of block j of a row (R242). -/
def Operand.scale (o : Operand) (row j : Nat) : Nat :=
  let kk := j * o.r.blkLen / 48
  (o.c.brick (2 * o.r.base + 8 * kk + row / 16)).scale (3 * (row % 16) + (j - o.r.firstBlk kk))

/-- The exact sum of n products from element k0 on (R88). -/
def dotRange (a b : Operand) (m n k0 len : Nat) : FVal :=
  fsum 1 ((span k0 len).map fun k => (a.r.value (a.code m k)).mul (b.r.value (b.code n k)))

/-- A block or chunk from element k0 on is added to an FP32 accumulator (R87, R88). -/
def addFloat (a b : Operand) (m n : Nat) (acc k0 : Nat) : Nat :=
  let s :=
    if a.r.scaled then
      let j := k0 / a.r.blkLen
      let sa := a.scale m j
      let sb := b.scale n j
      if sa = 0xFF ∨ sb = 0xFF then FVal.nan
      else (dotRange a b m n k0 a.r.blkLen).scale ((sa : Int) - 127 + ((sb : Int) - 127))
    else dotRange a b m n k0 16
  toF32 (fsum 1 [decodeF .f32 acc, s])

/-- A chunk of 16 from element k0 on is added to an INT32 accumulator, wrapping or saturating (R87). -/
def addInt (a b : Operand) (sat : Bool) (m n : Nat) (acc k0 : Nat) : Nat :=
  let s := (span k0 16).foldl (fun z k => z + sx 8 (a.code m k) * sx 8 (b.code n k)) (sx 32 acc)
  if sat then wrapI 32 (max (-2147483648) (min s 2147483647)) else wrapI 32 s

/-- Elements that one addition takes (R87). -/
def Rec.unit (r : Rec) : Nat := if r.scaled then r.blkLen else 16

/-- One accumulator word after the additions of elements k0 to k1 (R87). -/
def cellSum (a b : Operand) (afmt m n k0 k1 acc : Nat) : Nat :=
  let u := a.r.unit
  (span (k0 / u) (k1 / u - k0 / u)).foldl (fun z i =>
    if afmt = 0 then addFloat a b m n z (u * i) else addInt a b (afmt == 2) m n z (u * i)) acc

/-- The accumulator after the additions of elements k0 to k1 (R249). -/
def accumSum (a b : Operand) (afmt k0 k1 : Nat) (x : Accum) : Accum :=
  ⟨List.filter (fun p => p.2 != 0#32) ((span 0 16384).map fun i =>
    (i, BitVec.ofNat 32 (cellSum a b afmt (i / 128) (i % 128) k0 k1 (x.word i).toNat))), none⟩

/-! ### Checks of MMA (R248) -/

/-- Do the formats of A, B and C match (R248)? -/
def mmaFormats (a b c : Rec) : Bool :=
  let eight := fun (x : Nat) => x == 4 || x == 5 || x == 7
  (!a.scaled || !b.scaled || a.blkLen == b.blkLen) &&
  ((eight a.efmt && eight b.efmt && a.blkLen != 64 && c.afmt == 0)
   || (a.efmt == 6 && b.efmt == 6 && c.afmt == 0)
   || (a.efmt == b.efmt && (a.efmt == 1 || a.efmt == 2) && c.afmt == 0)
   || (a.efmt == 8 && b.efmt == 8 && (c.afmt == 1 || c.afmt == 2)))

/-- The checks of MMA on one core, in order (R248): the fault code. -/
def Core.mmaCheck (core : Core) (tm : Team) (c a b : Nat) : Option Nat :=
  match core.rec? tm c, core.rec? tm a, core.rec? tm b with
  | some rc, some ra, some rb =>
    let need := 4 * (ra.kLen / 48)
    if !mmaFormats ra rb rc then some 0x12
    else if ra.ngr + 1 < need ∨ rb.ngr + 1 < need ∨ ¬ rc.hasAcc then some 0x13
    else if rc.overlaps ra || rc.overlaps rb then some 0x13
    else none
  | _, _, _ => some 0x13

/-! ### Operations that complete -/

/-- Threads of a core that wait for pins look again (R245). -/
def State.wakePins (s : State) (core : Nat) : State :=
  { s with teams := s.teams.map fun t =>
      { t with groups := Tab.mapV t.groups fun g => if g.core = core then g.wake Wait.onPins else g } }

/-- An operation leaves the matrix sequence; its group looks again (R92, R143). -/
def State.seqDone (s : State) (core : Nat) (o : MOp) : State :=
  (s.updCore core fun c => { c with seq := c.seq.filter fun x => x.id != o.id }).wakeRegs o.g

/-- The status word of R251. -/
def statusWord (o : MOp) (kind tile rcd : Nat) : Word :=
  BitVec.ofNat 32 (kind + 16 * rcd + 256 * tile + 65536 * (o.seqNo % 65536))

/-- A status word is pushed to q0 of the issuing group (R251). -/
def State.pushStatus (s : State) (o : MOp) (kind tile rcd : Nat) : State :=
  (s.updGroup o.g fun g => { g with q0out := g.q0out - 1 }).devPush o.g 0 (statusWord o kind tile rcd)

/-- A byte of a tile by its physical offset, as MLDT reads scales (R243). -/
def Team.tileRaw (t : Team) (mc tile o : Nat) : Byte :=
  Mem.read (Tab.getD t.scratch [] mc) (64 * (t.tile mc tile).base + o)

/-- A byte of a tile as MLDT reads codes: by its logical offset, through the swizzle (R244, R296). -/
def Team.tileByte (t : Team) (mc tile o : Nat) : Byte :=
  let e := t.tile mc tile
  t.tileRaw mc tile (swizzle e.span e.len o)

/-- The 64-byte sectors an MLDG's source occupies, by virtual sector number, rising. -/
def Layout.sectors (l : Layout) (r : Rec) (va : Nat) : List Nat :=
  let row := fun k =>
    let lo := (va + l.elemBit r k 0 / 8) / 64
    let hi := (va + (l.elemBit r k (48 * (l.nk + 1)) - 1) / 8) / 64
    span lo (hi + 1 - lo)
  let scales :=
    if r.scaled then
      let lo := (va + l.scaleAt r 0 0) / 64
      let hi := (va + l.scaleAt r (l.rows - 1) (l.rowBlocks r) - 1) / 64
      span lo (hi + 1 - lo)
    else []
  insNats ((span 0 l.rows).flatMap row ++ scales) []

/-- The 512-byte lines of a rising list of sectors. -/
def linesOf (secs : List Nat) : List Nat := insNats (secs.map (· / 8)) []

/-- A byte that a request of an MLDG has brought from another device's memory. -/
def State.farByte (s : State) (core key va : Nat) : Byte :=
  match List.find? (fun (u : UnitReq) => u.own == [3, core, key] && u.va == alignDown va 256) s.fab.units with
  | some u => (match u.answer with | some (_, bs) => bs.getD (va % 256) 0#8 | none => 0#8)
  | none => 0#8

/-- A byte of an MLDG's source, from the pinned lines (R245). -/
def State.lineByte (s : State) (core : Nat) (lines : List (Nat × Nat)) (va : Nat) : Byte :=
  match List.find? (fun l => l.1 == va / 512) lines with
  | some l => if 2 ^ 61 ≤ l.2 then s.farByte core (l.2 - 2 ^ 61) va else s.devByte (dieOfCore core) (l.2 * 512 + va % 512)
  | none => 0#8

/-- The physical sectors of this device's memory that an MLDG reads. -/
def MOp.sectors (o : MOp) (r : Rec) (va : Nat) : List Nat :=
  ((layoutOf o.layout).sectors r va).filterMap fun k =>
    match List.find? (fun l => l.1 == k / 8) o.lines with
    | some l => if 2 ^ 61 ≤ l.2 then none else some (l.2 * 8 + k % 8)
    | none => none

/-- May the weak loads of an MLDG's elements be performed: after the thread's earlier stores (R245), of bytes that its core's die
has and its thread may still meet (R316, R331)? -/
def State.mldgReady (s : State) (core : Nat) (o : MOp) (va : Nat) : Bool :=
  !(s.accs.any fun a => decide (a.t.g = o.g) && a.set.contains o.tid && decide (a.id < o.acc) && a.op.writes)
  && match Tab.find? (s.core core).recs o.c with
    | none => true
    | some r =>
      let ok := fun pa c => match s.thread? ⟨o.g, o.tid⟩ with | some (_, _, th) => th.mayMeet pa c | none => true
      (o.sectors r va).all fun k => (span (64 * k) 64).all fun pa =>
        match s.copyFor (dieOfCore core) pa with | some c => ok pa c | none => false

/-- The thread of an MLDG has met the bytes of its source (R330, R331). -/
def State.mldgMeets (s : State) (core : Nat) (o : MOp) (r : Rec) (va : Nat) : State :=
  (o.sectors r va).foldl (fun s k =>
    match (span (64 * k) 64).mapM (s.copyFor (dieOfCore core)) with
    | some cs => s.updThread ⟨o.g, o.tid⟩ fun t => { t.meet (64 * k) cs with seen := t.seen.join (stampsOf cs) }
    | none => s) s

/-- The bricks of an MLDG are filled (R245). -/
def State.fillMldg (s : State) (core : Nat) (o : MOp) (va : Nat) : State :=
  match Tab.find? (s.core core).recs o.c with
  | some r =>
    let (k, s') := s.seed
    let src := fun x => s.lineByte core o.lines (va + x)
    let s' := s'.updCore core fun c => c.loadBricks o.c r (layoutOf o.layout) src src k
    (s'.mldgMeets core o r va).seqDone core o
  | none => s.seqDone core o

/-- MMA's additions on one core for elements k0 to k1; B is read on core `bc` (R249, R250). -/
def State.mmaOn (s : State) (core bc : Nat) (o : MOp) (k0 k1 : Nat) : State :=
  let c := s.core core
  let d := s.core bc
  match Tab.find? c.recs o.c, Tab.find? c.recs o.a, Tab.find? d.recs o.b with
  | some rc, some ra, some rb =>
    let (k, s) := s.seed
    s.updCore core fun x => x.setAccum o.c rc (accumSum ⟨c, ra⟩ ⟨d, rb⟩ rc.afmt k0 k1 (c.accum o.c)) k
  | _, _, _ => s

/-- K of an operation, from its A record. -/
def State.opK (s : State) (core : Nat) (o : MOp) : Nat :=
  match Tab.find? (s.core core).recs o.a with | some r => r.kLen | none => 0

/-- Bytes of an element that MSTT stores, doubled (R252). -/
def msttHalf (fmt : Nat) : Nat := match fmt with | 0 => 8 | 1 | 2 => 4 | 6 => 1 | _ => 2

/-- E of MSTT: the sectors of 128 × 128 elements (R252). -/
def msttSectors (fmt : Nat) : Nat := 16384 * msttHalf fmt / 128

/-- One element that MSTT converts: its code, the generator and its class (R252). -/
def msttCode (int32 : Bool) (fmt sc satc scl rnd : Nat) (w rs : Word) : Nat × Word × FClass :=
  if int32 then (w.toNat, rs, .ordinary)
  else
    let narrow := decide (4 ≤ fmt)
    let v := decodeF .f32 w.toNat
    let v := if narrow then (if sc = 0xFF then .nan else v.scale (127 - (sc : Int))) else v
    convF (fmtOf fmt) rnd satc (sx 4 scl) v rs

/-- The codes of an accumulator in order, with the counts of the classes (R252). -/
def msttCodes (int32 : Bool) (fmt sc satc scl rnd : Nat) (x : Accum) : List Nat → Word → List Nat × Nat × Nat
  | [], _ => ([], 0, 0)
  | i :: t, rs =>
    let r := msttCode int32 fmt sc satc scl rnd (x.word i) rs
    let (l, u, k) := msttCodes int32 fmt sc satc scl rnd x t r.2.1
    let narrow := decide (4 ≤ fmt) && !int32
    (r.1 :: l, u + ofB (narrow && r.2.2 == .underflow), k + ofB (narrow && r.2.2 == .clip))

/-- Codes packed into bytes (R63): two codes of four bits a byte, the low nibble first, or whole bytes. -/
def packCodes (half : Nat) : List Nat → List Byte
  | [] => []
  | [x] => if half = 1 then [BitVec.ofNat 8 (x % 16)] else toLE (half / 2) x
  | x :: y :: t =>
    if half = 1 then BitVec.ofNat 8 (x % 16 + 16 * (y % 16)) :: packCodes half t
    else toLE (half / 2) x ++ toLE (half / 2) y ++ packCodes half t

/-- MSTT's deposits: every element lands, and the tile goes READY (R252, R289). -/
def State.msttStore (s : State) (core : Nat) (o : MOp) (tile desc satc scl rnd : Nat) (rs : Word) : State :=
  let c := s.core core
  match Tab.find? c.recs o.a, s.team? o.g.grid o.g.team with
  | some r, some tm =>
    let fmt := fld desc 3 0
    let (codes, u, k) := msttCodes (r.afmt != 0) fmt (fld desc 15 8) satc scl rnd (c.accum o.a) (span 0 16384) rs
    let bs := packCodes (msttHalf fmt) codes
    let mc := tm.memberOf core
    let s := s.updCore core fun c => addCounts c o.a u k
    let s := s.updTeam tm.grid tm.team fun t =>
      { t with scratch := Tab.set t.scratch mc (placeBytes (Tab.getD t.scratch [] mc) (t.tile mc tile) true 0 bs) }
    s.updTile tm.grid tm.team mc tile fun e => { e with abytes := bs.length, st := .ready }
  | _, _ => s

/-- A record is released (R241): its pins are released, its counter word goes to the threads, its granules are free. -/
def State.freeRec (s : State) (core : Nat) (o : MOp) (dests : List Nat) (reg : Nat) : State :=
  let c := s.core core
  let s := (s.releasePins core fun p => p.rcd == o.c).wakePins core
  match Tab.find? c.recs o.c with
  | some r =>
    let s := dests.foldl (fun s tid => s.deliver ⟨o.g, tid⟩ (some ⟨false, reg, 1⟩) (r.under + 65536 * r.clip)) s
    s.updCore core fun c => { c with recs := Tab.del c.recs o.c, accs := Tab.del c.accs o.c }
  | none => s

/-- Pins of the records that an MMA reads, made by MLDGs before it in the sequence, are released when it retires (R245). -/
def State.mmaPins (s : State) (core : Nat) (rs : List Nat) (id : Nat) : State :=
  (s.releasePins core fun p => rs.contains p.rcd && !p.waits && decide (p.op < id)).wakePins core

/-- MATRIX_OP_COMPLETE: the first operation of a core's sequence is performed and completes (R247, R251). A follower's
half of a paired operation completes with its leader's. -/
def State.matrixStep (s : State) (core : Nat) : State :=
  match (s.core core).seq with
  | [] => s
  | o :: _ =>
    match o.kind with
    | .mldt tile _ =>
      (match Tab.find? (s.core core).recs o.c, s.team? o.g.grid o.g.team with
       | some r, some tm =>
         let mc := tm.memberOf core
         let (k, s) := s.seed
         let s := s.updCore core fun c => c.loadBricks o.c r (layoutOf o.layout) (tm.tileByte mc tile) (tm.tileRaw mc tile) k
         (s.updTile tm.grid tm.team mc tile fun e => { e with rds := e.rds - 1 }).seqDone core o
       | _, _ => s.seqDone core o)
    | .mldg va =>
      if s.mldgReady core o va then s.fillMldg core o va else s
    | .mzero =>
      (match Tab.find? (s.core core).recs o.c with
       | some r =>
         let (k, s) := s.seed
         (s.updCore core fun c => c.setAccum o.c r ⟨[], none⟩ k).seqDone core o
       | none => s.seqDone core o)
    | .mma =>
      let s := s.mmaOn core core o (48 * o.kblk) (s.opK core o)
      ((s.mmaPins core [o.a, o.b, o.c] o.id).seqDone core o).pushStatus o 0 0 o.c
    | .mmap true => s
    | .mmap false =>
      (match (s.core (core + 1)).seq with
       | f :: _ =>
         if f.kind = .mmap true ∧ f.g = o.g ∧ f.seqNo = o.seqNo then
           let s := s.mmaOn core core o (48 * o.kblk) (s.opK core o)
           let s := s.mmaOn (core + 1) core f (48 * f.kblk) (s.opK core o)
           let s := (s.mmaPins core [o.a, o.b, o.c] o.id).mmaPins (core + 1) [f.a, f.c] f.id
           ((s.seqDone core o).seqDone (core + 1) f).pushStatus o 1 0 o.c
         else s
       | [] => s)
    | .mstt tile desc satc scl rnd rs =>
      ((s.msttStore core o tile desc satc scl rnd rs).seqDone core o).pushStatus o 2 tile o.a
    | .mrel dests reg => (s.freeRec core o dests reg).seqDone core o

/-- MATRIX_OP_COMPLETE. -/
def execEvMatrixOpComplete (core : Nat) (s : State) : Host.Outcome State Fault Refusal := .next (s.matrixStep core)

/-- MLDG_FILL_COMPLETE: the fill of an MLDG that no earlier operation of the sequence stands in the way of (R245, R247). -/
def State.mldgFill (s : State) (core id : Nat) : State :=
  let seq := (s.core core).seq
  match List.find? (fun o : MOp => o.id == id) seq with
  | some o =>
    (match o.kind with
     | .mldg va =>
       if seq.any (fun x => decide (x.id < id) && (x.c == o.c || x.a == o.c || x.b == o.c)) || !s.mldgReady core o va then s
       else s.fillMldg core o va
     | _ => s)
  | none => s

/-- MLDG_FILL_COMPLETE. -/
def execEvMldgFillComplete (core n : Nat) (s : State) : Host.Outcome State Fault Refusal := .next (s.mldgFill core n)

end Sys2Proof.Machine
end

