-- ==== Sys2Proof/Machine/Engine.lean ====
section
/-! DEFINITION. The copy engine (R254, R255, R303 to R311): templates, their walk, and the steps of a job. -/

namespace Sys2Proof.Machine

/-! ### Templates (R304 to R307) -/

/-- A template: its sides, element, pad, pitches, bounds, regions as first sector and sectors, and program. -/
structure Tmpl where
  src : Nat
  dst : Nat
  stile : Bool
  dtile : Bool
  spn : Nat
  esz : Nat
  sax : Bool
  pad : Nat
  pitch : List Int
  lim : List Nat
  rreg : List (Nat × Nat)
  wreg : List (Nat × Nat)
  sets : List (Nat × Int)
  loops : List (Nat × Nat × Int)
  run : Nat
deriving DecidableEq, Repr

/-- n bytes of a template from an offset. -/
def tmplN (b : List Byte) (off n : Nat) : Nat := ofLE ((b.drop off).take n)

/-- Replace the 32-bit word w of a template (R304). -/
def setWord (b : List Byte) (w v : Nat) : List Byte := b.take (4 * w) ++ toLE 4 v ++ b.drop (4 * w + 4)

/-- A card's arguments applied to a template (R304). -/
def applyArgs (b : List Byte) (card : Nat) : List Byte :=
  let amap := tmplN b 0x18 4
  [(fld amap 7 0, fld card 63 32), (fld amap 15 8, fld card 95 64), (fld amap 23 16, fld card 127 96)].foldl
    (fun b p => if p.1 < 32 then setWord b p.1 p.2 else b) b

/-- Regions of a template: those in use, and whether the unused ones are zero. -/
def tmplRegs (b : List Byte) (off n : Nat) : List (Nat × Nat) × Bool :=
  let w := (span 0 4).map fun i => tmplN b (off + 4 * i) 4
  ((w.take n).map fun x => (fld x 31 14, fld x 13 0 + 1), (w.drop n).all (· == 0))

/-- The program's micro-ops in order (R306): SETs, LOOPs, one MOVE, END, and zeros. `ph` is 0 before the first LOOP, 1
after one, 2 after the MOVE. -/
def parseProg : Nat → List Nat → Option (List (Nat × Int) × List (Nat × Nat × Int) × Nat)
  | _, [] => none
  | ph, w :: t =>
    let a := fld w 29 28
    match fld w 31 30 with
    | 0 => if ph = 2 ∧ w = 0 ∧ t.all (· == 0) then some ([], [], 0) else none
    | 1 =>
      if ph ≠ 0 ∨ fld w 27 16 ≠ 0 then none
      else (parseProg 0 t).map fun r => ((a, sx 16 w) :: r.1, r.2.1, r.2.2)
    | 2 =>
      if ph = 2 then none
      else (parseProg 1 t).map fun r => (r.1, (a, fld w 27 16 + 1, sx 16 w) :: r.2.1, r.2.2)
    | _ =>
      if ph = 2 ∨ a ≠ 0 ∨ fld w 15 0 ≠ 0 then none
      else (parseProg 2 t).map fun r => (r.1, r.2.1, fld w 27 16 + 1)

/-- The single-axis form (R307): the first LOOP's count is ARG0's and ARG1 is added to u_3. -/
def saxForm (amap card : Nat) (loops : List (Nat × Nat × Int)) : Option (List (Nat × Nat × Int)) :=
  match loops with
  | (1, 1, k) :: t =>
    if fld card 47 32 = 0 ∨ fld amap 7 0 ≠ 0xFF ∨ fld amap 15 8 ≠ 0xFF then none else some ((1, fld card 47 32, k) :: t)
  | _ => none

/-- A template with its arguments applied, checked (R304 to R307); none when a check fails. -/
def parseTmpl (b : List Byte) (card : Nat) : Option Tmpl :=
  let ctl := tmplN b 0x10 4
  let amap := tmplN b 0x18 4
  let rr := tmplRegs b 0x30 (fld ctl 24 23 + 1)
  let wr := tmplRegs b 0x40 (fld ctl 26 25 + 1)
  let args := [fld amap 7 0, fld amap 15 8, fld amap 23 16]
  let sax := bitN ctl 27
  match parseProg 0 ((span 0 12).map fun i => tmplN b (0x50 + 4 * i) 4) with
  | none => none
  | some (sets, loops, run) =>
    match (if sax then saxForm amap card loops else some loops) with
    | none => none
    | some loops =>
      if fld ctl 31 28 ≠ 0 ∨ bitN ctl 19 ∨ fld ctl 15 4 ≠ 0 ∨ 1 < fld ctl 3 2 ∨ 1 < fld ctl 1 0 ∨ 3 < fld ctl 22 20
          ∨ fld amap 31 24 ≠ 0 ∨ ¬ args.all (fun x => decide (x < 32) || x == 0xFF) ∨ ¬ rr.2 ∨ ¬ wr.2
          ∨ 10 < loops.length then none
      else some
        { src := tmplN b 0 8, dst := tmplN b 8 8, stile := fld ctl 1 0 = 1, dtile := fld ctl 3 2 = 1
          spn := fld ctl 18 16, esz := 2 ^ fld ctl 22 20, sax := sax, pad := tmplN b 0x14 4
          pitch := [sx 32 (tmplN b 0x1C 4), sx 32 (tmplN b 0x20 4), sx 32 (tmplN b 0x24 4)]
          lim := [tmplN b 0x28 2, tmplN b 0x2A 2, tmplN b 0x2C 2, tmplN b 0x2E 2]
          rreg := rr.1, wreg := wr.1
          sets := if sax then sets ++ [(4, sx 32 (fld card 95 64))] else sets
          loops := loops, run := run }

/-- A job's template. -/
def Job.tm? (j : Job) : Option Tmpl := parseTmpl j.tmpl j.card

/-- Elements a job writes (R306). -/
def Tmpl.elems (t : Tmpl) : Nat := t.loops.foldl (fun n l => n * l.2.1) t.run

/-- Bytes a job writes. -/
def Tmpl.bytes (t : Tmpl) : Nat := t.elems * t.esz

/-- Destination sectors of a job (R309). -/
def Tmpl.sectors (t : Tmpl) : Nat := ceilDiv t.bytes 64

/-! ### The walk (R306) -/

/-- The initial value of axis a: the last SET's, with the channel-group offset of the single-axis form on axis 3. -/
def Tmpl.start (t : Tmpl) (a : Nat) : Int :=
  t.sets.foldl (fun z p => if p.1 = a then p.2 else if p.1 = 4 ∧ a = 3 then z + p.2 else z) 0

/-- What the loops add to axis a at outer position n, innermost loop first. -/
def loopAdd (a : Nat) : List (Nat × Nat × Int) → Nat → Int
  | [], _ => 0
  | (x, c, k) :: t, n => (if x = a then k * ((n % c : Nat) : Int) else 0) + loopAdd a t (n / c)

/-- v of element number pos (R306). -/
def Tmpl.axes (t : Tmpl) (pos : Nat) : List Int :=
  let rev := t.loops.reverse
  (span 0 4).map fun a => t.start a + loopAdd a rev (pos / t.run) + if a = 0 then ((pos % t.run : Nat) : Int) else 0

/-- The source offset of an element, from SRC or within the tile; none when it is padded (R306). -/
def Tmpl.srcOff (t : Tmpl) (pos : Nat) : Option Int :=
  let v := t.axes pos
  if (v.zip t.lim).any fun p => p.2 != 0 && (decide (p.1 < 0) || decide ((p.2 : Int) ≤ p.1)) then none
  else
    some (v.getD 0 0 * t.esz + v.getD 1 0 * t.pitch.getD 0 0 + v.getD 2 0 * t.pitch.getD 1 0
      + v.getD 3 0 * t.pitch.getD 2 0)

/-- Is an offset in one of the regions? -/
def inRegs (r : List (Nat × Nat)) (z : Int) : Bool :=
  r.any fun p => decide ((64 * p.1 : Nat) ≤ z) && decide (z < (64 * (p.1 + p.2) : Nat))

/-! ### The bytes a job reads -/

/-- What the read of one source byte answers. -/
inductive ByteRes where
  | byte (b : Byte)
  | page (q : PageReq)
  | stall
  | remote (va : Nat)
  | fail (f : Fail) (va : Nat)
deriving DecidableEq, Repr

/-- A fault without a lease. -/
def Fail.plain (code : Nat) : Fail := ⟨code, none, false, 0⟩

/-- Translate and check a copy job's access to one address (R379, R395): its place. -/
def State.engPlace (s : State) (core : Nat) (j : Job) (va : Nat) (w : Bool) : Except Fail (Place × Nat) :=
  match s.translate core j.pasid va ⟨!w, w, false⟩ with
  | .error f => .error f
  | .ok l =>
    match s.doneCheck l w with
    | .error f => .error f
    | .ok _ => .ok (s.placeOf l va, l.lease)

/-- The request for the page of a copy job's access (R384). -/
def Job.request (j : Job) (page lease off : Nat) : PageReq :=
  { part := j.part, pasid := j.pasid, page := page, lease := lease, sector := off / 64, group := 0, ord := 0, va := 0
    report := false, wait := true, bar := none }

/-- The threads whose order a job keeps: its card's (R323, R330). -/
def State.jobThreads (s : State) (j : Job) : List Thread :=
  match s.thread? j.t with | some (_, _, th) => [th] | none => []

/-- Read one byte of memory for a copy job, through the L2 of its core's die (R284). -/
def State.engByte (s : State) (core : Nat) (tm : Team) (j : Job) (va : Nat) : ByteRes :=
  match windowOf tm va 1 with
  | some (.scratch c off) => .byte (Mem.read (Tab.getD tm.scratch [] c) off)
  | some .user =>
    (match s.engPlace core j va false with
     | .error f => .fail f va
     | .ok (pl, lease) =>
       match s.placeDev j.part pl 1, pl with
       | some pa, _ =>
         if s.lostIn pa 1 false then .fail ⟨0x0B, none, false, lease⟩ va
         else
           (match (s.copyFor (dieOfCore core) pa).filter fun c => (s.jobThreads j).all fun t => t.mayMeet pa c with
            | some c => .byte c.b
            | none => .stall)
       | none, .remote _ _ => (match Tab.find? j.buf va with | some b => .byte b | none => .remote va)
       | none, .mcast _ _ => .fail ⟨0x08, none, false, lease⟩ va
       | none, .pool page off =>
         (match s.frameOf j.part page with
          | some (_, e) => if e.st = .filling then .stall else .page (j.request page lease off)
          | none => .page (j.request page lease off))
       | none, _ => .stall)
  | _ => .fail (.plain 0x06) va

/-- The source offset of destination byte n; none when it is padding (R306). -/
def Tmpl.byteOff (t : Tmpl) (n : Nat) : Option Int := (t.srcOff (n / t.esz)).map fun z => z + ((n % t.esz : Nat) : Int)

/-- A pad element's byte (R304): ESZ 8 repeats the word. -/
def Tmpl.padByte (t : Tmpl) (n : Nat) : Byte := (toLE 4 t.pad).getD (n % t.esz % 4) 0#8

/-- The scratchpad-window address at an offset of a tile of a core. -/
def Team.tileVa (t : Team) (mc tile : Nat) (z : Int) : Nat :=
  wrapI 64 ((0xFE * 2 ^ 56 + mc * 2 ^ 20 + 64 * (t.tile mc tile).base : Nat) + z)

/-- The address of a source byte. -/
def Tmpl.srcVa (t : Tmpl) (tm : Team) (mc : Nat) (z : Int) : Nat :=
  if t.stile then tm.tileVa mc (t.src % 256) z else wrapI 64 ((t.src : Int) + z)

/-- The address of a destination byte. -/
def Tmpl.dstVa (t : Tmpl) (tm : Team) (mc n : Nat) : Nat :=
  if t.dtile then tm.tileVa mc (t.dst % 256) n else (t.dst + n) % 2 ^ 64

/-- The checks of destination byte n (R306, R309): the tiles' lengths, then the regions. Answers the code, the KIND and
the address. -/
def Tmpl.byteCheck (t : Tmpl) (tm : Team) (mc n : Nat) : Option (Nat × Nat × Nat) :=
  let z := t.byteOff n
  let long := fun (tile : Nat) (x : Int) => decide (x < 0) || decide (((64 * (tm.tile mc tile).len : Nat) : Int) ≤ x)
  let rd := match z with | some x => t.stile && long (t.src % 256) x | none => false
  let wr := t.dtile && long (t.dst % 256) n
  let sva := match z with | some x => t.srcVa tm mc x | none => 0
  if rd then some (0x0C, 0x07, sva)
  else if wr then some (0x0C, 0x08, t.dstVa tm mc n)
  else if (match z with | some x => !inRegs t.rreg x | none => false) then some (0x08, 0x07, sva)
  else if !inRegs t.wreg n then some (0x08, 0x08, t.dstVa tm mc n)
  else none

/-- The bytes of destination sector k, as their numbers. -/
def Tmpl.sector (t : Tmpl) (k : Nat) : List Nat := span (64 * k) (min 64 (t.bytes - 64 * k))

/-- The value of destination byte n. -/
def State.jobByte (s : State) (core : Nat) (tm : Team) (j : Job) (t : Tmpl) (n : Nat) : ByteRes :=
  let mc := tm.memberOf core
  match t.byteOff n with
  | none => .byte (t.padByte n)
  | some z =>
    if t.stile then .byte (tm.tileByte mc (t.src % 256) z.toNat) else s.engByte core tm j (t.srcVa tm mc z)

/-- The values of some destination bytes, or the first that cannot be had. -/
def State.jobBytes (s : State) (core : Nat) (tm : Team) (j : Job) (t : Tmpl) : List Nat → Except ByteRes (List Byte)
  | [] => .ok []
  | n :: l =>
    match s.jobByte core tm j t n with
    | .byte b => (State.jobBytes s core tm j t l).map (b :: ·)
    | r => .error r

/-! ### Requests of a job over Shecel (R414) -/

/-- The stream of a channel: one of its own, above the sixteen of R207. -/
def jobStream (chan : Nat) : Nat := 256 + chan

/-- The request of a copy job: `m` destination sectors are performed when it is acknowledged. -/
def Job.reqAcc (j : Job) (core id va n m kind : Nat) (op : AccOp) (l : Leaf) : Acc :=
  { id := id, core := core, t := j.t, set := [], pasid := j.pasid, part := j.part, pc := j.pc, ri := m, va := va
    size := n, kind := kind, strong := false, scope := 0, acq := false, rel := false, stream := jobStream j.chan, op := op
    dest := none, entry := false, isLoad := false, isStore := false, leaf := some l, leaf2 := none, job := some j.num
    vreq := none, st := .pending, prog := 0, again := false }

/-- Send a job's request: its lease is checked as it leaves (R395), and a lost peer fails it (R419, R420). -/
def State.jobTry (s : State) (core : Nat) (j : Job) (a : Acc) : State :=
  match a.leaf with
  | none => s
  | some l =>
    match s.doneCheck l a.op.writes, s.placeOf l a.va with
    | .error f, _ => (s.dropAcc a).jobFault core j f a.kind a.va
    | .ok _, .remote dev fa =>
      if s.peerLost dev then (s.dropAcc a).jobFault core j ⟨0x15, none, false, l.lease⟩ a.kind a.va
      else s.sendAcc a (.remote dev fa)
    | .ok _, p => s.sendAcc a p

/-- Make a request of a job. -/
def State.jobSend (s : State) (core : Nat) (j : Job) (va n m kind : Nat) (op : AccOp) (l : Leaf) : State :=
  let a := j.reqAcc core s.accNext va n m kind op l
  { s with accs := s.accs ++ [a], accNext := s.accNext + 1 }.jobTry core j a

/-- The requests of a job that are outstanding. -/
def State.jobAccs (s : State) (core num : Nat) : List Acc := s.accs.filter fun a => a.core == core && a.job == some num

/-! ### Sectors -/

/-- m sectors of a job have been performed: they land, with the stamps of its writes (R303, R309, R310, R330). After its last one
the job reads its source tile no more (R287). -/
def State.sectorsDone (s : State) (core num m : Nat) : State :=
  match (s.core core).job? num with
  | none => s
  | some j =>
    let total := match j.tm? with | some t => t.sectors | none => 0
    let last := decide (total ≤ j.eprog + m)
    let s := if last then s.jobReadsDone core j else s
    let s := s.updCore core fun c => c.updJob num fun j =>
      { j with eprog := j.eprog + m, buf := [], st := if last then .landed else j.st }
    match j.bar, s.team? j.t.g.grid j.t.g.team with
    | some off, some tm =>
      let k := 2 ^ 20 * tm.memberOf core + off
      (s.updTeam tm.grid tm.team fun t =>
        { t with landed := Tab.put t.landed .zero k ((Tab.getD t.landed .zero k).join j.stamps) }).tbLand tm.grid tm.team
          (tm.memberOf core) off m
    | _, _ => s

/-- One part of a destination sector in memory: where its bytes go. -/
structure JobPart where
  va : Nat
  pl : Option (Place × Leaf)
  scr : Option (Nat × Nat)
  bs : List Byte
deriving DecidableEq, Repr

/-- A part's place, with every check (R379, R395). -/
def State.jobPart (s : State) (core : Nat) (tm : Team) (j : Job) (va : Nat) (bs : List Byte) : Except (Fail × Nat) JobPart :=
  match windowOf tm va bs.length with
  | some (.scratch c off) => .ok ⟨va, none, some (c, off), bs⟩
  | some .user =>
    (match s.translate core j.pasid va ⟨false, true, false⟩ with
     | .error f => .error (f, va)
     | .ok l =>
       match s.doneCheck l true with
       | .error f => .error (f, va)
       | .ok _ => .ok ⟨va, some (s.placeOf l va, l), none, bs⟩)
  | _ => .error (.plain 0x06, va)

/-- The parts of a destination sector in memory, split at the page boundary. -/
def State.jobParts (s : State) (core : Nat) (tm : Team) (j : Job) (va : Nat) (bs : List Byte) :
    Except (Fail × Nat) (List JobPart) :=
  let n := firstPart va bs.length
  match s.jobPart core tm j va (bs.take n) with
  | .error e => .error e
  | .ok p =>
    if n = bs.length then .ok [p]
    else
      match s.jobPart core tm j ((va + n) % 2 ^ 64) (bs.drop n) with
      | .error e => .error e
      | .ok q => .ok [p, q]

/-- The address at which a part is written now: in device or host memory, or in ready sectors of a frame. -/
def State.partDev (s : State) (j : Job) (p : JobPart) : Option Nat :=
  match p.pl with
  | some (pl, l) => s.pieceDev j.part ⟨pl, p.va, p.bs.length, l.lease⟩
  | none => none

/-- Does a part leave over Shecel? -/
def JobPart.far (p : JobPart) : Bool := match p.pl with | some (.remote _ _, _) | some (.mcast _ _, _) => true | _ => false

/-- May a part be written now: its page is present, and the write comes after what the thread has met, and beside no
read-modify-write (R321, R331)? -/
def State.partReady (s : State) (core : Nat) (j : Job) (p : JobPart) : Bool :=
  p.pl.isNone || p.far ||
  match s.partDev j p with
  | some pa => s.mayWrite (s.jobThreads j) (dieOfCore core) pa p.bs.length
  | none => false

/-- The fault of a part whose sector is lost (R311, R438). -/
def State.partLost (s : State) (j : Job) (p : JobPart) : Option (Fail × Nat) :=
  match s.partDev j p, p.pl with
  | some pa, some (_, l) => if s.lostIn pa p.bs.length true then some (⟨0x0B, none, false, l.lease⟩, p.va) else none
  | _, _ => none

/-- Ask for a part's page when no frame holds it (R384). -/
def State.askPart (s : State) (j : Job) (p : JobPart) : State :=
  match p.pl with
  | some (.pool page off, l) =>
    (match s.frameOf j.part page with
     | some _ => s
     | none => s.needPage (j.request page l.lease off))
  | _ => s

/-- Note a write of a job under a stamp (R317), and the pool sectors that it has written for its thread (R402). -/
def State.noteJob (s : State) (core : Nat) (j : Job) (p : JobPart) (v : VClk) : State :=
  let s := s.updCore core fun c => c.updJob j.num fun j => { j with stamps := j.stamps.join v }
  match p.pl with
  | some (.pool page off, _) =>
    s.updThread j.t fun t =>
      { t with stored := insNats (span (page * 1024 + off / 64) (ceilDiv (off % 64 + p.bs.length) 64)) t.stored }
  | _ => s

/-- Write a part, or send it over Shecel for m sectors (R284, R317, R414, R418). -/
def State.putPart (s : State) (core : Nat) (tm : Team) (j : Job) (m : Nat) (p : JobPart) : State :=
  match p.scr, p.pl with
  | some (c, off), _ =>
    s.updTeam tm.grid tm.team fun t =>
      { t with scratch := Tab.set t.scratch c (Mem.writeList (Tab.getD t.scratch [] c) off p.bs) }
  | none, some (.remote _ _, l) | none, some (.mcast _ _, l) => s.jobSend core j p.va p.bs.length m 0x08 (.store p.bs) l
  | none, some (_, _) =>
    (match s.partDev j p with
     | some pa =>
       let r := s.writeAt (dieOfCore core) pa p.bs
       r.1.noteJob core j p r.2.1
     | none => s)
  | none, none => s

/-- Sectors from k on, at most four and within one page, whose bytes can be had now: one request carries them (R414). -/
def State.sectorRun (s : State) (core : Nat) (tm : Team) (j : Job) (t : Tmpl) (va : Nat) : Nat → Nat → List Byte → Nat × List Byte
  | 0, _, bs => (0, bs)
  | n + 1, k, bs =>
    if t.sectors ≤ k ∨ pageSize < va % pageSize + bs.length + 64
        ∨ (t.sector k).any (fun b => (t.byteCheck tm (tm.memberOf core) b).isSome) then (0, bs)
    else
      match s.jobBytes core tm j t (t.sector k) with
      | .error _ => (0, bs)
      | .ok b =>
        let r := State.sectorRun s core tm j t va n (k + 1) (bs ++ b)
        (r.1 + 1, r.2)

/-- A sector of a tile arrives (R288, R309). -/
def State.putTile (s : State) (core : Nat) (tm : Team) (j : Job) (t : Tmpl) (bs : List Byte) : State :=
  let a : Arrival :=
    { ap := none, grid := tm.grid, team := tm.team, mc := tm.memberOf core, tile := t.dst % 256, ph := j.ph
      off := 64 * j.eprog, swz := true, data := bs, prod := .job j.num }
  let s := s.updCore core fun c => c.updJob j.num fun j => { j with flying := j.flying + 1 }
  (s.reachTile a).sectorsDone core j.num 1

/-- A sector of memory is written (R306, R317): all its parts at once, when every one may be. -/
def State.putMem (s : State) (core : Nat) (tm : Team) (j : Job) (t : Tmpl) (bs : List Byte) : State :=
  let va := t.dstVa tm (tm.memberOf core) (64 * j.eprog)
  match s.jobParts core tm j va bs with
  | .error (f, a) => s.jobFault core j f 0x08 a
  | .ok ps =>
    match ps.findSome? (s.partLost j) with
    | some (f, a) => s.jobFault core j f 0x08 a
    | none =>
    if !ps.all (s.partReady core j) then ps.foldl (fun s p => s.askPart j p) s
    else if ps.any JobPart.far then
      match ps with
      | [p] =>
        let r := s.sectorRun core tm j t va 3 (j.eprog + 1) bs
        s.putPart core tm j (r.1 + 1) { p with bs := r.2 }
      | _ => ps.foldl (fun s p => s.putPart core tm j 1 p) s
    else (ps.foldl (fun s p => s.putPart core tm j 1 p) s).sectorsDone core j.num 1

/-- How many of some destination bytes come from addresses that follow one another, from va up. -/
def Tmpl.runLen (t : Tmpl) (tm : Team) (mc va : Nat) : List Nat → Nat
  | [] => 0
  | n :: l =>
    match t.byteOff n with
    | some z => if t.srcVa tm mc z = va then 1 + Tmpl.runLen t tm mc (va + 1) l else 0
    | none => 0

/-- Ask for source bytes in another device's memory (R414). -/
def State.askRemote (s : State) (core : Nat) (tm : Team) (j : Job) (t : Tmpl) (va : Nat) : State :=
  match s.translate core j.pasid va ⟨true, false, false⟩ with
  | .error _ => s
  | .ok l =>
    let mc := tm.memberOf core
    let l' := (t.sector j.eprog).dropWhile fun n => match t.byteOff n with | some z => t.srcVa tm mc z != va | none => true
    let n := firstPart va (max 1 (t.runLen tm mc va l'))
    s.jobSend core j va n 0 0x07 (.load n false) l

/-- JOB_SECTOR (R309): the job's next destination sector, in ascending order. -/
def State.jobSector (s : State) (core num : Nat) : State :=
  match (s.core core).job? num with
  | none => s
  | some j =>
    match s.team? j.t.g.grid j.t.g.team, j.tm? with
    | some tm, some t =>
      if j.st ≠ .running then s
      else
        match s.jobAccs core num with
        | a :: _ => if a.st = .pending then s.jobTry core j a else s
        | [] =>
          let l := t.sector j.eprog
          match l.findSome? (t.byteCheck tm (tm.memberOf core)) with
          | some (c, k, va) => s.jobFault core j (.plain c) k va
          | none =>
            match s.jobBytes core tm j t l with
            | .ok bs => if t.dtile then s.putTile core tm j t bs else s.putMem core tm j t bs
            | .error (.fail f va) => s.jobFault core j f 0x07 va
            | .error (.page q) => s.needPage q
            | .error (.remote va) => s.askRemote core tm j t va
            | .error _ => s
    | _, _ => s

/-- JOB_SECTOR. -/
def execEvJobSector (core job : Nat) (s : State) : Host.Outcome State Fault Refusal := .next (s.jobSector core job)

/-! ### Acceptance (R254, R255, R303, R304) -/

/-- The thread of a card that the engine has turned away takes a fault at its store. -/
def State.cardFault (s : State) (a : Acc) (f : Fail) (kind va : Nat) : State :=
  (s.dropAcc a).raiseMem a.t kind ⟨va, f⟩

/-- The engine takes a card, with the next number of the core's acceptance sequence (R303): the job stands in its channel,
and the thread's store is done. -/
def State.cardTake (s : State) (a : Acc) (card : Nat) (b : List Byte) : State :=
  let n := s.accNext
  let s : State := { s with accNext := n + 1 }
  let s := s.updCore a.core fun c =>
    { c with
      jobNext := c.jobNext + 1
      jobs := c.jobs ++ [
        { num := n, seq := c.jobNext, chan := fld a.va 9 6, t := a.t, pasid := a.pasid, part := a.part, pc := a.pc, card := card
          tmpl := applyArgs b card, st := .queued, eprog := 0, ph := 0, flying := 0, buf := [], acc := a.id
          stamps := .zero }] }
  (s.dropAcc a).updThread a.t fun t => { t with popped := some 0#32 }

/-- Does a thread still stand at the store of its card? -/
def State.cardLive (s : State) (a : Acc) : Bool :=
  match s.thread? a.t with
  | some (_, _, t) => decide (t.st = .ready) && t.pc == a.pc && t.ri == a.ri
  | none => false

/-- JOB_CARD_ACCEPT: the oldest card at a channel that holds fewer than eight, once its template has been read. -/
def State.cardAccept (s : State) (core chan : Nat) : State :=
  let mine := fun (a : Acc) => a.core == core && fld a.va 9 6 == chan && (match a.op with | .card _ => true | _ => false)
  match List.find? mine s.accs with
  | none => s
  | some a =>
    if !s.cardLive a then s.dropAcc a
    else if 8 ≤ ((s.core core).jobs.filter fun j => j.chan == chan && !j.started).length then s
    else
      match a.op with
      | .card v =>
        let va := ((match s.ctx a.pasid with | some c => c.ttb | none => 0) + 128 * fld v 9 0) % 2 ^ 64
        (match (if 2 ^ 57 < va + 128 then (.fail (.plain 0x06), s)
            else s.unitRead ⟨[4, core, chan], core, a.pasid, false⟩ va 128 ⟨true, false, false⟩) with
         | (.fail f, s) => s.cardFault a f 0x07 va
         | (.wait, s) => s
         | (.done b, s) =>
           match parseTmpl (applyArgs b v) v with
           | none => s.cardFault a (.plain 0x01) 0x02 a.va
           | some t =>
             if (bitN v 10 && !t.dtile) || (bitN v 12 && !t.stile) then s.cardFault a (.plain 0x01) 0x02 a.va
             else s.cardTake a v b)
      | _ => s

/-- JOB_CARD_ACCEPT. -/
def execEvJobCardAccept (core chan : Nat) (s : State) : Host.Outcome State Fault Refusal := .next (s.cardAccept core chan)

/-! ### Starting (R303, R308, R309) -/

/-- The byte ranges of a job's regions, as first address and length (R308): those it reads and those it writes. -/
def Tmpl.ranges (t : Tmpl) (tm : Team) (mc : Nat) : List (Nat × Nat) × List (Nat × Nat) :=
  (t.rreg.map fun r => (t.srcVa tm mc ((64 * r.1 : Nat) : Int), 64 * r.2),
   t.wreg.map fun r => (t.dstVa tm mc (64 * r.1), 64 * r.2))

/-- Do two lists of ranges meet? -/
def regsMeet (a b : List (Nat × Nat)) : Bool := a.any fun p => b.any fun q => rangesMeet p.1 p.2 q.1 q.2

/-- Has a job an edge to an earlier one (R308)? -/
def State.jobEdge (tm : Team) (core : Nat) (t : Tmpl) (k : Job) : Bool :=
  match k.tm? with
  | some u =>
    let mc := tm.memberOf core
    let x := t.ranges tm mc
    let y := u.ranges tm mc
    regsMeet x.1 y.2 || regsMeet x.2 y.1 || regsMeet x.2 y.2
  | none => false

/-- Do accesses of the card's thread that came before it stand in its way (R323 to R328): its acquires and releases, writes of
its regions, and loads of what it writes? -/
def State.jobHeldBack (s : State) (tm : Team) (core : Nat) (j : Job) (t : Tmpl) : Bool :=
  let x := t.ranges tm (tm.memberOf core)
  s.accs.any fun a =>
    decide (a.t.g = j.t.g) && a.set.contains j.t.tid && decide (a.id < j.acc)
    && (a.acq || (a.rel && a.st == .pending && !s.releaseHolds a)
      || (a.st != .acquiring
          && (regsMeet [(a.va, a.size)] x.2 || (a.op.writes && regsMeet [(a.va, a.size)] x.1))))

/-- The checks of a job's tiles at its start (R309): a code, a KIND and an address. -/
def tileFault (tm : Team) (core : Nat) (j : Job) (t : Tmpl) : Option (Nat × Nat × Nat) :=
  let mc := tm.memberOf core
  let sn := t.src % 256
  let dn := t.dst % 256
  let ok := fun n => decide (n < tm.kern.tiles) && (tm.tile mc n).defd
  let arm := bitN j.card 10
  if t.stile && !ok sn then some (0x0C, 0x07, t.srcVa tm mc 0)
  else if t.stile && (tm.tile mc sn).span != t.spn then some (0x12, 0x07, t.srcVa tm mc 0)
  else if t.dtile && (!ok dn || (arm && (fld j.card 23 16 != dn || (tm.tile mc dn).owner != j.t.g.gid
      || fld j.card 31 24 == 0))) then some (0x0C, 0x08, t.dstVa tm mc 0)
  else if t.dtile && (tm.tile mc dn).span != t.spn then some (0x12, 0x08, t.dstVa tm mc 0)
  else none

/-- Do a job's tiles stand as it needs them (R309)? -/
def tilesReady (tm : Team) (core : Nat) (j : Job) (t : Tmpl) : Bool :=
  let mc := tm.memberOf core
  (!t.stile || decide ((tm.tile mc (t.src % 256)).st = .ready))
  && (!t.dtile || decide ((tm.tile mc (t.dst % 256)).st = if bitN j.card 10 then .empty else .filling))

/-- May a job start, its tiles apart (R303, R308)? -/
def State.jobMayStart (s : State) (tm : Team) (core : Nat) (j : Job) (t : Tmpl) : Bool :=
  let jobs := (s.core core).jobs
  j.st == .queued
  && jobs.all (fun k => !(decide (k.seq < j.seq) && k.chan == j.chan) || k.started)
  && decide ((jobs.filter Job.started).length < 32)
  && tm.issues
  && !jobs.any (fun k => decide (k.seq < j.seq) && k.started && k.t.g.grid == tm.grid && k.t.g.team == tm.team
      && State.jobEdge tm core t k)
  && !s.jobHeldBack tm core j t

/-- JOB_START. -/
def State.jobStart (s : State) (core num : Nat) : State :=
  match (s.core core).job? num with
  | none => s
  | some j =>
    match s.team? j.t.g.grid j.t.g.team, j.tm? with
    | some tm, some t =>
      if !s.jobMayStart tm core j t then s
      else
        match tileFault tm core j t with
        | some (c, k, va) => s.jobFault core j (.plain c) k va
        | none =>
          if !tilesReady tm core j t then s
          else
            let mc := tm.memberOf core
            let dn := t.dst % 256
            let s := s.updCore core fun c => c.updJob num fun j =>
              { j with st := .running, ph := if t.dtile then (tm.tile mc dn).ph else 0 }
            let s := if t.stile then
                s.updTile tm.grid tm.team mc (t.src % 256) fun e => { e with rds := e.rds + 1 }
              else s
            if t.dtile && bitN j.card 10 then s.armTile tm.grid tm.team mc dn t.sectors (fld j.card 31 24) false else s
    | _, _ => s

/-- JOB_START. -/
def execEvJobStart (core job : Nat) (s : State) : Host.Outcome State Fault Refusal := .next (s.jobStart core job)

/-! ### Completion (R303, R309) -/

/-- A job leaves the engine; the stamps of its writes count for its grid (R334). -/
def State.dropJob (s : State) (core : Nat) (j : Job) : State :=
  let s := s.updGrid j.t.g.grid fun g => { g with stamps := g.stamps.join j.stamps }
  (s.updCore core fun c => { c with jobs := c.jobs.filter fun k => k.num != j.num }).wakeRegs j.t.g

/-- JOB_COMPLETE: every sector performed and settled, and its consume applied. -/
def State.jobComplete (s : State) (core num : Nat) : State :=
  match (s.core core).job? num with
  | none => s
  | some j =>
    if j.st ≠ .landed ∨ j.flying ≠ 0 then s
    else
      match (if bitN j.card 12 then j.srcTile else none), s.team? j.t.g.grid j.t.g.team with
      | some n, some tm =>
        let mc := tm.memberOf core
        if (tm.tile mc n).st ≠ .ready then s
        else (s.updTile tm.grid tm.team mc n Tile.consume).dropJob core j
      | _, _ => s.dropJob core j

/-- JOB_COMPLETE. -/
def execEvJobComplete (core job : Nat) (s : State) : Host.Outcome State Fault Refusal := .next (s.jobComplete core job)

end Sys2Proof.Machine
end

