-- ==== Sys2Proof/Machine/Control.lean ====
section
/-! DEFINITION. The control instructions (R135 to R144, R136 to R140), REJOIN with its release and deadlock (R141, R142,
R280), EXIT (R143), SREAD and SREAD.w (R49, R135), and the system instructions (R260 to R264). -/

namespace Sys2Proof.Machine

/-! ### Special registers (R49) -/


/-- The value of a special register (R49). -/
def One.special (c : One) (s : State) (sel : Nat) : Nat :=
  match sel with
  | 0 => c.tid
  | 1 => c.g.gid
  | 2 => c.tm.team
  | 3 => c.tm.grid
  | 4 => 64 * c.g.gid + c.tid
  | 5 => c.tm.depth
  | 6 => (s.core c.g.core).clk
  | 7 => s.now
  | 8 => c.t.ri
  | 9 => c.t.af.toNat
  | 10 => c.t.fp.toNat
  | 11 => c.t.link.toNat
  | 12 => c.t.rs.toNat
  | n => (c.t.ireg (n - 16)).toNat

/-- SREAD in one thread: clk and dtime are sampled now and arrive later (R53, R135); any other register is read at once. -/
def sreadSem (sel : Nat) : EachSem := fun c s =>
  let v := c.special s sel
  if sel = 6 ∨ sel = 7 then
    let p := weakPlan 0 8 1 0 0 (.clock (v % 2 ^ 64))
    let a := { p.acc c.tm c.g [c.tid] c.t (destOf c.o.d 2) none none with entry := false }
    c.done ((s.addAcc a).updThread c.ref fun t => t.markEmpty (c.o.d.lanes c.x.sp.d.wr))
  else c.write [(c.dreg, BitVec.ofNat 32 v)] s

/-- The meaning of SREAD. -/
def execSread (pf : Pfx) (d s : BitVec 8) (st : State) : Host.Outcome State Fault Refusal :=
  runEachOf (.sread pf d s) (sreadSem s.toNat) st

/-- A special register written (R135): each keeps its own bits. -/
def Thread.writeSpecial (t : Thread) (sel : Nat) (v : Word) : Thread :=
  match sel with
  | 9 => { t with af := BitVec.ofNat 8 v.toNat }
  | 10 => { t with fp := v }
  | 11 => { t with link := v }
  | 12 => { t with rs := fixRs v }
  | n => t.setIreg (n - 16) (BitVec.ofNat 16 v.toNat)

/-- SREAD.w in one thread (R135). -/
def sreadWSem (sel : Nat) : EachSem := fun c s =>
  c.done (s.updThread c.ref fun t => t.writeSpecial sel (BitVec.ofNat 32 c.vals.a))

/-- The meaning of SREAD.w. -/
def execSreadW (pf : Pfx) (s a : BitVec 8) (st : State) : Host.Outcome State Fault Refusal :=
  runEachOf (.sreadW pf s a) (sreadWSem s.toNat) st

/-! ### Transfers (R96, R97, R136) -/

namespace One

/-- The address at a byte offset of the running kernel's code (R97). -/
def codeAt (c : One) (off : Nat) : Nat := (c.tm.kern.code + off) % 2 ^ 64

/-- The offset of the header that follows the clause (R136). -/
def nextOff (c : One) : Word := BitVec.ofNat 32 (wrapI 32 ((c.t.cend : Int) - c.tm.kern.code))

/-- The target of R96. -/
def target (c : One) (o : BitVec 16) : Nat := wrapI 64 ((c.t.hdr : Int) + 4 * sx 16 o.toNat)

/-- The thread moves to a header. -/
def goTo (c : One) (pc : Nat) (s : State) : State :=
  (s.updThread c.ref fun t => { t with ri := 0, popped := none }).goHeader c.ref pc (some c.t.pc)

/-- The thread moves to a byte offset of the code, or faults when it is misaligned (R97). `f` is what else the transfer
writes. -/
def goOff (c : One) (off : Nat) (f : Thread → Thread) (s : State) : State :=
  if off % 4 ≠ 0 then c.fault 0x02 0x00 (c.codeAt off) s else c.goTo (c.codeAt off) (s.updThread c.ref f)

end One

/-- The backward branch that an issue took, if it took one (R281): its address and the header it went to. -/
def State.branchTaken (s : State) : Option (Nat × Nat) :=
  match s.group? s.cur.g with
  | none => none
  | some (_, g) =>
    s.cur.set.findSome? fun tid =>
      match Tab.find? g.threads tid with
      | some t => if t.from? = some s.cur.pc ∧ ¬ t.inside ∧ t.pc = t.hdr then some (s.cur.pc, t.pc) else none
      | none => none

/-- Run BRA or BRAU: an instruction that acts thread by thread, watched by the spin detector (R281). -/
def State.runBranch (s : State) (i : Instr) (sem : EachSem) : State :=
  let r := s.cur.g
  match s.group? r with
  | none => s
  | some (_, g) =>
    let x := decOf i
    let act := g.active s.cur.set
    let s := act.foldl (fun s p => s.eachOne x sem r p.2.ri p.1) s
    s.finish g s.branchTaken

/-- BRA in one thread (R137). -/
def braSem (o : BitVec 16) : EachSem := fun c s => c.goTo (c.target o) s

/-- The meaning of BRA. -/
def execBra (pf : Pfx) (o : BitVec 16) (s : State) : Host.Outcome State Fault Refusal :=
  .next (s.runBranch (.bra pf o) (braSem o))

/-- BRAU in one thread: the whole of S reads the same register (R137). -/
def brauSem (o : BitVec 16) : EachSem := fun c s => if c.vals.d ≠ 0 then c.goTo (c.target o) s else c.done s

/-- The meaning of BRAU. -/
def execBrau (pf : Pfx) (g : BitVec 8) (o : BitVec 16) (s : State) : Host.Outcome State Fault Refusal :=
  .next (s.runBranch (.brau pf g o) (brauSem o))

/-- BRX in one thread (R139). -/
def brxSem : EachSem := fun c s => c.goOff c.vals.a id s

/-- The meaning of BRX. -/
def execBrx (pf : Pfx) (a : BitVec 8) (s : State) : Host.Outcome State Fault Refusal := runEachOf (.brx pf a) brxSem s

/-- CALL in one thread (R138). -/
def callSem (o : BitVec 16) : EachSem := fun c s =>
  c.goTo (c.target o) (s.updThread c.ref fun t => { t with link := c.nextOff })

/-- The meaning of CALL. -/
def execCall (pf : Pfx) (o : BitVec 16) (s : State) : Host.Outcome State Fault Refusal :=
  runEachOf (.call pf o) (callSem o) s

/-- CALLX in one thread (R138): a misaligned target leaves link unchanged. -/
def callxSem : EachSem := fun c s => c.goOff c.vals.a (fun t => { t with link := c.nextOff }) s

/-- The meaning of CALLX. -/
def execCallx (pf : Pfx) (a : BitVec 8) (s : State) : Host.Outcome State Fault Refusal :=
  runEachOf (.callx pf a) callxSem s

/-- RET in one thread (R138). -/
def retSem : EachSem := fun c s => c.goOff c.t.link.toNat id s

/-- The meaning of RET. -/
def execRet (pf : Pfx) (s : State) : Host.Outcome State Fault Refusal := runEachOf (.ret pf) retSem s

/-- CSW in one thread (R140): a misaligned target leaves the pair unchanged. -/
def cswSem : EachSem := fun c s =>
  let n := match c.o.a with | .lane n => n | _ => 0
  let fp := BitVec.ofNat 32 (c.vals.a / 2 ^ 32)
  c.goOff (c.vals.a % 2 ^ 32) (fun t => { t.setRegs [(n, c.nextOff), (n + 1, t.fp)] with fp := fp }) s

/-- The meaning of CSW. -/
def execCsw (pf : Pfx) (a : BitVec 8) (s : State) : Host.Outcome State Fault Refusal := runEachOf (.csw pf a) cswSem s

/-! ### REJOIN (R141, R142, R280) -/

/-- The threads of P that R141 keeps, and the repetition of its removal; the fuel bounds it. -/
def rejoinSet (g : Group) : Nat → List (Nat × Nat) → List Nat
  | 0, p => p.map (·.1)
  | n + 1, p =>
    let ok := fun (q : Nat × Nat) => (Tab.listed g.threads).all fun u =>
      !(q.2.testBit u.1 && u.2.live) || p.any (fun x => x.1 == u.1)
    let p' := p.filter ok
    if p'.length = p.length then p.map (·.1) else rejoinSet g n p'

/-- The threads parked at an identifier with their masks. -/
def Group.rejoiners (g : Group) (k : Nat) : List (Nat × Nat) :=
  (Tab.listed g.threads).filterMap fun (p : Nat × Thread) =>
    match p.2.st with | .rejoining k' m => if k' = k then some (p.1, m) else none | _ => none

/-- A thread released from REJOIN goes on after it (R141); REJOIN is one word. -/
def Thread.released (k : Nat) (hp : Nat → Nat → Nat) (t : Thread) : Thread :=
  match t.st with
  | .rejoining k' _ =>
    let pc := t.pc + 4
    if k' ≠ k then t
    else if pc = t.cend then t.toHeader pc (hp pc t.prio) none
    else { t with pc := pc, st := .ready }
  | _ => t

/-- Release what R141 releases at an identifier. -/
def State.rejoinRelease (s : State) (r : GRef) (k : Nat) : State :=
  match s.group? r with
  | none => s
  | some (tm, g) =>
    (rejoinSet g (g.rejoiners k).length (g.rejoiners k)).foldl (fun s tid => s.updThread ⟨r, tid⟩ (Thread.released k (s.hp tm g))) s

/-- The identifiers at which threads of a group are parked. -/
def Group.rejoinIds (g : Group) : List Nat :=
  insNats ((Tab.listed g.threads).filterMap fun (p : Nat × Thread) => match p.2.st with | .rejoining k _ => some k | _ => none) []

/-- Is a thread parked in REJOIN? -/
def Thread.rejoins (t : Thread) : Bool := match t.st with | .rejoining _ _ => true | _ => false

/-- Rejoin Deadlock (R142, R280): when every live thread is parked in REJOIN, each raises 0x0E at its REJOIN. -/
def State.rejoinDeadlock (s : State) (r : GRef) : State :=
  match s.group? r with
  | none => s
  | some (_, g) =>
    let l := List.filter (fun (p : Nat × Thread) => p.2.live) (Tab.listed g.threads)
    if l.isEmpty ∨ ¬ l.all (fun p => p.2.rejoins) then s
    else
      let mask := l.foldl (fun m p => m + 2 ^ p.1) 0
      l.foldl (fun s p =>
        let m := match p.2.st with | .rejoining _ m => m | _ => 0
        let t : TRef := ⟨r, p.1⟩
        let s := s.updThread t fun t => if t.live then { t with st := .ready } else t
        s.takeFault t { s.mkRec t 0x0E 0 p.2.pc m with smask := mask } .fault p.2.here) s

/-- What follows when a thread of a group parks in REJOIN or exits (R141, R280). -/
def State.rejoinCheck (s : State) (r : GRef) (ks : List Nat) : State :=
  (ks.foldl (fun s k => s.rejoinRelease r k) s).rejoinDeadlock r

/-- REJOIN in one thread (R141). -/
def rejoinSem (k n : Nat) : EachSem := fun c s =>
  let s := s.updThread c.ref fun t => { t with st := .rejoining k (c.g.pair (2 * n)) }
  s.rejoinCheck c.r [k]

/-- The meaning of REJOIN. -/
def execRejoin (pf : Pfx) (k : BitVec 8) (n : BitVec 4) (s : State) : Host.Outcome State Fault Refusal :=
  runEachOf (.rejoin pf k n) (rejoinSem k.toNat n.toNat) s

/-! ### EXIT (R143) -/

/-- The registers a deferred load fault is to make full again (R419, R455): EXIT delivers it and does not wait. -/
def Thread.defdRegs (t : Thread) : List Nat :=
  t.defd.flatMap fun d => match d.kind with | .load 0 rs => rs | _ => []

/-- Does an access whose failure would be reported as a deferred fault hold up EXIT (R143)? -/
def State.holdsExit (s : State) (a : Acc) : Bool :=
  a.va / 2 ^ 56 == 0xFC || (s.remoteOf a).isSome || a.again
  || (match a.st with | .held _ | .arrHeld => true | _ => false)

/-- Does a thread have a copy job that has not completed (R143)? -/
def State.hasJob (s : State) (t : TRef) : Bool := s.cores.any fun c => c.2.jobs.any fun j => decide (j.t = t)

/-- A thread exits (R143); an exited thread counts at barriers and REJOINs (R141, R233). -/
def State.exitThread (s : State) (t : TRef) : State :=
  let s := s.updThread t fun th => { th with st := .exited, ri := 0, popped := none }
  let s := s.barCheckAll t.g.grid t.g.team
  match s.group? t.g with
  | some (_, g) => s.rejoinCheck t.g g.rejoinIds
  | none => s

/-- EXIT in one thread (R143). -/
def exitSem : EachSem := fun c s =>
  if !(delNats c.t.defdRegs c.t.we).isEmpty || (s.accsOf c.ref).any s.holdsExit || s.hasJob c.ref then c.park .exit s
  else if !c.t.defd.isEmpty then s.deliverDeferred c.ref 0
  else s.exitThread c.ref

/-- The meaning of EXIT. -/
def execExit (pf : Pfx) (s : State) : Host.Outcome State Fault Refusal := runEachOf (.exit pf) exitSem s

/-! ### YIELD and NOP (R93, R144) -/

/-- The mark of the entry that gives the others precedence for one arbitration round (R93): by partition, one more than
its slot, priority and address. -/
def yieldMark (slot prio pc : Nat) : Nat := 1 + (slot * 256 + prio) * 2 ^ 64 + pc

/-- A partition gives the other ready entries precedence over a group's entry for one round (R93). -/
def State.yieldTo (s : State) (g : Group) (prio pc : Nat) : State :=
  s.updCore g.core fun c => { c with yieldP := Tab.put c.yieldP 0 g.part (yieldMark g.slot prio pc) }

/-- YIELD in one thread (R144): the thread goes on, and its entry yields. -/
def yieldSem : EachSem := fun c s =>
  let s := c.done s
  match s.thread? c.ref with
  | some (_, g, t) => s.yieldTo g t.prio t.pc
  | none => s

/-- The meaning of YIELD. -/
def execYield (pf : Pfx) (s : State) : Host.Outcome State Fault Refusal := runEachOf (.yield pf) yieldSem s

/-- The meaning of NOP (R144). -/
def execNop (pf : Pfx) (s : State) : Host.Outcome State Fault Refusal := runEachOf (.nop pf) (fun c s => c.done s) s

/-! ### The system instructions (R260 to R264) -/

/-- What resumes a thread at the header after its clause (R361). -/
def Thread.afterClause (t : Thread) : Resume := ⟨t.cend, t.cend, t.cend, false⟩

/-- A trap of an instruction (R261). -/
def trapSem (code v : Nat) : EachSem := fun c s =>
  s.takeFault c.ref (s.mkRec c.ref code 0 c.t.pc v) .trap c.t.afterClause

/-- The meaning of TRAP. -/
def execTrap (pf : Pfx) (c : BitVec 16) (s : State) : Host.Outcome State Fault Refusal :=
  runEachOf (.trap pf c) (trapSem 0x16 c.toNat) s

/-- The meaning of BRKPT. -/
def execBrkpt (pf : Pfx) (c : BitVec 16) (s : State) : Host.Outcome State Fault Refusal :=
  runEachOf (.brkpt pf c) (trapSem 0x17 c.toNat) s

/-- SYSCALL, once per issue (R262): a release at system scope; the request goes to the service core, g8 and g9 empty. -/
def syscallSem (code : Nat) : OnceSem := fun c s =>
  if c.tm.kern.gregs < 16 then c.fault 0x03 0 0 s
  else if (span 8 8).any c.g.ge.contains then c.park .reg s
  else if !(c.gset.all fun p => s.fenceReleased c.g.core ⟨c.r, p.1⟩ p.2 4) then s
  else
    let m : SysReq := ⟨s.accNext, c.r, code, (span 8 8).map c.g.reg⟩
    let s := { s with
      accNext := s.accNext + 1
      parts := Tab.adjust s.parts c.tm.part fun q => { q with sys := q.sys ++ [m] } }
    c.done (s.updGroup c.r fun g => g.markEmpty [8, 9])

/-- The meaning of SYSCALL. -/
def execSyscall (pf : Pfx) (c : BitVec 16) (s : State) : Host.Outcome State Fault Refusal :=
  runOnceOf (.syscall pf c) (syscallSem c.toNat) s

/-- The meaning of ULIEN (R263). -/
def execUlien (pf : Pfx) (m : BitVec 5) (s : State) : Host.Outcome State Fault Refusal :=
  runOnceOf (.ulien pf m) (fun c s => c.done (s.updGroup c.r fun g => { g with uli := g.uli ||| m })) s

/-- The meaning of ULIDIS (R263). -/
def execUlidis (pf : Pfx) (m : BitVec 5) (s : State) : Host.Outcome State Fault Refusal :=
  runOnceOf (.ulidis pf m) (fun c s => c.done (s.updGroup c.r fun g => { g with uli := g.uli &&& ~~~ m })) s

/-- ULIRET in one thread (R362, R263): outside a handler, Illegal Instruction. A thread that resumes at a header enters
it as one, and takes no second interrupt there (R363). -/
def uliretSem : EachSem := fun c s =>
  if !c.t.frame.inh then c.fault 0x01 0 0 s
  else
    let s := s.updThread c.ref Thread.uliret
    if c.t.frame.tin then s
    else (s.goHeader c.ref c.t.frame.tpc none).updThread c.ref fun t => { t with intd := c.t.frame.tint }

/-- The meaning of ULIRET. -/
def execUliret (pf : Pfx) (s : State) : Host.Outcome State Fault Refusal := runEachOf (.uliret pf) uliretSem s

/-- The trace record of R264. -/
def traceRec (dtime team gid core code : Nat) : BitVec 128 :=
  BitVec.ofNat 128 ((dtime % 2 ^ 64) * 2 ^ 64 + (team % 2 ^ 32) * 2 ^ 32 + (gid % 256) * 2 ^ 24 + (core % 256) * 2 ^ 16 + code)

/-- EVENT, once per issue (R264). -/
def eventSem (code : Nat) : OnceSem := fun c s =>
  c.done { s with parts := Tab.adjust s.parts c.tm.part fun q =>
    if q.traceOn then { q with trace := q.trace ++ [traceRec s.now c.tm.team c.g.gid c.g.core code] } else q }

/-- The meaning of EVENT. -/
def execEvent (pf : Pfx) (c : BitVec 16) (s : State) : Host.Outcome State Fault Refusal :=
  runOnceOf (.event pf c) (eventSem c.toNat) s

end Sys2Proof.Machine
end

