-- ==== Sys2Proof/Machine/CrossBase.lean ====
section
/-! DEFINITION. How a cross-lane instruction issues (R168): for the whole of its entry, on the members of its mask. -/

namespace Sys2Proof.Machine

/-- What a cross-lane meaning sees: the members in ascending tid, with their values (R168). -/
structure XIn where
  m : Mod
  mem : List (Nat × LIn)
deriving DecidableEq, Repr

/-- What a cross-lane meaning answers: what each member writes, the value of the g destination, and p6. -/
structure XOut where
  lanes : List (Nat × LOut)
  g : Option Nat
  p6 : Option Bool
deriving DecidableEq, Repr

/-- A cross-lane meaning. -/
abbrev XSem := XIn → XOut

/-- What each member writes, and nothing else. -/
def XOut.each (l : List (Nat × LOut)) : XOut := ⟨l, none, none⟩

/-- The member mask of an instruction (R110, R168). -/
def Dec.memberMask (x : Dec) (g : Group) : Nat := match x.sp.mask with | some n => g.pair n | none => 0

/-- The g registers a result is written to: a uniform D, or the g register of a SCAN's lane D (R171, R174). -/
def Dec.gDst (x : Dec) (o : Opds) : List Nat := o.d.unifs x.sp.d.wr ++ (if x.sp.gAlso then o.d.lanes [0] else [])

/-- A thread of the issue with what its checks answer. -/
structure XThread where
  tid : Nat
  t : Thread
  v : Verdict
deriving DecidableEq, Repr

/-- The operands of a thread that passes its checks. -/
def XThread.opds (p : XThread) : Option Opds := match p.v with | .go o => some o | _ => none

/-- A thread after the instruction, with the port and the result that it still has to push (R129). -/
def xCommit (x : Dec) (hp : Nat → Nat → Nat) (out : XOut) (p : XThread) : Thread × Option (Nat × LOut) :=
  match p.v with
  | .go o =>
    let lo := (List.find? (fun q : Nat × LOut => q.1 == p.tid) out.lanes).map (·.2)
    let t := match out.p6 with | some b => p.t.setPred 6 b | none => p.t
    match o.d, lo with
    | .port q, some l => (p.t, some (q, { l with preds := match out.p6 with | some b => [(6, b)] | none => [] }))
    | _, some l => ((t.commit (o.d.lanes x.sp.d.wr) l).advance x hp, none)
    | _, none => (t.advance x hp, none)
  | .skip => (p.t.advance x hp, none)
  | _ => (p.t, none)

/-- Run a cross-lane instruction (R168): when a thread of the entry lacks a register, the entry waits; otherwise every
thread of G takes part at once. -/
def State.runCross (s : State) (i : Instr) (sem : XSem) : State :=
  let r := s.cur.g
  match s.group? r with
  | none => s
  | some (tm, g) =>
    let x := decOf i
    let hp := s.hp tm g
    let act := g.active s.cur.set
    let vs := act.map fun p => (⟨p.1, p.2, x.check tm.kern g p.2⟩ : XThread)
    if vs.any (fun p => p.v == .park) then
      let s := s.putThreads r (vs.map fun p =>
        (p.tid, if p.v == .park then { p.t with st := .parked .reg } else p.t))
      s.finish g none
    else
      let mask := x.memberMask g
      let mem := vs.filterMap fun p => match p.v with
        | .go o => if mask.testBit p.tid then some (p.tid, x.linOf o g p.t p.tid) else none
        | _ => none
      let out := sem ⟨x.pf.m, mem⟩
      let res := vs.map fun p => (p, xCommit x hp out p)
      let s := s.putThreads r (res.map fun p => (p.1.tid, p.2.1))
      let s := match out.g, vs.filterMap XThread.opds with
        | some v, o :: _ =>
          let dst := x.gDst o
          s.updGroup r fun g => g.setRegs (dst.zip (cutWords dst.length v))
        | _, _ => s
      let s := res.foldl (fun s p => match p.2.2 with
      | some (q, o) => s.laneAct i r p.1.tid (.push q o)
      | none => s) s
      let s := vs.foldl (fun s p => match p.v with
        | .fault c => s.raise ⟨r, p.tid⟩ c 0 0
        | .deferred n => s.deliverDeferred ⟨r, p.tid⟩ n
        | _ => s) s
      s.finish g none

/-- The meaning of a cross-lane instruction: one issue of it (R168). -/
def runCrossOf (i : Instr) (sem : XSem) (s : State) : Host.Outcome State Fault Refusal := .next (s.runCross i sem)

end Sys2Proof.Machine
end

