-- ==== Sys2Proof/Machine/Flags.lean ====
section
/-! DEFINITION. Conditions and clamps: the integer and floating comparisons (R111, R152), the predicate operations (R125),
the saturation of integer results (R64), and the classes of FCLASS (R153). -/

namespace Sys2Proof.Machine

/-- An integer clamped to the signed range of n bits (R64). -/
def clampI (n : Nat) (z : Int) : Int := max (-(2 ^ (n - 1) : Nat)) (min z ((2 ^ (n - 1) : Nat) - 1))

/-- The n-bit result of an exact integer under SATC (R64). -/
def formI (n satc : Nat) (z : Int) : Nat := wrapI n (if satc = 1 then clampI n z else z)

/-- The condition of ISETP, ISETP64 and USETP on two n-bit values (R111). -/
def icond (c n a b : Nat) : Bool :=
  let x := sx n a
  let y := sx n b
  match c with
  | 0 => a == b
  | 1 => a != b
  | 2 => decide (x < y)
  | 3 => decide (x ≤ y)
  | 4 => decide (y < x)
  | 5 => decide (y ≤ x)
  | 6 => decide (a < b)
  | 7 => decide (a ≤ b)
  | 8 => decide (b < a)
  | _ => decide (b ≤ a)

/-- The condition of FCMP and DCMP (R152). -/
def fcond (c : Nat) (a b : FVal) : Bool :=
  if a.isNan || b.isNan then decide (7 ≤ c)
  else
    let o := a.cmp b
    match c with
    | 0 | 8 => o == 0
    | 1 | 13 => o != 0
    | 2 | 9 => o == -1
    | 3 | 10 => o != 1
    | 4 | 11 => o == 1
    | 5 | 12 => o != -1
    | 6 => true
    | _ => false

/-- The operations of PSETP (R125). -/
def pcond (c : Nat) (x y : Bool) : Bool :=
  match c with
  | 0 => x && y
  | 1 => x || y
  | 2 => x != y
  | 3 => x && !y
  | 4 => !(x && y)
  | 5 => !(x || y)
  | 6 => x == y
  | _ => x

/-- The class bit of an FP32 value (R153). -/
def fclassBit (x : Nat) : Nat :=
  let neg := bitN x 31
  let ex := fld x 30 23
  let fr := fld x 22 0
  if ex = 255 then (if fr = 0 then (if neg then 0 else 7) else if bitN x 22 then 9 else 8)
  else if ex = 0 then
    if fr = 0 then (if neg then 3 else 4) else (if neg then 2 else 5)
  else if neg then 1 else 6

end Sys2Proof.Machine
end

