-- ==== Sys2Proof/Machine/Integer.lean ====
section
/-! DEFINITION. The integer lane instructions (R118 to R128). -/

namespace Sys2Proof.Machine

/-- IADD (R118). -/
def iaddSem : LaneSem := fun x => LOut.words 1 (formI 32 x.m.satc.toNat (sx 32 x.a + sx 32 x.b))

/-- The meaning of IADD. -/
def execIadd (pf : Pfx) (d a b : BitVec 8) (s : State) : Host.Outcome State Fault Refusal :=
  runLaneOf (.iadd pf d a b) iaddSem s

/-- ISUB (R118). -/
def isubSem : LaneSem := fun x => LOut.words 1 (formI 32 x.m.satc.toNat (sx 32 x.a - sx 32 x.b))

/-- The meaning of ISUB. -/
def execIsub (pf : Pfx) (d a b : BitVec 8) (s : State) : Host.Outcome State Fault Refusal :=
  runLaneOf (.isub pf d a b) isubSem s

/-- IMUL (R118). -/
def imulSem : LaneSem := fun x => LOut.words 1 (formI 32 x.m.satc.toNat (sx 32 x.a * sx 32 x.b))

/-- The meaning of IMUL. -/
def execImul (pf : Pfx) (d a b : BitVec 8) (s : State) : Host.Outcome State Fault Refusal :=
  runLaneOf (.imul pf d a b) imulSem s

/-- IMULH: the floor of the product over 2^32 (R118). -/
def imulhSem : LaneSem := fun x => LOut.words 1 (formI 32 0 (sx 32 x.a * sx 32 x.b / 4294967296))

/-- The meaning of IMULH. -/
def execImulh (pf : Pfx) (d a b : BitVec 8) (s : State) : Host.Outcome State Fault Refusal :=
  runLaneOf (.imulh pf d a b) imulhSem s

/-- IMULH.hu (R118). -/
def imulhHuSem : LaneSem := fun x => LOut.word (x.a * x.b / 4294967296)

/-- The meaning of IMULH.hu. -/
def execImulhHu (pf : Pfx) (d a b : BitVec 8) (s : State) : Host.Outcome State Fault Refusal :=
  runLaneOf (.imulhHu pf d a b) imulhHuSem s

/-- IMAD (R118). -/
def imadSem : LaneSem := fun x => LOut.words 1 (formI 32 x.m.satc.toNat (sx 32 x.a * sx 32 x.b + sx 32 x.d))

/-- The meaning of IMAD. -/
def execImad (pf : Pfx) (d a b : BitVec 8) (s : State) : Host.Outcome State Fault Refusal :=
  runLaneOf (.imad pf d a b) imadSem s

/-- ADD64 (R118). -/
def add64Sem : LaneSem := fun x => LOut.words 2 (formI 64 x.m.satc.toNat (sx 64 x.a + sx 64 x.b))

/-- The meaning of ADD64. -/
def execAdd64 (pf : Pfx) (d a b : BitVec 8) (s : State) : Host.Outcome State Fault Refusal :=
  runLaneOf (.add64 pf d a b) add64Sem s

/-- SUB64 (R118). -/
def sub64Sem : LaneSem := fun x => LOut.words 2 (formI 64 x.m.satc.toNat (sx 64 x.a - sx 64 x.b))

/-- The meaning of SUB64. -/
def execSub64 (pf : Pfx) (d a b : BitVec 8) (s : State) : Host.Outcome State Fault Refusal :=
  runLaneOf (.sub64 pf d a b) sub64Sem s

/-- MUL64 (R118). -/
def mul64Sem : LaneSem := fun x => LOut.words 2 (x.a * x.b)

/-- The meaning of MUL64. -/
def execMul64 (pf : Pfx) (d a b : BitVec 8) (s : State) : Host.Outcome State Fault Refusal :=
  runLaneOf (.mul64 pf d a b) mul64Sem s

/-- ADDC: the carry comes in at bit 0 of D and goes out to the register above D (R121). -/
def addcSem : LaneSem := fun x =>
  let v := x.a + x.b + x.d % 2
  LOut.words 2 (v % 4294967296 + v / 4294967296 * 4294967296)

/-- The meaning of ADDC. -/
def execAddc (pf : Pfx) (d a b : BitVec 8) (s : State) : Host.Outcome State Fault Refusal :=
  runLaneOf (.addc pf d a b) addcSem s

/-- SUBB: as ADDC, with a borrow (R121). -/
def subbSem : LaneSem := fun x =>
  let v : Int := (x.a : Int) - x.b - (x.d % 2 : Nat)
  LOut.words 2 (wrapI 32 v + ofB (decide (v < 0)) * 4294967296)

/-- The meaning of SUBB. -/
def execSubb (pf : Pfx) (d a b : BitVec 8) (s : State) : Host.Outcome State Fault Refusal :=
  runLaneOf (.subb pf d a b) subbSem s

/-- IMIN (R118). -/
def iminSem : LaneSem := fun x => LOut.word (if sx 32 x.a ≤ sx 32 x.b then x.a else x.b)

/-- The meaning of IMIN. -/
def execImin (pf : Pfx) (d a b : BitVec 8) (s : State) : Host.Outcome State Fault Refusal :=
  runLaneOf (.imin pf d a b) iminSem s

/-- IMIN.nu (R118). -/
def iminNuSem : LaneSem := fun x => LOut.word (min x.a x.b)

/-- The meaning of IMIN.nu. -/
def execIminNu (pf : Pfx) (d a b : BitVec 8) (s : State) : Host.Outcome State Fault Refusal :=
  runLaneOf (.iminNu pf d a b) iminNuSem s

/-- IMAX (R118). -/
def imaxSem : LaneSem := fun x => LOut.word (if sx 32 x.a ≤ sx 32 x.b then x.b else x.a)

/-- The meaning of IMAX. -/
def execImax (pf : Pfx) (d a b : BitVec 8) (s : State) : Host.Outcome State Fault Refusal :=
  runLaneOf (.imax pf d a b) imaxSem s

/-- IMAX.nu (R118). -/
def imaxNuSem : LaneSem := fun x => LOut.word (max x.a x.b)

/-- The meaning of IMAX.nu. -/
def execImaxNu (pf : Pfx) (d a b : BitVec 8) (s : State) : Host.Outcome State Fault Refusal :=
  runLaneOf (.imaxNu pf d a b) imaxNuSem s

/-- LEA (R122): SCL is not negative here. -/
def leaSem : LaneSem := fun x => LOut.words 2 (wrapI 64 (x.a + sx 32 x.b * (2 ^ x.m.scl.toNat : Nat)))

/-- The meaning of LEA. -/
def execLea (pf : Pfx) (d a b : BitVec 8) (s : State) : Host.Outcome State Fault Refusal :=
  runLaneOf (.lea pf d a b) leaSem s

/-- AND (R118). -/
def andSem : LaneSem := fun x => LOut.word (x.a &&& x.b)

/-- The meaning of AND. -/
def execAnd (pf : Pfx) (d a b : BitVec 8) (s : State) : Host.Outcome State Fault Refusal :=
  runLaneOf (.and pf d a b) andSem s

/-- OR (R118). -/
def orSem : LaneSem := fun x => LOut.word (x.a ||| x.b)

/-- The meaning of OR. -/
def execOr (pf : Pfx) (d a b : BitVec 8) (s : State) : Host.Outcome State Fault Refusal :=
  runLaneOf (.or pf d a b) orSem s

/-- XOR (R118). -/
def xorSem : LaneSem := fun x => LOut.word (x.a ^^^ x.b)

/-- The meaning of XOR. -/
def execXor (pf : Pfx) (d a b : BitVec 8) (s : State) : Host.Outcome State Fault Refusal :=
  runLaneOf (.xor pf d a b) xorSem s

/-- ANDN (R118). -/
def andnSem : LaneSem := fun x => LOut.word (x.a &&& (x.b ^^^ 4294967295))

/-- The meaning of ANDN. -/
def execAndn (pf : Pfx) (d a b : BitVec 8) (s : State) : Host.Outcome State Fault Refusal :=
  runLaneOf (.andn pf d a b) andnSem s

/-- A left shift of 32 bits by any count (R119). -/
def shl32 (a c : Nat) : Nat := if c < 32 then a * 2 ^ c % 4294967296 else 0

/-- A right shift of 32 bits by any count (R119). -/
def shr32 (a c : Nat) : Nat := if c < 32 then a / 2 ^ c else 0

/-- SHL (R119). -/
def shlSem : LaneSem := fun x => LOut.word (shl32 x.a x.b)

/-- The meaning of SHL. -/
def execShl (pf : Pfx) (d a b : BitVec 8) (s : State) : Host.Outcome State Fault Refusal :=
  runLaneOf (.shl pf d a b) shlSem s

/-- SHR (R119). -/
def shrSem : LaneSem := fun x => LOut.word (shr32 x.a x.b)

/-- The meaning of SHR. -/
def execShr (pf : Pfx) (d a b : BitVec 8) (s : State) : Host.Outcome State Fault Refusal :=
  runLaneOf (.shr pf d a b) shrSem s

/-- SAR (R119). -/
def sarSem : LaneSem := fun x => LOut.word (wrapI 32 (sx 32 x.a / ((2 ^ min x.b 32 : Nat) : Int)))

/-- The meaning of SAR. -/
def execSar (pf : Pfx) (d a b : BitVec 8) (s : State) : Host.Outcome State Fault Refusal :=
  runLaneOf (.sar pf d a b) sarSem s

/-- A left rotation of 32 bits. -/
def rotl32 (a c : Nat) : Nat := (a * 2 ^ (c % 32) + a / 2 ^ (32 - c % 32)) % 4294967296

/-- ROT (R119). -/
def rotSem : LaneSem := fun x => LOut.word (rotl32 x.a x.b)

/-- The meaning of ROT. -/
def execRot (pf : Pfx) (d a b : BitVec 8) (s : State) : Host.Outcome State Fault Refusal :=
  runLaneOf (.rot pf d a b) rotSem s

/-- FUNNEL: A is the high word and the old D the low word (R119). -/
def funnelSem : LaneSem := fun x => LOut.word ((x.a * 4294967296 + x.d) / 2 ^ (x.b % 64) % 4294967296)

/-- The meaning of FUNNEL. -/
def execFunnel (pf : Pfx) (d a b : BitVec 8) (s : State) : Host.Outcome State Fault Refusal :=
  runLaneOf (.funnel pf d a b) funnelSem s

/-- Position and length of a field descriptor (R120). -/
def bfPos (b : Nat) : Nat := b % 32

/-- The length of a field descriptor (R120). -/
def bfLen (b : Nat) : Nat := min (fld b 13 8) (32 - bfPos b)

/-- BFE (R120). -/
def bfeSem : LaneSem := fun x =>
  let n := bfLen x.b
  let f := x.a / 2 ^ bfPos x.b % 2 ^ n
  LOut.word (if bitN x.b 15 ∧ 0 < n then wrapI 32 (sx n f) else f)

/-- The meaning of BFE. -/
def execBfe (pf : Pfx) (d a b : BitVec 8) (s : State) : Host.Outcome State Fault Refusal :=
  runLaneOf (.bfe pf d a b) bfeSem s

/-- BFI (R120). -/
def bfiSem : LaneSem := fun x =>
  let n := bfLen x.b
  let k := bfPos x.b
  LOut.word (if n = 0 then x.d else putFld x.d (k + n - 1) k x.a)

/-- The meaning of BFI. -/
def execBfi (pf : Pfx) (d a b : BitVec 8) (s : State) : Host.Outcome State Fault Refusal :=
  runLaneOf (.bfi pf d a b) bfiSem s

/-- The number of set bits of n bits. -/
def popN (a : Nat) : Nat → Nat
  | 0 => 0
  | n + 1 => popN a n + ofB (a.testBit n)

/-- Zero bits below the lowest set bit; n when there is none. -/
def ctzN (a k : Nat) : Nat → Nat
  | 0 => k
  | n + 1 => if a.testBit k then k else ctzN a (k + 1) n

/-- The reversal of n bits. -/
def brevN (a : Nat) : Nat → Nat
  | 0 => 0
  | n + 1 => 2 * brevN a n + ofB (a.testBit n)

/-- POPC (R118). -/
def popcSem : LaneSem := fun x => LOut.word (popN x.a 32)

/-- The meaning of POPC. -/
def execPopc (pf : Pfx) (d a : BitVec 8) (s : State) : Host.Outcome State Fault Refusal :=
  runLaneOf (.popc pf d a) popcSem s

/-- CLZ (R118). -/
def clzSem : LaneSem := fun x => LOut.word (if x.a = 0 then 32 else 31 - Nat.log2 x.a)

/-- The meaning of CLZ. -/
def execClz (pf : Pfx) (d a : BitVec 8) (s : State) : Host.Outcome State Fault Refusal :=
  runLaneOf (.clz pf d a) clzSem s

/-- CTZ (R118). -/
def ctzSem : LaneSem := fun x => LOut.word (ctzN x.a 0 32)

/-- The meaning of CTZ. -/
def execCtz (pf : Pfx) (d a : BitVec 8) (s : State) : Host.Outcome State Fault Refusal :=
  runLaneOf (.ctz pf d a) ctzSem s

/-- BREV (R118). -/
def brevSem : LaneSem := fun x => LOut.word (brevN x.a 32)

/-- The meaning of BREV. -/
def execBrev (pf : Pfx) (d a : BitVec 8) (s : State) : Host.Outcome State Fault Refusal :=
  runLaneOf (.brev pf d a) brevSem s

/-- MOV (R118). -/
def movSem : LaneSem := fun x => LOut.word x.a

/-- The meaning of MOV. -/
def execMov (pf : Pfx) (d a : BitVec 8) (s : State) : Host.Outcome State Fault Refusal :=
  runLaneOf (.mov pf d a) movSem s

/-- SEL: GP and GNEG choose (R123). -/
def selSem : LaneSem := fun x => LOut.word (if (x.t.pred x.m.gp.toNat).xor x.m.gneg then x.a else x.b)

/-- The meaning of SEL. -/
def execSel (pf : Pfx) (d a b : BitVec 8) (s : State) : Host.Outcome State Fault Refusal :=
  runLaneOf (.sel pf d a b) selSem s

/-- ISETP (R124). -/
def isetpSem (c : BitVec 5) (p : BitVec 3) : LaneSem := fun x => LOut.pred p.toNat (icond c.toNat 32 x.a x.b)

/-- The meaning of ISETP. -/
def execIsetp (pf : Pfx) (c : BitVec 5) (p : BitVec 3) (a b : BitVec 8) (s : State) : Host.Outcome State Fault Refusal :=
  runLaneOf (.isetp pf c p a b) (isetpSem c p) s

/-- ISETP64 (R124). -/
def isetp64Sem (c : BitVec 5) (p : BitVec 3) : LaneSem := fun x => LOut.pred p.toNat (icond c.toNat 64 x.a x.b)

/-- The meaning of ISETP64. -/
def execIsetp64 (pf : Pfx) (c : BitVec 5) (p : BitVec 3) (a b : BitVec 8) (s : State) : Host.Outcome State Fault Refusal :=
  runLaneOf (.isetp64 pf c p a b) (isetp64Sem c p) s

/-- PSETP (R125). -/
def psetpSem (c : BitVec 5) (p u v : BitVec 3) : LaneSem := fun x => LOut.pred p.toNat (pcond c.toNat (x.t.pred u.toNat) (x.t.pred v.toNat))

/-- The meaning of PSETP. -/
def execPsetp (pf : Pfx) (c : BitVec 5) (p x y : BitVec 3) (s : State) : Host.Outcome State Fault Refusal :=
  runLaneOf (.psetp pf c p x y) (psetpSem c p x y) s

/-- MOVI (R126). -/
def moviSem (i : BitVec 16) : LaneSem := fun _ => LOut.word i.toNat

/-- The meaning of MOVI. -/
def execMovi (pf : Pfx) (d : BitVec 8) (i : BitVec 16) (s : State) : Host.Outcome State Fault Refusal :=
  runLaneOf (.movi pf d i) (moviSem i) s

/-- MOVHI keeps bits [15:0] (R126). -/
def movhiSem (i : BitVec 16) : LaneSem := fun x => LOut.word (x.d % 65536 + i.toNat * 65536)

/-- The meaning of MOVHI. -/
def execMovhi (pf : Pfx) (d : BitVec 8) (i : BitVec 16) (s : State) : Host.Outcome State Fault Refusal :=
  runLaneOf (.movhi pf d i) (movhiSem i) s

/-- Byte i of a word. -/
def byteAt (x i : Nat) : Nat := x / 256 ^ i % 256

/-- IDOT4; an immediate gives every byte its value (R103, R127). -/
def idot4Sem : LaneSem := fun x =>
  let p := fun i => sx 8 (byteAt x.a i) * sx 8 (if x.bImm then byteAt x.b 0 else byteAt x.b i)
  LOut.word (formI 32 x.m.satc.toNat (sx 32 x.d + p 0 + p 1 + p 2 + p 3))

/-- The meaning of IDOT4. -/
def execIdot4 (pf : Pfx) (d a b : BitVec 8) (s : State) : Host.Outcome State Fault Refusal :=
  runLaneOf (.idot4 pf d a b) idot4Sem s

/-- DMULS: the product over 10^k, rounded to an integer (R128). -/
def dmulsSem : LaneSem := fun x =>
  let z := sx 64 x.a * sx 64 x.b
  let q := roundRat (modeOr x.m.rnd.toNat 1) (decide (z < 0)) z.natAbs (10 ^ (x.d % 64)) 0
  LOut.words 4 (wrapI 128 (if z < 0 then -(q : Int) else q))

/-- The meaning of DMULS. -/
def execDmuls (pf : Pfx) (d a b : BitVec 8) (s : State) : Host.Outcome State Fault Refusal :=
  runLaneOf (.dmuls pf d a b) dmulsSem s

end Sys2Proof.Machine
end

