-- ==== Sys2Proof/Machine/LaneFloat.lean ====
section
/-! DEFINITION. Lane floating point (R149 to R157). -/

namespace Sys2Proof.Machine

/-- SCL as a signed number (R101). -/
def Mod.sclZ (m : Mod) : Int := sx 4 m.scl.toNat

/-- The bits of operand A in a format, with its sign modifiers (R149). -/
def LIn.fbA (x : LIn) (f : Fmt) : Nat := modBits f x.m.nega x.m.absa (x.a % 2 ^ (f.body + 1))

/-- The bits of operand B in a format: an immediate is converted (R103, R149). -/
def LIn.fbB (x : LIn) (f : Fmt) : Nat :=
  modBits f x.m.negb x.m.absb (if x.bImm then immBits f (sx 8 x.b) else x.b % 2 ^ (f.body + 1))

/-- Operand A decoded (R149). -/
def LIn.fa (x : LIn) (f : Fmt) : FVal := decodeF f (x.fbA f)

/-- Operand B decoded (R149). -/
def LIn.fb (x : LIn) (f : Fmt) : FVal := decodeF f (x.fbB f)

/-- Operand D decoded. -/
def LIn.fd (x : LIn) (f : Fmt) : FVal := decodeF f x.d

/-- The rounding mode, nearest even by default (R75). -/
def LIn.mode (x : LIn) : Nat := modeOr x.m.rnd.toNat 1

/-- A floating result formed as SCL, RND and SATC say (R79). -/
def LIn.form (x : LIn) (f : Fmt) (v : FVal) : Nat := formF f x.m.rnd.toNat x.m.satc.toNat (Mod.sclZ x.m) v false

/-- FADD (R150). -/
def faddSem : LaneSem := fun x => LOut.words 1 (x.form .f32 (fsum x.mode [x.fa .f32, x.fb .f32]))

/-- The meaning of FADD. -/
def execFadd (pf : Pfx) (d a b : BitVec 8) (s : State) : Host.Outcome State Fault Refusal :=
  runLaneOf (.fadd pf d a b) faddSem s

/-- FMUL (R150). -/
def fmulSem : LaneSem := fun x => LOut.words 1 (x.form .f32 ((x.fa .f32).mul (x.fb .f32)))

/-- The meaning of FMUL. -/
def execFmul (pf : Pfx) (d a b : BitVec 8) (s : State) : Host.Outcome State Fault Refusal :=
  runLaneOf (.fmul pf d a b) fmulSem s

/-- FFMA rounds once (R150, R86). -/
def ffmaSem : LaneSem := fun x => LOut.words 1 (x.form .f32 (fsum x.mode [(x.fa .f32).mul (x.fb .f32), x.fd .f32]))

/-- The meaning of FFMA. -/
def execFfma (pf : Pfx) (d a b : BitVec 8) (s : State) : Host.Outcome State Fault Refusal :=
  runLaneOf (.ffma pf d a b) ffmaSem s

/-- FMIN (R151). -/
def fminSem : LaneSem := fun x => LOut.word (fminmax false (x.fbA .f32) (x.fbB .f32))

/-- The meaning of FMIN. -/
def execFmin (pf : Pfx) (d a b : BitVec 8) (s : State) : Host.Outcome State Fault Refusal :=
  runLaneOf (.fmin pf d a b) fminSem s

/-- FMAX (R151). -/
def fmaxSem : LaneSem := fun x => LOut.word (fminmax true (x.fbA .f32) (x.fbB .f32))

/-- The meaning of FMAX. -/
def execFmax (pf : Pfx) (d a b : BitVec 8) (s : State) : Host.Outcome State Fault Refusal :=
  runLaneOf (.fmax pf d a b) fmaxSem s

/-- FCMP (R152). -/
def fcmpSem (c : BitVec 5) (p : BitVec 3) : LaneSem := fun x => LOut.pred p.toNat (fcond c.toNat (x.fa .f32) (x.fb .f32))

/-- The meaning of FCMP. -/
def execFcmp (pf : Pfx) (c : BitVec 5) (p : BitVec 3) (a b : BitVec 8) (s : State) : Host.Outcome State Fault Refusal :=
  runLaneOf (.fcmp pf c p a b) (fcmpSem c p) s

/-- FCLASS (R153). -/
def fclassSem : LaneSem := fun x => LOut.word (2 ^ fclassBit x.a)

/-- The meaning of FCLASS. -/
def execFclass (pf : Pfx) (d a : BitVec 8) (s : State) : Host.Outcome State Fault Refusal :=
  runLaneOf (.fclass pf d a) fclassSem s

/-- FRND: to an integral value; a zero keeps the sign of the operand (R154). -/
def frndSem : LaneSem := fun x =>
  let v := match x.fa .f32 with
    | .fin n m e => .fin n (roundInt x.mode n m e 0).natAbs 0
    | v => v
  LOut.word (formF .f32 1 x.m.satc.toNat 0 v false)

/-- The meaning of FRND. -/
def execFrnd (pf : Pfx) (d a : BitVec 8) (s : State) : Host.Outcome State Fault Refusal :=
  runLaneOf (.frnd pf d a) frndSem s

/-- Element i of a packed operand as an operand of its own: the modifiers act on each element's sign (R149, R156). -/
def LIn.elem (x : LIn) (i : Nat) : LIn :=
  { x with a := x.a / 65536 ^ i % 65536, d := x.d / 65536 ^ i % 65536, b := if x.bImm then x.b else x.b / 65536 ^ i % 65536 }

/-- A packed result: each element computed and formed for itself (R156). -/
def packed (f : Fmt) (g : LIn → FVal) (x : LIn) : LOut :=
  let e := fun i => (x.elem i).form f (g (x.elem i))
  LOut.word (e 0 + 65536 * e 1)

/-- HADD2 (R156). -/
def hadd2Sem : LaneSem := fun x => packed .f16 (fun y => fsum y.mode [y.fa .f16, y.fb .f16]) x

/-- The meaning of HADD2. -/
def execHadd2 (pf : Pfx) (d a b : BitVec 8) (s : State) : Host.Outcome State Fault Refusal :=
  runLaneOf (.hadd2 pf d a b) hadd2Sem s

/-- HMUL2 (R156). -/
def hmul2Sem : LaneSem := fun x => packed .f16 (fun y => (y.fa .f16).mul (y.fb .f16)) x

/-- The meaning of HMUL2. -/
def execHmul2 (pf : Pfx) (d a b : BitVec 8) (s : State) : Host.Outcome State Fault Refusal :=
  runLaneOf (.hmul2 pf d a b) hmul2Sem s

/-- HFMA2 (R156). -/
def hfma2Sem : LaneSem := fun x => packed .f16 (fun y => fsum y.mode [(y.fa .f16).mul (y.fb .f16), y.fd .f16]) x

/-- The meaning of HFMA2. -/
def execHfma2 (pf : Pfx) (d a b : BitVec 8) (s : State) : Host.Outcome State Fault Refusal :=
  runLaneOf (.hfma2 pf d a b) hfma2Sem s

/-- BDOT2: d + a0·b0 + a1·b1, rounded once (R157). -/
def bdot2Sem : LaneSem := fun x =>
  let p := fun i => ((x.elem i).fa .bf16).mul ((x.elem i).fb .bf16)
  LOut.word (x.form .f32 (fsum x.mode [x.fd .f32, p 0, p 1]))

/-- The meaning of BDOT2. -/
def execBdot2 (pf : Pfx) (d a b : BitVec 8) (s : State) : Host.Outcome State Fault Refusal :=
  runLaneOf (.bdot2 pf d a b) bdot2Sem s

/-- DADD (R155). -/
def daddSem : LaneSem := fun x => LOut.words 2 (x.form .f64 (fsum x.mode [x.fa .f64, x.fb .f64]))

/-- The meaning of DADD. -/
def execDadd (pf : Pfx) (d a b : BitVec 8) (s : State) : Host.Outcome State Fault Refusal :=
  runLaneOf (.dadd pf d a b) daddSem s

/-- DMUL (R155). -/
def dmulSem : LaneSem := fun x => LOut.words 2 (x.form .f64 ((x.fa .f64).mul (x.fb .f64)))

/-- The meaning of DMUL. -/
def execDmul (pf : Pfx) (d a b : BitVec 8) (s : State) : Host.Outcome State Fault Refusal :=
  runLaneOf (.dmul pf d a b) dmulSem s

/-- DFMA rounds once (R155, R86). -/
def dfmaSem : LaneSem := fun x => LOut.words 2 (x.form .f64 (fsum x.mode [(x.fa .f64).mul (x.fb .f64), x.fd .f64]))

/-- The meaning of DFMA. -/
def execDfma (pf : Pfx) (d a b : BitVec 8) (s : State) : Host.Outcome State Fault Refusal :=
  runLaneOf (.dfma pf d a b) dfmaSem s

/-- DCMP (R152). -/
def dcmpSem (c : BitVec 5) (p : BitVec 3) : LaneSem := fun x => LOut.pred p.toNat (fcond c.toNat (x.fa .f64) (x.fb .f64))

/-- The meaning of DCMP. -/
def execDcmp (pf : Pfx) (c : BitVec 5) (p : BitVec 3) (a b : BitVec 8) (s : State) : Host.Outcome State Fault Refusal :=
  runLaneOf (.dcmp pf c p a b) (dcmpSem c p) s

/-- HADD2.bf16 (R156). -/
def hadd2Bf16Sem : LaneSem := fun x => packed .bf16 (fun y => fsum y.mode [y.fa .bf16, y.fb .bf16]) x

/-- The meaning of HADD2.bf16. -/
def execHadd2Bf16 (pf : Pfx) (d a b : BitVec 8) (s : State) : Host.Outcome State Fault Refusal :=
  runLaneOf (.hadd2Bf16 pf d a b) hadd2Bf16Sem s

/-- HMUL2.bf16 (R156). -/
def hmul2Bf16Sem : LaneSem := fun x => packed .bf16 (fun y => (y.fa .bf16).mul (y.fb .bf16)) x

/-- The meaning of HMUL2.bf16. -/
def execHmul2Bf16 (pf : Pfx) (d a b : BitVec 8) (s : State) : Host.Outcome State Fault Refusal :=
  runLaneOf (.hmul2Bf16 pf d a b) hmul2Bf16Sem s

/-- HFMA2.bf16 (R156). -/
def hfma2Bf16Sem : LaneSem := fun x => packed .bf16 (fun y => fsum y.mode [(y.fa .bf16).mul (y.fb .bf16), y.fd .bf16]) x

/-- The meaning of HFMA2.bf16. -/
def execHfma2Bf16 (pf : Pfx) (d a b : BitVec 8) (s : State) : Host.Outcome State Fault Refusal :=
  runLaneOf (.hfma2Bf16 pf d a b) hfma2Bf16Sem s

end Sys2Proof.Machine
end

