-- ==== Sys2Proof/Machine/CrossLane.lean ====
section
/-! DEFINITION. The cross-lane instructions (R169 to R176). -/

namespace Sys2Proof.Machine

/-- The source a member fetches from (R169): none gives the thread its own value. -/
def shflSrc (f k rank n tid : Nat) (tids : List Nat) : Option Nat :=
  match f with
  | 0 => if tids.contains k then some k else none
  | 1 => tids[rank + k]?
  | 2 => if k ≤ rank then tids[rank - k]? else none
  | 3 => tids[(rank + k) % n]?
  | _ => if tids.contains (tid ^^^ k) then some (tid ^^^ k) else none

/-- The value of A of a member. -/
def XIn.valOf (x : XIn) (tid : Nat) : Nat :=
  match List.find? (fun p : Nat × LIn => p.1 == tid) x.mem with | some p => p.2.a | none => 0

/-- The tids of the members. -/
def XIn.tids (x : XIn) : List Nat := x.mem.map (·.1)

/-- A shuffle of values of n registers (R169). -/
def shuffle (cnt f : Nat) (x : XIn) : XOut :=
  .each <| x.mem.zipIdx.map fun p =>
    let src := shflSrc f (p.1.2.d % 64) p.2 x.mem.length p.1.1 x.tids
    (p.1.1, LOut.words cnt (match src with | some u => x.valOf u | none => p.1.2.a))

/-- SHFL (R169). -/
def shflSem (f : BitVec 4) : XSem := fun x => shuffle 1 f.toNat x

/-- The meaning of SHFL. -/
def execShfl (pf : Pfx) (d a : BitVec 8) (n f : BitVec 4) (s : State) : Host.Outcome State Fault Refusal :=
  runCrossOf (.shfl pf d a n f) (shflSem f) s

/-- SHFLX (R169). -/
def shflxSem (f : BitVec 4) : XSem := fun x => shuffle 2 f.toNat x

/-- The meaning of SHFLX. -/
def execShflx (pf : Pfx) (d a : BitVec 8) (n f : BitVec 4) (s : State) : Host.Outcome State Fault Refusal :=
  runCrossOf (.shflx pf d a n f) (shflxSem f) s

/-- PERM (R170). -/
def permSem : XSem := fun x =>
  .each <| x.mem.map fun p =>
    (p.1, LOut.word (match x.mem[p.2.d % x.mem.length]? with | some q => q.2.a | none => 0))

/-- The meaning of PERM. -/
def execPerm (pf : Pfx) (d a : BitVec 8) (n : BitVec 4) (s : State) : Host.Outcome State Fault Refusal :=
  runCrossOf (.perm pf d a n) permSem s

/-- The members with a non-zero A. -/
def XIn.live (x : XIn) : List Nat := (List.filter (fun p : Nat × LIn => p.2.a != 0) x.mem).map (·.1)

/-- The mask of tids. -/
def maskOf (l : List Nat) : Nat := l.foldl (fun m t => m ||| 2 ^ t) 0

/-- The pair VOTE writes (R171). -/
def voteVal (f : Nat) (x : XIn) : Nat :=
  match f with
  | 0 => maskOf x.live
  | 1 => x.live.length + 2 ^ 32 * x.mem.length
  | 2 =>
    match x.mem with
    | [] => 1 + 2 ^ 32 * 64
    | p :: _ =>
      match List.find? (fun q : Nat × LIn => q.2.a != p.2.a) x.mem with
      | some q => 2 ^ 32 * q.1
      | none => 1 + 2 ^ 32 * 64
  | _ => x.live.headD 64 + 2 ^ 32 * x.live.getLastD 64

/-- VOTE (R171). -/
def voteSem (f : BitVec 4) : XSem := fun x => ⟨[], some (voteVal f.toNat x), none⟩

/-- The meaning of VOTE. -/
def execVote (pf : Pfx) (d a : BitVec 8) (n f : BitVec 4) (s : State) : Host.Outcome State Fault Refusal :=
  runCrossOf (.vote pf d a n f) (voteSem f) s

/-- The members that hold the value of a member. -/
def XIn.equals (x : XIn) (v : Nat) : List Nat := (List.filter (fun p : Nat × LIn => p.2.a == v) x.mem).map (·.1)

/-- MATCH (R172). -/
def matchLSem (f : BitVec 4) : XSem := fun x =>
  .each <| x.mem.map fun p =>
    let l := x.equals p.2.a
    (p.1, LOut.words 2 (if f.getLsbD 1 then l.headD 0 + 2 ^ 32 * l.idxOf p.1 else maskOf l))

/-- The meaning of MATCH. -/
def execMatchL (pf : Pfx) (d a : BitVec 8) (n f : BitVec 4) (s : State) : Host.Outcome State Fault Refusal :=
  runCrossOf (.matchL pf d a n f) (matchLSem f) s

/-- The integer operations of REDUCE and SCAN with their identities (R174). -/
def redOp (c a b : Nat) : Nat :=
  match c with
  | 0 => (a + b) % 2 ^ 32
  | 1 => a &&& b
  | 2 => a ||| b
  | 3 => a ^^^ b
  | 4 => if sx 32 a ≤ sx 32 b then a else b
  | 5 => if sx 32 a ≤ sx 32 b then b else a
  | 6 => min a b
  | _ => max a b

/-- The identity of an integer operation (R174). -/
def redId (c : Nat) : Nat := match c with | 1 | 6 => 0xFFFFFFFF | 4 => 0x7FFFFFFF | 5 => 0x80000000 | _ => 0

/-- The combination of the values covered (R174). -/
def redAll (c : Nat) (l : List Nat) : Nat := l.foldl (redOp c) (redId c)

/-- The identity of a floating operation (R174). -/
def fredId (c : Nat) : Nat := match c with | 0 => 0 | 2 => 0xFF800000 | _ => 0x7F800000

/-- The floating combination of the values covered: the exact sum rounded once, or the least or greatest member (R174). -/
def fredAll (c : Nat) (l : List Nat) : Nat :=
  match c, l with
  | _, [] => fredId c
  | 0, l => toF32 (fsum 1 (l.map (decodeF .f32)))
  | _, v :: t =>
    let r := t.foldl (fminmax (c == 2)) v
    if (decodeF .f32 r).isNan then Fmt.f32.nanCode else r

/-- A total to the g destination, with p6 (R174, R175). -/
def total (f : List Nat → Nat) (vals : List Nat) : XOut := ⟨[], some (f vals), some (!vals.isEmpty)⟩

/-- Prefixes to the members and the total to the g destination (R174, R175). -/
def prefixes (f : List Nat → Nat) (ex : Bool) (x : XIn) (vals : List Nat) : XOut :=
  ⟨x.mem.zipIdx.map fun p => (p.1.1, LOut.word (f (vals.take (if ex then p.2 else p.2 + 1)))), some (f vals),
   some (!vals.isEmpty)⟩

/-- The members' FP32 values after their sign modifiers (R149, R174). -/
def XIn.fvals (x : XIn) : List Nat := x.mem.map fun p => p.2.fbA .f32

/-- The members' values. -/
def XIn.vals (x : XIn) : List Nat := x.mem.map fun p => p.2.a

/-- REDUCE (R174). -/
def reduceSem (f : BitVec 4) : XSem := fun x => total (redAll (f.toNat % 8)) x.vals

/-- The meaning of REDUCE. -/
def execReduce (pf : Pfx) (d a : BitVec 8) (n f : BitVec 4) (s : State) : Host.Outcome State Fault Refusal :=
  runCrossOf (.reduce pf d a n f) (reduceSem f) s

/-- REDUCE.f (R174). -/
def reduceFSem (f : BitVec 4) : XSem := fun x => total (fredAll (f.toNat % 8)) x.fvals

/-- The meaning of REDUCE.f. -/
def execReduceF (pf : Pfx) (d a : BitVec 8) (n f : BitVec 4) (s : State) : Host.Outcome State Fault Refusal :=
  runCrossOf (.reduceF pf d a n f) (reduceFSem f) s

/-- SCAN (R174). -/
def scanSem (f : BitVec 4) : XSem := fun x => prefixes (redAll (f.toNat % 8)) (f.getLsbD 3) x x.vals

/-- The meaning of SCAN. -/
def execScan (pf : Pfx) (d a : BitVec 8) (n f : BitVec 4) (s : State) : Host.Outcome State Fault Refusal :=
  runCrossOf (.scan pf d a n f) (scanSem f) s

/-- SCAN.f (R174). -/
def scanFSem (f : BitVec 4) : XSem := fun x => prefixes (fredAll (f.toNat % 8)) (f.getLsbD 3) x x.fvals

/-- The meaning of SCAN.f. -/
def execScanF (pf : Pfx) (d a : BitVec 8) (n f : BitVec 4) (s : State) : Host.Outcome State Fault Refusal :=
  runCrossOf (.scanF pf d a n f) (scanFSem f) s

/-- POPM (R173). -/
def popmSem (f : BitVec 4) : XSem := fun x =>
  .each <| x.mem.map fun p =>
    (p.1, LOut.word (List.filter (fun u => decide (u < p.1) || (f == 1#4 && u == p.1)) x.live).length)

/-- The meaning of POPM. -/
def execPopm (pf : Pfx) (d a : BitVec 8) (n f : BitVec 4) (s : State) : Host.Outcome State Fault Refusal :=
  runCrossOf (.popm pf d a n f) (popmSem f) s

/-- One FP32 sum or difference, rounded to nearest even (R176). -/
def hdmAdd (neg : Bool) (a b : Nat) : Nat :=
  let y := decodeF .f32 b
  toF32 (fsum 1 [decodeF .f32 a, if neg then y.neg else y])

/-- One stage of the transform at distance 2^s (R176). -/
def hdmStage (s : Nat) (v : List Nat) : List Nat :=
  v.zipIdx.map fun p =>
    if p.2.testBit s then hdmAdd true (v.getD (p.2 - 2 ^ s) 0) p.1 else hdmAdd false p.1 (v.getD (p.2 + 2 ^ s) 0)

/-- The scale after a stage (R176). -/
def hdmScale (s : Nat) (v : List Nat) : List Nat :=
  match s with
  | 3 => v.map fun x => toF32 ((decodeF .f32 x).scale (-2))
  | 4 => v.map fun x => toF32 ((decodeF .f32 x).mul (decodeF .f32 0x3F3504F3))
  | _ => v

/-- The first n stages (R176). -/
def hdmAll (v : List Nat) : Nat → List Nat
  | 0 => v
  | n + 1 => hdmScale n (hdmStage n (hdmAll v n))

/-- The transform of every aligned group of 2^k lanes whose lanes are all members (R176). -/
def hadamard (k : Nat) (x : XIn) : XOut :=
  let n := 2 ^ k
  .each <| (span 0 (64 / n)).flatMap fun b =>
    let lanes := span (n * b) n
    if lanes.all x.tids.contains then
      (lanes.zip (hdmAll (lanes.map x.valOf) k)).map fun p => (p.1, LOut.word p.2)
    else []

/-- HDM.16 (R176). -/
def hdm16Sem : XSem := fun x => hadamard 4 x

/-- The meaning of HDM.16. -/
def execHdm16 (pf : Pfx) (d a : BitVec 8) (n : BitVec 4) (s : State) : Host.Outcome State Fault Refusal :=
  runCrossOf (.hdm16 pf d a n) hdm16Sem s

/-- HDM.32 (R176). -/
def hdm32Sem : XSem := fun x => hadamard 5 x

/-- The meaning of HDM.32. -/
def execHdm32 (pf : Pfx) (d a : BitVec 8) (n : BitVec 4) (s : State) : Host.Outcome State Fault Refusal :=
  runCrossOf (.hdm32 pf d a n) hdm32Sem s

end Sys2Proof.Machine
end

