-- ==== Sys2Proof/Machine/CurveKeys.lean ====
section
/-! DEFINITION. The curve-key instructions (R84, R85, R186 to R200). `w` is 61 for 64-bit keys and 125 for 128-bit keys. -/

namespace Sys2Proof.Machine

/-- d: the number of axes of a key (R84, R187). -/
def ckDim (w k : Nat) : Nat := k / 2 ^ w % 8 + 1

/-- b: the bits of each axis (R84). -/
def ckBits (w d : Nat) : Nat := w / d

/-- The low n bits of axis a. -/
def ckAxisBits (k d a : Nat) : Nat → Nat
  | 0 => 0
  | n + 1 => ckAxisBits k d a n + ofB (k.testBit (n * d + a)) * 2 ^ n

/-- axis(k, a), read under d axes (R187). -/
def ckAxisOf (w d k a : Nat) : Nat := if a < d then ckAxisBits k d a (ckBits w d) else 0

/-- axis(k, a) under the key's own DC (R187). -/
def ckAxis (w k a : Nat) : Nat := ckAxisOf w (ckDim w k) k a

/-- The bits of one axis, spread to its key positions. -/
def ckSpread (v d a : Nat) : Nat → Nat
  | 0 => 0
  | n + 1 => ckSpread v d a n + ofB (v.testBit n) * 2 ^ (n * d + a)

/-- The digits that the values from axis a on give. -/
def ckDigits (w d : Nat) : Nat → List Nat → Nat
  | _, [] => 0
  | a, v :: t => ckSpread v d a (ckBits w d) + ckDigits w d (a + 1) t

/-- make(d, v) (R187). -/
def ckMake (w d : Nat) (v : List Nat) : Nat := (d - 1) * 2 ^ w + ckDigits w d 0 v

/-- The axes of a key. -/
def ckAxes (w k : Nat) : List Nat := (span 0 (ckDim w k)).map (ckAxis w k)

/-- canon(k) (R85, R187). -/
def ckCanon (w k : Nat) : Nat := ckMake w (ckDim w k) (ckAxes w k)

/-- fit(v, a): the value kept and the af bit set (R187). -/
def ckFit (w d : Nat) (sat : Bool) (v : Int) (a : Nat) : Nat × Nat :=
  let m : Int := (2 ^ ckBits w d : Nat)
  if v < 0 ∨ m ≤ v then
    ((if sat then (if v < 0 then 0 else (m - 1).toNat) else (v % m).toNat), 2 ^ a)
  else (v.toNat, 0)

/-- A key made of values that pass through fit, with the af bits (R187). -/
def ckFitMake (w d : Nat) (sat : Bool) (v : Nat → Int) : Nat × Nat :=
  let l := (span 0 d).map fun a => ckFit w d sat (v a) a
  (ckMake w d (l.map (·.1)), l.foldl (fun x p => x ||| p.2) 0)

/-- A key result of n registers with af bits. -/
def ckOut (n : Nat) (r : Nat × Nat) : LOut := { LOut.words n r.1 with af := r.2 }

/-- The digits' width: 61, or 125 for the `.q` forms (R84). -/
def ckW (q : Bool) : Nat := if q then 125 else 61

/-- SATC 01. -/
def LIn.sat (x : LIn) : Bool := x.m.satc == 1#2

/-! ### Boxes (R188) -/

/-- A box: its number of axes and the range of each; a box that is empty has none. -/
structure Box where
  d : Nat
  ax : List (Nat × Nat)
deriving DecidableEq, Repr

/-- The box of a lane quad: lo in the low pair, hi in the high pair (R188); none when it is empty. -/
def boxOf (x : Nat) : Option Box :=
  let lo := x % 2 ^ 64
  let hi := x / 2 ^ 64
  let d := ckDim 61 lo
  let ax := (span 0 d).map fun a => (ckAxisOf 61 d lo a, ckAxisOf 61 d hi a)
  if ckDim 61 hi = d ∧ ax.all (fun r => decide (r.1 ≤ r.2)) then some ⟨d, ax⟩ else none

/-- The corner keys of a box. -/
def Box.lo (b : Box) : Nat := ckMake 61 b.d (b.ax.map (·.1))

/-- The corner keys of a box. -/
def Box.hi (b : Box) : Nat := ckMake 61 b.d (b.ax.map (·.2))

/-- The number of keys of a box. -/
def Box.count (b : Box) : Nat := b.ax.foldl (fun n r => n * (r.2 - r.1 + 1)) 1

/-- Is the box contiguous (R188)? -/
def Box.contiguous (b : Box) : Bool := b.count == b.hi - b.lo + 1

/-- Is a canonical key in a box (R188)? -/
def Box.has (b : Box) (k : Nat) : Bool :=
  ckDim 61 k == b.d &&
  ((span 0 b.d).zip b.ax).all fun p => decide (p.2.1 ≤ ckAxis 61 k p.1) && decide (ckAxis 61 k p.1 ≤ p.2.2)

/-- Two ranges' common part. -/
def meet (p q : Nat × Nat) : Nat × Nat := (max p.1 q.1, min p.2 q.2)

/-- The cell of keys that share the key bits from position m up with key k: the range of each axis. -/
def cellOf (d k m : Nat) : List (Nat × Nat) :=
  (span 0 d).map fun a =>
    let n := (m + d - 1 - a) / d
    let v := ckAxisOf 61 d k a / 2 ^ n * 2 ^ n
    (v, v + 2 ^ n - 1)

/-- The part of a box in a cell; none when it is empty. -/
def Box.inCell (b : Box) (k m : Nat) : Option Box :=
  let ax := (b.ax.zip (cellOf b.d k m)).map fun p => meet p.1 p.2
  if ax.all (fun r => decide (r.1 ≤ r.2)) then some ⟨b.d, ax⟩ else none

/-- The smallest key of a box that lies in a cell beside key k, above it, at one of n bit positions from m up. -/
def Box.above (b : Box) (k m : Nat) : Nat → Option Nat
  | 0 => none
  | n + 1 =>
    if k.testBit m then b.above k (m + 1) n
    else
      match b.inCell (k + 2 ^ m) m with
      | some c => some c.lo
      | none => b.above k (m + 1) n

/-- The largest key of a box that lies in a cell beside key k, below it, at one of n bit positions from m up. -/
def Box.below (b : Box) (k m : Nat) : Nat → Option Nat
  | 0 => none
  | n + 1 =>
    if k.testBit m then
      match b.inCell (k - 2 ^ m) m with
      | some c => some c.hi
      | none => b.below k (m + 1) n
    else b.below k (m + 1) n

/-- The smallest key of a box at or past a canonical key; strictly past it when `x` (R195). -/
def Box.next (b : Box) (k : Nat) (x : Bool) : Option Nat :=
  let d := ckDim 61 k
  if d < b.d then some b.lo
  else if b.d < d then none
  else if b.has k && !x then some k
  else b.above k 0 (ckBits 61 d * d)

/-- The largest key of a box at or before a canonical key; strictly before it when `x` (R195). -/
def Box.prev (b : Box) (k : Nat) (x : Bool) : Option Nat :=
  let d := ckDim 61 k
  if b.d < d then some b.hi
  else if d < b.d then none
  else if b.has k && !x then some k
  else b.below k 0 (ckBits 61 d * d)

/-- The boxes whose union is the keys of the box's DC outside it: one axis below or above its range. -/
def Box.outside (b : Box) : List Box :=
  let top := 2 ^ ckBits 61 b.d - 1
  (span 0 b.d).flatMap fun a =>
    let r := b.ax.getD a (0, 0)
    let full := b.ax.map fun _ => (0, top)
    (if 0 < r.1 then [⟨b.d, setNth full a (0, r.1 - 1)⟩] else [])
    ++ (if r.2 < top then [⟨b.d, setNth full a (r.2 + 1, top)⟩] else [])

/-- The last key of the run of a box's keys that starts at k (R197). -/
def Box.runEnd (b : Box) (k : Nat) : Nat :=
  match (b.outside.filterMap fun o => o.next k false) with
  | [] => (b.d - 1) * 2 ^ 61 + (2 ^ (ckBits 61 b.d * b.d) - 1)
  | e :: t => t.foldl min e - 1

/-- A key plus one: digits modulo 2^(b·d), DC kept (R197). -/
def ckSucc (k : Nat) : Nat :=
  let d := ckDim 61 k
  (d - 1) * 2 ^ 61 + (k % 2 ^ 61 + 1) % 2 ^ (ckBits 61 d * d)

/-- Up to n runs of a box from a key on, and whether no run follows them (R197). -/
def Box.runs (b : Box) (k : Nat) (x : Bool) : Nat → List (Nat × Nat) × Bool
  | 0 => ([], (b.next k x).isNone)
  | n + 1 =>
    match b.next k x with
    | none => ([], true)
    | some s =>
      let e := b.runEnd s
      let r := b.runs e true n
      ((s, e) :: r.1, r.2)

/-- CKPACK (R189). -/
def ckpackSem (q : BitVec 1) (n : BitVec 3) : LaneSem := fun x =>
  let q := q == 1#1
  let w := if q then 64 else 32
  ckOut (if q then 4 else 2) (ckFitMake (ckW q) (n.toNat + 1) x.sat fun i => (x.a / 2 ^ (w * i) % 2 ^ w : Nat))

/-- The meaning of CKPACK. -/
def execCkpack (pf : Pfx) (d a : BitVec 8) (q : BitVec 1) (n : BitVec 3) (s : State) : Host.Outcome State Fault Refusal :=
  runLaneOf (.ckpack pf d a q n) (ckpackSem q n) s

/-- An axis written to a place of n bits: the value kept and the af bit (R187). -/
def ckNarrow (n v a : Nat) : Nat × Nat := (v % 2 ^ n, if 2 ^ n ≤ v then 2 ^ a else 0)

/-- CKUNPK: the registers are those of the key's own DC (R190). -/
def ckunpkSem (q : BitVec 1) : LaneSem := fun x =>
  let q := q == 1#1
  let w := if q then 2 else 1
  let l := (ckAxes (ckW q) x.a).zipIdx.map fun p => (p.2, ckNarrow (32 * w) p.1 p.2)
  { LOut.nil with
    more := l.flatMap fun p => wordsAt (x.dreg + w * p.1) w p.2.1
    need := span x.dreg (w * l.length)
    af := l.foldl (fun z p => z ||| p.2.2) 0 }

/-- The meaning of CKUNPK. -/
def execCkunpk (pf : Pfx) (d a : BitVec 8) (q : BitVec 1) (s : State) : Host.Outcome State Fault Refusal :=
  runLaneOf (.ckunpk pf d a q) (ckunpkSem q) s

/-- CKADD: both keys are read under the DC of A (R192). -/
def ckaddSem : LaneSem := fun x =>
  let d := ckDim 61 x.a
  ckOut 2 (ckFitMake 61 d x.sat fun i => (ckAxisOf 61 d x.a i : Int) + ckAxisOf 61 d x.b i)

/-- The meaning of CKADD. -/
def execCkadd (pf : Pfx) (d a b : BitVec 8) (s : State) : Host.Outcome State Fault Refusal :=
  runLaneOf (.ckadd pf d a b) ckaddSem s

/-- CKSUB (R192). -/
def cksubSem : LaneSem := fun x =>
  let d := ckDim 61 x.a
  ckOut 2 (ckFitMake 61 d x.sat fun i => (ckAxisOf 61 d x.a i : Int) - ckAxisOf 61 d x.b i)

/-- The meaning of CKSUB. -/
def execCksub (pf : Pfx) (d a b : BitVec 8) (s : State) : Host.Outcome State Fault Refusal :=
  runLaneOf (.cksub pf d a b) cksubSem s

/-- CKAXIS (R190). -/
def ckaxisSem (q : BitVec 1) (i : BitVec 3) : LaneSem := fun x =>
  let q := q == 1#1
  let n := if q then 2 else 1
  ckOut n (ckNarrow (32 * n) (ckAxis (ckW q) x.a i.toNat) i.toNat)

/-- The meaning of CKAXIS. -/
def execCkaxis (pf : Pfx) (d a : BitVec 8) (q : BitVec 1) (x : BitVec 3) (s : State) : Host.Outcome State Fault Refusal :=
  runLaneOf (.ckaxis pf d a q x) (ckaxisSem q x) s

/-- CKINS (R191). -/
def ckinsSem (q : BitVec 1) (i : BitVec 3) : LaneSem := fun x =>
  let q := q == 1#1
  let w := ckW q
  let d := ckDim w x.d
  let f := ckFit w d x.sat x.a i.toNat
  let v := (span 0 d).map fun k => if k = i.toNat then f.1 else ckAxis w x.d k
  ckOut (if q then 4 else 2) (ckMake w d v, if i.toNat < d then f.2 else 0)

/-- The meaning of CKINS. -/
def execCkins (pf : Pfx) (d a : BitVec 8) (q : BitVec 1) (x : BitVec 3) (s : State) : Host.Outcome State Fault Refusal :=
  runLaneOf (.ckins pf d a q x) (ckinsSem q x) s

/-- The relation of two canonical keys (R193). -/
def ckRel (w c a b : Nat) : Bool :=
  let x := ckCanon w a
  let y := ckCanon w b
  match c with
  | 0 => x == y
  | 1 => x != y
  | 2 => decide (x < y)
  | 3 => decide (x ≤ y)
  | 4 => decide (y < x)
  | 5 => decide (y ≤ x)
  | _ => ckDim w x == ckDim w y && (span 0 (ckDim w x)).all fun i => decide (ckAxis w x i ≤ ckAxis w y i)

/-- CKCMP: codes 8 and up compare 128-bit keys (R193). -/
def ckcmpSem (c : BitVec 5) (p : BitVec 3) : LaneSem := fun x => LOut.pred p.toNat (ckRel (ckW (decide (8 ≤ c.toNat))) (c.toNat % 8) x.a x.b)

/-- The meaning of CKCMP. -/
def execCkcmp (pf : Pfx) (c : BitVec 5) (p : BitVec 3) (a b : BitVec 8) (s : State) : Host.Outcome State Fault Refusal :=
  runLaneOf (.ckcmp pf c p a b) (ckcmpSem c p) s

/-- The tests of CKBOX (R194). -/
def ckBoxTest (c a b : Nat) : Bool :=
  let k := ckCanon 61 a
  let is := match boxOf b with | some q => q.has k | none => false
  match c with
  | 0 => is
  | 1 => !is
  | _ =>
    let lo := b % 2 ^ 64
    ckDim 61 k == ckDim 61 lo && decide (ckCanon 61 lo ≤ k) && decide (k ≤ ckCanon 61 (b / 2 ^ 64))

/-- CKBOX (R194). -/
def ckboxSem (c : BitVec 5) (p : BitVec 3) : LaneSem := fun x => LOut.pred p.toNat (ckBoxTest c.toNat x.a x.b)

/-- The meaning of CKBOX. -/
def execCkbox (pf : Pfx) (c : BitVec 5) (p : BitVec 3) (a b : BitVec 8) (s : State) : Host.Outcome State Fault Refusal :=
  runLaneOf (.ckbox pf c p a b) (ckboxSem c p) s

/-- A cursor written with p6 true, or kept with p6 false (R195). -/
def ckCursor (r : Option Nat) : LOut :=
  match r with
  | some k => { LOut.words 2 k with preds := [(6, true)] }
  | none => LOut.pred 6 false

/-- CKNEXT (R195). -/
def cknextSem : LaneSem := fun x => ckCursor ((boxOf x.a).bind fun q => q.next (ckCanon 61 x.d) (x.b == 1))

/-- The meaning of CKNEXT. -/
def execCknext (pf : Pfx) (d a b : BitVec 8) (s : State) : Host.Outcome State Fault Refusal :=
  runLaneOf (.cknext pf d a b) cknextSem s

/-- CKPREV (R195). -/
def ckprevSem : LaneSem := fun x => ckCursor ((boxOf x.a).bind fun q => q.prev (ckCanon 61 x.d) (x.b == 1))

/-- The meaning of CKPREV. -/
def execCkprev (pf : Pfx) (d a b : BitVec 8) (s : State) : Host.Outcome State Fault Refusal :=
  runLaneOf (.ckprev pf d a b) ckprevSem s

/-- A box's corners as a lane quad. -/
def Box.quad (b : Box) : Nat := b.lo + b.hi * 2 ^ 64

/-- A box cut at the highest bit where its corners differ: the lower and the upper part (R196). -/
def Box.split (b : Box) : Box × Box :=
  let m := Nat.log2 (b.lo ^^^ b.hi)
  let a := m % b.d
  let j := m / b.d
  let r := b.ax.getD a (0, 0)
  let v := r.2 / 2 ^ j * 2 ^ j
  (⟨b.d, setNth b.ax a (r.1, v - 1)⟩, ⟨b.d, setNth b.ax a (v, r.2)⟩)

/-- CKSPLIT (R196). -/
def cksplitSem : LaneSem := fun x =>
  match boxOf x.d with
  | none => LOut.pred 6 false
  | some q =>
    if q.contiguous then LOut.pred 6 false
    else
      let p := q.split
      { LOut.words 8 (p.1.quad + p.2.quad * 2 ^ 128) with preds := [(6, true)] }

/-- The meaning of CKSPLIT. -/
def execCksplit (pf : Pfx) (d : BitVec 8) (s : State) : Host.Outcome State Fault Refusal :=
  runLaneOf (.cksplit pf d) cksplitSem s

/-- CKRLIST (R197). -/
def ckrlistSem : LaneSem := fun x =>
  let n := min x.b 8
  let c := ckCanon 61 x.d
  let r := match boxOf x.a with | some q => q.runs c false n | none => ([], true)
  let m := r.1.length
  let cur := match r.1.getLast? with | some p => wordsAt x.dreg 2 (ckSucc p.2) | none => []
  { LOut.nil with
    more := cur ++ [(x.dreg + 2, BitVec.ofNat 32 m), (x.dreg + 3, BitVec.ofNat 32 (ofB r.2))]
      ++ r.1.zipIdx.flatMap fun p => wordsAt (x.dreg + 4 + 4 * p.2) 4 (p.1.1 + p.1.2 * 2 ^ 64)
    preds := [(6, decide (0 < m))] }

/-- The meaning of CKRLIST. -/
def execCkrlist (pf : Pfx) (d a b : BitVec 8) (s : State) : Host.Outcome State Fault Refusal :=
  runLaneOf (.ckrlist pf d a b) ckrlistSem s

/-- The largest level of n at most whose digit bits below it are zero (R199). -/
def ckLevel (k d : Nat) : Nat → Nat
  | 0 => 0
  | n + 1 => if k % 2 ^ ((n + 1) * d) = 0 then n + 1 else ckLevel k d n

/-- CKLVL (R199). -/
def cklvlSem (m : BitVec 2) (l : BitVec 6) : LaneSem := fun x =>
  let k := ckCanon 61 x.a
  let d := ckDim 61 k
  let b := ckBits 61 d
  let g := 2 ^ (min l.toNat b * d)
  match m.toNat with
  | 0 => LOut.words 2 (k / g * g)
  | 1 => LOut.words 2 (k / g * g + (g - 1))
  | _ => LOut.word (ckLevel (k % 2 ^ 61) d b)

/-- The meaning of CKLVL. -/
def execCklvl (pf : Pfx) (d a : BitVec 8) (m : BitVec 2) (l : BitVec 6) (s : State) : Host.Outcome State Fault Refusal :=
  runLaneOf (.cklvl pf d a m l) (cklvlSem m l) s

/-- CKWIDE (R200). -/
def ckwideSem (w : BitVec 1) : LaneSem := fun x =>
  if w == 0#1 then
    let d := ckDim 61 x.a
    LOut.words 4 (ckMake 125 d (ckAxes 61 x.a))
  else
    let d := ckDim 125 x.a
    ckOut 2 (ckFitMake 61 d x.sat fun i => (ckAxis 125 x.a i : Int))

/-- The meaning of CKWIDE. -/
def execCkwide (pf : Pfx) (d a : BitVec 8) (w : BitVec 1) (s : State) : Host.Outcome State Fault Refusal :=
  runLaneOf (.ckwide pf d a w) (ckwideSem w) s

end Sys2Proof.Machine
end

