-- ==== Sys2Proof/Machine/Launch.lean ====
section
/-! DEFINITION. LAUNCH (R256), NSEND and NPOST (R258, R427). -/

namespace Sys2Proof.Machine

/-! ### LAUNCH -/

/-- The load that reads a launch record (R256). -/
def recPlan (va : Nat) : Plan :=
  { weakPlan va 64 8 0x01 0 (.load 64 false) with need := ⟨true, false, false⟩, isLoad := true }

/-- A group as it reads its launch record. -/
def launcher (core pasid : Nat) (r : GRef) : Agent := ⟨[5, r.grid, r.team, r.gid], core, pasid, false⟩

/-- What the read of some bytes answers: a fault, a wait, or the bytes; and the machine with what it waits for asked for. -/
abbrev ReadRes := Except MFail (Option (List Byte)) × State

/-- The 64 bytes of a launch record, or the fault of reading it (R205, R256). -/
def State.readRec (s : State) (tm : Team) (core : Nat) (r : GRef) (va : Nat) : ReadRes :=
  match s.planCheck core tm (recPlan va) with
  | .error m => (.error m, s)
  | .ok (.scratch c off, _, _) => (.ok (some (Mem.readList (Tab.getD tm.scratch [] c) off 64)), s)
  | .ok _ =>
    match s.unitRead (launcher core tm.pasid r) va 64 ⟨true, false, false⟩ with
    | (.fail f, s) => (.error ⟨va, f⟩, s)
    | (.wait, s) => (.ok none, s)
    | (.done bs, s) => (.ok (some bs), s)

/-- A record with its eight argument words replaced (R256). -/
def withArgs (rcd : List Byte) (args : Nat) : List Byte := rcd.take 32 ++ toLE 32 args

/-- Is the team's thread 0 in an issue set (R256)? -/
def Once.hasThread0 (c : Once) : Bool := c.g.gid == 0 && c.set.any fun p => p.1 == 0

/-- May a group launch now (R256)? -/
def Team.mayLaunch (t : Team) (g : Group) : Bool :=
  decide (t.pend.length < 4) && decide (g.q1.length + (t.pend.filter fun p => p.gid == g.gid).length < 4)

/-- LAUNCH, once per issue (R256): a release at device scope; the record joins the pending-launch queue. The set waits, not
parked, for the release and for the record's bytes. -/
def launchSem : OnceSem := fun c s =>
  if !c.hasThread0 then c.fault 0x01 0 0 s
  else if 10 ≤ c.tm.depth then c.fault 0x0F 0 0 s
  else if !c.tm.mayLaunch c.g then c.park .launch s
  else if !(c.gset.all fun p => s.fenceReleased c.g.core ⟨c.r, p.1⟩ p.2 3) then s
  else
    match s.readRec c.tm c.g.core c.r c.vals.a with
    | (.error m, s) => c.fail 0x01 m s
    | (.ok none, s) => s
    | (.ok (some bs), s) =>
      let p : PLaunch := ⟨c.g.gid, withArgs bs c.vals.d, (s.die (dieOfCore c.g.core)).v⟩
      c.done (s.updTeam c.tm.grid c.tm.team fun t => { t with pend := t.pend ++ [p] })

/-- The meaning of LAUNCH. -/
def execLaunch (pf : Pfx) (d a : BitVec 8) (s : State) : Host.Outcome State Fault Refusal :=
  runOnceOf (.launch pf d a) launchSem s

/-! ### NSEND and NPOST -/

/-- Bytes of a packet (R426). -/
def packetBytes : Nat := 4096

/-- The network operation of a descriptor (R258). -/
def netOpOf (send : Bool) (n : Nat) (c : Once) (v : Nat) : NetOp :=
  { n := n, send := send, g := c.r, pasid := c.tm.pasid, part := c.tm.part, core := c.g.core, conn := fld v 15 0
    tag := fld v 31 24, len := fld v 63 32, addr := fld v 127 64, tile := bitN v 16, placed := 0, fail := 0, flying := 0
    matched := none, stamps := .zero, stored := [] }

/-- The status that an operation meets at its connection (R425): 0 for none. -/
def State.connStatus (s : State) (o : NetOp) : Nat :=
  match (if o.conn < 4096 then Tab.find? s.fab.conns o.conn else none) with
  | none => 0x08
  | some c => if c.pasid ≠ o.pasid then 0x08 else if c.st = .opened then 0 else 0x15

/-- A group as it reads a message's source. -/
def sender (o : NetOp) : Agent := ⟨[6, o.g.grid, o.g.team, o.g.gid], o.core, o.pasid, false⟩

/-- The n bytes at an offset of a message's source (R258). -/
def State.netSource (s : State) (tm : Team) (o : NetOp) (off n : Nat) : UnitRes :=
  let mc := tm.memberOf o.core
  if o.tile then .done ((span off n).map fun x => tm.tileByte mc (o.addr % 256) x)
  else
    let va := o.addr + off
    match windowOf tm va n with
    | some (.scratch c z) => .done (Mem.readList (Tab.getD tm.scratch [] c) z n)
    | some .user =>
      if 2 ^ 57 < va + n then .fail ⟨0x06, none, false, 0⟩ else s.unitGetLong (sender o) va n ⟨true, false, false⟩
    | _ => .fail ⟨0x06, none, false, 0⟩

/-- A message's packets from packet k on, as offset and bytes, up to the first whose bytes cannot be had, and what that one
answers; the fuel is the packets left (R426). -/
def State.netPackets (s : State) (tm : Team) (o : NetOp) : Nat → Nat → List (Nat × List Byte) × UnitRes
  | 0, _ => ([], .done [])
  | n + 1, k =>
    let off := packetBytes * k
    match s.netSource tm o off (min packetBytes (o.len - off)) with
    | .done bs => let r := State.netPackets s tm o n (k + 1); ((off, bs) :: r.1, r.2)
    | r => ([], r)

/-- Send a message's packets once their bytes can all be had (R426): a fault ends the sending and is the operation's status.
None while it waits, with what it waits for asked for. -/
def State.sendPackets (s : State) (tm : Team) (o : NetOp) : State × Option Nat :=
  let (l, r) := s.netPackets tm o (ceilDiv o.len packetBytes) 0
  let sent := fun (s : State) =>
    { s with fab := { s.fab with out := s.fab.out ++ l.map fun (p : Nat × List Byte) => OutMsg.packet o.conn o.tag p.1 o.len p.2 } }
  match r with
  | .wait =>
    let off := packetBytes * l.length
    let n := min packetBytes (o.len - off)
    (s.unitAskLong (sender o) ⟨true, false, false⟩ (n / 256 + 2) (o.addr + off) n, none)
  | .fail f => ((sent s).unitsDone (sender o), some f.code)
  | .done _ => ((sent s).unitsDone (sender o), some 0)

/-- NSEND and NPOST, once per issue (R258): they wait while 32 words and operations are outstanding; NSEND is a release at
system scope (R427) and waits for the bytes of its message. -/
def netSem (send : Bool) : OnceSem := fun c s =>
  let v := c.vals.d
  if fld v 63 32 = 0 then c.fault 0x01 0 0 s
  else if 32 ≤ c.g.q2.length + c.g.netOut then s
  else if send && !(c.gset.all fun p => s.fenceReleased c.g.core ⟨c.r, p.1⟩ p.2 4) then s
  else
    let o := netOpOf send s.fab.netNext c v
    let st := s.connStatus o
    match if send && st == 0 then s.sendPackets c.tm o else (s, some st) with
    | (s, none) => s
    | (s, some st) =>
      let s := { s with fab := { s.fab with
        netOps := s.fab.netOps ++ [{ o with fail := st }], netNext := s.fab.netNext + 1 } }
      c.done (s.updGroup c.r fun g => { g with netOut := g.netOut + 1 })

/-- The meaning of NSEND. -/
def execNsend (pf : Pfx) (d : BitVec 8) (s : State) : Host.Outcome State Fault Refusal :=
  runOnceOf (.nsend pf d) (netSem true) s

/-- The meaning of NPOST. -/
def execNpost (pf : Pfx) (d : BitVec 8) (s : State) : Host.Outcome State Fault Refusal :=
  runOnceOf (.npost pf d) (netSem false) s

end Sys2Proof.Machine
end

