-- ==== Sys2Proof/Machine/Strings.lean ====
section
/-! DEFINITION. Strings (R177, R180 to R182), hashing and partitioning (R183 to R185). -/

namespace Sys2Proof.Machine

/-- fmix (R183). -/
def fmix (x : BitVec 32) : BitVec 32 :=
  let x := x ^^^ (x >>> 16)
  let x := x * 0x2C1B3C6D#32
  let x := x ^^^ (x >>> 15)
  let x := x * 0x297A2D39#32
  x ^^^ (x >>> 16)

/-- HASH (R183). -/
def hashSem : LaneSem := fun x => LOut.word (fmix (BitVec.ofNat 32 (x.a ^^^ x.b))).toNat

/-- The meaning of HASH. -/
def execHash (pf : Pfx) (d a b : BitVec 8) (s : State) : Host.Outcome State Fault Refusal :=
  runLaneOf (.hash pf d a b) hashSem s

/-- HCOMB (R183). -/
def hcombSem : LaneSem := fun x => LOut.word (fmix (BitVec.ofNat 32 (rotl32 x.a 7 + x.b))).toNat

/-- The meaning of HCOMB. -/
def execHcomb (pf : Pfx) (d a b : BitVec 8) (s : State) : Host.Outcome State Fault Refusal :=
  runLaneOf (.hcomb pf d a b) hcombSem s

/-- PART (R184). -/
def partSem : LaneSem := fun x => LOut.word (x.a * x.b / 4294967296)

/-- The meaning of PART. -/
def execPart (pf : Pfx) (d a b : BitVec 8) (s : State) : Host.Outcome State Fault Refusal :=
  runLaneOf (.part pf d a b) partSem s

/-- The probe mask of the first k of four 5-bit fields (R185). -/
def bloomMask (a : Nat) : Nat → Nat
  | 0 => 0
  | k + 1 => bloomMask a k ||| 2 ^ (a / 32 ^ k % 32)

/-- BLOOM (R185). -/
def bloomSem : LaneSem := fun x => LOut.word (bloomMask x.a (min (x.b % 8) 4))

/-- The meaning of BLOOM. -/
def execBloom (pf : Pfx) (d a b : BitVec 8) (s : State) : Host.Outcome State Fault Refusal :=
  runLaneOf (.bloom pf d a b) bloomSem s

/-- The first position from i of n more where two chunks differ or the first holds NUL; 16 when there is none (R180). -/
def scmpPos (a b i : Nat) : Nat → Nat
  | 0 => 16
  | n + 1 => if byteAt a i ≠ byteAt b i ∨ byteAt a i = 0 then i else scmpPos a b (i + 1) n

/-- The first position from i of n more that holds a byte, or at which the chunk ends; the byte is not found beyond the
terminator (R181). -/
def sfindPos (a v i : Nat) : Nat → Nat
  | 0 => 16
  | n + 1 => if byteAt a i = v then i else if byteAt a i = 0 then 16 else sfindPos a v (i + 1) n

/-- One byte into a CRC-32C (R182). -/
def crcBits (c : Nat) : Nat → Nat
  | 0 => c
  | n + 1 => crcBits (if c % 2 = 1 then (c / 2) ^^^ 0x82F63B78 else c / 2) n

/-- The bytes i up to i+n−1 of a chunk before its NUL into a CRC-32C (R182). -/
def crcChunk (a i c : Nat) : Nat → Nat
  | 0 => c
  | n + 1 => if byteAt a i = 0 then c else crcChunk a (i + 1) (crcBits (c ^^^ byteAt a i) 8) n

/-- SCMP (R180). -/
def scmpSem : LaneSem := fun x =>
  let k := scmpPos x.a x.b 0 16
  let u := byteAt x.a k
  let v := byteAt x.b k
  LOut.word (k + 256 * (if k = 16 then 0 else if u < v then 1 else if v < u then 2 else 3))

/-- The meaning of SCMP. -/
def execScmp (pf : Pfx) (d a b : BitVec 8) (s : State) : Host.Outcome State Fault Refusal :=
  runLaneOf (.scmp pf d a b) scmpSem s

/-- SFIND (R181). -/
def sfindSem : LaneSem := fun x => LOut.word (sfindPos x.a (x.b % 256) 0 16)

/-- The meaning of SFIND. -/
def execSfind (pf : Pfx) (d a b : BitVec 8) (s : State) : Host.Outcome State Fault Refusal :=
  runLaneOf (.sfind pf d a b) sfindSem s

/-- SLEN (R181). -/
def slenSem : LaneSem := fun x => LOut.word (sfindPos x.a 0 0 16)

/-- The meaning of SLEN. -/
def execSlen (pf : Pfx) (d a : BitVec 8) (s : State) : Host.Outcome State Fault Refusal :=
  runLaneOf (.slen pf d a) slenSem s

/-- SHASH (R182). -/
def shashSem : LaneSem := fun x => LOut.word (crcChunk x.a 0 x.b 16)

/-- The meaning of SHASH. -/
def execShash (pf : Pfx) (d a b : BitVec 8) (s : State) : Host.Outcome State Fault Refusal :=
  runLaneOf (.shash pf d a b) shashSem s

end Sys2Proof.Machine
end

