-- ==== Sys2Proof/Machine/Uniform.lean ====
section
/-! DEFINITION. The uniform instructions (R130 to R134). -/

namespace Sys2Proof.Machine

/-- UADD (R130). -/
def uaddSem : UniSem := fun x => UOut.word (formI 32 x.m.satc.toNat (sx 32 x.a + sx 32 x.b))

/-- The meaning of UADD. -/
def execUadd (pf : Pfx) (d a b : BitVec 8) (s : State) : Host.Outcome State Fault Refusal :=
  runUnifOf (.uadd pf d a b) uaddSem s

/-- USUB (R130). -/
def usubSem : UniSem := fun x => UOut.word (formI 32 x.m.satc.toNat (sx 32 x.a - sx 32 x.b))

/-- The meaning of USUB. -/
def execUsub (pf : Pfx) (d a b : BitVec 8) (s : State) : Host.Outcome State Fault Refusal :=
  runUnifOf (.usub pf d a b) usubSem s

/-- UMUL (R130). -/
def umulSem : UniSem := fun x => UOut.word (formI 32 x.m.satc.toNat (sx 32 x.a * sx 32 x.b))

/-- The meaning of UMUL. -/
def execUmul (pf : Pfx) (d a b : BitVec 8) (s : State) : Host.Outcome State Fault Refusal :=
  runUnifOf (.umul pf d a b) umulSem s

/-- UAND (R130). -/
def uandSem : UniSem := fun x => UOut.word (x.a &&& x.b)

/-- The meaning of UAND. -/
def execUand (pf : Pfx) (d a b : BitVec 8) (s : State) : Host.Outcome State Fault Refusal :=
  runUnifOf (.uand pf d a b) uandSem s

/-- UOR (R130). -/
def uorSem : UniSem := fun x => UOut.word (x.a ||| x.b)

/-- The meaning of UOR. -/
def execUor (pf : Pfx) (d a b : BitVec 8) (s : State) : Host.Outcome State Fault Refusal :=
  runUnifOf (.uor pf d a b) uorSem s

/-- UXOR (R130). -/
def uxorSem : UniSem := fun x => UOut.word (x.a ^^^ x.b)

/-- The meaning of UXOR. -/
def execUxor (pf : Pfx) (d a b : BitVec 8) (s : State) : Host.Outcome State Fault Refusal :=
  runUnifOf (.uxor pf d a b) uxorSem s

/-- USHL (R130). -/
def ushlSem : UniSem := fun x => UOut.word (shl32 x.a x.b)

/-- The meaning of USHL. -/
def execUshl (pf : Pfx) (d a b : BitVec 8) (s : State) : Host.Outcome State Fault Refusal :=
  runUnifOf (.ushl pf d a b) ushlSem s

/-- USHR (R130). -/
def ushrSem : UniSem := fun x => UOut.word (shr32 x.a x.b)

/-- The meaning of USHR. -/
def execUshr (pf : Pfx) (d a b : BitVec 8) (s : State) : Host.Outcome State Fault Refusal :=
  runUnifOf (.ushr pf d a b) ushrSem s

/-- USETP: the same result in every thread of the set (R131). -/
def usetpSem (c : BitVec 5) (p : BitVec 3) : UniSem := fun x =>
  let r := icond c.toNat 32 x.a x.b
  ⟨none, x.set.map fun q => (q.1, p.toNat, r)⟩

/-- The meaning of USETP. -/
def execUsetp (pf : Pfx) (c : BitVec 5) (p : BitVec 3) (a b : BitVec 8) (s : State) : Host.Outcome State Fault Refusal :=
  runUnifOf (.usetp pf c p a b) (usetpSem c p) s

/-- USEL: the predicate of the lowest thread of the set (R131). -/
def uselSem : UniSem := fun x =>
  let r := match x.set with | q :: _ => (q.2.pred x.m.gp.toNat).xor x.m.gneg | [] => false
  UOut.word (if r then x.a else x.b)

/-- The meaning of USEL. -/
def execUsel (pf : Pfx) (d a b : BitVec 8) (s : State) : Host.Outcome State Fault Refusal :=
  runUnifOf (.usel pf d a b) uselSem s

/-- UMOV (R130). -/
def umovSem : UniSem := fun x => UOut.word x.a

/-- The meaning of UMOV. -/
def execUmov (pf : Pfx) (d a : BitVec 8) (s : State) : Host.Outcome State Fault Refusal :=
  runUnifOf (.umov pf d a) umovSem s

/-- UMOVI (R130). -/
def umoviSem (i : BitVec 16) : UniSem := fun _ => UOut.word i.toNat

/-- The meaning of UMOVI. -/
def execUmovi (pf : Pfx) (d : BitVec 8) (i : BitVec 16) (s : State) : Host.Outcome State Fault Refusal :=
  runUnifOf (.umovi pf d i) (umoviSem i) s

/-- UMOVHI (R130). -/
def umovhiSem (i : BitVec 16) : UniSem := fun x => UOut.word (x.d % 65536 + i.toNat * 65536)

/-- The meaning of UMOVHI. -/
def execUmovhi (pf : Pfx) (d : BitVec 8) (i : BitVec 16) (s : State) : Host.Outcome State Fault Refusal :=
  runUnifOf (.umovhi pf d i) (umovhiSem i) s

/-- The thread ELECT chooses (R132): `c` is the function, `v` the value of the register or pair. -/
def electOf (c v : Nat) (set : List Nat) : Option Nat :=
  match c with
  | 0 => set.head?
  | 1 => set.getLast?
  | 2 => List.find? (fun t => v.testBit t) set
  | _ => set[v % set.length]?

/-- ELECT (R132). -/
def electSem (c : BitVec 5) (p : BitVec 3) : UniSem := fun x =>
  let e := electOf c.toNat x.a (x.set.map (·.1))
  ⟨none, x.set.map fun q => (q.1, p.toNat, e == some q.1)⟩

/-- The meaning of ELECT. -/
def execElect (pf : Pfx) (c : BitVec 5) (p : BitVec 3) (a : BitVec 8) (s : State) : Host.Outcome State Fault Refusal :=
  runUnifOf (.elect pf c p a) (electSem c p) s

/-- UBCAST (R134). -/
def ubcastSem : UniSem := fun x => UOut.word x.a

/-- The thread UBCAST reads: lane L, or the lowest of the set (R134). -/
def ubcastSrc (f : BitVec 1) (l : BitVec 6) : Group → Nat × Thread → Nat × Thread := fun g p =>
  if f == 1#1 then p else match Tab.find? g.threads l.toNat with | some t => (l.toNat, t) | none => p

/-- The meaning of UBCAST. -/
def execUbcast (pf : Pfx) (d a : BitVec 8) (f : BitVec 1) (l : BitVec 6) (s : State) : Host.Outcome State Fault Refusal :=
  .next (s.runUnif (.ubcast pf d a f l) (ubcastSrc f l) ubcastSem)

end Sys2Proof.Machine
end

