-- ==== Sys2Proof/Machine/Issue.lean ====
section
/-! DEFINITION. How issues come about: clause entry (R92 to R95, R98, R363), the fetch of an instruction (R89, R100), the
arbitration of a scheduler partition (R272 to R277, R281, R282), pops and pushes that are served (R58, R129), queued
results (R161), and the retirement of accesses (R206). -/

namespace Sys2Proof.Machine

/-! ### Fetch -/

/-- The instruction a thread stands at, as the words of its clause give it: up to three, and none beyond the clause's end
(R89, R98, R100); none for an illegal one. -/
def Thread.instr? (t : Thread) : Option Instr :=
  match decodeWords ((t.code.drop ((t.pc - t.hdr) / 4)).take 3) with | .ok (i, _) => some i | .error _ => none

/-- A word of a thread's code (R95, R99): the word in memory, or the old one that its core has fetched before. Which of the
two a fetch finds is not stated; a free value says it, and a word that has not changed is found as it is. -/
def State.wordAt (s : State) (core pasid va : Nat) : Except Fail (Option Nat) :=
  match s.codeWord core pasid va with
  | .error f => .error f
  | .ok none => .ok none
  | .ok (some w) =>
    match Tab.find? (s.core core).code (pasid * 2 ^ 64 + va) with
    | some w' => .ok (some (if w' ≠ w ∧ (Config.freeWord (s.free + va)).getLsbD 0 then w' else w))
    | none => .ok (some w)

/-- A core has fetched the words from an address on. -/
def State.keepCode (s : State) (core pasid va : Nat) (ws : List Nat) : State :=
  { s.updCore core fun c =>
      { c with code := (ws.zip (span 0 ws.length)).foldl (fun m p => Tab.set m (pasid * 2 ^ 64 + va + 4 * p.2) p.1) c.code } with
    free := s.free + 1 }

/-! ### Clause entry -/

/-- The class of a header's clause, its WAITSEL and its WAITN (R90). -/
def hdrClass (w : Nat) : Nat := fld w 23 21

/-- What the checks of a clause answer (R94, R95): its words, the header first; an illegal clause; a word whose fetch waits; or
one that cannot be fetched. -/
inductive Clause where
  | ok (words : List Nat)
  | illegal
  | wait (va : Nat)
  | fault (f : Fail) (va : Nat)
deriving DecidableEq, Repr

/-- The home class of a base word's opcode; none for a prefix or an Illegal cell (R94, R112). -/
def homeClass (w : Nat) : Option Nat :=
  let op := w / 2 ^ 24
  let lo := op % 16
  match op / 16 with
  | 0 | 1 | 2 | 3 => some 0
  | 4 => if lo ≤ 14 then some 0 else none
  | 5 => if lo ≤ 13 then some 0 else none
  | 6 => if lo ≤ 14 then some 1 else none
  | 7 => if lo ≤ 12 then some 3 else none
  | 8 => if lo ≤ 6 then some 3 else none
  | 9 => some 2
  | 10 | 11 => if lo ≤ 11 then some 2 else none
  | 12 => if lo ≤ 11 then some 4 else none
  | 13 => if lo ≤ 12 then some 5 else none
  | 14 => if lo ≤ 6 then some 5 else none
  | _ => none

/-- Is an opcode a control transfer (R96)? -/
def isTransfer (op : Nat) : Bool :=
  (decide (0xD0 ≤ op) && decide (op ≤ 0xD6)) || [0xD8, 0xE0, 0xE1, 0xE4, 0xE5].contains op

/-- A word of a clause, or what the clause's checks answer without it. -/
def State.clauseWord (s : State) (core pasid va : Nat) : Except Clause Nat :=
  match s.wordAt core pasid va with
  | .error f => .error (.fault f va)
  | .ok none => .error (.wait va)
  | .ok (some w) => .ok w

/-- The words of the instruction at an address: a REP, a MOD and the word after them (R94). -/
def State.instrWordsAt (s : State) (core pasid a : Nat) : Except Clause (List Nat) :=
  let word := s.clauseWord core pasid
  (word a).bind fun w =>
    if isRep w then
      (word (a + 4)).bind fun x => if isMod x then (word (a + 8)).map fun y => [w, x, y] else .ok [w, x]
    else if isMod w then (word (a + 4)).map fun x => [w, x]
    else .ok [w]

/-- The checks of instruction n of COUNT of a clause from address a on (R94), with the words before it and whether
instruction 1 is a REJOIN; the fuel is the instructions left. -/
def State.checkInstrs (s : State) (core pasid hw : Nat) : Nat → Nat → Nat → List Nat → Bool → Clause
  | 0, _, _, ws, rj => if bitN hw 3 = rj then .ok ws else .illegal
  | k + 1, n, a, ws, rj =>
    match s.instrWordsAt core pasid a with
    | .error c => c
    | .ok l =>
      let w := l.getLastD 0
      let op := w / 2 ^ 24
      let cls := homeClass w
      if hdrClass hw ≠ 6 ∧ cls.isSome ∧ cls ≠ some (hdrClass hw) then .illegal
      else if isTransfer op ∧ k ≠ 0 then .illegal
      else if op = 0xD7 ∧ n ≠ 1 then .illegal
      else State.checkInstrs s core pasid hw k (n + 1) (a + 4 * l.length) (ws ++ l) (if n = 1 then op == 0xD7 else rj)

/-- The checks of the clause at a header (R94, R95). -/
def State.checkClause (s : State) (core pasid h : Nat) : Clause :=
  match s.clauseWord core pasid h with
  | .error c => c
  | .ok w =>
    if fld w 31 28 ≠ 10 ∨ fld w 27 24 = 0 ∨ fld w 23 21 = 7 ∨ fld w 2 0 ≠ 0 then .illegal
    else s.checkInstrs core pasid w (fld w 27 24) 1 (h + 4) [w] false

/-- Copy jobs and matrix operations of a group that have not completed (R92); both halves of a pair count as one. -/
def State.groupWork (s : State) (r : GRef) : Nat :=
  s.cores.foldl (fun n c =>
    n + (c.2.jobs.filter fun j => decide (j.t.g = r)).length
      + (c.2.seq.filter fun o => decide (o.g = r) && decide (o.kind ≠ .mmap true)).length) 0

/-- Do the WAITSEL conditions of a header hold for a thread (R92)? -/
def State.waitselMet (s : State) (g : Group) (t : TRef) (hw : Nat) : Bool :=
  let n := fld hw 8 5
  let mine := s.accsOf t
  (!bitN hw 9 || decide ((mine.filter Acc.isLoad).length ≤ n))
  && (!bitN hw 10 || decide ((mine.filter Acc.isStore).length ≤ n))
  && (!bitN hw 11 || g.sfq.all fun e => e.res.all fun p => p.1 != t.tid)
  && (!bitN hw 12 || decide (s.groupWork t.g ≤ n))

/-- The oldest deferred fault of a thread that is due at a header (R357). -/
def Thread.clauseDue (t : Thread) (hw : Nat) : Option Nat :=
  t.defd.findIdx? fun d =>
    match d.kind with
    | .store => bitN hw 10
    | .engine _ _ => bitN hw 12
    | .load _ _ => false

/-- The lowest pending source that a group's mask enables (R363). -/
def Thread.source (t : Thread) (g : Group) : Option Nat :=
  if t.frame.inh then none else List.find? (fun k => (t.pend &&& g.uli).getLsbD k) (span 0 5)

/-- A thread at a header with the words of its clause, whose PRIO becomes its own (R93, R94). -/
def Thread.fetched (ws : List Nat) (t : Thread) : Thread :=
  { t with code := ws, cend := t.hdr + 4 * ws.length, prio := fld (ws.headD 0) 20 13 }

/-- A thread inside its clause: at the first instruction, its waits passed (R273). -/
def Thread.enterClause (t : Thread) : Thread :=
  { t with pc := t.hdr + 4, inside := true, intd := false, st := .ready, from? := none }

/-- The record of a clause that is illegal or cannot be fetched (R94, R95). -/
def State.clauseRec (s : State) (t : TRef) (th : Thread) : Clause → FRec
  | .fault f va => (s.mkRec t f.code 0x06 th.hdr va).withFail f
  | _ =>
    match th.from? with
    | some p => s.mkRec t 0x02 0 p th.hdr
    | none => s.mkRec t 0x02 0 th.hdr th.hdr

/-- A trap table entry whose read waits is asked for (R359, R384). -/
def State.askTrap (s : State) (tm : Team) (core : Nat) (t : TRef) (c : Nat) : State :=
  match s.trapEntry tm core t c with
  | .wait => s.unitAsk (enterer core tm.pasid t) (s.trapVa tm.pasid c) 8 (.load 8 false) ⟨true, false, false⟩
  | _ => s

/-- What a thread between a fault and its handler waits for is asked for (R359, R360). -/
def State.askEntry (s : State) (tm : Team) (g : Group) (t : TRef) (r : FRec) : State :=
  match s.trapEntry tm g.core t r.code, s.trapFor tm g.core t r.code with
  | .wait, _ => s.askTrap tm g.core t r.code
  | _, .wait => s.askTrap tm g.core t 0
  | _, .handler _ =>
    let ag := enterer g.core tm.pasid t
    let slot := s.slotOf tm.pasid g t.tid
    (match s.unitPut ag slot r.bytes with
     | .wait => s.unitAsk ag slot 64 (.store r.bytes) ⟨false, true, false⟩
     | _ => s)
  | _, _ => s

/-- A thread between a fault and its handler goes on (R360). -/
def State.takingStep (s : State) (t : TRef) : State :=
  match s.thread? t with
  | some (tm, g, th) =>
    (match th.st with
     | .taking r k res => if tm.resident then (s.askEntry tm g t r).enterFault t r k res else s
     | _ => s)
  | none => s

/-- A thread at a header: a fault of the clause, a deferred fault, a user-level interrupt, or the waits (R358). It takes one
interrupt per header (R363). -/
def State.enterThread (s : State) (r : GRef) (c : Clause) (tid : Nat) : State :=
  let t : TRef := ⟨r, tid⟩
  match s.thread? t with
  | none => s
  | some (tm, g, th) =>
    if !th.live then s
    else
      match c with
      | .ok ws =>
        match th.clauseDue (ws.headD 0) with
        | some n => s.deliverDeferred t n
        | none =>
          match if th.intd then none else th.source g with
          | some k => (s.askTrap tm g.core t (32 + k)).enterInterrupt t k
          | none =>
            let met := s.waitselMet g t (ws.headD 0)
            s.updThread t fun th =>
              let th := th.fetched ws
              if met then th.enterClause else { th with st := .entering }
      | _ => s.takeFault t (s.clauseRec t th c) .fault th.here

/-- Does a thread stand at a header that it has not entered? -/
def Thread.atHeader (t : Thread) : Bool := decide (t.st = .ready) && !t.inside

/-- A core's requests for code words from an address on are no longer needed. -/
def State.codeDone (s : State) (core pasid va n : Nat) : State :=
  { s with fab := { s.fab with units := s.fab.units.filter fun u =>
      !(u.own == (fetcher core pasid).own && decide (va ≤ u.va) && decide (u.va < va + 4 * n)) } }

/-- CLAUSE_ENTRY (R94): every thread of a group that stands at a header, unless the fetch of a word waits. -/
def State.clauseEntry (s : State) (r : GRef) (pc : Nat) : State :=
  match s.group? r with
  | none => s
  | some (tm, g) =>
    let set := (List.filter (fun (p : Nat × Thread) => p.2.atHeader && p.2.pc == pc) g.threads).map (·.1)
    if set.isEmpty || !tm.issues then s
    else
      match s.checkClause g.core tm.pasid pc with
      | .wait va => s.unitAsk (fetcher g.core tm.pasid) va 4 (.load 4 false) ⟨false, false, true⟩
      | c =>
        let s := match c with
          | .ok ws => (s.keepCode g.core tm.pasid pc ws).codeDone g.core tm.pasid pc ws.length
          | _ => s
        (set.foldl (fun s tid => s.enterThread r c tid) s).settle r

/-- CLAUSE_ENTRY. -/
def execEvClauseEntry (g t i pc : Nat) (s : State) : Host.Outcome State Fault Refusal := .next (s.clauseEntry ⟨g, t, i⟩ pc)

/-- WAITSEL_MET (R92): a thread that waits at a header, when its conditions hold; a deferred fault due there comes first. -/
def State.waitselStep (s : State) (t : TRef) : State :=
  match s.thread? t with
  | none => s
  | some (tm, g, th) =>
    if th.st ≠ .entering || !tm.issues then s
    else
      let hw := th.code.headD 0
      match th.clauseDue hw with
      | some n => ((s.updThread t fun th => { th with st := .ready }).deliverDeferred t n).settle t.g
      | none => if s.waitselMet g t hw then (s.updThread t Thread.enterClause).settle t.g else s

/-- WAITSEL_MET. -/
def execEvWaitselMet (g t i tid : Nat) (s : State) : Host.Outcome State Fault Refusal := .next (s.waitselStep ⟨⟨g, t, i⟩, tid⟩)

/-! ### Arbitration -/

/-- A candidate (R275): its group, place in the partition, key, aged clk, effective priority, issue set, the slots it may
take, whether it is its group's second, whether it yields, whether it stands under a class 6 header, and where the tile table
takes it among the issues of its clk (R232). -/
structure Cand where
  g : GRef
  slot : Nat
  prio : Nat
  pc : Nat
  aged : Option Nat
  eff : Nat
  set : List Nat
  lane : Bool
  uni : Bool
  second : Bool
  yields : Bool
  any : Bool
  rank : Nat
deriving DecidableEq, Repr

/-- The threads of an entry that may issue (R271, R273). -/
def FEntry.readySet (e : FEntry) (g : Group) : List Nat :=
  e.mask.filter fun tid =>
    match Tab.find? g.threads tid with | some t => decide (t.st = .ready) && t.inside | none => false

/-- Is a thread of an entry Parked or Entering (R275)? -/
def FEntry.hasParked (e : FEntry) (g : Group) : Bool :=
  e.mask.any fun tid =>
    match Tab.find? g.threads tid with
    | some t => t.isParked || decide (t.st = .entering)
    | none => false

/-- An entry's effective priority (R274). -/
def FEntry.eff (e : FEntry) : Nat := if e.demo = 0 then e.prio else e.prio - 32

/-- Does entry a come before entry b in frontier order (R274)? -/
def FEntry.before (a b : FEntry) : Bool :=
  match a.aged, b.aged with
  | some x, some y => decide (x < y) || (x == y && decide (a.pc < b.pc))
  | some _, none => true
  | none, some _ => false
  | none, none =>
    decide (b.eff < a.eff) || (a.eff == b.eff && (decide (a.pc < b.pc) || (a.pc == b.pc && decide (b.prio < a.prio))))

/-- Insert into an ordered list. -/
def insBefore {α : Type} (lt : α → α → Bool) (x : α) : List α → List α
  | [] => [x]
  | y :: t => if lt x y then x :: y :: t else y :: insBefore lt x t

/-- Order a list. -/
def orderBy {α : Type} (lt : α → α → Bool) : List α → List α
  | [] => []
  | x :: t => insBefore lt x (orderBy lt t)

/-- The first thread of an entry. -/
def FEntry.lead (e : FEntry) (g : Group) : Option Thread := e.mask.head?.bind (Tab.find? g.threads)

/-- The class of the header of the clause that a thread stands in (R90). -/
def Thread.clauseClass (t : Thread) : Nat := hdrClass (t.code.headD 0)

/-- The class whose slot a thread's instruction takes (R91, R276). -/
def Thread.slotClass (t : Thread) : Nat :=
  if t.clauseClass < 6 then t.clauseClass
  else match t.instr?.bind Instr.spec with | some sp => sp.cls | none => 5

/-- Where the tile table takes an instruction among those of one clk (R232): a TARM after the consumes, a TDEF last. -/
def tileRank (i : Instr) : Nat :=
  match i with
  | .tarm .. => 1
  | .tdef .. => 2
  | _ => 0

/-- May an instruction be offered while threads of its entry are behind (R168, R275)? -/
def isCross (i : Instr) : Bool :=
  match i with
  | .shfl .. | .shflx .. | .perm .. | .vote .. | .matchL .. | .reduce .. | .reduceF .. | .scan .. | .scanF ..
  | .popm .. | .hdm16 .. | .hdm32 .. => true
  | _ => false

/-- Does BRAU or a uniform instruction read an empty g register (R275)? -/
def unifEmpty (i : Instr) (tm : Team) (g : Group) (t : Thread) : Bool :=
  let x := decOf i
  match i with
  | .brau _ _ _ =>
    let o := x.opds (fun _ => 0) 0
    x.allocated tm.kern o && o.d.emptyAt x.sp.d.rd t g
  | _ =>
    x.sp.cls == 1 && (match x.checkUnif tm.kern g t with
      | .park => let o := x.opds (fun _ => 0) t.ri
                 (o.a.unifs x.sp.a.rd).any g.ge.contains || (o.b.unifs x.sp.b.rd).any g.ge.contains
                   || (o.d.unifs x.sp.d.rd).any g.ge.contains
      | _ => false)

/-- Is an entry offered (R275)? One that issued under a class 6 header waits until its lane slot is released (R277). -/
def State.offered (s : State) (tm : Team) (g : Group) (e : FEntry) : Bool :=
  !(e.readySet g).isEmpty &&
  !((s.core g.core).lag.any fun x => decide (x.1 = tm.ref g.gid) && e.mask.any x.2.contains) &&
  match (e.readySet g).head?.bind (Tab.find? g.threads) with
  | some t =>
    (match t.instr? with
     | some i => !(isCross i && e.hasParked g) && !unifEmpty i tm g t
     | none => true)
  | none => true

/-- The candidates of a group: its first two entries with a Ready thread in frontier order, where they are offered (R275). -/
def State.candidates (s : State) (tm : Team) (g : Group) : List Cand :=
  let l := ((orderBy FEntry.before (g.front.filter fun e => !(e.readySet g).isEmpty)).take 2).filter (s.offered tm g)
  let mark := Tab.getD (s.core g.core).yieldP 0 g.part
  let mk := fun (second : Bool) (e : FEntry) =>
    let t := (e.lead g).getD Thread.fresh
    let cls := t.slotClass
    { g := tm.ref g.gid, slot := g.slot, prio := e.prio, pc := e.pc, aged := e.aged, eff := e.eff, set := e.readySet g
      lane := cls == 0, uni := cls == 1 || cls == 5, second := second
      yields := mark == yieldMark g.slot e.prio e.pc, any := t.clauseClass == 6
      rank := match t.instr? with | some i => tileRank i | none => 0 : Cand }
  match l with
  | [] => []
  | [a] => [mk false a]
  | a :: b :: _ => [mk false a, mk true b]

/-- The place of a group in the round of a slot that group `last` took last (R276). -/
def roundOf (last slot : Nat) : Nat := (slot + 8 - (last + 1) % 8) % 8

/-- Does candidate a come before b for a slot (R93, R274, R276)? The older aged one, then the lower PC; then one whose entry
does not yield, the higher priority, the group next in turn, and a group's first. -/
def Cand.before (last : Nat) (a b : Cand) : Bool :=
  match a.aged, b.aged with
  | some _, none => true
  | none, some _ => false
  | x, y =>
    let old := x.getD 0
    let new := y.getD 0
    if old ≠ new then decide (old < new)
    else if x.isSome ∧ a.pc ≠ b.pc then decide (a.pc < b.pc)
    else if a.yields ≠ b.yields then b.yields
    else if a.eff ≠ b.eff then decide (b.eff < a.eff)
    else if a.slot ≠ b.slot then decide (roundOf last a.slot < roundOf last b.slot)
    else !a.second && b.second

/-- May a candidate take slot k: 0 and 1 the lane slots, 2 the uniform slot, 3 the memory slot (R276)? -/
def Cand.fits (c : Cand) (k : Nat) : Bool :=
  match k with | 0 | 1 => c.lane | 2 => c.uni | _ => !c.lane && !c.uni

/-- Grant one slot of a partition of a core (R276, R277): the grants so far, with the candidates they came from. -/
def State.grantSlot (s : State) (core part : Nat) (cands : List Cand) (got : List Cand) (k : Nat) : State × List Cand :=
  let c := s.core core
  let key := 4 * part + k
  if c.clk < Tab.getD c.busy 0 key then (s, got)
  else
    let l := cands.filter fun x => x.fits k && !got.any fun y => decide (y.g = x.g) && y.prio == x.prio && y.pc == x.pc
    match orderBy (Cand.before (Tab.getD c.rr 7 key)) l with
    | [] => (s, got)
    | x :: _ =>
      let s := s.updCore core fun c =>
        { c with
          rr := Tab.set c.rr key x.slot
          busy := if x.lane && decide (32 < x.set.length) then Tab.set c.busy key (c.clk + 2) else c.busy }
      (s, got ++ [x])

/-- The groups of running teams on a partition of a core. -/
def State.groupsOn (s : State) (core part : Nat) : List (Team × Group) :=
  s.teams.flatMap fun t =>
    if t.issues then t.groups.filterMap fun p => if p.2.core = core ∧ p.2.part = part then some (t, p.2) else none
    else []

/-- An entry whose idle count has reached 2,048 becomes aged in a clk (R282). -/
def FEntry.age (clk : Nat) (e : FEntry) : FEntry :=
  if e.idle = 2048 ∧ e.aged = none then { e with aged := some (rankRoom * (clk + 1)) } else e

/-- A demotion timer that stands at 1 runs down to 0 (R281). -/
def FEntry.expire (e : FEntry) : FEntry := if e.demo ≤ 1 then { e with demo := 0 } else e

/-- One clk of an entry: while it has a Ready thread its idle count rises, and at 2,048 it is aged (R282); its demotion
timer falls (R281). An issue of this clk sets the count back. -/
def FEntry.tick (e : FEntry) (g : Group) (clk : Nat) : FEntry :=
  FEntry.age clk { e with
    idle := if (e.readySet g).isEmpty then e.idle else min 2048 (e.idle + 1)
    demo := e.demo - 1 }

/-- The grants of one partition of a core: the slots L0, L1, U and M, the uniform slot's first (R276). -/
def State.grantPart (s : State) (core part : Nat) : State × List Cand :=
  let cands := (s.groupsOn core part).flatMap fun p => s.candidates p.1 p.2
  [2, 0, 1, 3].foldl (fun z k => z.1.grantSlot core part cands z.2 k) (s, [])

/-- The grants of a core in one clk, the partitions in order. -/
def State.grantCore (s : State) (core : Nat) : State × List Cand :=
  (span 0 4).foldl (fun z part => let r := z.1.grantPart core part; (r.1, z.2 ++ r.2)) (s, [])

/-- A candidate under a class 6 header that holds its lane slot for a second clk (R277). -/
def Cand.lags (c : Cand) : Bool := c.any && c.lane && decide (32 < c.set.length)

/-- ISSUE_ARBITRATION (R276): one clk of a core, which its four partitions share (R14, R49); of the tile instructions the
TARMs come after the others and the TDEFs last, in partition order (R232). -/
def State.arbitrate (s : State) (core : Nat) : State :=
  if s.fatal then s
  else
    let r := s.grantCore core
    let clk := (s.core core).clk
    let s := ((span 0 4).flatMap (s.groupsOn core)).foldl (fun s p =>
      s.updGroup (p.1.ref p.2.gid) fun g => { g with front := g.front.map fun e => e.tick g clk }) r.1
    let s := s.updCore core fun c =>
      { c with clk := c.clk + 1, yieldP := [], lag := (r.2.filter Cand.lags).map fun x => (x.g, x.set) }
    let l := [0, 1, 2].flatMap fun k => r.2.filter (·.rank == k)
    { s with grants := s.grants ++ l.map fun x => ⟨x.g, x.prio, x.pc, x.set⟩ }

/-- ISSUE_ARBITRATION of a partition: the clk is its core's. -/
def execEvIssueArbitration (core _part : Nat) (s : State) : Host.Outcome State Fault Refusal := .next (s.arbitrate core)

/-- Change the entry of a key of a group. -/
def Group.updEntry (g : Group) (prio pc : Nat) (f : FEntry → FEntry) : Group :=
  { g with front := g.front.map fun e => if e.prio = prio ∧ e.pc = pc then f e else e }

/-- ENTRY_AGED (R282). -/
def State.ageEntry (s : State) (r : GRef) (pc prio : Nat) : State :=
  match s.group? r with
  | none => s
  | some (_, g) => s.updGroup r fun h => h.updEntry prio pc (FEntry.age (s.core g.core).clk)

/-- ENTRY_AGED: the clk's own count makes the entry aged at once. -/
def execEvEntryAged (g t i pc prio : Nat) (s : State) : Host.Outcome State Fault Refusal :=
  .next (s.ageEntry ⟨g, t, i⟩ pc prio)

/-- DEMOTION_TIMER_EXPIRY (R281). -/
def execEvDemotionTimerExpiry (g t i pc prio : Nat) (s : State) : Host.Outcome State Fault Refusal :=
  .next (s.updGroup ⟨g, t, i⟩ fun h => h.updEntry prio pc FEntry.expire)

/-- The next grant whose threads still stand there ready (R275), taken off the list; the others are dropped. -/
def State.takeGrant (s : State) : State × Bool :=
  match s.grants with
  | [] => (s, false)
  | c :: rest =>
    let set := match s.group? c.g with
      | some (tm, g) =>
        if tm.issues then
          c.set.filter fun tid =>
            match Tab.find? g.threads tid with
            | some t => decide (t.st = .ready) && t.prio == c.prio && t.pc == c.pc
            | none => false
        else []
      | none => []
    ({ s with grants := rest, cur := { c with set := set } }, !set.isEmpty)

/-- The thread that leads the issue being executed. -/
def State.curThread (s : State) : Option Thread :=
  match s.group? s.cur.g with
  | some (_, g) => s.cur.set.head?.bind (Tab.find? g.threads)
  | none => none

/-- The instruction of the issue being executed; none for an illegal one. -/
def State.curInstr (s : State) : Option Instr := s.curThread.bind Thread.instr?

/-- Every thread of the issue takes Illegal Instruction in place of its instruction (R100, R115). -/
def State.issueFault (s : State) : State :=
  match s.group? s.cur.g with
  | none => s
  | some (_, g) => (s.cur.set.foldl (fun s tid => s.raise ⟨s.cur.g, tid⟩ 0x01 0 0) s).finish g none

/-- After an issue of the last instruction of a clause whose YIELD bit is set, its entry yields for a round (R93); `b` is
the machine before the issue. -/
def State.noteYield (s b : State) (i : Instr) : State :=
  match b.curThread with
  | none => s
  | some t =>
    if t.pc + 4 * instrWords i.pfx = t.cend ∧ bitN (t.code.headD 0) 4 then
      (match s.thread? ⟨b.cur.g, b.cur.set.headD 0⟩ with
       | some (_, g', t') => s.yieldTo g' t'.prio t'.pc
       | none => s)
    else s

/-! ### Pops and pushes -/

/-- The meaning that a pop's instruction gives the entry (R129). -/
inductive PopSem where
  | lane (f : LaneSem)
  | unif (f : UniSem)
  | none

/-- The meaning of an instruction that may pop. -/
def popSem (i : Instr) : PopSem :=
  match i with
  | .bfe _ _ _ _ => .lane bfeSem
  | .bfi _ _ _ _ => .lane bfiSem
  | .popc _ _ _ => .lane popcSem
  | .clz _ _ _ => .lane clzSem
  | .ctz _ _ _ => .lane ctzSem
  | .brev _ _ _ => .lane brevSem
  | .mov _ _ _ => .lane movSem
  | .sel _ _ _ _ => .lane selSem
  | .idot4 _ _ _ _ => .lane idot4Sem
  | .isetp _ c p _ _ => .lane (isetpSem c p)
  | .iadd _ _ _ _ => .lane iaddSem
  | .isub _ _ _ _ => .lane isubSem
  | .imul _ _ _ _ => .lane imulSem
  | .imulh _ _ _ _ => .lane imulhSem
  | .imulhHu _ _ _ _ => .lane imulhHuSem
  | .imad _ _ _ _ => .lane imadSem
  | .addc _ _ _ _ => .lane addcSem
  | .subb _ _ _ _ => .lane subbSem
  | .imin _ _ _ _ => .lane iminSem
  | .iminNu _ _ _ _ => .lane iminNuSem
  | .imax _ _ _ _ => .lane imaxSem
  | .imaxNu _ _ _ _ => .lane imaxNuSem
  | .and _ _ _ _ => .lane andSem
  | .or _ _ _ _ => .lane orSem
  | .xor _ _ _ _ => .lane xorSem
  | .andn _ _ _ _ => .lane andnSem
  | .shl _ _ _ _ => .lane shlSem
  | .shr _ _ _ _ => .lane shrSem
  | .sar _ _ _ _ => .lane sarSem
  | .rot _ _ _ _ => .lane rotSem
  | .funnel _ _ _ _ => .lane funnelSem
  | .hash _ _ _ _ => .lane hashSem
  | .hcomb _ _ _ _ => .lane hcombSem
  | .part _ _ _ _ => .lane partSem
  | .bloom _ _ _ _ => .lane bloomSem
  | .fadd _ _ _ _ => .lane faddSem
  | .fmul _ _ _ _ => .lane fmulSem
  | .ffma _ _ _ _ => .lane ffmaSem
  | .fmin _ _ _ _ => .lane fminSem
  | .fmax _ _ _ _ => .lane fmaxSem
  | .fcmp _ c p _ _ => .lane (fcmpSem c p)
  | .fclass _ _ _ => .lane fclassSem
  | .frnd _ _ _ => .lane frndSem
  | .hadd2 _ _ _ _ => .lane hadd2Sem
  | .hmul2 _ _ _ _ => .lane hmul2Sem
  | .hfma2 _ _ _ _ => .lane hfma2Sem
  | .bdot2 _ _ _ _ => .lane bdot2Sem
  | .hadd2Bf16 _ _ _ _ => .lane hadd2Bf16Sem
  | .hmul2Bf16 _ _ _ _ => .lane hmul2Bf16Sem
  | .hfma2Bf16 _ _ _ _ => .lane hfma2Bf16Sem
  | .uadd _ _ _ _ => .unif uaddSem
  | .usub _ _ _ _ => .unif usubSem
  | .umul _ _ _ _ => .unif umulSem
  | .uand _ _ _ _ => .unif uandSem
  | .uor _ _ _ _ => .unif uorSem
  | .uxor _ _ _ _ => .unif uxorSem
  | .ushl _ _ _ _ => .unif ushlSem
  | .ushr _ _ _ _ => .unif ushrSem
  | .usetp _ c p _ _ => .unif (usetpSem c p)
  | .usel _ _ _ _ => .unif uselSem
  | .umov _ _ _ => .unif umovSem
  | _ => .none

/-- The value a pop writes to its destination, and how many registers it fills. -/
def Pop.result (p : Pop) (t : Thread) (g : Group) (v : Word) : Option Nat × Nat :=
  let m := p.i.pfx.m
  let t := { t with p := if p.pv != m.gneg then BitVec.allOnes 7 else 0#7 }
  match popSem p.i with
  | .lane f =>
    let o := f { m := m, a := v.toNat, b := p.bval, d := p.dval, dreg := p.dst.getD 0, bImm := m.fb == 3#2, t := t
                 tid := p.set.headD 0 }
    (o.val, o.cnt)
  | .unif f => ((f { m := m, a := v.toNat, b := p.bval, d := p.dval, set := [(p.set.headD 0, t)], g := g }).val, 1)
  | .none => (some v.toNat, 1)

/-- The predicates that a pop without a destination register writes, by thread (R124, R131, R156). -/
def Pop.preds (p : Pop) (g : Group) (v : Word) : List (Nat × Nat × Bool) :=
  let m := p.i.pfx.m
  let t := match Tab.find? g.threads (p.set.headD 0) with | some t => t | none => Thread.fresh
  match popSem p.i with
  | .lane f =>
    let o := f { m := m, a := v.toNat, b := p.bval, d := p.dval, dreg := 0, bImm := m.fb == 3#2, t := t
                 tid := p.set.headD 0 }
    o.preds.map fun q => (p.set.headD 0, q)
  | .unif f => (f { m := m, a := v.toNat, b := p.bval, d := p.dval, set := p.set.map fun tid => (tid, t), g := g }).preds
  | .none => []

/-- A pop's entry has arrived (R54, R129): its destination fills; or its threads, which wait at the instruction, write
their predicates and go on. -/
def State.fillPop (s : State) (p : Pop) (v : Word) : State :=
  match s.group? p.g with
  | none => s
  | some (tm, g) =>
    match p.dst with
    | none =>
      let l := setPreds (p.preds g v) (p.set.filterMap fun tid => (Tab.find? g.threads tid).map fun t => (tid, t))
      (s.watchFill p.g p.set
        (s.putThreads p.g (l.map fun q => (q.1, q.2.advance (decOf p.i) (s.hp tm g))))).settle p.g
    | some n =>
      let t := match Tab.find? g.threads (p.set.headD 0) with | some t => t | none => Thread.fresh
      let r := p.result t g v
      let l := wordsAt n r.2 (r.1.getD 0)
      (s.watchFill p.g p.set
        (if p.uniform then s.updGroup p.g fun g => g.setRegs l
         else s.updThread ⟨p.g, p.set.headD 0⟩ fun t => t.setRegs l)).wakeRegs p.g

/-- QUEUE_POP_SERVED (R58): the oldest pending pop of a queue takes the queue's first entry. -/
def State.servePop (s : State) (r : GRef) (port : Nat) : State :=
  match s.team? r.grid r.team with
  | none => s
  | some tm =>
    if !tm.issues then s
    else
      match tm.pops.findIdx? fun p => p.port == port && (decide (8 ≤ port) || decide (p.g = r)) with
      | none => s
      | some k =>
        match tm.pops[k]?, s.group? r with
        | some p, some (_, g) =>
          (match queueOf tm g port with
           | [] => s
           | v :: rest =>
             let s := (s.setQueue r port rest).updTeam r.grid r.team fun t => { t with pops := dropNth t.pops k }
             let s := s.fillPop p v
             if port = 1 then s.updGroup r (Group.wake Wait.onQueue) else s)
        | _, _ => s

/-- QUEUE_POP_SERVED. -/
def execEvQueuePopServed (g t i q : Nat) (s : State) : Host.Outcome State Fault Refusal := .next (s.servePop ⟨g, t, i⟩ q)

/-- QUEUE_SPACE_FREED (R58): the push that has waited longest at a channel with room is performed. -/
def State.spaceFreed (s : State) (g t port : Nat) : State :=
  match s.team? g t with
  | none => s
  | some tm =>
    if !tm.issues || decide (portDepth port ≤ (Tab.getD tm.chans [] port).length) then s
    else
      match tm.pushes.findIdx? (fun w => w.port == port) with
      | none => s
      | some k =>
        match tm.pushes[k]? with
        | some w =>
          (State.performPush (s.updTeam g t fun t => { t with pushes := dropNth t.pushes k }) w).settle w.g
        | none => s

/-- QUEUE_SPACE_FREED. -/
def execEvQueueSpaceFreed (g t q : Nat) (s : State) : Host.Outcome State Fault Refusal := .next (s.spaceFreed g t q)

/-! ### Queued results and accesses -/

/-- SFU_COMPLETION (R161): an entry of a group's queue writes its results. -/
def State.sfuDone (s : State) (r : GRef) (n : Nat) : State :=
  match s.group? r with
  | none => s
  | some (_, g) =>
    match List.find? (fun (e : SfEntry) => e.id == n) g.sfq with
    | none => s
    | some e =>
      let s := s.watchFill r (e.res.map (·.1)) (e.res.foldl (fun s p => s.updThread ⟨r, p.1⟩ fun t => t.setRegs p.2) s)
      (s.updGroup r fun g => { g with sfq := g.sfq.filter fun x => x.id != n }).wakeRegs r

/-- SFU_COMPLETION. -/
def execEvSfuCompletion (g t i n : Nat) (s : State) : Host.Outcome State Fault Refusal := .next (s.sfuDone ⟨g, t, i⟩ n)

/-- PRODUCER_VALUE_ARRIVES (R53, R206): an outstanding load or read-modify-write is performed and its value arrives. -/
def execEvProducerValueArrives (acc : Nat) (fresh : Bool) (s : State) : Host.Outcome State Fault Refusal :=
  .next (match s.acc? acc with
    | some a => if a.dest.isSome then s.performAcc a fresh else s
    | none => s)

/-- STORE_RETIRES (R206, R315): an outstanding access without a destination is performed. -/
def execEvStoreRetires (acc : Nat) (s : State) : Host.Outcome State Fault Refusal :=
  .next (match s.acc? acc with
    | some a => if a.dest.isNone then s.performAcc a false else s
    | none => s)

/-! ### Tiles -/

/-- TILE_ARRIVAL (R290): an arrival reaches its core; arrivals of one producer at one tile keep their order. -/
def State.tileArrives (s : State) (n : Nat) : State :=
  match s.arrivals[n]? with
  | none => s
  | some a =>
    if (s.arrivals.take n).any fun b =>
        b.ap == a.ap && b.grid == a.grid && b.team == a.team && b.mc == a.mc && b.tile == a.tile && b.off == a.off then s
    else ({ s with arrivals := dropNth s.arrivals n }).arrive a

/-- TILE_ARRIVAL. -/
def execEvTileArrival (n : Nat) (s : State) : Host.Outcome State Fault Refusal := .next (s.tileArrives n)

/-- TILE_DRAIN_COMPLETE (R287): a draining tile whose reads have finished is EMPTY at the next phase. -/
def execEvTileDrainComplete (g t c tile : Nat) (s : State) : Host.Outcome State Fault Refusal :=
  .next (match s.team? g t with
    | some tm =>
      let e := tm.tile c tile
      if e.st = .draining ∧ e.rds = 0 then s.updTile g t c tile fun e => { e with st := .empty, ph := (e.ph + 1) % 16 } else s
    | none => s)

/-- HOLD_STORE_EXPIRY (R294): a held arrival whose time is over is rejected. -/
def State.holdExpiry (s : State) (n : Nat) : State :=
  match s.cp.hold[n]? with
  | none => s
  | some h =>
    if s.now ≤ h.until_ then s
    else ({ s with cp := { s.cp with hold := dropNth s.cp.hold n } }).nackArrival h.arr 8

/-- HOLD_STORE_EXPIRY. -/
def execEvHoldStoreExpiry (n : Nat) (s : State) : Host.Outcome State Fault Refusal := .next (s.holdExpiry n)

/-! ### The weir (R299): it changes timing alone -/

/-- The number of an L2 slice's port. -/
def portOf (die slice : Nat) : Nat := die * 80 + slice

/-- The number of a context's bucket at a port. -/
def weirKey (die slice pasid : Nat) : Nat := portOf die slice * 2 ^ 20 + pasid

/-- A bucket at a window boundary. -/
def Weir.window (w : Weir) : Weir :=
  let pay := min w.rate w.debt
  { w with debt := w.debt - pay, tokens := min (w.tokens + w.rate - pay) w.dep }

/-- WEIR_WINDOW: the buckets of a port, and the clk of the ended window in which it served nothing. -/
def execEvWeirWindow (die slice : Nat) (s : State) : Host.Outcome State Fault Refusal :=
  let k := portOf die slice
  .next { s with
    weirs := s.weirs.map fun p => if p.1 / 2 ^ 20 = k then (p.1, p.2.window) else p
    weirIdle := Tab.set (Tab.set s.weirIdle (2 * k) (64 - Tab.getD s.weirIdle 0 (2 * k + 1))) (2 * k + 1) 0 }

/-- WEIR_SERVE: the port of the slice of an address (R298) serves a sector request of a context, from its tokens or from idle
time against its debt. -/
def execEvWeirServe (die pa pasid : Nat) (s : State) : Host.Outcome State Fault Refusal :=
  let k := portOf die (l2Slice pa)
  let key := weirKey die (l2Slice pa) pasid
  let w := Tab.getD s.weirs .fresh key
  let idle := Tab.getD s.weirIdle 0 (2 * k)
  let served := Tab.put s.weirIdle 0 (2 * k + 1) (Tab.getD s.weirIdle 0 (2 * k + 1) + 1)
  .next (if 1 ≤ w.tokens then
      { s with weirs := Tab.put s.weirs .fresh key { w with tokens := w.tokens - 1 }, weirIdle := served }
    else if w.debt < w.dep / 2 ∧ 0 < idle then
      { s with
        weirs := Tab.put s.weirs .fresh key { w with debt := w.debt + 1 }
        weirIdle := Tab.put served 0 (2 * k) (idle - 1) }
    else s)

end Sys2Proof.Machine
end

