-- ==== Sys2Proof/Machine/Matrix.lean ====
section
/-! DEFINITION. The matrix instructions (R238 to R252). -/

namespace Sys2Proof.Machine

/-- An operation of the issuing group, before it has a number. -/
def Once.mop (c : Once) (s : State) (k : MKind) (rc ra rb : Nat) : MOp :=
  { id := 0, kind := k, g := c.r, tid := c.tid, c := rc, a := ra, b := rb, layout := 0, lines := [], seqNo := c.g.seq
    kblk := 0, reuse := c.x.pf.m.reuse, acc := s.accNext }

/-- An operation enters a core's matrix sequence (R247). -/
def State.enterSeq (s : State) (core : Nat) (o : MOp) : State :=
  s.updCore core fun c => { c with seq := c.seq ++ [{ o with id := c.opNext }], opNext := c.opNext + 1 }

/-- MRES, once per issue (R240). -/
def mresSem (n : Nat) : OnceSem := fun c s =>
  let core := s.core c.g.core
  match recOf c.tm c.vals.a with
  | none => c.fault 0x13 0x00 0 s
  | some r =>
    if (Tab.find? core.recs n).isSome || core.recs.any (fun q => q.2.overlaps r) then c.fault 0x13 0x00 0 s
    else
      c.done (s.updCore c.g.core fun k =>
        { k with
          recs := Tab.set k.recs n r
          accs := Tab.del k.accs n
          bricks := (span (2 * r.base) r.slots).foldl Tab.del k.bricks })

/-- The meaning of MRES. -/
def execMres (pf : Pfx) (r : BitVec 4) (a : BitVec 8) (s : State) : Host.Outcome State Fault Refusal :=
  runOnceOf (.mres pf r a) (mresSem r.toNat) s

/-- MREL, once per issue: wA is emptied in every thread of G (R241). -/
def mrelSem (n : Nat) : OnceSem := fun c s =>
  match (s.core c.g.core).rec? c.tm n with
  | none => c.fault 0x13 0x00 0 s
  | some _ =>
    let regs := c.o.a.lanes c.x.sp.a.wr
    let tids := c.gset.map (·.1)
    let s := s.enterSeq c.g.core (c.mop s (.mrel tids (regs.headD 0)) n n n)
    c.done (tids.foldl (fun s tid => s.updThread ⟨c.r, tid⟩ fun t => t.markEmpty regs) s)

/-- The meaning of MREL. -/
def execMrel (pf : Pfx) (r : BitVec 4) (a : BitVec 8) (s : State) : Host.Outcome State Fault Refusal :=
  runOnceOf (.mrel pf r a) (mrelSem r.toNat) s

/-- Does the order of the accesses of an MLDT's threads hold it back (R324 to R328): their acquires, and for one that consumes
its tile their releases and their accesses to the tile's bytes? -/
def Once.mldtWaits (c : Once) (e : Tile) (consume : Bool) (s : State) : Bool :=
  let tids := c.gset.map (·.1)
  if consume then !s.fencesHold c.r tids || s.touching c.r tids c.mc (64 * e.base) (64 * e.len) else !s.acqsDone c.r tids

/-- MLDT and MLDT.c, once per issue: issues only while the tile is READY (R244). Where several faults hold, the record's and the
tile's definition's come first, then of R243's those of PITCH and L, the slot's, the tile's FMT and SPAN, and the offset's
(assumption log 67). -/
def mldtSem (n tile : Nat) (consume : Bool) : OnceSem := fun c s =>
  match (s.core c.g.core).rec? c.tm n with
  | none => c.fault 0x13 0x00 0 s
  | some r =>
    if !c.tm.tileOk c.mc tile then c.fault 0x0C 0x00 0 s
    else
      let v := c.vals.b
      let l := layoutOf v
      let e := c.tm.tile c.mc tile
      match l.check r with
      | some k => c.fault k 0x00 0 s
      | none =>
        if e.fmt ≠ r.efmt ∨ e.span ≠ l.swz then c.fault 0x12 0x00 0 s
        else if 64 * e.len < l.limit r then c.fault 0x0C 0x00 0 s
        else if e.st ≠ .ready ∨ c.mldtWaits e consume s then
          c.waitTile tile s
        else
          let s := s.updTile c.tm.grid c.tm.team c.mc tile fun e =>
            { (if consume then e.consume else e) with rds := e.rds + 1 }
          c.done (s.enterSeq c.g.core { c.mop s (.mldt tile (ofB consume)) n n n with layout := v })

/-- The meaning of MLDT. -/
def execMldt (pf : Pfx) (r : BitVec 4) (t b : BitVec 8) (s : State) : Host.Outcome State Fault Refusal :=
  runOnceOf (.mldt pf r t b) (mldtSem r.toNat t.toNat false) s

/-- The meaning of MLDT.c. -/
def execMldtC (pf : Pfx) (r : BitVec 4) (t b : BitVec 8) (s : State) : Host.Outcome State Fault Refusal :=
  runOnceOf (.mldtC pf r t b) (mldtSem r.toNat t.toNat true) s

/-! ### MLDG (R245) -/

/-- What the pinning of one line meets. -/
inductive PinRes where
  | fail (m : MFail)
  | wait (va : Nat) (q : Option PageReq)
  /-- The physical line; host memory lies above 2^60. -/
  | line (pa : Nat)
  /-- A line of another device's memory. -/
  | far (va : Nat)
deriving DecidableEq, Repr

/-- Translate one line of an MLDG (R205, R245). -/
def State.pinLine (s : State) (core : Nat) (tm : Team) (ln : Nat) : PinRes :=
  let va := 512 * ln
  if 2 ^ 57 ≤ va then .fail (.plain 0x06 va)
  else
    match s.translate core tm.pasid va ⟨true, false, false⟩ with
    | .error f => .fail ⟨va, f⟩
    | .ok l =>
      match s.doneCheck l false with
      | .error f => .fail ⟨va, f⟩
      | .ok _ =>
        match s.placeOf l va with
        | .remote _ _ => .far va
        | .mcast _ _ => .fail ⟨va, 0x08, none, false, l.lease⟩
        | pl =>
          match s.placeDev tm.part pl 512, pl with
          | some pa, _ => if s.lostIn pa 512 false then .fail ⟨va, 0x0B, none, false, l.lease⟩ else .line (pa / 512)
          | none, .pool page off =>
            .wait va (match s.frameOf tm.part page with
              | some _ => none
              | none => some
                { part := tm.part, pasid := tm.pasid, page := page, lease := l.lease, sector := off / 64, group := 0, ord := 0
                  va := alignDown va pageSize, report := false, wait := true, bar := none })
          | none, _ => .wait va none

/-- A line is pinned: it counts at its frame (R301), and the L2 of the core's die fills its sectors (R245). -/
def State.addPin (s : State) (core rcd key ln pa : Nat) : State :=
  let s := s.updCore core fun c =>
    { c with pins :=
        if c.pins.any (fun p => p.waits && p.op == key) then
          c.pins.map fun p => if p.waits && p.op == key then { p with lines := p.lines ++ [(ln, pa)] } else p
        else c.pins ++ [⟨rcd, key, true, [(ln, pa)]⟩] }
  let s := { s with frames := Tab.adjust s.frames (pa / 128) fun e => { e with pins := e.pins + 1 } }
  if 2 ^ 60 ≤ 512 * pa then s else s.fillSectors (dieOfCore core) (512 * pa) 512

/-- A line of another device's memory comes over in two requests (R414), which leave after the thread's earlier stores. -/
def State.pinFar (s : State) (core : Nat) (tm : Team) (t : TRef) (rcd key ln : Nat) : State × Option PinRes :=
  let va := 512 * ln
  let ag := pinner core tm.pasid key
  let need : Need := ⟨true, false, false⟩
  match s.unitGet ag va 256 need, s.unitGet ag (va + 256) 256 need with
  | .fail f, _ => (s, some (.fail ⟨va, f⟩))
  | _, .fail f => (s, some (.fail ⟨va + 256, f⟩))
  | .done _, .done _ => (s.addPin core rcd key ln (farLine key), none)
  | _, _ =>
    if (s.accsOf t).any fun a => a.op.writes then (s, some (.wait va none))
    else
      ((s.unitAsk ag va 256 (.load 256 false) need).unitAsk ag (va + 256) 256 (.load 256 false) need, some (.wait va none))

/-- Pin the lines that are left, in ascending order, as far as they can be (R245). -/
def State.pinLines (s : State) (core : Nat) (tm : Team) (t : TRef) (rcd key : Nat) : List Nat → State × Option PinRes
  | [] => (s, none)
  | ln :: rest =>
    match s.pinLine core tm ln with
    | .line pa => State.pinLines (s.addPin core rcd key ln pa) core tm t rcd key rest
    | .far _ =>
      (match s.pinFar core tm t rcd key ln with
       | (s, none) => State.pinLines s core tm t rcd key rest
       | r => r)
    | .wait va q => ((match q with | some q => s.needPage q | none => s), some (.wait va q))
    | .fail m => (s, some (.fail m))

/-- Lines pinned on a core (R301). -/
def Core.pinCount (c : Core) : Nat := c.pins.foldl (fun n p => n + p.lines.length) 0

/-- The pins of an operation of the sequence, or of an MLDG whose threads still wait. -/
def Core.pinsBy (c : Core) (waits : Bool) (n : Nat) : List (Nat × Nat) :=
  match List.find? (fun p : Pin => p.waits == waits && p.op == n) c.pins with | some p => p.lines | none => []

/-- The pins of an operation of the sequence. -/
def Core.pinsOf (c : Core) (id : Nat) : List (Nat × Nat) := c.pinsBy false id

/-- An MLDG whose lines are all pinned enters the sequence, where its pins take its number, and its threads go on (R245). -/
def Once.mldgDone (c : Once) (n key va v : Nat) (s : State) : State :=
  let core := c.g.core
  let others := (c.gset.map fun p => p.2.pinned).filter fun k => k != 0 && k != key + 1
  let s := s.releasePins core fun p => p.waits && others.contains (p.op + 1)
  let lines := (s.core core).pinsBy true key
  let o : MOp := { c.mop s (.mldg va) n n n with layout := v, lines := lines }
  let s := s.updCore core fun k =>
    { k with pins := k.pins.map fun p => if p.waits && p.op == key then { p with op := k.opNext, waits := false } else p }
  let s := s.enterSeq core o
  c.done (c.gset.foldl (fun s p => s.updThread ⟨c.r, p.1⟩ fun t => { t with pinned := 0 }) s)

/-- The fault of a line of an MLDG: SMASK lists the sectors pinned before it (R245). EPROG stays 0, as R8 has it where the origin
is not the engine, also for a source of more than 64 sectors, for which R10 would have it count them (assumption log 65). -/
def Once.mldgFail (c : Once) (m : MFail) (secs : List Nat) (s : State) : State :=
  let smask := ((secs.zipIdx.take 64).filter fun p => decide (p.1 < m.va / 64)).foldl (fun x p => x + 2 ^ p.2) 0
  c.gset.foldl (fun s p =>
    match s.thread? ⟨c.r, p.1⟩ with
    | some (_, _, th) =>
      let r := { ((s.mkRec ⟨c.r, p.1⟩ m.f.code 0x01 th.pc m.va).withFail m.f) with smask := smask }
      s.takeFault ⟨c.r, p.1⟩ r .fault th.here
    | none => s) (c.pass c.others s)

/-- The fault of an MLDG whose page-in has been stopped by an error of the pool (R412): at the first line that is not pinned. -/
def State.poisonLine (s : State) (core : Nat) (tm : Team) (left : List Nat) : MFail :=
  let va := 512 * left.headD 0
  ⟨va, 0x0B, none, true, match s.leafFor core tm.pasid va with | .ok l => l.lease | .error _ => 0⟩

/-- MLDG, once per issue (R245). -/
def mldgSem (n : Nat) : OnceSem := fun c s =>
  let core := c.g.core
  match (s.core core).rec? c.tm n with
  | none => c.fault 0x13 0x00 0 s
  | some r =>
    let v := c.vals.b
    let va := c.vals.a
    let l := layoutOf v
    match l.check r with
    | some k => c.fault k 0x00 0 s
    | none =>
      if l.swz ≠ 0 then c.fault 0x12 0x00 0 s
      else
        let secs := l.sectors r va
        let lines := linesOf secs
        if 256 < lines.length then c.fault 0x13 0x00 0 s
        else
          let fresh := c.t.pinned == 0
          let key := if fresh then s.accNext else c.t.pinned - 1
          let have' := (s.core core).pinsBy true key
          let left := lines.filter fun k => !(have'.any fun q => q.1 == k)
          if c.t.popped.isSome then
            c.mldgFail (s.poisonLine core c.tm left) secs
              (c.gset.foldl (fun s p => s.updThread ⟨c.r, p.1⟩ fun t => { t with popped := none }) s)
          else if 256 < (s.core core).pinCount + left.length then c.park (.pins 0) s
          else
            let s := if fresh then { s with accNext := s.accNext + 1 } else s
            let s := s.updThread ⟨c.r, c.tid⟩ fun t => { t with pinned := key + 1 }
            match s.pinLines core c.tm c.ref n key left with
            | (s, none) => c.mldgDone n key va v s
            | (s, some (.fail m)) => c.mldgFail m secs s
            | (s, some (.wait va _)) => c.park (.pins va) s
            | (s, some _) => c.park (.pins 0) s

/-- The meaning of MLDG. -/
def execMldg (pf : Pfx) (r : BitVec 4) (a b : BitVec 8) (s : State) : Host.Outcome State Fault Refusal :=
  runOnceOf (.mldg pf r a b) (mldgSem r.toNat) s

/-! ### MZERO, MMA, MMAP and MSTT -/

/-- MZERO, once per issue (R246). -/
def mzeroSem (n : Nat) : OnceSem := fun c s =>
  match (s.core c.g.core).rec? c.tm n with
  | some r =>
    if r.hasAcc then c.done (s.enterSeq c.g.core (c.mop s .mzero n n n)) else c.fault 0x13 0x00 0 s
  | none => c.fault 0x13 0x00 0 s

/-- The meaning of MZERO. -/
def execMzero (pf : Pfx) (r : BitVec 4) (s : State) : Host.Outcome State Fault Refusal :=
  runOnceOf (.mzero pf r) (mzeroSem r.toNat) s

/-- May an operation that pushes a status word issue (R251)? -/
def Group.statusRoom (g : Group) : Bool := decide (g.q0.length + g.q0out < 16)

/-- A pushing operation is counted in its group (R251). -/
def State.countPush (s : State) (r : GRef) : State :=
  s.updGroup r fun g => { g with q0out := g.q0out + 1, seq := g.seq + 1 }

/-- MMA, once per issue (R248, R249). -/
def mmaSem (rc ra rb : Nat) : OnceSem := fun c s =>
  match (s.core c.g.core).mmaCheck c.tm rc ra rb with
  | some k => c.fault k 0x00 0 s
  | none =>
    if !c.g.statusRoom then s
    else c.done ((s.enterSeq c.g.core (c.mop s .mma rc ra rb)).countPush c.r)

/-- The meaning of MMA. -/
def execMma (pf : Pfx) (c a b : BitVec 4) (s : State) : Host.Outcome State Fault Refusal :=
  runOnceOf (.mma pf c a b) (mmaSem c.toNat a.toNat b.toNat) s

/-- Have two cores' records of one number the same formats for a team (R250)? -/
def sameFormats (x y : Core) (tm : Team) (n : Nat) : Bool :=
  match x.rec? tm n, y.rec? tm n with
  | some a, some b => a.efmt == b.efmt && a.blk == b.blk && a.afmt == b.afmt
  | _, _ => false

/-- MMAP, once per issue (R250): the leader is the even core of the pair. -/
def mmapSem (rc ra rb : Nat) : OnceSem := fun c s =>
  let core := c.g.core
  if core % 2 ≠ 0 ∨ ¬ c.tm.cores.contains (core + 1) then c.fault 0x18 0x00 0 s
  else
    let lead := s.core core
    let foll := s.core (core + 1)
    match lead.mmaCheck c.tm rc ra rb with
    | some k => c.fault k 0x00 0 s
    | none =>
      if !([rc, ra, rb].all (sameFormats lead foll c.tm)) || (foll.mmaCheck c.tm rc ra rb).isSome then c.fault 0x18 0x00 0 s
      else if !c.g.statusRoom then s
      else
        let s := s.enterSeq core (c.mop s (.mmap false) rc ra rb)
        c.done ((s.enterSeq (core + 1) (c.mop s (.mmap true) rc ra rb)).countPush c.r)

/-- The meaning of MMAP. -/
def execMmap (pf : Pfx) (c a b : BitVec 4) (s : State) : Host.Outcome State Fault Refusal :=
  runOnceOf (.mmap pf c a b) (mmapSem c.toNat a.toNat b.toNat) s

/-- n steps of the stochastic generator (R78). -/
def rsSteps : Nat → Word → Word
  | 0, x => x
  | n + 1, x => rsSteps n (rsStep x)

/-- MSTT, once per issue: it arms the tile at issue (R252). Where several of its faults hold, the record's comes first, then that
of FMT, of the tile's definition, of its FMT, and of its owner, size and CONS (assumption log 67). A stochastic MSTT takes its
16,384 steps of the lowest thread's generator at issue (assumption log 20). -/
def msttSem (tile ra : Nat) : OnceSem := fun c s =>
  match (s.core c.g.core).rec? c.tm ra with
  | none => c.fault 0x13 0x00 0 s
  | some r =>
    if !r.hasAcc then c.fault 0x13 0x00 0 s
    else
      let v := c.vals.b
      let m := c.x.pf.m
      let fmt := fld v 3 0
      let e := c.tm.tile c.mc tile
      if !([0, 1, 2, 4, 5, 6, 7].contains fmt) || (r.afmt != 0 && fmt != 0) then c.fault 0x12 0x00 0 s
      else if !c.tm.tileOk c.mc tile then c.fault 0x0C 0x00 0 s
      else if e.fmt ≠ fmt then c.fault 0x12 0x00 0 s
      else
        match c.tm.armCheck c.mc tile c.g.gid (msttSectors fmt) (fld v 31 16) with
        | none => c.fault 0x0C 0x00 0 s
        | some false => c.waitTile tile s
        | some true =>
          if !c.g.statusRoom then s
          else
            let s := s.armTile c.tm.grid c.tm.team c.mc tile (msttSectors fmt) (fld v 31 16) true
            let s := s.enterSeq c.g.core
              (c.mop s (.mstt tile v m.satc.toNat m.scl.toNat m.rnd.toNat c.t.rs) ra ra ra)
            let s := if m.rnd = 6#3 ∧ r.afmt = 0 then s.updThread ⟨c.r, c.tid⟩ fun t => { t with rs := rsSteps 16384 t.rs } else s
            c.done (s.countPush c.r)

/-- The meaning of MSTT. -/
def execMstt (pf : Pfx) (t : BitVec 8) (a : BitVec 4) (b : BitVec 8) (s : State) : Host.Outcome State Fault Refusal :=
  runOnceOf (.mstt pf t a b) (msttSem t.toNat a.toNat) s

end Sys2Proof.Machine
end

