-- ==== Sys2Proof/Machine/Save.lean ====
section
/-! DEFINITION. Pre-emption (R364, R365), discard (R366), the save of a team and its image (R367 to R373), and the restore
(R374). -/

namespace Sys2Proof.Machine

/-! ### The image (R371, R372) -/

/-- Bytes filled up with zeros to a multiple of n. -/
def padTo (n : Nat) (l : List Byte) : List Byte := l ++ List.replicate ((n - l.length % n) % n) 0#8

/-- Bits packed into bytes, the first lowest. -/
def packBits : List Bool → List Byte
  | [] => []
  | a :: b :: c :: d :: e :: f :: g :: h :: t =>
    BitVec.ofNat 8 (ofB a + 2 * ofB b + 4 * ofB c + 8 * ofB d + 16 * ofB e + 32 * ofB f + 64 * ofB g + 128 * ofB h) :: packBits t
  | a :: t => BitVec.ofNat 8 (ofB a) :: packBits t

/-- STATE of a thread block (R369, R372). -/
def TState.code (t : TState) : Nat :=
  match t with | .rejoining _ _ => 3 | .held _ => 4 | .exited => 5 | .barred _ => 6 | _ => 0

/-- WAITID and REJMASK of a thread block (R372). -/
def TState.waitId (t : TState) : Nat × Nat := match t with | .rejoining k m => (k, m) | .barred k => (k, 0) | _ => (0, 0)

/-- The number of a TKIND (R372). -/
def TKind.code (k : TKind) : Nat := match k with | .none => 0 | .fault => 1 | .trap => 2 | .interrupt => 3

/-- A thread's control block (R372). -/
def controlBlock (code : Nat) (t : Thread) : List Byte :=
  let f := t.frame
  toLE 4 (t.pc - code) ++ toLE 4 (t.hdr - code) ++ toLE 4 t.link.toNat ++ toLE 4 t.fp.toNat
  ++ ((span 0 4).flatMap fun k => toLE 2 (t.ireg k).toNat) ++ toLE 4 t.rs.toNat
  ++ toLE 1 t.p.toNat ++ toLE 1 t.af.toNat ++ toLE 1 t.ri ++ toLE 1 (t.st.code + 8 * ofB f.inh)
  ++ toLE 4 (f.tpc - code) ++ toLE 4 (f.thdr - code) ++ toLE 4 f.tlink.toNat ++ toLE 4 f.tfp.toNat
  ++ toLE 1 (f.tri + 64 * f.tkind.code) ++ toLE 3 t.pend.toNat ++ toLE 4 t.st.waitId.1 ++ toLE 8 t.st.waitId.2

/-- A register of a stopped team that was empty at the stop, as the image numbers it (R368, R371). -/
def regKey (uniform : Bool) (r : Nat) : Nat := r + 512 * ofB uniform

/-- A thread block (R372); a register that was empty at the stop is captured empty. -/
def threadBlock (tm : Team) (tmthread : Nat) (t : Thread) : List Byte :=
  let full := fun (r : Nat) => !t.we.contains r && !tm.empt.contains (tmthread, r)
  padTo 64 (controlBlock tm.kern.code t ++ ((span 0 tm.kern.wregs).flatMap fun r => toLE 4 (t.reg r).toNat)
    ++ packBits ((span 0 tm.kern.wregs).map full))

/-- The rank that an aged entry of a group had when its team was stopped (R371). -/
def Team.rankOf (tm : Team) (gid : Nat) (e : FEntry) : Nat :=
  match List.find? (fun x => x.1 == (gid, e.prio, e.pc)) tm.ranks with | some x => x.2 | none => 0

/-- A frontier entry of the image (R371). -/
def entryBytes (code : Nat) (rank : FEntry → Nat) (e : FEntry) : List Byte :=
  toLE 8 (e.mask.foldl (fun m k => m + 2 ^ k) 0) ++ toLE 4 (e.pc - code) ++ toLE 1 e.prio ++ toLE 1 (ofB e.aged.isSome)
  ++ toLE 2 e.idle ++ toLE 2 e.demo ++ toLE 2 (rank e) ++ toLE 4 0

/-- The aged entries of a scheduler partition that come before an entry (R274, R371). -/
def State.agedRank (s : State) (core part : Nat) (e : FEntry) : Nat :=
  if e.aged.isNone then 0
  else
    (s.groupsHeld core part).foldl (fun n p => n + (p.2.front.filter fun x => x.aged.isSome && x.before e).length) 0

/-- A queue's entries, with their count. -/
def queueBytes (l : List Word) : List Byte := toLE 4 l.length ++ l.flatMap fun v => toLE 4 v.toNat

/-- A group block (R371); the order of its sections is the spec's, their padding the model's (assumption log 12). -/
def groupBlock (tm : Team) (g : Group) : List Byte :=
  let full := fun (r : Nat) => !g.ge.contains r && !tm.empt.contains (64 * g.gid, regKey true r)
  let front := (orderBy FEntry.before g.front).flatMap (entryBytes tm.kern.code (tm.rankOf g.gid))
  padTo 64 (((span 0 tm.kern.gregs).flatMap fun r => toLE 4 (g.reg r).toNat) ++ packBits ((span 0 tm.kern.gregs).map full)
    ++ toLE 1 g.uli.toNat ++ queueBytes g.q0 ++ queueBytes g.q1 ++ queueBytes g.q2
    ++ front ++ List.replicate (64 * 24 - front.length) 0#8)

/-- The team block (R371). -/
def teamBlock (tm : Team) : List Byte :=
  padTo 64 (((span 8 8).flatMap fun k => queueBytes (Tab.getD tm.chans [] k))
    ++ ((span 0 16).flatMap fun k => tm.groups.flatMap fun g =>
        toLE 8 (g.2.threads.foldl (fun m t => m + if t.2.arrived.contains k then 2 ^ t.1 else 0) 0))
    ++ (toLE 4 tm.pend.length ++ tm.pend.flatMap fun p => p.rcd ++ toLE 4 p.gid))

/-- A tile entry in its layout (R286). -/
def tileBytes (e : Tile) : List Byte :=
  let st := match e.st with | .empty => 0 | .filling => 1 | .ready => 2 | .draining => 3
  toLE 16 (st + 2 ^ 2 * e.ph + 2 ^ 8 * ofB e.defd + 2 ^ 38 * e.base + 2 ^ 52 * e.len + 2 ^ 66 * e.span + 2 ^ 69 * e.fmt
    + 2 ^ 73 * e.owner + 2 ^ 78 * e.abytes + 2 ^ 98 * e.exp + 2 ^ 112 * e.cons)

/-- A reservation record in its layout (R300); one that is not reserved is zero. -/
def recBytes (r : Option Rec) : List Byte :=
  match r with
  | none => toLE 8 0
  | some r =>
    toLE 8 (r.base + 2 ^ 8 * r.ngr + 2 ^ 16 * r.efmt + 2 ^ 20 * r.blk + 2 ^ 22 * r.afmt + 2 ^ 31
      + 2 ^ 32 * r.under + 2 ^ 48 * r.clip)

/-- A matrix resume record (R370). -/
def resumeBytes (o : MOp) : List Byte :=
  let (op, half) := match o.kind with | .mmap true => (1, 1) | .mmap false => (1, 0) | _ => (0, 0)
  toLE 4 op ++ toLE 1 (o.a + 16 * o.b) ++ toLE 1 (o.c + 16 * ofB o.reuse) ++ toLE 1 o.kblk ++ toLE 1 half
  ++ toLE 4 o.g.gid ++ toLE 4 o.seqNo ++ List.replicate 16 0#8

/-- A copy job in the image: the card, its acceptance number and EPROG (R371). -/
def jobBytes (j : Job) : List Byte := toLE 16 j.card ++ toLE 8 j.seq ++ toLE 8 j.eprog

/-- Free bytes: a section whose layout the spec does not give (assumption log 12). -/
def freeBytes (seed n : Nat) : List Byte := (span seed n).map Config.freeByte

/-- A core block (R371): the header of 64 bytes with the sections' offsets, then the sections. -/
def coreBlock (tm : Team) (mc : Nat) (c : CoreSave) (seed : Nat) : List Byte :=
  let secs : List (List Byte) := [
    Mem.readList (Tab.getD tm.scratch [] mc) 0 tm.partBytes,
    (span 0 tm.kern.tiles).flatMap fun n => tileBytes (tm.tile mc n),
    freeBytes seed (80 * (tm.heldArr.filter fun a => a.mc == mc).foldl (fun n a => n + a.sectors) 0),
    (span 0 16).flatMap fun n => recBytes (Tab.find? c.recs n),
    freeBytes (seed + 2 ^ 31) (c.recs.foldl (fun n r => n + 4096 * (r.2.ngr + 1)) 0),
    freeBytes (seed + 2 ^ 32) (32 * (c.seq.filter fun o => o.kblk == 0).length),
    (c.seq.filter fun o => o.kblk != 0).flatMap resumeBytes,
    c.jobs.flatMap jobBytes]
  let secs := secs.map (padTo 64)
  let offs := (span 0 8).map fun k => 64 + ((secs.take k).map List.length).sum
  (offs.flatMap (toLE 8)) ++ secs.flatten

/-- A producer-list entry (R371). -/
def prodEntry (kind port tmthread reg value : Nat) : List Byte :=
  toLE 16 (kind + 2 ^ 4 * port + 2 ^ 32 * tmthread + 2 ^ 48 * reg + 2 ^ 96 * value)

/-- The producers of a stopped team's registers and stores (R368). -/
def State.producers (s : State) (tm : Team) : List (List Byte) :=
  let mine := s.accs.filter fun a => a.t.g.grid == tm.grid && a.t.g.team == tm.team
  let tmt := fun (r : GRef) (tid : Nat) => 64 * r.gid + tid
  (tm.empt.filterMap fun e =>
    match Tab.find? tm.groups (e.1 / 64) with
    | some g =>
      if 512 ≤ e.2 then
        (if g.ge.contains (e.2 - 512) then none else some (prodEntry 1 0 e.1 e.2 (g.reg (e.2 - 512)).toNat))
      else
        (match Tab.find? g.threads (e.1 % 64) with
         | some t => if t.we.contains e.2 then none else some (prodEntry 1 0 e.1 e.2 (t.reg e.2).toNat)
         | none => none)
    | none => none)
  ++ (tm.pops.map fun p => prodEntry 2 p.port (tmt p.g (p.set.headD 0)) (regKey p.uniform (p.dst.getD 0)) 0)
  ++ ((match s.part tm.part with
      | some q => q.sys.filter fun (x : SysReq) => x.g.grid == tm.grid && x.g.team == tm.team
      | none => []).flatMap fun (x : SysReq) => [prodEntry 3 0 (tmt x.g 0) (regKey true 8) 0, prodEntry 3 0 (tmt x.g 0) (regKey true 9) 0])
  ++ (mine.flatMap fun a =>
      let fid := match a.st with | .held f => f | _ => 0
      match a.dest with
      | some d => (span d.reg d.cnt).map fun r => prodEntry 4 0 (tmt a.t.g a.t.tid) (regKey d.uniform r) fid
      | none => [prodEntry 5 0 (tmt a.t.g a.t.tid) 0 fid])

/-- The image of a stopped team (R371). -/
def State.image (s : State) (tm : Team) : List Byte :=
  let thr := tm.groups.flatMap fun g => g.2.threads.flatMap fun t => threadBlock tm (64 * g.1 + t.1) t.2
  let grp := tm.groups.flatMap fun g => groupBlock tm g.2
  let team := teamBlock tm
  let core := (span 0 tm.cores.length).flatMap fun mc =>
    coreBlock tm mc (Tab.getD tm.saved ⟨[], [], [], [], [], []⟩ mc) (s.free + 2 ^ 34 * mc)
  let prod := s.producers tm
  let defs := tm.groups.flatMap fun g => g.2.threads.flatMap fun t => t.2.defd.map fun d => d.rcd.bytes
  let pb := padTo 64 prod.flatten
  let o1 := 256
  let o2 := o1 + thr.length
  let o3 := o2 + grp.length
  let o4 := o3 + team.length
  let o5 := o4 + core.length
  let o6 := o5 + pb.length
  let size := o6 + 64 * defs.length
  toLE 4 0x45564153 ++ toLE 2 1 ++ toLE 1 tm.cores.length ++ toLE 1 tm.groups.length ++ toLE 4 defs.length
  ++ toLE 4 prod.length ++ toLE 8 tm.stopAt ++ toLE 4 tm.grid ++ toLE 4 tm.team ++ toLE 8 tm.kern.code
  ++ toLE 8 o1 ++ toLE 8 o2 ++ toLE 8 o3 ++ toLE 8 o4 ++ toLE 8 o5 ++ toLE 8 o6 ++ toLE 8 size
  ++ List.replicate 160 0#8 ++ thr ++ grp ++ team ++ core ++ pb ++ defs.flatten

/-- A team as it writes its image. -/
def saver (tm : Team) : Agent := ⟨[9, tm.grid, tm.team], tm.coreAt 0, tm.pasid, false⟩

/-- Write an image that may cross pages: none while a page waits; a page that cannot be written is left out. The fuel bounds the
pages. -/
def State.writeImage (g : Agent) : Nat → Nat → List Byte → State → Option State
  | 0, _, _, s => some s
  | n + 1, va, bs, s =>
    let k := pageSize - va % pageSize
    if bs.isEmpty then some s
    else
      match s.unitPutLong g va (bs.take k) with
      | .done s _ => State.writeImage g n (va + k) (bs.drop k) s
      | .fail _ => State.writeImage g n (va + k) (bs.drop k) s
      | .wait => none

/-- What the writing of an image waits for has been asked for. -/
def State.askImage (g : Agent) : Nat → Nat → List Byte → State → State
  | 0, _, _, s => s
  | n + 1, va, bs, s =>
    let k := pageSize - va % pageSize
    if bs.isEmpty then s
    else State.askImage g n (va + k) (bs.drop k) (s.unitAskPut g (min k bs.length / 256 + 2) va (bs.take k))

/-! ### Stopping (R364 to R367) -/

/-- The registers of a team that are empty (R368). -/
def Team.empties (tm : Team) : List (Nat × Nat) :=
  tm.groups.flatMap fun g =>
    (g.2.ge.map fun r => (64 * g.1, regKey true r)) ++ g.2.threads.flatMap fun t => t.2.we.map fun r => (64 * g.1 + t.1, r)

/-- The ranks of the aged entries of a team (R371). -/
def State.agedRanks (s : State) (tm : Team) : List ((Nat × Nat × Nat) × Nat) :=
  tm.groups.flatMap fun g => g.2.front.filterMap fun e =>
    if e.aged.isSome then some ((g.1, e.prio, e.pc), s.agedRank g.2.core g.2.part e) else none

/-- Stop issue for a team on every member core at one dtime (R366, R367). -/
def State.stopTeam (s : State) (g t : Nat) (w : Stop) : State :=
  let s' := s.updTeam g t fun tm => { tm with st := .stopped w, empt := tm.empties, stopAt := s.now, ranks := s.agedRanks tm }
  { s' with grants := s.grants.filter fun x => !(x.g.grid == g && x.g.team == t) }

/-- Has a team an outstanding SYSCALL (R365)? -/
def State.sysOut (s : State) (tm : Team) : Bool :=
  match s.part tm.part with | some q => q.sys.any fun x => x.g.grid == tm.grid && x.g.team == tm.team | none => false

/-- Does the estimate of R365 let a team drain before the deadline? -/
def drainFits (now admitAt G gend deadline : Nat) : Bool :=
  decide (gend ≠ 0) && decide (now * gend + (now - admitAt) * (G - gend) ≤ deadline * gend)

/-- The action of R365: 0 drain, 1 discard, 2 save; `drain` says whether draining may be chosen. T_save decides between no
two of them: what its third line does not choose, the last line saves. -/
def State.preAction (s : State) (tm : Team) (p : Preempt) (drain : Bool) : Nat :=
  let G := tm.groups.length
  let gend := (List.filter (fun g => g.2.over) tm.groups).length
  let idem := match s.grid? tm.grid with | some x => x.idem | none => false
  let discardable := idem && tm.children == 0 && tm.pend.isEmpty && !s.sysOut tm
  if drain && bitN p.allow 0 && drainFits s.now tm.admitAt G gend p.deadline then 0
  else if bitN p.allow 1 && discardable then 1
  else 2

/-- Decide what a pre-emption request does to a team (R365). -/
def State.preDecide (s : State) (tm : Team) (p : Preempt) (drain : Bool) : State :=
  match s.preAction tm p drain with
  | 0 => s.updTeam tm.grid tm.team fun t => { t with preempt := some { p with draining := true } }
  | 1 => (s.updTeam tm.grid tm.team fun t => { t with preempt := some { p with draining := false } }).stopTeam tm.grid tm.team .discard
  | _ => (s.updTeam tm.grid tm.team fun t => { t with preempt := some { p with draining := false } }).stopTeam tm.grid tm.team .save

/-- Two requests for one team merged (R364). -/
def Preempt.merge (a b : Preempt) : Preempt :=
  let m := a.allow &&& b.allow
  { a with deadline := min a.deadline b.deadline, allow := if m = 0 then 4 else m, who := a.who ++ b.who }

/-- PREEMPT_REQUEST (R364). -/
def State.preempt (s : State) (g t : Nat) (p : Preempt) : State :=
  match s.team? g t with
  | none => s
  | some tm =>
    match tm.preempt, tm.st with
    | none, .running => s.preDecide tm p true
    | some q, .running => s.preDecide tm (q.merge p) true
    | some q, .stopped _ => s.updTeam g t fun tm => { tm with preempt := some (q.merge p) }
    | none, .stopped _ => s.updTeam g t fun tm => { tm with preempt := some p }
    | _, _ => s

/-- PREEMPT_REQUEST. -/
def execEvPreemptRequest (g t deadline allow who : Nat) (s : State) : Host.Outcome State Fault Refusal :=
  .next (s.preempt g t ⟨deadline, allow % 8, [who], false⟩)

/-- DRAIN_DEADLINE (R365): the deadline passes before a draining team has retired. -/
def execEvDrainDeadline (g t : Nat) (s : State) : Host.Outcome State Fault Refusal :=
  .next (match s.team? g t with
    | some tm =>
      (match tm.preempt, tm.st with
       | some p, .running => if p.draining && decide (p.deadline ≤ s.now) then s.preDecide tm p false else s
       | _, _ => s)
    | none => s)

/-- Report a finished pre-emption to each of its requesters (R365). -/
def State.preReport (s : State) (tm : Team) (action : Nat) : State :=
  match tm.preempt with
  | none => s
  | some p =>
    { s with cp := { s.cp with
      reports := s.cp.reports ++ p.who.map fun w => PreReport.mk w tm.grid tm.team action s.now (decide (p.deadline < s.now)) } }

/-! ### Releasing a team's cores (R269) -/

/-- Does an operation belong to a team? -/
def MOp.ofTeam (o : MOp) (tm : Team) : Bool := o.g.grid == tm.grid && o.g.team == tm.team

/-- Does a record belong to a team? -/
def Rec.ofTeam (r : Rec) (tm : Team) : Bool := r.grid == tm.grid && r.team == tm.team

/-- Is a copy job a team's? -/
def Job.ofTeam (j : Job) (tm : Team) : Bool := j.t.g.grid == tm.grid && j.t.g.team == tm.team

/-- A team's records on a core are released without counter words, with their pins, its operations go, and its copy jobs, whose
writes count for the grid (R241, R334, R351). -/
def State.releaseCore (s : State) (tm : Team) (core : Nat) : State :=
  let mine := List.filter (fun r => r.2.ofTeam tm) (s.core core).recs |>.map (·.1)
  let jobs := (s.core core).jobs.filter (Job.ofTeam · tm)
  let s := (s.releasePins core fun p => mine.contains p.rcd).wakePins core
  let s := s.updCore core fun c =>
    { c with
      recs := List.filter (fun r => !mine.contains r.1) c.recs
      accs := List.filter (fun r => !mine.contains r.1) c.accs
      seq := c.seq.filter fun o => !o.ofTeam tm
      jobs := c.jobs.filter fun j => !j.ofTeam tm }
  s.updGrid tm.grid fun g => { g with stamps := jobs.foldl (fun v j => v.join j.stamps) g.stamps }

/-- Every held arrival of a team is rejected (R292). -/
def State.nackHeld (s : State) (tm : Team) : State :=
  let s := s.updTeam tm.grid tm.team fun t => { t with heldArr := [] }
  tm.heldArr.foldl (fun s a => s.nackArrival a 12) s

/-- Is a team named by some of a unit's numbers? -/
def Team.names (tm : Team) (own : List Nat) : Bool := own == [tm.grid, tm.team]

/-- Requests that units of some kinds have made for a team are no longer needed, nor one for its launches (assumption log 17). -/
def State.dropUnits (s : State) (tm : Team) (kinds : List Nat) : State :=
  let mine := fun (u : UnitReq) =>
    (kinds.contains (u.own.headD 0) && tm.names ((u.own.drop 1).take 2)) || u.own == [7, 1, tm.grid, tm.team]
  let gone := s.fab.units.filter mine
  { s with
    accs := s.accs.filter fun a => !(a.st == .pending && gone.any fun u => u.acc == a.id)
    fab := { s.fab with units := s.fab.units.filter fun u => !mine u } }

/-- Take a team off the list. -/
def State.dropTeam (s : State) (tm : Team) : State :=
  let s := s.dropUnits tm [1, 5, 6, 9]
  { s with teams := s.teams.filter fun t => !(t.grid == tm.grid && t.team == tm.team) }

/-- The stamps that a team's threads have made or met, and the stored sectors (R334, R330). -/
def Team.written (tm : Team) : VClk × List Nat :=
  tm.groups.foldl (fun z g => g.2.threads.foldl (fun z t =>
    ((z.1.join t.2.wrote).join t.2.seen, insNats t.2.stored z.2)) z) (.zero, [])

/-- The writes of a team that goes away join those of its grid (R334). -/
def State.joinWrites (s : State) (tm : Team) : State :=
  let w := tm.written
  s.updGrid tm.grid fun g => { g with stamps := g.stamps.join w.1, stored := insNats w.2 g.stored }

/-! ### Discard (R366) -/

/-- Is an outstanding access of a team one that a stop waits for? One held for the pager or at its tile is not when the
team is saved, and a card at a full channel, or a job's or a counter's request not yet sent, goes. -/
def Acc.holdsUp (a : Acc) (save : Bool) : Bool :=
  match a.op, a.st with
  | .card _, _ => false
  | _, .held _ | _, .arrHeld => !save
  | .ctr _, .pending => false
  | _, .pending => a.job.isNone
  | _, _ => true

/-- The outstanding accesses of a team. -/
def State.teamAccs (s : State) (tm : Team) : List Acc :=
  s.accs.filter fun a => a.t.g.grid == tm.grid && a.t.g.team == tm.team

/-- Has a team arrivals of its own on their way, or a thread between a fault and its handler (R360)? -/
def State.inFlight (s : State) (tm : Team) : Bool :=
  (s.arrivals.any fun a => a.ap.isNone && a.grid == tm.grid && a.team == tm.team)
  || tm.groups.any fun g => g.2.threads.any fun t => match t.2.st with | .taking _ _ _ => true | _ => false

/-- Has the outstanding-transaction table drained for a stopped team (R366, R367)? -/
def State.drained (s : State) (tm : Team) (save : Bool) : Bool :=
  !((s.teamAccs tm).any fun a => a.holdsUp save) && !s.inFlight tm

/-- Accesses of a stopped team that go with the stop. -/
def State.dropIdle (s : State) (tm : Team) : State :=
  { s with accs := s.accs.filter fun a =>
      !(a.t.g.grid == tm.grid && a.t.g.team == tm.team)
      || (match a.op, a.st with
          | .card _, _ => false
          | _, .pending => false
          | _, _ => true) }

/-- What the device still holds for a discarded team goes: its network operations and source events (R375). -/
def State.dropRest (s : State) (tm : Team) : State :=
  let mine := fun (r : GRef) => r.grid == tm.grid && r.team == tm.team
  { s with
    srcs := s.srcs.filter fun x => !mine x.1
    fab := { s.fab with netOps := s.fab.netOps.filter fun o => !mine o.g } }

/-- DISCARD (R366): a stopped team whose accesses are drained leaves its cores and waits to be admitted afresh. -/
def State.discard (s : State) (g t : Nat) : State :=
  match s.team? g t with
  | none => s
  | some tm =>
    if tm.st ≠ .stopped .discard || !s.drained tm false then s
    else
      let s := (((s.preReport tm 1).nackHeld tm).dropIdle tm).dropRest tm
      let s := tm.cores.foldl (fun s c => s.releaseCore tm c) s
      let s := (s.joinWrites tm).dropTeam tm
      s.updQueue tm.queue fun q => { q with readmit := q.readmit ++ [(g, t)] }

/-- DISCARD. -/
def execEvDiscard (g t : Nat) (s : State) : Host.Outcome State Fault Refusal := .next (s.discard g t)

/-! ### Save (R367) -/

/-- Does a thread stand at a CTRWAIT? -/
def Thread.atCounter (t : Thread) : Bool :=
  match t.instr? with | some (.ctrwait _ _ _ _) | some (.ctrwaitYield _ _ _ _) => true | _ => false

/-- A thread as a save records it (R369): what waits is Ready, but for a pending pop (R61) and, under a swap, the counter
that it waits for (R355). A counter's value that has come is not kept: a CTRWAIT completes by a load after the restore. -/
def Thread.saved (swap : Bool) (t : Thread) : Thread :=
  match t.st with
  | .parked .pop => t
  | .parked (.ctr _ _ _ _ _) => if swap then t else { t with st := .ready }
  | .parked _ | .entering => { t with st := .ready, pinned := 0, fenceV := none }
  | .ready => if t.atCounter then { t with popped := none } else t
  | _ => t

/-- The special-function queue of a group drains (R367 step 2). -/
def State.drainSfu (s : State) (r : GRef) : State :=
  match s.group? r with
  | some (_, g) => g.sfq.foldl (fun s e => s.sfuDone r e.id) s
  | none => s

/-- Has an operation a stopping boundary inside it after its next K block (R253)? -/
def State.stopsInside (s : State) (core : Nat) (o : MOp) : Bool :=
  match o.kind, Tab.find? (s.core core).recs o.a with
  | .mma, some r | .mmap _, some r =>
    (!r.scaled || r.blkLen == 16 || r.blkLen == 48) && decide (48 * (o.kblk + 1) < r.kLen)
  | _, _ => false

/-- One K block of an operation is added, and the next is noted (R370). -/
def State.runBlock (s : State) (core bc : Nat) (o : MOp) : State :=
  let s := s.mmaOn core bc o (48 * o.kblk) (48 * (o.kblk + 1))
  s.updCore core fun c => { c with seq := c.seq.map fun x => if x.id = o.id then { x with kblk := o.kblk + 1 } else x }

/-- The running operation of a core runs on to its stopping boundary, or completes (R367 step 4). -/
def State.runHead (s : State) (tm : Team) (core : Nat) : State :=
  match (s.core core).seq with
  | [] => s
  | o :: _ =>
    if !o.ofTeam tm then s
    else
      match o.kind with
      | .mmap true => s
      | .mmap false =>
        (match (s.core (core + 1)).seq with
         | f :: _ =>
           if f.kind = .mmap true ∧ f.g = o.g ∧ f.seqNo = o.seqNo then
             (if s.stopsInside core o then
                (if f.kblk ≠ o.kblk then s else (s.runBlock core core o).runBlock (core + 1) core f)
              else s.matrixStep core)
           else s
         | [] => s)
      | .mma => if s.stopsInside core o then s.runBlock core core o else s.matrixStep core
      | .mldg _ => s.mldgFill core o.id
      | _ => s.matrixStep core

/-- Detach the prefetches bound to one barrier of a team (R373): the sectors not yet counted count at once. -/
def State.detachBar (s : State) (g t mc off : Nat) : State :=
  let mine := fun (q : PageReq) => q.bar == some (g, t, mc, off)
  let left := fun (q : PageReq) =>
    if q.wait then pageSectors
    else match s.frameOf q.part q.page with | some (_, e) => pageSectors - e.arrived.length | none => 0
  let n := (s.pageReqs.filter mine).foldl (fun n q => n + left q) 0
  if (s.pageReqs.filter mine).isEmpty then s
  else
    let s := { s with pageReqs := s.pageReqs.map fun q => if mine q then { q with bar := none } else q }
    let s := s.updTeam g t fun tm =>
      { (tm.setTb mc off (putFld (tm.tbObj mc off) 4 4 1)) with detached := (mc, off) :: tm.detached }
    if n = 0 then s else s.tbLand g t mc off n

/-- Detach every prefetch bound to a barrier of a team (R373). -/
def State.detachAll (s : State) (tm : Team) : State :=
  let bars := s.pageReqs.filterMap fun q => q.bar.bind fun b => if b.1 = tm.grid ∧ b.2.1 = tm.team then some b.2.2 else none
  bars.foldl (fun s b => s.detachBar tm.grid tm.team b.1 b.2) s

/-- What a save keeps of a member core. -/
def Core.keep (c : Core) (tm : Team) : CoreSave :=
  let recs := List.filter (fun r => r.2.ofTeam tm) c.recs
  let inRange := fun (k : Nat) => recs.any fun r => decide (2 * r.2.base ≤ k) && decide (k < 2 * r.2.base + r.2.slots)
  let seq := c.seq.filter fun o => o.ofTeam tm
  { recs := recs
    bricks := List.filter (fun b => inRange b.1) c.bricks
    accs := List.filter (fun a => recs.any fun r => r.1 == a.1) c.accs
    seq := seq
    pins := c.pins.filter fun p => !p.waits && seq.any fun o => o.id == p.op
    jobs := c.jobs.filter (Job.ofTeam · tm) }

/-- A member core's part of a team is kept, and its resources are freed (R367 step 7). The pins of loads that have been
filled are released. -/
def State.saveCore (s : State) (tm : Team) (mc : Nat) : State :=
  let core := tm.coreAt mc
  let k := (s.core core).keep tm
  let mine := k.recs.map (·.1)
  let s := (s.releasePins core fun p => mine.contains p.rcd && !k.pins.contains p).wakePins core
  let s := s.updTeam tm.grid tm.team fun t => { t with saved := Tab.set t.saved mc k }
  s.updCore core fun c =>
    { c with
      recs := List.filter (fun r => !mine.contains r.1) c.recs
      accs := List.filter (fun r => !mine.contains r.1) c.accs
      pins := c.pins.filter fun p => !k.pins.contains p
      seq := c.seq.filter fun o => !o.ofTeam tm
      jobs := c.jobs.filter fun j => !j.ofTeam tm }

/-- The team's state after a save. -/
def Stop.after (w : Stop) : TeamSt := match w with | .swap va target => .continuation va target | _ => .saved

/-- Threads whose job cards have been accepted are past their store at a save: their jobs are saved as jobs (R367). -/
def State.passTaken (s : State) (tm : Team) : State :=
  tm.groups.foldl (fun s g => g.2.threads.foldl (fun s p =>
    match p.2.st, p.2.popped, p.2.instr? with
    | .ready, some _, some (.stB128 pf d a b) =>
      s.updThread ⟨tm.ref g.1, p.1⟩ fun t => t.advance (decOf (.stB128 pf d a b)) (s.hp tm g.2)
    | _, _, _ => s) s) s

/-- The running operations of a team's cores run on to their stopping boundaries: those that were first when it began, and no
later one (R367 step 4). -/
def State.runHeads (s : State) (tm : Team) : State :=
  let heads := tm.cores.filterMap fun c => ((s.core c).seq.head?).map fun o => (c, o.id)
  heads.foldl (fun s h =>
    match (s.core h.1).seq.head? with
    | some o => if o.id = h.2 then s.runHead tm h.1 else s
    | none => s) s

/-- The steps of a save once the table has drained (R367), but for the writing of the image. -/
def State.saveSteps (s : State) (tm : Team) (w : Stop) : State :=
  let swap := match w with | .swap _ _ => true | _ => false
  let s := tm.groups.foldl (fun s g => s.drainSfu (tm.ref g.1)) (((s.dropIdle tm).dropUnits tm [1, 5, 6]).passTaken tm)
  let s := ((s.runHeads tm).detachAll tm).updTeam tm.grid tm.team fun t =>
    { t with
      pushes := []
      groups := Tab.mapV t.groups fun g => Group.settle { g with threads := Tab.mapV g.threads (Thread.saved swap) } }
  (span 0 tm.cores.length).foldl (fun s mc => s.saveCore tm mc) s

/-- A save once the table has drained (R367): while a page of the image waits, nothing is done but to ask for it. -/
def State.saveNow (s : State) (tm : Team) (w : Stop) : State :=
  let s' := s.saveSteps tm w
  let at' := match s.ctx tm.pasid with | some c => c.image | none => 0
  match s'.team? tm.grid tm.team with
  | none => s'
  | some t2 =>
    let img := s'.image t2
    let n := img.length / pageSize + 2
    match State.writeImage (saver tm) n at' img s' with
    | none => State.askImage (saver tm) n at' img s
    | some s' =>
      let ranked := fun (g : Group) => { g with front := g.front.map fun e => { e with aged := e.aged.map fun _ => tm.rankOf g.gid e } }
      let s' := { (s'.unitsDone (saver tm)).preReport tm 2 with free := s'.free + 2 ^ 36 }
      s'.updTeam tm.grid tm.team fun t =>
        { t with
          st := w.after, image := at', preempt := none, vec := (s'.die (dieOfCore (tm.coreAt 0))).v
          groups := Tab.mapV t.groups ranked }

/-- SAVE (R367): a stopped team whose accesses have drained and whose jobs stand at a sector boundary. -/
def State.save (s : State) (g t : Nat) : State :=
  match s.team? g t with
  | none => s
  | some tm =>
    match tm.st with
    | .stopped .discard => s
    | .stopped w => if s.drained tm true then s.saveNow tm w else s
    | _ => s

/-- SAVE. -/
def execEvSave (g t : Nat) (s : State) : Host.Outcome State Fault Refusal := .next (s.save g t)

/-! ### Restore (R374) -/

/-- Are the record numbers and the granules of a saved core free on a core (R374)? -/
def State.recRoom (s : State) (k : CoreSave) (core : Nat) : Bool :=
  k.recs.all fun r => (s.core core).recs.all fun x => x.1 != r.1 && !x.2.overlaps r.2

/-- The groups of a team that have not ended fit some cores, with its records (R267, R374). -/
def State.restoreFits (s : State) (tm : Team) (cores : List Nat) : Bool :=
  let live := List.filter (fun g => !g.2.over) tm.groups
  ((span 0 cores.length).zip cores).all fun c =>
    s.coreRoom tm.kern cores.length c.2 && s.recRoom (Tab.getD tm.saved ⟨[], [], [], [], [], []⟩ c.1) c.2
    && (span 0 4).all fun p =>
      s.partRoom tm.kern c.2 p (List.filter (fun g => groupPlace cores.length g.1 == (c.1, p)) live).length

/-- The cores a saved team is restored on: those of its number that are free, lowest first (R349, R374), on a die that has the
writes that the die of the save had (R375). -/
def State.restorePlace (s : State) (tm : Team) : Option (List Nat) :=
  match s.part tm.part with
  | none => none
  | some q =>
    List.find? (fun cs => s.restoreFits tm cs && cs.all fun c => (s.die (dieOfCore c)).v.covers tm.vec) (placesOf q tm.cores.length)

/-- The lowest free slot of a scheduler partition for group gid of a team: the groups of the team from gid on have not
taken theirs (R349). -/
def State.freeSlot (s : State) (core part : Nat) (r : GRef) : Nat :=
  let used := (s.groupsHeld core part).filterMap fun p =>
    if p.1.grid = r.grid ∧ p.1.team = r.team ∧ r.gid ≤ p.2.gid then none else some p.2.slot
  ((List.range 8).find? fun k => !used.contains k).getD 0

/-- A group takes its place: its core, its partition and the lowest free slot (R266, R349). -/
def State.placeGroup (s : State) (g t : Nat) (cores : List Nat) (gid : Nat) : State :=
  let (mc, part) := groupPlace cores.length gid
  let core := cores.getD mc 0
  let slot := s.freeSlot core part ⟨g, t, gid⟩
  s.updGroup ⟨g, t, gid⟩ fun x => { x with core := core, part := part, slot := slot }

/-- Number operations afresh from n on. -/
def renumber : Nat → List MOp → List MOp
  | _, [] => []
  | n, o :: t => { o with id := n } :: renumber (n + 1) t

/-- The ids of operations before and after their renumbering. -/
def opIds : Nat → List MOp → List (Nat × Nat)
  | _, [] => []
  | n, o :: t => (o.id, n) :: opIds (n + 1) t

/-- Write a member core's part of a saved team back (R374 steps 1, 4 and 5): a resumed operation goes to the front. -/
def State.loadCore (s : State) (tm : Team) (mc core : Nat) : State :=
  let k := Tab.getD tm.saved ⟨[], [], [], [], [], []⟩ mc
  s.updCore core fun c =>
    let ids := opIds c.opNext k.seq
    let seq := renumber c.opNext k.seq
    { c with
      recs := k.recs.foldl (fun m r => Tab.set m r.1 r.2) c.recs
      bricks := k.bricks.foldl (fun m r => Tab.set m r.1 r.2) c.bricks
      accs := k.accs.foldl (fun m r => Tab.set m r.1 r.2) c.accs
      opNext := c.opNext + k.seq.length
      seq := seq.filter (fun o => o.kblk != 0) ++ c.seq ++ seq.filter (fun o => o.kblk == 0)
      pins := c.pins ++ k.pins.map fun p =>
        { p with op := match List.find? (fun x => x.1 == p.op) ids with | some x => x.2 | none => p.op }
      jobs := c.jobs ++ ((orderBy (fun a b => decide (a.seq < b.seq)) k.jobs).zipIdx c.jobNext).map fun p => { p.1 with seq := p.2 }
      jobNext := c.jobNext + k.jobs.length }

/-- What an operation needs of a leaf (R379). -/
def AccOp.need (o : AccOp) : Need :=
  match o with
  | .store _ | .red _ _ _ => ⟨false, true, false⟩
  | .atom _ _ _ _ | .cas _ _ _ => ⟨true, true, false⟩
  | _ => ⟨true, false, false⟩

/-- A fault of an access whose thread has passed its instruction (R455): it goes to the pager, or is deferred. That of a join
counter's load holds its thread (R237, R356). -/
def State.accFails (s : State) (a : Acc) (m : MFail) : State :=
  match a.op with
  | .ctr _ => s.deferAt a m.f m.va
  | _ =>
    if m.f.replay then
      (s.setAcc { a with st := .held 0 }).toPager a.part (.access a.id) a.pasid (s.accRec a a.t m.f m.va)
    else s.deferAt a m.f m.va

/-- A held access is performed afresh, its translation too (R399, R455). -/
def State.replayAcc (s : State) (a : Acc) : State :=
  let n := firstPart a.va a.size
  match s.translate a.core a.pasid a.va a.op.need with
  | .error f => s.accFails a ⟨a.va, f⟩
  | .ok l =>
    if a.leaf2.isNone then s.setAcc { a with leaf := some l, again := true, st := .pending }
    else
      match s.translate a.core a.pasid (a.va + n) a.op.need with
      | .error f => s.accFails a ⟨a.va + n, f⟩
      | .ok l2 => s.setAcc { a with leaf := some l, leaf2 := some l2, again := true, st := .pending }

/-- The reply of a SYSCALL arrives in g8 and g9 of its group (R262): a producer's value (R53), which the spin detectors of its
entries see (R281). -/
def State.giveReply (s : State) (r : GRef) (g8 g9 : Word) : State :=
  (s.watchFill r (span 0 64) (s.updGroup r fun g => g.setRegs [(8, g8), (9, g9)])).wakeRegs r

/-- Apply what the device held for a team (R374 steps 2 and 6). -/
def State.applyNote (s : State) (g t : Nat) : HeldNote → State
  | .push gid q v => s.pushPort ⟨g, t, gid⟩ q v
  | .reply gid g8 g9 => s.giveReply ⟨g, t, gid⟩ (BitVec.ofNat 32 g8) (BitVec.ofNat 32 g9)
  | .replay id => (match s.acc? id with | some a => s.replayAcc a | none => s)
  | .doorbell gid src => s.sourceEvent ⟨g, t, gid⟩ src
  | .decline tr r =>
    ((s.updThread tr fun th => { th with st := .ready }).enterFault tr { r with replay := false } .fault
      (match s.thread? tr with | some (_, _, th) => th.here | none => ⟨0, 0, 0, false⟩)).settle tr.g

/-- The aged entries of a restored team take ageing times in rank order, all before any that ages later (R371). -/
def Group.reAge (clk : Nat) (g : Group) : Group :=
  { g with front := g.front.map fun e => { e with aged := e.aged.map fun r => rankRoom * clk + r } }

/-- What a restored team's accesses, network operations and requests over Shecel name by core follows it to its new cores
(R374). -/
def State.moveRefs (s : State) (tm : Team) (old new : List Nat) : State :=
  let coreOf := fun (r : GRef) (c : Nat) =>
    if r.grid = tm.grid ∧ r.team = tm.team then (match s.group? r with | some (_, x) => x.core | none => c) else c
  let keys := (tm.saved.flatMap fun k => k.2.pins).flatMap fun p => p.lines.filterMap fun l =>
    if 2 ^ 61 ≤ l.2 then some (l.2 - 2 ^ 61) else none
  let own := fun (o : List Nat) =>
    match o with
    | [3, c, key] => if keys.contains key then [3, new.getD (old.idxOf c) c, key] else o
    | o => o
  { s with
    accs := s.accs.map fun a => { a with core := coreOf a.t.g a.core }
    fab := { s.fab with
      netOps := s.fab.netOps.map fun o => { o with core := coreOf o.g o.core }
      units := s.fab.units.map fun u => { u with own := own u.own } } }

/-- A core takes in a team: its L1 and the code words that it has fetched before are dropped (R334, R349, R375). -/
def State.clearCore (s : State) (core : Nat) : State := s.updCore core fun c => { c with l1 := [], code := [] }

/-- Restore a team on cores (R374). -/
def State.restoreOn (s : State) (tm : Team) (cores : List Nat) : State :=
  let g := tm.grid
  let t := tm.team
  let s := (cores.foldl State.clearCore s).updTeam g t fun x =>
    { x with cores := cores, st := .running, admitAt := s.now, saved := [], notes := [], empt := [], ranks := [] }
  let s := tm.groups.foldl (fun s p => if p.2.over then s else s.placeGroup g t cores p.1) s
  let s := s.updTeam g t fun x =>
    { x with groups := Tab.mapV x.groups fun y => Group.reAge (s.core y.core).clk y }
  let s := ((span 0 cores.length).zip cores).foldl (fun s c => s.loadCore tm c.1 c.2) s
  let s := s.moveRefs tm tm.cores cores
  let s := tm.notes.foldl (fun s n => s.applyNote g t n) s
  let s := tm.groups.foldl (fun s p => s.settle ⟨g, t, p.1⟩) s
  s.forwardHeld g t

/-- Has a grid been killed (R352)? -/
def State.gridKilled (s : State) (g : Nat) : Bool := match s.grid? g with | some x => x.killed | none => true

/-- RESTORE (R374): a saved team, when cores that suit it are free. -/
def execEvRestore (g t : Nat) (s : State) : Host.Outcome State Fault Refusal :=
  .next (match s.team? g t with
    | some tm =>
      if tm.st = .saved ∧ ¬ s.gridKilled g then (match s.restorePlace tm with | some c => s.restoreOn tm c | none => s) else s
    | none => s)

end Sys2Proof.Machine
end

