-- ==== Sys2Proof/Machine/Select.lean ====
section
/-! DEFINITION. The command processor (R338, R343, R346 to R355): the choice and admission of teams, retirement, the
completion of grids, continuation records, queues, contexts and apertures. -/

namespace Sys2Proof.Machine

/-! ### Admission (R60, R349) -/

/-- A thread at launch (R49, R60): at the kernel's first header. -/
def newThread (entry prio tmthread teamid : Nat) : Thread :=
  { Thread.fresh with pc := entry, hdr := entry, prio := prio, rs := rsSeed tmthread teamid }

/-- A group at launch, its place apart (R60). -/
def newGroup (x : Grid) (teamid prio gid : Nat) : Group :=
  { gid := gid, core := 0, part := 0, slot := 0
    g := ((span 0 8).zip x.args).foldl (fun m a => if a.1 < x.kern.gregs then Tab.put m 0#32 a.1 (BitVec.ofNat 32 a.2) else m) []
    ge := [], q0 := [], q1 := [], q2 := [], sfq := [], sfNext := 0, uli := 0#5, seq := 0, q0out := 0, netOut := 0
    threads := (span 0 64).map fun tid => (tid, newThread x.kern.entry prio (64 * gid + tid) teamid), front := [] }

/-- A team at launch. -/
def newTeam (x : Grid) (t prio now : Nat) (cores : List Nat) : Team :=
  { grid := x.id, team := t, pasid := x.pasid, part := x.part, queue := x.queue, depth := x.depth, st := .running
    cores := cores, kern := x.kern, groups := (span 0 x.groups).map fun gid => (gid, newGroup x t prio gid)
    scratch := [], tiles := [], heldArr := [], chans := [], pops := [], pushes := [], pend := [], children := 0
    admitAt := now, preempt := none, notes := [], image := 0, saved := [], stopAt := 0, ranks := [], empt := [], detached := []
    landed := [], vec := .zero }

/-- Admit a team on cores (R60, R265, R334, R335, R349): an acquire, which drops its cores' L1s, and every core's for a grid
that names handles; the code words that its cores have fetched before go. Held arrivals are forwarded (R294). -/
def State.admitTeam (s : State) (x : Grid) (t : Nat) (cores : List Nat) : State :=
  let prio := s.headerPrio (cores.headD 0) x.pasid x.kern.entry 0
  let s := if x.handles.isEmpty then s else { s with cores := Tab.mapV s.cores fun c => { c with l1 := [] } }
  let s := cores.foldl State.clearCore s
  let s : State := { s with teams := s.teams ++ [newTeam x t prio s.now cores] }
  let s := (span 0 x.groups).foldl (fun s gid => (s.placeGroup x.id t cores gid).settle ⟨x.id, t, gid⟩) s
  s.forwardHeld x.id t

/-! ### Heads (R347) -/

/-- A queue's head. -/
inductive Head where
  | cont (g t : Nat)
  | readmit (g t : Nat)
  | grid (g : Nat) (child : Bool)
deriving DecidableEq, Repr

/-- May teams of a grid still be admitted? -/
def State.gridLive (s : State) (g : Nat) : Bool := match s.grid? g with | some x => !x.killed && !x.abandoned | none => false

/-- The head of a queue (R347, R355, R366). A queue that is not open has no head but a continuation, whose team runs on
(R346). -/
def State.headOf (s : State) (q : Queue) : Option Head :=
  match q.conts.filter fun c => !s.gridKilled c.1, if q.st = .opened then q.readmit.filter fun r => s.gridLive r.1 else [] with
  | c :: _, _ => some (.cont c.1 c.2)
  | [], r :: _ => some (.readmit r.1 r.2)
  | [], [] =>
    if q.st ≠ .opened then none
    else
      match q.kids.find? s.gridLive, q.ring.find? s.gridLive with
      | some g, _ => some (.grid g true)
      | none, some g => some (.grid g false)
      | none, none => none

/-- The numbers that name a head. -/
def Head.key (h : Head) : Nat × Nat × Nat :=
  match h with | .cont g t => (1, g, t) | .readmit g t => (2, g, t) | .grid g _ => (3, g, 0)

/-- Is a head ready (R335, R347)? -/
def State.headReady (s : State) (h : Head) : Bool :=
  match h with
  | .cont _ _ | .readmit _ _ => true
  | .grid g _ =>
    match s.grid? g with
    | some x => x.deps.isEmpty && s.allCover x.need
    | none => false

/-- A place for a team of a grid (R349), whose dies must have what its admission acquires (R334). -/
def State.gridPlace (s : State) (x : Grid) : Option (List Nat) :=
  match s.placeFor x.part x.kern x.groups x.minSpan with
  | some cores => if cores.all fun c => (s.die (dieOfCore c)).v.covers x.acq then some cores else none
  | none => none

/-- The cores that a head's next team takes now, with its groups. -/
def State.headPlace (s : State) (h : Head) : Option (List Nat × Nat) :=
  match h with
  | .cont g t => (s.team? g t).bind fun tm => (s.restorePlace tm).map fun c => (c, tm.groups.length)
  | .readmit g _ | .grid g _ => (s.grid? g).bind fun x => (s.gridPlace x).map fun c => (c, x.groups)

/-- Admit a head's next team on cores; a record whose every team is admitted is finished (R344). -/
def State.takeHead (s : State) (q : Nat) (h : Head) (cores : List Nat) : State :=
  match h with
  | .cont g t =>
    let s := s.updQueue q fun x => { x with conts := x.conts.filter fun c => c != (g, t) }
    (match s.team? g t with | some tm => s.restoreOn tm cores | none => s)
  | .readmit g t =>
    let s := s.updQueue q fun x => { x with readmit := x.readmit.filter fun r => r != (g, t) }
    (match s.grid? g with | some x => s.admitTeam x t cores | none => s)
  | .grid g child =>
    match s.grid? g with
    | none => s
    | some x =>
      let s := (s.admitTeam x x.nextTeam cores).updGrid g fun x => { x with nextTeam := x.nextTeam + 1 }
      if x.nextTeam + 1 < x.teams then s
      else if child then s.updQueue q fun x => { x with kids := delNat g x.kids }
      else (s.updQueue q fun x => { x with ring := delNat g x.ring }).bumpHead q

/-! ### Selection (R348) -/

/-- Has a queue's head been ready for AGE µs without an admission (R348)? -/
def State.agedNow (s : State) (q : Queue) : Bool :=
  match q.readySince with
  | some t => decide (q.age ≠ 0) && decide (max t q.lastAdmit + 1000 * q.age ≤ s.now)
  | none => false

/-- What a queue's head does to its deficit, to the time since when it is ready and to its age (R348). -/
def State.refreshQueue (s : State) (q : Queue) : Queue :=
  match s.headOf q with
  | some h =>
    if !s.headReady h then { q with head? := none, readySince := none, aged := false, deficit := 0 }
    else if q.head? = some h.key then { q with aged := q.aged || s.agedNow q }
    else { q with head? := some h.key, readySince := some s.now, aged := false }
  | none => { q with head? := none, readySince := none, aged := false, deficit := 0 }

/-- The queues whose head is ready and whose next team fits (R348). -/
def State.eligible (s : State) : List (Nat × Queue) :=
  List.filter (fun q =>
    match s.headOf q.2 with
    | some h => s.headReady h && (s.headPlace h).isSome
    | none => false) s.cp.queues

/-- The aged queue whose head became ready earliest. -/
def oldestAged : List (Nat × Queue) → Option (Nat × Queue)
  | [] => none
  | q :: t =>
    match oldestAged t with
    | none => if q.2.aged then some q else none
    | some x => if q.2.aged && decide (q.2.readySince.getD 0 ≤ x.2.readySince.getD 0) then some q else some x

/-- The queue chosen (R348). -/
def chooseQueue (last : Nat) (l : List (Nat × Queue)) : Option (Nat × Queue) :=
  match oldestAged l with
  | some q => some q
  | none =>
    let p := l.foldl (fun p q => max p q.2.pri) 0
    let l := List.filter (fun q => q.2.pri == p) l
    match List.find? (fun q => decide (last < q.1)) l with
    | some q => some q
    | none => l.head?

/-- Admit teams of a queue's head while one fits and the deficit allows (R348); the fuel is the deficit. -/
def State.serveQueue (s : State) (q : Nat) : Nat → State
  | 0 => s
  | n + 1 =>
    match Tab.find? s.cp.queues q with
    | none => s
    | some x =>
      match s.headOf x with
      | none => s
      | some h =>
        match (if s.headReady h then s.headPlace h else none) with
        | none => s
        | some (cores, groups) =>
          if x.deficit < groups then s
          else
            let s := s.updQueue q fun x =>
              { x with deficit := x.deficit - groups, aged := false, lastAdmit := s.now }
            State.serveQueue (s.takeHead q h cores) q n

/-- TEAM_SELECT (R348). -/
def State.teamSelect (s : State) : State :=
  let s : State := { s with cp := { s.cp with queues := Tab.mapV s.cp.queues s.refreshQueue } }
  match chooseQueue s.cp.lastQ s.eligible with
  | none => s
  | some (q, x) =>
    let d := x.deficit + x.quant
    let s := s.updQueue q fun x => { x with deficit := d }
    let s := { s with cp := { s.cp with lastQ := q } }.serveQueue q d
    { s with cp := { s.cp with queues := Tab.mapV s.cp.queues s.refreshQueue } }

/-- TEAM_SELECT. -/
def execEvTeamSelect (s : State) : Host.Outcome State Fault Refusal := .next (if s.cpUp then s.teamSelect else s)

/-- QUEUE_AGED (R348): the head has been ready for AGE µs without an admission. -/
def execEvQueueAged (q : Nat) (s : State) : Host.Outcome State Fault Refusal :=
  .next (s.updQueue q s.refreshQueue)

/-! ### Retirement (R351 to R353) -/

/-- Is every condition of R351 met but those on children and pending launches? -/
def State.teamQuiet (s : State) (tm : Team) : Bool :=
  tm.groups.all (fun g => g.2.over) && (s.teamAccs tm).isEmpty
  && !(s.cores.any fun c => c.2.jobs.any fun j => j.t.g.grid == tm.grid && j.t.g.team == tm.team)
  && tm.saved.all fun c => c.2.jobs.isEmpty

/-- A team leaves its cores (R269, R351). -/
def State.leaveCores (s : State) (tm : Team) : State :=
  if tm.resident then tm.cores.foldl (fun s c => s.releaseCore tm c) (s.nackHeld tm) else s

/-- The apertures of a retired team begin their last hold (R355). -/
def State.apersRetire (s : State) (f : Aper → Bool) : State :=
  let g := fun (a : Aper) => if f a && a.retiredAt.isNone then { a with retiredAt := some s.now } else a
  { s with cp := { s.cp with apers := Tab.mapV s.cp.apers g } }

/-- A team retires. -/
def State.retireTeam (s : State) (tm : Team) : State :=
  let s := ((s.preReport tm 0).leaveCores tm).joinWrites tm
  let s := s.apersRetire fun a => a.grid == tm.grid && a.team == tm.team
  (s.updQueue tm.queue fun q => { q with conts := q.conts.filter fun c => c != (tm.grid, tm.team) }).dropTeam tm

/-- Has every team of a grid retired? -/
def State.gridOver (s : State) (x : Grid) : Bool :=
  (decide (x.teams ≤ x.nextTeam) || x.killed || x.abandoned)
  && !(s.teams.any fun t => t.grid == x.id)
  && (x.killed || x.abandoned || !(s.cp.queues.any fun q => q.2.readmit.any fun r => r.1 == x.id))

/-- The command processor as it writes a grid's join counter: a strong access at system scope (R353). -/
def joiner (x : Grid) : Agent := ⟨[10, x.id], 0, x.pasid, true⟩

/-- The join counter's add of 1 (R353). -/
def joinOp : AccOp := .atom 0 true 1 true

/-- The write on a grid's join counter (R205, R353). -/
def State.joinAdd (s : State) (x : Grid) : RmwRes :=
  if x.join % 8 ≠ 0 then .fail ⟨0x05, none, false, 0⟩
  else if 2 ^ 57 ≤ x.join then .fail ⟨0x06, none, false, 0⟩
  else s.unitRmw (joiner x) x.join 8 joinOp

/-- Does the release of a grid at system scope hold (R334, R353, R402)? -/
def State.gridReleased (s : State) (x : Grid) : Bool :=
  s.allCover x.stamps
  && s.frames.all fun e => e.2.loc || !(e.2.dirty.any fun k => x.stored.contains (e.2.page * 1024 + k))

/-- The record of a fault of a grid's completion write (R353), which its partition's service core receives. -/
def State.joinFault (s : State) (x : Grid) (f : Fail) : State :=
  let r : FRec :=
    { code := f.code, kind := 0x05, ri := 0, eng := false, replay := false, thread := 0, group := 0, team := 0
      grid := x.id, pc := 0, va := x.join, smask := 0, eprog := 0, lease := f.lease, dtime := s.now, core := 0
      part := x.part, chan := 0xFF }
  let s := { s with parts := Tab.adjust s.parts x.part fun q => { q with killRecs := q.killRecs ++ [r] } }
  s.logErr (some x.part) 0x07 0 0xFF x.pasid f.code x.join

/-- A grid is forgotten: what waited for it goes on (R335), its parent counts one child fewer (R351), and its record leaves
its queue. -/
def State.dropGrid (s : State) (x : Grid) : State :=
  let inRing := match Tab.find? s.cp.queues x.queue with | some q => q.ring.contains x.id | none => false
  let s := s.apersRetire fun a => a.grid == x.id
  let s : State := { s with cp := { s.cp with
    grids := Tab.mapV (Tab.del s.cp.grids x.id) fun y =>
      { y with
        need := if y.deps.any (fun d => d == (x.id, true)) then y.need.join x.stamps else y.need
        deps := y.deps.filter fun d => d.1 != x.id }
    handles := Tab.mapV s.cp.handles fun h =>
      { h with
        stamps := if h.writers.contains x.id then h.stamps.join x.stamps else h.stamps
        writers := delNat x.id h.writers
        readers := delNat x.id h.readers } } }
  let s := s.updQueue x.queue fun q =>
    { q with kids := delNat x.id q.kids, ring := delNat x.id q.ring, readmit := q.readmit.filter fun r => r.1 != x.id }
  let s := if inRing then s.bumpHead x.queue else s
  match x.parent with
  | some (g, t) => s.updTeam g t fun tm => { tm with children := tm.children - 1 }
  | none => s

/-- A grid whose last team has retired completes (R352, R353): the release, then the write on its join counter; a killed or
abandoned grid makes none. -/
def State.gridDone (s : State) (g : Nat) : State :=
  match s.grid? g with
  | none => s
  | some x =>
    if !s.gridOver x then s
    else if x.killed || x.abandoned then s.dropGrid x
    else if !s.gridReleased x then s
    else if x.join = 0 then s.dropGrid x
    else
      match s.joinAdd x with
      | .wait => s.unitAsk (joiner x) x.join 8 joinOp ⟨true, true, false⟩
      | .done s _ _ => (s.unitsDone (joiner x)).dropGrid x
      | .fail f => ((s.unitsDone (joiner x)).joinFault x f).dropGrid x

/-- TEAM_RETIRE (R351, R353): a team that has ended retires or becomes an awaiting-children record; a grid without teams left
completes. -/
def State.teamRetire (s : State) (g t : Nat) : State :=
  match s.team? g t with
  | none => s.gridDone g
  | some tm =>
    if !s.teamQuiet tm then s
    else if tm.pend.isEmpty && tm.children == 0 then (s.retireTeam tm).gridDone g
    else if tm.resident then (s.leaveCores tm).updTeam g t fun x => { x with st := .awaiting, heldArr := [] }
    else s

/-- TEAM_RETIRE. -/
def execEvTeamRetire (g t : Nat) (s : State) : Host.Outcome State Fault Refusal := .next (s.teamRetire g t)

/-! ### Continuation records (R237, R354, R355) -/

/-- The counter and target on which every live thread of a team waits in CTRWAIT.yield, since 2,048 clk (R237). -/
def State.yieldWait (s : State) (tm : Team) : Option (Nat × Nat) :=
  let ws := tm.groups.flatMap fun g => g.2.threads.filterMap fun t =>
    if t.2.live then
      some (match t.2.st with
        | .parked (.ctr va target _ since true) =>
          if since + 2048 ≤ (s.core g.2.core).clk then some (va, target) else none
        | _ => none)
    else none
  match ws with
  | some w :: r => if r.all fun x => x == some w then (if w.1 / 2 ^ 56 = 0xFE then none else some w) else none
  | _ => none

/-- Does a ready head of priority p or more wait for resources that a team's cores would supply (R354)? -/
def State.wantedBy (s : State) (tm : Team) (p : Nat) : Bool :=
  let s' : State := { s with teams := s.teams.filter fun t => !(t.grid == tm.grid && t.team == tm.team) }
  s.cp.queues.any fun q => q.2.st == QState.opened && decide (p ≤ q.2.pri) &&
    match s.headOf q.2 with
    | some h => s.headReady h && (s.headPlace h).isNone && (s'.headPlace h).isSome
    | none => false

/-- CONTINUATION_SWAP_OUT (R354): the team stops, to be saved as a continuation record. -/
def State.swapOut (s : State) (g t : Nat) : State :=
  match s.team? g t with
  | none => s
  | some tm =>
    match tm.st, tm.preempt, s.yieldWait tm, Tab.find? s.cp.queues tm.queue with
    | .running, none, some (va, target), some q =>
      if q.swap || s.wantedBy tm q.pri then s.stopTeam g t (.swap va target) else s
    | _, _, _, _ => s

/-- CONTINUATION_SWAP_OUT. -/
def execEvContinuationSwapOut (g t : Nat) (s : State) : Host.Outcome State Fault Refusal := .next (s.swapOut g t)

/-- The command processor as it loads the counter of a continuation record: strong, at system scope (R354). -/
def contPoller (tm : Team) : Agent := ⟨[11, tm.grid, tm.team], 0, tm.pasid, true⟩

/-- A load that one of the device's units has made counts at its frame (R386). -/
def State.countUnit (s : State) (g : Agent) (va : Nat) : State :=
  match s.unitLeaf g va ⟨true, false, false⟩ with
  | .ok l =>
    (match s.placeDev (s.partOf g.pasid) (s.placeOf l va) 8 with
     | some pa => if pa < hostBase then s.countFrame (pa / pageSize) else s
     | none => s)
  | .error _ => s

/-- CONTINUATION_POLL (R354, R355): one load of the counter; a value of at least T makes the record its queue's head. A load
that meets a fault returns no value, and the record waits on (assumption log 27). -/
def State.contPoll (s : State) (g t : Nat) : State :=
  match s.team? g t with
  | none => s
  | some tm =>
    match tm.st with
    | .continuation va target =>
      let waiting := match Tab.find? s.cp.queues tm.queue with | some q => q.conts.contains (g, t) | none => true
      if waiting then s
      else
        (match s.unitGet (contPoller tm) va 8 ⟨true, false, false⟩ with
         | .wait => s.unitAsk (contPoller tm) va 8 (.load 8 false) ⟨true, false, false⟩
         | .fail _ => s.unitsDone (contPoller tm)
         | .done bs =>
           let s := (s.unitsDone (contPoller tm)).countUnit (contPoller tm) va
           if target ≤ ofLE bs then s.updQueue tm.queue fun q => { q with conts := q.conts ++ [(g, t)] } else s)
    | _ => s

/-- CONTINUATION_POLL. -/
def execEvContinuationPoll (g t : Nat) (s : State) : Host.Outcome State Fault Refusal := .next (s.contPoll g t)

/-! ### Apertures, queues and contexts -/

/-- APERTURE_UNBIND (R355): 2^HOLD µs after the team's retirement. -/
def execEvApertureUnbind (ap : Nat) (s : State) : Host.Outcome State Fault Refusal :=
  .next (match Tab.find? s.cp.apers ap with
    | some a =>
      (match a.retiredAt with
       | some t => if t + 2 ^ a.hold * 1000 ≤ s.now then { s with cp := { s.cp with apers := Tab.del s.cp.apers ap } } else s
       | none => s)
    | none => s)

/-- A queue's state by its number (R343). -/
def qstateOf (n : Nat) : QState := match n with | 0 => .closed | 1 => .opened | 2 => .destroying | _ => .error

/-- A queue with the fields of a descriptor (R343); its counts go on (assumption log 28). -/
def Queue.describe (q : Queue) (d : Nat) : Queue :=
  { q with
    base := fld d 127 64, pasid := fld d 63 44, maxd := fld d 43 40, logsz := fld d 39 36, quant := fld d 35 28
    age := fld d 27 16, swap := bitN d 15, pri := fld d 14 12, st := qstateOf (fld d 1 0) }

/-- QUEUE_DESCRIPTOR_WRITE (R343): the service core writes one of the 1,024 descriptors. -/
def execEvQueueDescriptorWrite (q desc : Nat) (s : State) : Host.Outcome State Fault Refusal :=
  .next (if q < 1024 then
      { s with cp := { s.cp with
        queues := Tab.set s.cp.queues q (Queue.describe (Tab.getD s.cp.queues .fresh q) desc) } }
    else s)

/-- A destroyed queue lets go of one record (R346): one not begun is dropped, one begun is abandoned, and counted once. -/
def State.abandonRecord (s : State) (q : Nat) (g : Nat) : State :=
  match s.grid? g with
  | none => s
  | some x =>
    let inRing := match Tab.find? s.cp.queues q with | some y => y.ring.contains g | none => false
    let s := s.updQueue q fun y => { y with kids := delNat g y.kids, ring := delNat g y.ring }
    if x.nextTeam = 0 then s.dropGrid x
    else if x.killed || x.abandoned then s
    else
      let s := (s.updGrid g fun x => { x with abandoned := true }).bumpDiscard q
      if inRing then s.bumpHead q else s

/-- QUEUE_DESTROY (R346), at a record boundary: the records go, and once the queue's running teams have finished it reads
closed. -/
def State.queueDestroy (s : State) (q : Nat) : State :=
  match Tab.find? s.cp.queues q with
  | none => s
  | some x =>
    if x.st ≠ .destroying then s
    else
      let s := (x.ring ++ x.kids ++ x.readmit.map (·.1)).foldl (fun s g => s.abandonRecord q g) s
      let s := s.updQueue q fun x => { x with readmit := [], deficit := 0, aged := false, head? := none, readySince := none }
      if s.teams.any fun t => t.queue == q then s else s.updQueue q fun x => { x with st := .closed }

/-- QUEUE_DESTROY. -/
def execEvQueueDestroy (q : Nat) (s : State) : Host.Outcome State Fault Refusal := .next (s.queueDestroy q)

/-- QUEUE_RING_UNMAPPED (R346). -/
def execEvQueueRingUnmapped (q : Nat) (s : State) : Host.Outcome State Fault Refusal :=
  .next (s.ringCheck q)

/-- The bytes of a context's record area (R359). -/
def areaBytes : Nat := 64 * 2048 * 192

/-- The record slots of a context in one page of its record area take their reset contents, where the page is mapped: CHAN
reads 0xFF, and every other byte of memory that nothing has written reads 0 (R8). -/
def State.resetPage (s : State) (pasid area page : Nat) : State :=
  let va := page * pageSize
  match s.unitLeaf ⟨[12], 0, pasid, false⟩ va ⟨false, true, false⟩ with
  | .error _ => s
  | .ok l =>
    match s.placeDev (s.partOf pasid) (s.placeOf l va) 64 with
    | none => s
    | some pa =>
      let slots := (span 0 pageSectors).filter fun k => decide (area ≤ va + 64 * k) && decide (va + 64 * k < area + areaBytes)
      if hostBase ≤ pa then s else { s with hbm := slots.foldl (fun m k => Mem.write m (pa + 64 * k + 0x3A) 0xFF#8) s.hbm }

/-- The record slots of a context take their reset contents (R8). -/
def State.resetSlots (s : State) (pasid area : Nat) : State :=
  let p := area / pageSize
  (span p ((area + areaBytes - 1) / pageSize + 1 - p)).foldl (fun s k => s.resetPage pasid area k) s

/-- CONTEXT_CREATE (R8, R338, R359, R376, R418): the service core creates a context. -/
def execEvContextCreate (pasid part fn slot ttb ptroot trapTab recArea image mcrep : Nat) (s : State) :
    Host.Outcome State Fault Refusal :=
  .next (if (Tab.find? s.cp.ctxs pasid).isSome ∨ 1024 ≤ s.cp.ctxs.length ∨ 2 ^ 20 ≤ pasid ∨ (s.part part).isNone then s
    else
      let c : Ctx :=
        { part := part, fn := fn, slot := slot, ttb := ttb, ptroot := ptroot, trapTab := trapTab, recArea := recArea
          image := image, mcrep := mcrep, hintDrops := 0 }
      { s with cp := { s.cp with ctxs := Tab.set s.cp.ctxs pasid c } }.resetSlots pasid recArea)

end Sys2Proof.Machine
end

