-- ==== Sys2Proof/Machine/Pager.lean ====
section
/-! DEFINITION. The pager (R356, R398, R399, R455), leases (R389 to R397), invalidation (R381), the frames (R382 to R388,
R401, R402, R429, R430), the pool (R412, R413) and stamped writes (R318). -/

namespace Sys2Proof.Machine

/-! ### Reports to the pager (R398, R399) -/

/-- The holder of a reported fault is held under its FID. -/
def State.holdUnder (s : State) (h : Holder) (fid : Nat) : State :=
  match h with
  | .thread t => s.updThread t fun th => if th.live then { th with st := .held fid } else th
  | .access id => (match s.acc? id with | some a => s.setAcc { a with st := .held fid } | none => s)
  | .job num => s.updJob num fun j => { j with st := .held fid }
  | .request _ => s

/-- The first FID from n on that no pending FAULT has. -/
def nextFid (m : Tab FidEnt) : Nat → Nat → Nat
  | 0, n => n
  | k + 1, n =>
    let n := if n % 65536 = 0 then 1 else n % 65536
    if (Tab.find? m n).isSome then nextFid m k (n + 1) else n

/-- Does a fault ring's FAULT entry carry a FID? -/
def FRing.isFault (x : FRing) (fid : Nat) : Bool := match x with | .fault f _ _ _ => f == fid | _ => false

/-- COUNT of a FAULT entry. -/
def FRing.recount (x : FRing) (n : Nat) : FRing := match x with | .fault f _ p r => .fault f n p r | x => x

/-- COUNT of the pending FAULT of a FID changes, in the ring and in its entry, while the pager has not taken it (R399). -/
def Part.recount (q : Part) (fid n : Nat) : Part :=
  match q.ring.findIdx? (FRing.isFault · fid) with
  | none => q
  | some k =>
    match q.ring[k]? with
    | some x => { q.setEntry (q.ftail - q.ring.length + k) (x.recount n) with ring := setNth q.ring k (x.recount n) }
    | none => q

/-- FAULT_TO_PAGER (R399): the fault that has waited longest joins a pending FAULT of its context, page and code, or takes a
new FID and a ring entry, if the ring has room. -/
def State.faultToPager (s : State) (p : Nat) : State :=
  match s.part p with
  | none => s
  | some q =>
    match q.waiting with
    | [] => s
    | (h, pasid, r) :: rest =>
      let page := r.va / pageSize
      match List.find? (fun e => e.2.pasid == pasid && e.2.page == page && e.2.code == r.code) q.fids with
      | some (fid, e) =>
        let e := { e with count := e.count + 1, holders := e.holders ++ [h], recs := e.recs ++ [r] }
        (s.updPart p fun q =>
          { q with waiting := rest, fids := Tab.set q.fids fid e }.recount fid e.count).holdUnder h fid
      | none =>
        if ringDepth ≤ q.ring.length ∨ q.late ≠ [] then s
        else
          let fid := nextFid q.fids (q.fids.length + 2) q.fidNext
          (s.updPart p fun q =>
            { q with
              waiting := rest
              fidNext := fid + 1
              fids := Tab.set q.fids fid ⟨pasid, page, r.code, 1, [h], [r]⟩ }.put (.fault fid 1 pasid r)).holdUnder h fid

/-- FAULT_TO_PAGER. -/
def execEvFaultToPager (part : Nat) (s : State) : Host.Outcome State Fault Refusal := .next (s.faultToPager part)

/-! ### Commands (R398) -/

/-- A command that has been applied and whose DONE is not known yet. -/
def State.cmdOpen (s : State) (p tag : Nat) : State := s.updPart p fun q => { q with cmds := q.cmds ++ [(tag, none)] }

/-- The DONEs at the front of the list, whose commands have finished. -/
def doneFront : List (Nat × Option FRing) → List FRing × List (Nat × Option FRing)
  | [] => ([], [])
  | (t, none) :: l => ([], (t, none) :: l)
  | (_, some d) :: l => let r := doneFront l; (d :: r.1, r.2)

/-- DONE messages are written in command order. -/
def State.flushDone (s : State) (p : Nat) : State :=
  s.updPart p fun q => let r := doneFront q.cmds; r.1.foldl Part.push { q with cmds := r.2 }

/-- The oldest open command of a tag finishes. -/
def closeCmd (tag : Nat) (d : FRing) : List (Nat × Option FRing) → List (Nat × Option FRing)
  | [] => []
  | (t, o) :: l => if t = tag ∧ o.isNone then (t, some d) :: l else (t, o) :: closeCmd tag d l

/-- A command finishes with a status. -/
def State.cmdDone (s : State) (p tag status sectors : Nat) (late : Bool) : State :=
  (s.updPart p fun q => { q with cmds := closeCmd tag (.done tag status sectors late) q.cmds }).flushDone p

/-- A command that is applied and finished at once. -/
def State.cmdAtOnce (s : State) (p tag status sectors : Nat) : State := (s.cmdOpen p tag).cmdDone p tag status sectors false

/-- A held access is replayed (R399), or, of a team that is saved, after its restore (R368). -/
def State.replayHeld (s : State) (a : Acc) : State :=
  match s.team? a.t.g.grid a.t.g.team with
  | some tm =>
    if tm.resident then s.replayAcc a
    else (s.setAcc { a with st := .held 0 }).updTeam tm.grid tm.team fun x => { x with notes := x.notes ++ [.replay a.id] }
  | none => s.replayAcc a

/-- REPLAY for one holder (R399). -/
def State.replayHolder (s : State) (fid : Nat) (h : Holder) : State :=
  match h with
  | .thread t => (s.updThread t fun th => if th.st = .held fid then { th with st := .ready } else th).settle t.g
  | .access id => (match s.acc? id with | some a => if a.st = .held fid then s.replayHeld a else s | none => s)
  | .job num => s.updJob num fun j => if j.st = .held fid then { j with st := .running } else j
  | .request n =>
    match List.find? (fun q : InReq => q.n == n) s.fab.inReqs with
    | some q => { s.updReq n fun q => { q with held := false } with
        fab := { (s.updReq n fun q => { q with held := false }).fab with out := s.fab.out ++ [.resume q.src q.stream] } }
    | none => s

/-- The abort of a request's stream (R416): it and the requests that wait behind it are not performed. -/
def State.abortStream (s : State) (q : InReq) : State :=
  let gone := fun (x : InReq) => x.sameStream q && x.done.isNone && decide (q.seq ≤ x.seq)
  let next := (s.fab.inReqs.filter gone).foldl (fun n x => max n (x.seq + 1)) 0
  let x := seqOf s.fab.inSeq q.key
  { s with fab := { s.fab with
      inReqs := s.fab.inReqs.filter fun x => !gone x
      inSeq := seqSet s.fab.inSeq { x with next := max x.next next }
      out := s.fab.out ++ [.abort q.src q.stream] } }

/-- A held access becomes a deferred fault of its threads (R455), with the record of its fault. -/
def State.declineAcc (s : State) (a : Acc) (r : FRec) : State :=
  let kind := match a.dest with
    | some d => DefKind.load (ofB d.uniform) (span d.reg d.cnt)
    | none => .store
  (a.set.foldl (fun s tid => s.defer ⟨a.t.g, tid⟩ ⟨kind, { r with thread := tid, replay := false }⟩) s).dropAcc a

/-- DECLINE for one holder (R356, R399): a thread's fault enters its handler, or waits for the restore of its team. -/
def State.declineHolder (s : State) (fid : Nat) (h : Holder) (r : FRec) : State :=
  match h with
  | .thread t =>
    (match s.thread? t with
     | some (tm, _, th) =>
       if th.st ≠ .held fid then s
       else if !tm.resident then s.updTeam tm.grid tm.team fun x => { x with notes := x.notes ++ [.decline t r] }
       else
         ((s.updThread t fun th => { th with st := .ready }).enterFault t { r with replay := false } .fault th.here).settle t.g
     | none => s)
  | .access id => (match s.acc? id with | some a => if a.st = .held fid then s.declineAcc a r else s | none => s)
  | .job num => (match s.job? num with | some (c, j) => if j.st = .held fid then s.abandonJob c j r else s | none => s)
  | .request n =>
    match List.find? (fun q : InReq => q.n == n) s.fab.inReqs with
    | some q => s.abortStream q
    | none => s

/-- Take a pending FAULT off its table. -/
def State.dropFid (s : State) (p fid : Nat) : State := s.updPart p fun q => { q with fids := Tab.del q.fids fid }

/-- REPLAY (R399). -/
def State.pagerReplay (s : State) (p tag fid : Nat) : State :=
  match (s.part p).bind fun q => Tab.find? q.fids fid with
  | some e => (e.holders.foldl (fun s h => s.replayHolder fid h) (s.dropFid p fid)).cmdAtOnce p tag 0 0
  | none => s.cmdAtOnce p tag 0 0

/-- REPLAY. -/
def execEvReplay (part tag fid : Nat) (s : State) : Host.Outcome State Fault Refusal := .next (s.pagerReplay part tag fid)

/-- DECLINE (R399). -/
def State.pagerDecline (s : State) (p tag fid : Nat) : State :=
  match (s.part p).bind fun q => Tab.find? q.fids fid with
  | some e =>
    ((e.holders.zip e.recs).foldl (fun s h => s.declineHolder fid h.1 h.2) (s.dropFid p fid)).cmdAtOnce p tag 0 0
  | none => s.cmdAtOnce p tag 0 0

/-- DECLINE. -/
def execEvDecline (part tag fid : Nat) (s : State) : Host.Outcome State Fault Refusal := .next (s.pagerDecline part tag fid)

/-- An unlisted command (R398). -/
def execEvUnknownPagerCommand (part tag op : Nat) (s : State) : Host.Outcome State Fault Refusal :=
  .next (if 1 ≤ op ∧ op ≤ 6 then s else s.cmdAtOnce part tag 1 0)

/-! ### Leases (R389 to R397) -/

/-- The replica fields of a lease record. -/
def leaseRepl (r : Nat) : List Nat := [fld r 159 144, fld r 175 160, fld r 191 176]

/-- May a lease name this node, with these replica fields (R389, R408)? -/
def nodeOk (node : Nat) (rw : Bool) (repl : List Nat) : Bool :=
  let none' := repl.all (· == 0xFFFF)
  if node < 0x1000 then !rw || none'
  else if 0x4000 ≤ node ∧ node < 0x5000 then (repl.drop 1).all (· == 0xFFFF)
  else if (0x5000 ≤ node ∧ node < 0x6000) ∨ node = 0xF000 ∨ node = 0xF001 then none'
  else false

/-- A lease record as an entry of a partition. -/
def leaseOf (p r : Nat) : Lease :=
  { part := p, st := .valid, rw := fld r 25 24 == 2, pages := fld r 47 26, base := fld r 95 48, epoch := fld r 127 96
    node := fld r 143 128, repl := leaseRepl r, expiry := fld r 255 192 }

/-- The status of LEASE_SET (R390, R408). -/
def State.leaseStatus (s : State) (p r : Nat) : Nat :=
  let x := leaseOf p r
  let id := fld r 23 0
  if fld r 25 24 = 0 ∨ fld r 25 24 = 3 ∨ id = 0 ∨ !nodeOk x.node x.rw x.repl then 1
  else
    match Tab.find? s.leases id with
    | none => if s.leases.length < 4096 then 0 else 2
    | some e =>
      if e.part = p ∧ e.epoch < x.epoch ∧ e.base = x.base ∧ e.node = x.node ∧ (e.st = .valid ∨ e.st = .expired) then 0 else 3

/-- LEASE_SET (R390). -/
def State.leaseSet (s : State) (part tag rec : Nat) : State :=
  let st := s.leaseStatus part rec
  let s : State := if st = 0 then { s with leases := Tab.set s.leases (fld rec 23 0) (leaseOf part rec) } else s
  s.cmdAtOnce part tag st 0

/-- LEASE_SET. -/
def execEvLeaseSet (part tag rec : Nat) (s : State) : Host.Outcome State Fault Refusal := .next (s.leaseSet part tag rec)

/-- The frames that cache pages under a lease. -/
def State.leaseFrames (s : State) (id : Nat) : List (Nat × FrameE) := List.filter (fun e => !e.2.loc && e.2.lease == id) s.frames

/-- Dirty sectors of frames that can be written back (R438). -/
def dirtyOf (l : List (Nat × FrameE)) : Nat := l.foldl (fun n e => n + (e.2.dirty.filter fun k => !e.2.lost.contains k).length) 0

/-- Write a frame's dirty sectors back; a skipped lost sector is counted (R384, R438). -/
def State.writeBack (s : State) (f : Nat) : State :=
  let skipped := match Tab.find? s.frames f with | some e => e.dirty.any e.lost.contains | none => false
  (if skipped then s.countErr (homeOfFrame f) 0xFF 0x02 else s).writeback f

/-- Write frames back and set them INVALIDATING (R390, R397). -/
def State.clearFrames (s : State) (l : List (Nat × FrameE)) : State :=
  l.foldl (fun s e => (s.writeBack e.1).invalidateFrame e.1) s

/-- LEASE_DROP (R390), once no write to the lease's frames is in flight; none before. A revocation of the lease that is under way
ends with it, and the sectors count in its DONE (assumption log 68). -/
def State.leaseDrop (s : State) (part tag id : Nat) : Option State :=
  match Tab.find? s.leases id with
  | none => some (s.cmdAtOnce part tag 4 0)
  | some e =>
    let l := s.leaseFrames id
    if !l.all (fun x => s.frameQuiet x.1) then none
    else
      let n := dirtyOf l
      let s : State := { s.clearFrames l with leases := Tab.del s.leases id }
      match e.st with
      | .revoking t deadline _ => some ((s.cmdDone e.part t 0 n (decide (deadline < s.now))).cmdAtOnce part tag 0 0)
      | _ => some (s.cmdAtOnce part tag 0 n)

/-- LEASE_DROP. -/
def execEvLeaseDrop (part tag id : Nat) (s : State) : Host.Outcome State Fault Refusal := .next ((s.leaseDrop part tag id).getD s)

/-- LEASE_EXPIRY (R391). -/
def execEvLeaseExpiry (part id : Nat) (s : State) : Host.Outcome State Fault Refusal :=
  .next (match Tab.find? s.leases id with
    | some e =>
      if e.part = part ∧ e.st = .valid ∧ e.expiry ≤ s.now then
        { s with leases := Tab.set s.leases id { e with st := .expired } }
      else s
    | none => s)

/-- LEASE_CHECK_FAULT (R395, R438, R455): an access that may be performed meets a fault of its checks. -/
def State.leaseFault (s : State) (id : Nat) : State :=
  match s.acc? id with
  | none => s
  | some a =>
    let here := match s.team? a.t.g.grid a.t.g.team with | some t => t.resident | none => false
    if a.job.isSome || a.set.isEmpty || !here || !s.accReady a then s
    else
      match a.leaf, s.accFault a with
      | some _, some m => s.accFails a m
      | _, _ => s

/-- LEASE_CHECK_FAULT. -/
def execEvLeaseCheckFault (acc : Nat) (s : State) : Host.Outcome State Fault Refusal := .next (s.leaseFault acc)

/-- REVOKE (R397): the lease becomes REVOKING; none while it is revoked already for another command. -/
def State.revoke (s : State) (part tag id deadline : Nat) : Option State :=
  match Tab.find? s.leases id with
  | none => some (s.cmdAtOnce part tag 4 0)
  | some e =>
    match e.st with
    | .revoking _ _ _ => none
    | _ => some (({ s with leases := Tab.set s.leases id { e with st := .revoking tag deadline 0 } } : State).cmdOpen part tag)

/-- REVOKE. -/
def execEvRevoke (part tag id deadline : Nat) (s : State) : Host.Outcome State Fault Refusal :=
  .next ((s.revoke part tag id deadline).getD s)

/-- Are requests over Shecel under way that passed a lease's check (R397)? -/
def State.leaseSent (s : State) (id : Nat) : Bool :=
  s.accs.any fun a => (a.st == .sent || a.st == .frozen) && (match a.leaf with | some l => l.lease == id | none => false)

/-- REVOKE_WRITEBACK_DONE (R397): once every access that passed its check has been performed, the dirty sectors are written back,
and the frames INVALIDATING. -/
def execEvRevokeWritebackDone (part id : Nat) (s : State) : Host.Outcome State Fault Refusal :=
  .next (match Tab.find? s.leases id with
    | some e =>
      (match e.st with
       | .revoking tag deadline _ =>
         let l := s.leaseFrames id
         if e.part ≠ part ∨ s.leaseSent id ∨ !l.all (fun x => s.frameQuiet x.1) then s
         else
           ({ s.clearFrames l with leases := Tab.set s.leases id { e with st := .revoked } } : State).cmdDone part tag 0 (dirtyOf l)
             (decide (deadline < s.now))
       | _ => s)
    | none => s)

/-! ### Node loss (R396, R413) -/

/-- Identifiers in entries of 16, with the index of each entry's first (R396). -/
def lossEntries (node lost sectors : Nat) (ids : List Nat) : Nat → Nat → List FRing
  | 0, _ => []
  | n + 1, k =>
    if ids.length ≤ k ∧ k ≠ 0 then []
    else .nodeLoss node lost sectors ((ids.drop k).take 16) k :: lossEntries node lost sectors ids n (k + 16)

/-- A lease of a lost node (R396). -/
def Lease.lose (e : Lease) : Lease :=
  match e.rw, e.repl.filter (· != 0xFFFF) with
  | false, r :: t => { e with node := r, repl := t }
  | _, _ => { e with st := .lost }

/-- A lease becomes LOST: its frames' dirty sectors are discarded, and a revocation in hand ends. -/
def State.loseLease (s : State) (id : Nat) (e : Lease) (part : Nat) : State :=
  let s := (s.leaseFrames id).foldl (fun s x =>
    ({ s with frames := Tab.adjust s.frames x.1 fun y => { y with dirty := [] } } : State).invalidateFrame x.1) s
  match e.st with
  | .revoking tag deadline _ => s.cmdDone part tag 0 0 (decide (deadline < s.now))
  | _ => s

/-- A pool node is lost, for one partition. -/
def State.nodeLostPart (s : State) (node p : Nat) : State :=
  let mine := List.filter (fun (e : Nat × Lease) => e.2.node == node && e.2.part == p) s.leases
  if mine.isEmpty then s
  else
    let gone := List.filter (fun (e : Nat × Lease) => decide (e.2.lose.st = .lost)) mine
    let sectors := gone.foldl (fun n e => n + dirtyOf (s.leaseFrames e.1)) 0
    let s : State := { s with leases := mine.foldl (fun m e => Tab.set m e.1 e.2.lose) s.leases }
    let s := gone.foldl (fun s e => s.loseLease e.1 e.2 p) s
    let ids := gone.map (·.1)
    s.updPart p fun q => (lossEntries node ids.length sectors ids (ids.length / 16 + 1) 0).foldl Part.push q

/-- A pool node is lost (R396). -/
def State.nodeLost (s : State) (node : Nat) : State :=
  if 0x1000 ≤ node then s else s.parts.foldl (fun s p => s.nodeLostPart node p.1) s

/-- POOL_NODE_LOST (R396). -/
def execEvPoolNodeLost (node : Nat) (s : State) : Host.Outcome State Fault Refusal := .next (s.nodeLost node)

/-- Has a request to a pool node had no completion for 2 ms (R413)? -/
def State.poolLate (s : State) (node : Nat) : Bool :=
  s.frames.any fun e => !e.2.loc && (e.2.st == .filling || e.2.st == .writeback) && decide (e.2.since + 2000000 ≤ s.now)
    && (match Tab.find? s.leases e.2.lease with | some l => l.node == node | none => false)

/-- POOL_REQUEST_TIMEOUT (R413): a request has had no completion for 2 ms. -/
def execEvPoolRequestTimeout (node : Nat) (s : State) : Host.Outcome State Fault Refusal :=
  .next (if s.poolLate node then s.nodeLost node else s)

/-! ### Translation (R376 to R381) -/

/-- TRANSLATION_WALK (R376, R380): a core caches a page's valid translation. -/
def execEvTranslationWalk (core pasid va : Nat) (s : State) : Host.Outcome State Fault Refusal :=
  .next (match s.walk pasid va with
    | .ok l => if va < 2 ^ 57 then s.cacheLeaf core pasid va l else s
    | .error _ => s)

/-- The lines that MLDGs have pinned under their contexts' translations and not yet filled from: of operations in a core's or a
saved team's sequence, and of threads that still wait for lines (R245, R381). -/
def State.pinnedLines (s : State) : List (Nat × Nat) :=
  let ctxOf := fun (g t : Nat) => match s.team? g t with | some t => t.pasid | none => 0
  let ofSeq := fun (seq : List MOp) => seq.flatMap fun o =>
    match o.kind with | .mldg _ => o.lines.map fun l => (ctxOf o.g.grid o.g.team, l.1) | _ => []
  (s.cores.flatMap fun c =>
    ofSeq c.2.seq
    ++ (c.2.pins.filter (·.waits)).flatMap fun p =>
        match Tab.find? c.2.recs p.rcd with | some r => p.lines.map fun l => (ctxOf r.grid r.team, l.1) | none => [])
  ++ s.teams.flatMap fun t => t.saved.flatMap fun c => ofSeq c.2.seq

/-- Does an outstanding access hold the translation of one of some pages? One held for the pager has faulted (R381). -/
def State.usesPages (s : State) (pasid page n : Nat) : Bool :=
  let hit := fun (va : Nat) => decide (page ≤ va / pageSize) && decide (va / pageSize < page + n)
  s.accs.any (fun a => a.pasid == pasid && a.leaf.isSome && (match a.st with | .held _ => false | _ => true)
    && (hit a.va || (a.leaf2.isSome && hit (a.va + firstPart a.va a.size))))
  || s.pinnedLines.any fun x => x.1 == pasid && hit (x.2 * 512)

/-- INVAL (R381): completes when no access holds a translation of the pages, and none before; cached translations and L1 sectors
go. -/
def State.inval (s : State) (part tag pasid va pages : Nat) : Option State :=
  let page := va / pageSize
  if s.usesPages pasid page pages then none
  else
    let out := fun (k : Nat) => !(k / 2 ^ 48 == pasid && decide (page ≤ k % 2 ^ 48) && decide (k % 2 ^ 48 < page + pages))
    some (({ s with cores := Tab.mapV s.cores fun c =>
        { c with
          l1 := []
          tlb := List.filter (fun t => out t.1) c.tlb
          code := List.filter (fun t => out (t.1 / pageSize)) c.code } } : State).cmdAtOnce part tag 0 0)

/-- INVAL. -/
def execEvInval (part tag pasid va pages : Nat) (s : State) : Host.Outcome State Fault Refusal :=
  .next ((s.inval part tag pasid va pages).getD s)

/-! ### The command ring (R398) -/

/-- A command of the pager from its 64 bytes; none while it waits. The payload's fields are 8-byte words from byte 0x08 on, a lease
record its 32 bytes there (assumption log 68). -/
def State.command (s : State) (p : Nat) (b : List Byte) : Option State :=
  let tag := ofLE ((b.drop 2).take 2)
  let w := fun (k : Nat) => ofLE ((b.drop (8 + 8 * k)).take 8)
  match ofLE (b.take 1) with
  | 1 => some (s.pagerReplay p tag (w 0))
  | 2 => some (s.pagerDecline p tag (w 0))
  | 3 => some (s.leaseSet p tag (ofLE ((b.drop 8).take 32)))
  | 4 => s.leaseDrop p tag (w 0)
  | 5 => s.inval p tag (w 0) (w 1) (w 2)
  | 6 => s.revoke p tag (w 0) (w 1)
  | _ => some (s.cmdAtOnce p tag 1 0)

/-- The device takes the next command of a partition's command ring. -/
def State.takeCommand (s : State) (p : Nat) : State :=
  match s.part p with
  | none => s
  | some q =>
    if q.ctail ≤ q.chead then s
    else
      match s.command p (Mem.readList q.svc (q.cring + 64 * (q.chead % ringDepth)) 64) with
      | some s => s.updPart p fun q => { q with chead := q.chead + 1 }
      | none => s

/-! ### Frames (R383 to R386, R401, R412, R429) -/

/-- Everything that waits for pages or pins looks again. -/
def State.wakePages (s : State) : State := s.cores.foldl (fun s c => s.wakePins c.1) s

/-- PAGE_IN (R384, R387): a page that waits for a frame; those of a prefetch group go on in their order. -/
def State.pageIn (s : State) (n : Nat) : State :=
  match s.pageReqs[n]? with
  | none => s
  | some q =>
    if !q.wait then s
    else if q.group ≠ 0 then s.groupStep q.group
    else
      let rest : State := { s with pageReqs := dropNth s.pageReqs n }
      match s.frameOf q.part q.page with
      | some (_, e) => if e.st = .writeback ∨ e.st = .invalidating then s else rest
      | none =>
        match s.takeFrame q.part 0 with
        | .frame f => (rest.freeFrame f).startFill f q.part q.page q.lease q.sector (0, 0)
        | .dirty f => s.setFrameSt f .writeback
        | .nothing => s

/-- PAGE_IN. -/
def execEvPageIn (n : Nat) (s : State) : Host.Outcome State Fault Refusal := .next (s.pageIn n)

/-- PAGE_SECTOR_ARRIVES (R384, R387): the next sector of a filling frame, when it is its group's turn. -/
def State.sectorArrives (s : State) (f : Nat) : State :=
  match Tab.find? s.frames f with
  | none => s
  | some e =>
    match (if e.st = .filling && s.readTurn e then e.nextSector else none) with
    | none => s
    | some k =>
      let full := decide (pageSectors ≤ e.arrived.length + 1)
      let bs := Mem.readList s.pool (e.page * pageSize + 64 * k) 64
      let s : State := { s with
        hbm := Mem.writeList s.hbm (f * pageSize + 64 * k) bs
        frames := Tab.set s.frames f { e with since := s.now, arrived := insNat k e.arrived, st := if full then .valid else .filling } }
      let mine := fun (q : PageReq) => q.part == e.part && q.page == e.page && !q.wait
      let l := s.pageReqs.filter mine
      let s : State := if full then { s with pageReqs := s.pageReqs.filter fun q => !mine q } else s
      (l.foldl (fun s q => s.landBar q.bar 1) s).wakePages

/-- PAGE_SECTOR_ARRIVES. -/
def execEvPageSectorArrives (frame : Nat) (s : State) : Host.Outcome State Fault Refusal := .next (s.sectorArrives frame)

/-- WRITEBACK_COMPLETE (R383): the dirty sectors of a victim are in the pool and the frame is FREE. -/
def execEvWritebackComplete (frame : Nat) (s : State) : Host.Outcome State Fault Refusal :=
  .next (match Tab.find? s.frames frame with
    | some e => if e.st = .writeback && s.frameQuiet frame then ((s.writeBack frame).freeFrame frame).wakePages else s
    | none => s)

/-- INVALIDATE_COMPLETE (R383): pins released and no write in flight. -/
def execEvInvalidateComplete (frame : Nat) (s : State) : Host.Outcome State Fault Refusal :=
  .next (match Tab.find? s.frames frame with
    | some e =>
      if e.st = .invalidating && e.pins == 0 && s.frameQuiet frame then ((s.writeBack frame).freeFrame frame).wakePages else s
    | none => s)

/-- Is a decay tick due: the ticks fall every 2^20 periods of the reference clock of 2.1 GHz (R386)? -/
def State.decayDue (s : State) : Bool := decide ((s.decays + 1) * 2 ^ 20 * 10 ≤ 21 * s.now)

/-- DECAY_TICK (R386): every count is halved. -/
def execEvDecayTick (s : State) : Host.Outcome State Fault Refusal :=
  .next (if s.decayDue then
      { s with
        decays := s.decays + 1
        frames := Tab.mapV s.frames fun e => if e.loc then e else { e with cnt := e.cnt / 2 } }
    else s)

/-- The accesses of a job's next sector to pages of the pool: the page, the address, and whether it is a write. -/
def State.jobPages (s : State) (core : Nat) (j : Job) : List (Nat × Nat × Bool) :=
  match s.team? j.t.g.grid j.t.g.team, j.tm? with
  | some tm, some t =>
    let mc := tm.memberOf core
    let vas := (((t.sector j.eprog).filterMap fun n => (t.byteOff n).map (t.srcVa tm mc)).map fun va => (va, false))
      ++ [(t.dstVa tm mc (64 * j.eprog), true), (t.dstVa tm mc (64 * j.eprog + 63), true)]
    vas.filterMap fun va =>
      match s.leafFor core j.pasid va.1 with
      | .ok l => (match s.placeOf l va.1 with | .pool g _ => some (g, va.1, va.2) | _ => none)
      | .error _ => none
  | _, _ => []

/-- The pieces of an access that lie in a page of the pool. -/
def State.piecesIn (s : State) (a : Acc) (page : Nat) : List Piece :=
  (s.pieces a).filter fun q => match q.pl with | .pool g _ => g == page | _ => false

/-- Accesses that wait for a page whose page-in has stopped raise Pool Node Lost (R412). -/
def State.poisonAccs (s : State) (p page lease : Nat) : State :=
  let f : Fail := ⟨0x0B, none, true, lease⟩
  let s := (s.accs.filter fun a => a.part == p && a.job.isNone && !a.set.isEmpty && a.st == .pending).foldl
    (fun s a => match s.piecesIn a page with | q :: _ => s.accFails a ⟨q.va, f⟩ | [] => s) s
  s.cores.foldl (fun s c => c.2.jobs.foldl (fun s j =>
    if j.part == p && j.st == .running then
      match List.find? (fun (x : Nat × Nat × Bool) => x.1 == page) (s.jobPages c.1 j) with
      | some x => s.jobFault c.1 j f (if x.2.2 then 0x08 else 0x07) x.2.1
      | none => s
    else s) s) s

/-- A thread that waits for a line of such a page raises it too (R245, R412): it goes on with the mark of the error. -/
def State.poisonPins (s : State) (p page : Nat) : State :=
  let hit := fun (tm : Team) (g : Group) (t : Thread) =>
    match t.st with
    | .parked (.pins va) =>
      decide (va ≠ 0) && tm.part == p && (match s.leafFor g.core tm.pasid va with
        | .ok l => (match s.placeOf l va with | .pool k _ => k == page | _ => false)
        | .error _ => false)
    | _ => false
  { s with teams := s.teams.map fun tm =>
      { tm with groups := Tab.mapV tm.groups fun g =>
          { g with threads := Tab.mapV g.threads fun t => if hit tm g t then { t with st := .ready, popped := some 0#32 } else t } } }

/-- POOL_READ_POISON (R412): the page-in stops, and the frame returns to FREE. -/
def State.readPoison (s : State) (f : Nat) : State :=
  match Tab.find? s.frames f with
  | none => s
  | some e =>
    if e.st ≠ .filling then s
    else
      let s := (s.dropFill e.part e.page (pageSectors - e.arrived.length)).freeFrame f
      let s := (s.poisonAccs e.part e.page e.lease).poisonPins e.part e.page
      let s : State := { s with pageReqs := s.pageReqs.filter fun q => !(q.part == e.part && q.page == e.page && q.group == 0) }
      s.logErr (some e.part) 0x07 (homeOfFrame f) 0xFF 0 (Config.detail 20) (e.page * pageSize)

/-- POOL_READ_POISON. -/
def execEvPoolReadPoison (frame : Nat) (s : State) : Host.Outcome State Fault Refusal := .next (s.readPoison frame)

/-- WRITEBACK_FAILURE (R412): a failed writeback is retried three times, then its node counts as lost. -/
def execEvWritebackFailure (frame : Nat) (s : State) : Host.Outcome State Fault Refusal :=
  .next (match Tab.find? s.frames frame with
    | some e =>
      if e.loc || e.dirty.isEmpty then s
      else if e.retries < 3 then { s with frames := Tab.set s.frames frame { e with retries := e.retries + 1 } }
      else
        (match Tab.find? s.leases e.lease with
         | some l => s.nodeLost l.node
         | none => s)
    | none => s)

/-- The frames that cache a pool page, of every partition. -/
def State.framesOf (s : State) (page : Nat) : List (Nat × FrameE) :=
  List.filter (fun e => !e.2.loc && e.2.page == page && e.2.st != FrameSt.free) s.frames

/-- The sectors of a frame that go back with the response to a snoop: the dirty ones, under a read-write lease (R401). -/
def State.snoopSectors (s : State) (e : FrameE) : List Nat :=
  match Tab.find? s.leases e.lease with | some l => if l.rw then e.dirty.filter fun k => !e.lost.contains k else [] | none => []

/-- One frame of a snooped page: its lines go, its dirty sectors go back, and it is INVALIDATING (R401). -/
def State.snoopFrame (s : State) (f : Nat) (e : FrameE) : State :=
  let s := if (s.snoopSectors e).isEmpty then s else s.writeBack f
  (s.dropLines f).invalidateFrame f

/-- BACK_INVALIDATION_SNOOP (R401): the lines of the page go from every cache, the frames of every partition that hold it are
INVALIDATING, and the response, at the pool port of the snoop (R18), carries the sectors written back. -/
def State.snoopPage (s : State) (port page : Nat) : State :=
  let l := s.framesOf page
  if !l.all (fun x => s.frameQuiet x.1) then s
  else
    let back := l.flatMap fun x => (s.snoopSectors x.2).map fun k => (k, s.frameSector x.1 k)
    let s := l.foldl (fun s x => s.snoopFrame x.1 x.2) s
    { s with fab := { s.fab with out := s.fab.out ++ [.snoopDone port page back] } }

/-- BACK_INVALIDATION_SNOOP. -/
def execEvBackInvalidationSnoop (port page : Nat) (s : State) : Host.Outcome State Fault Refusal :=
  .next (s.snoopPage port page)

/-- POOL_WRITEBACK_ACK (R402, R429): the pool has taken a dirty sector of a frame, which stays VALID; the fences that wait
look again. -/
def State.sectorBack (s : State) (f k : Nat) : State :=
  match Tab.find? s.frames f with
  | none => s
  | some e =>
    if e.loc || e.st != .valid || !e.dirty.contains k || e.lost.contains k || !s.frameQuiet f then s
    else
      let s : State := { s with
        pool := Mem.writeList s.pool (e.page * pageSize + 64 * k) (s.frameSector f k)
        frames := Tab.set s.frames f { e with dirty := delNat k e.dirty, cnt := min 255 (e.cnt + 1) } }
      { s with teams := s.teams.map (Team.wake fun w => decide (w = .fence)) }

/-- POOL_WRITEBACK_ACK. -/
def execEvPoolWritebackAck (frame sector : Nat) (s : State) : Host.Outcome State Fault Refusal := .next (s.sectorBack frame sector)

/-! ### Stamped writes (R318) -/

/-- STAMPED_WRITE_APPLY: a die applies the next write of an origin, and the fences that wait look again. -/
def execEvStampedWriteApply (die origin : Nat) (s : State) : Host.Outcome State Fault Refusal :=
  let s := (s.applyStamped die origin).ackReqs
  .next { s with teams := s.teams.map (Team.wake fun w => decide (w = .fence)) }

end Sys2Proof.Machine
end

