-- ==== Sys2Proof/Machine/Fabric.lean ====
section
/-! DEFINITION. The host (R262, R363, R407, R410, R411), the Shecel fabric (R332, R333, R414 to R424) and the network (R259, R425
to R427). -/

namespace Sys2Proof.Machine

/-- Add a message that leaves the device. -/
def State.send (s : State) (m : OutMsg) : State := { s with fab := { s.fab with out := s.fab.out ++ [m] } }

/-! ### The host (R410, R411) -/

/-- HOST_SNOOP (R410): the device answers; it keeps no host line (assumption log 7). -/
def execEvHostSnoop (line : Nat) (s : State) : Host.Outcome State Fault Refusal := .next (s.send (.hostSnoopDone line))

/-- The die of a host port (R18). -/
def hostDie (port : Nat) : Nat := if port = 0 then 0 else 2

/-- A host access as it reaches memory through the context that the service core has selected: its writes take their origin on
the receiving port's die (R317, R411). -/
def barAgent (q : BarReq) (pasid : Nat) : Agent := ⟨[13, q.n], 48 * hostDie q.port, pasid, false⟩

/-- The read-modify-write of an AtomicOp that the device completes (R407): FetchAdd, Swap, or CAS with the value expected first. -/
def BarReq.atom (q : BarReq) : Nat × AccOp :=
  let n := q.data.length
  match q.op with
  | 2 => (n, .atom 0 (n == 8) (ofLE q.data) true)
  | 3 => (n, .atom 8 (n == 8) (ofLE q.data) true)
  | _ => (n / 2, .cas (n / 2) (ofLE (q.data.take (n / 2))) (ofLE (q.data.drop (n / 2))))

/-- May an AtomicOp have this size and address (R407): 4 or 8 bytes, or for CAS 16 too, aligned? -/
def BarReq.atomOk (q : BarReq) : Bool :=
  let n := q.atom.1
  (n == 4 || n == 8 || (q.op == 4 && n == 16)) && q.off % n == 0

/-- An access through BAR2 ends: its completion leaves, or Completer Abort, which is logged (R411). -/
def State.barEnd (s : State) (q : BarReq) (r : Except (Nat × Nat) (List Byte)) : State :=
  let s : State := { s with fab := { s.fab with bars := s.fab.bars.filter fun x => x.n != q.n } }
  match r with
  | .ok bs => s.send (.completion q.off bs false)
  | .error (pasid, code) => (s.logErr (s.partOfFn q.fn) 0x07 0 0xFF pasid code q.off).send (.completion q.off [] true)

/-- An access through BAR2 is performed, when it can be (R411). -/
def State.barDo (s : State) (q : BarReq) (pasid : Nat) : State :=
  let g := barAgent q pasid
  match q.op with
  | 0 =>
    (match s.unitRead g q.off q.data.length ⟨true, false, false⟩ with
     | (.fail f, s) => s.barEnd q (.error (pasid, f.code))
     | (.wait, s) => s
     | (.done bs, s) => s.barEnd q (.ok bs))
  | 1 =>
    (match s.unitWrite g q.off q.data with
     | (.fail f, s) => s.barEnd q (.error (pasid, f.code))
     | (.wait, s) => s
     | (.done s _, _) => s.barEnd q (.ok []))
  | _ =>
    let (n, op) := q.atom
    if !q.atomOk then s.barEnd q (.error (pasid, 0x05))
    else
      match s.unitRmw g q.off n op with
      | .fail f => (s.unitsDone g).barEnd q (.error (pasid, f.code))
      | .wait => s.unitAsk g q.off n op ⟨true, true, false⟩
      | .done s _ old => (s.unitsDone g).barEnd q (.ok (toLE n old))

/-- The host access at place k goes on: those of a port are performed in order. -/
def State.barStep (s : State) (k : Nat) : State :=
  match s.fab.bars[k]? with
  | none => s
  | some q =>
    if (s.fab.bars.take k).any fun x => x.port == q.port then s
    else
      match Tab.find? s.fab.bar2 q.fn with
      | none => s.barEnd q (.error (0, 0x08))
      | some pasid => if 2 ^ 40 < q.off + q.data.length then s.barEnd q (.error (pasid, 0x06)) else s.barDo q pasid

/-- BAR2_ACCESS (R407, R411): a host access of as many bytes as `data` has: op 0 reads, 1 writes, 2 is FetchAdd, 3 Swap and 4
CAS. -/
def State.bar2 (s : State) (port fn off op : Nat) (data : List Byte) : State :=
  let q : BarReq := ⟨s.fab.reqNext, port, fn, off, op, data⟩
  ({ s with fab := { s.fab with bars := s.fab.bars ++ [q], reqNext := s.fab.reqNext + 1 } } : State).barStep s.fab.bars.length

/-- BAR2_ACCESS. -/
def execEvBar2Access (fn : AtPort) (off op : Nat) (data : List Byte) (s : State) : Host.Outcome State Fault Refusal :=
  .next (s.bar2 fn.port fn.id off op data)

/-- DOORBELL (R411): one 8-byte write names a group; pending bit 4 is set in its live threads, or held while its team is
saved. -/
def State.doorbell (s : State) (fn slot size off val : Nat) : State :=
  let at' := 0x400000 + 4096 * slot + off
  if size ≠ 8 ∨ off ≠ 0 then s.dropWrite fn at' 21
  else
    let r : GRef := ⟨fld val 31 0, fld val 63 40, fld val 39 35⟩
    match s.ctxAt fn slot, s.group? r with
    | some pasid, some (tm, g) =>
      if tm.pasid ≠ pasid ∨ g.over then s.dropWrite fn at' 22
      else if tm.resident then s.sourceEvent r 4
      else s.updTeam r.grid r.team fun t => { t with notes := t.notes ++ [.doorbell r.gid 4] }
    | _, _ => s.dropWrite fn at' 22

/-- DOORBELL. -/
def execEvDoorbell (fn ctx size off val : Nat) (s : State) : Host.Outcome State Fault Refusal :=
  .next (s.doorbell fn ctx size off val)

/-- INTERRUPT_SOURCE_EVENT (R363): a queue that has become non-empty sets its pending bit, once. -/
def execEvInterruptSourceEvent (g t i source : Nat) (s : State) : Host.Outcome State Fault Refusal :=
  let x : GRef × Nat := (⟨g, t, i⟩, source)
  .next (match s.srcs.findIdx? fun y => y == x with
    | some k => { s with srcs := dropNth s.srcs k }.sourceEvent x.1 source
    | none => s)

/-- Write the reply of a SYSCALL (R262), or hold it while the team is saved (R368). -/
def State.sysReply (s : State) (r : GRef) (g8 g9 : Word) : State :=
  match s.team? r.grid r.team with
  | some tm =>
    if tm.resident then s.giveReply r g8 g9
    else s.updTeam r.grid r.team fun t => { t with notes := t.notes ++ [.reply r.gid g8.toNat g9.toNat] }
  | none => s

/-- SYSCALL_REPLY (R262): the service core answers request n. -/
def execEvSyscallReply (n g8 g9 : Nat) (s : State) : Host.Outcome State Fault Refusal :=
  .next (match s.parts.findSome? fun p => (List.find? (fun x : SysReq => x.n == n) p.2.sys).map fun x => (p.1, x) with
    | some (p, x) =>
      (s.updPart p fun q => { q with sys := q.sys.filter fun y => y.n != n }).sysReply x.g (BitVec.ofNat 32 g8) (BitVec.ofNat 32 g9)
    | none => s)

/-! ### Replies (R332, R333, R418, R419) -/

/-- A request that leaves the device has failed (R419): a job is abandoned, and any other access's fault is deferred, or taken by
the thread that waits for it (R237). -/
def State.failAcc (s : State) (a : Acc) (code : Nat) : State :=
  let f : Fail := ⟨code, none, false, match a.leaf with | some l => l.lease | none => 0⟩
  match a.job with
  | some num =>
    let s := s.dropAcc a
    (match s.job? num with | some (c, j) => s.jobFault c j f a.kind a.va | none => s)
  | none => s.deferAcc a f

/-- A job's request has been answered: its source bytes have come, or its sectors are performed (R309, R414). -/
def State.jobReply (s : State) (a : Acc) (num : Nat) (data : List Byte) : State :=
  let s := s.dropAcc a
  match a.op with
  | .load _ _ => s.updJob num fun j => { j with buf := ((span a.va data.length).zip data).foldl (fun m b => Tab.set m b.1 b.2) j.buf }
  | _ => if (s.jobAccs a.core num).isEmpty then s.sectorsDone a.core num a.ri else s

/-- A request has been performed at its target: its value, if any, arrives and it retires. -/
def State.okReply (s : State) (a : Acc) (data : List Byte) : State :=
  match a.job with
  | some num => s.jobReply a num data
  | none => (s.unitReply a.id 0 data).accValue a (a.op.rmw data).ret

/-- A fault at the target freezes the stream (R333, R416). -/
def freezes (reason : Nat) : Bool := decide (0x07 ≤ reason) && decide (reason ≤ 0x0B)

/-- The number of the allowance that an access has taken (R422). -/
def State.allowOf (s : State) (a : Acc) : Nat :=
  match a.leaf with
  | some l => (match s.placeOf l a.va with | .remote dev fa => allowKey (s.fnOf a.part) dev fa | _ => 0)
  | none => 0

/-- A reply owed to a function that has been torn down (R423 step 3). -/
def State.lateReply (s : State) (a : Acc) : State :=
  (({ s with fab := { s.fab with dropped := s.fab.dropped + 1 } } : State).logErr none 0x07 (dieOfCore a.core) (a.core % 48) 0
    (Config.detail 0x15) a.va).dropAcc a

/-- SHECEL_REPLY (R419, R422, R423): an answer of a peer returns one allowance; reason 0 acknowledges. One that answers no
request, as those of an old incarnation do, is discarded and counted (R420). -/
def State.shecelReply (s : State) (id reason : Nat) (data : List Byte) : State :=
  match s.acc? id with
  | none => { s with fab := { s.fab with dropped := s.fab.dropped + 1 } }
  | some a =>
    match a.st, s.remoteOf a with
    | .sent, some dev =>
      let key := s.allowOf a
      let back : State := if dev < 0x1000 then
          { s with fab := { s.fab with allow := Tab.put s.fab.allow 0 key (Tab.getD s.fab.allow 0 key + 1) } }
        else s
      if Tab.getD s.fab.quenched 0 (s.fnOf a.part) ≠ 0 then s.lateReply a
      else if freezes reason then s.setAcc { a with st := .frozen }
      else if reason = 0 then back.okReply a data
      else back.failAcc a reason
    | _, _ => s

/-- SHECEL_REPLY. -/
def execEvShecelReply (acc reason : Nat) (data : List Byte) (s : State) : Host.Outcome State Fault Refusal :=
  .next (s.shecelReply acc reason data)

/-- The frozen request of a group's stream, if one. -/
def State.frozenOf (s : State) (r : GRef) (stream : Nat) : Option Acc :=
  List.find? (fun (a : Acc) => decide (a.t.g = r) && a.stream == stream && a.st == .frozen) s.accs

/-- STREAM_RESUME (R333): the target has performed the request, whose answer follows; the stream goes on. -/
def execEvStreamResume (g t i stream : Nat) (s : State) : Host.Outcome State Fault Refusal :=
  .next (match s.frozenOf ⟨g, t, i⟩ stream with
    | some a => s.setAcc { a with st := .sent }
    | none => s)

/-- STREAM_ABORT (R416): the faulting request and those that wait behind it, here or at the target, fail with Fabric Stream. -/
def State.streamAbort (s : State) (r : GRef) (stream : Nat) : State :=
  match s.frozenOf r stream with
  | none => s
  | some a =>
    let dev := s.remoteOf a
    (s.accs.filter fun b => decide (b.t.g = r) && b.stream == stream && decide (a.id ≤ b.id) && (s.remoteOf b).isSome
      && (b.st == .frozen || b.st == .pending || (b.st == .sent && s.remoteOf b == dev))).foldl (fun s b => s.failAcc b 0x14) s

/-- STREAM_ABORT. -/
def execEvStreamAbort (g t i stream : Nat) (s : State) : Host.Outcome State Fault Refusal :=
  .next (s.streamAbort ⟨g, t, i⟩ stream)

/-! ### Multicast and combination (R417, R418) -/

/-- The 64 bytes of a multicast report (R418); `neg` holds 4 bytes for each negative answer. -/
def reportBytes (seq expd pos : Nat) (neg : List Byte) : List Byte :=
  let n := neg.length / 4
  let es := neg.take 56
  toLE 2 seq ++ toLE 2 expd ++ toLE 2 pos ++ toLE 1 (min 255 n) ++ toLE 1 (ofB (decide (14 < n)))
  ++ es ++ List.replicate (56 - es.length) 0#8

/-- An access's multicast group and context. -/
def State.groupOfAcc (s : State) (a : Acc) : Option Nat :=
  match s.remoteOf a with | some d => if d < 0x1000 then none else some (d - 0x1000) | none => none

/-- A unit that writes the reports of multicast groups: with strong stores at system scope (R418). -/
def reporter (a : Acc) : Agent := ⟨[14, a.id], a.core, a.pasid, true⟩

/-- The report of an acknowledgement is written: one write, performed at system scope (R418). One that cannot be written is left
out. -/
def State.mcReport (s : State) (m : McAck) (a : Acc) (grp : Nat) : State :=
  let key := 4096 * a.pasid + grp
  let n := Tab.getD s.fab.reports 0 key + 1
  let base := match s.ctx a.pasid with | some c => c.mcrep | none => 0
  let noted := fun (s : State) (v : VClk) =>
    { s with fab := { s.fab with
        reports := Tab.set s.fab.reports key n
        mcAcks := s.fab.mcAcks.map fun x => if x.acc = m.acc then { x with done := some v } else x } }
  match s.unitWrite (reporter a) (base + 64 * grp) (reportBytes n m.expd m.pos m.neg) with
  | (.wait, s) => s
  | (.fail _, s) => noted s .zero
  | (.done s v, _) => noted s v

/-- The acknowledgement at place k goes on: reports are written in order; then the store retires, or the job's sectors count as
performed. -/
def State.mcStep (s : State) (k : Nat) : State :=
  match s.fab.mcAcks[k]? with
  | none => s
  | some m =>
    let gone : State := { s with fab := { s.fab with mcAcks := dropNth s.fab.mcAcks k } }
    match s.acc? m.acc with
    | none => gone
    | some a =>
      match m.done, s.groupOfAcc a with
      | some v, _ => if s.allCover v then gone.okReply a [] else s
      | none, some grp => if (s.fab.mcAcks.take k).any (·.done.isNone) then s else s.mcReport m a grp
      | none, none => gone

/-- MULTICAST_ACK (R418): the switches' aggregated acknowledgement of a request. -/
def State.multicastAck (s : State) (id expd pos : Nat) (neg : List Byte) : State :=
  match s.acc? id with
  | none => s
  | some a =>
    if a.st ≠ .sent ∨ (s.groupOfAcc a).isNone ∨ s.fab.mcAcks.any (·.acc == id) then s
    else if Tab.getD s.fab.quenched 0 (s.fnOf a.part) ≠ 0 then s.lateReply a
    else ({ s with fab := { s.fab with mcAcks := s.fab.mcAcks ++ [⟨id, expd, pos, neg, none⟩] } } : State).mcStep s.fab.mcAcks.length

/-- MULTICAST_ACK. -/
def execEvMulticastAck (acc expd pos : Nat) (neg : List Byte) (s : State) : Host.Outcome State Fault Refusal :=
  .next (s.multicastAck acc expd pos neg)

/-- The reduction tree of an access's lease, if one (R408, R417). -/
def State.treeOf (s : State) (a : Acc) : Option Nat :=
  match a.leaf.bind fun l => Tab.find? s.leases l.lease with
  | some e => (match e.repl with | r :: _ => if r = 0xFFFF then none else some r | [] => none)
  | none => none

/-- A message that carries a RED of an access. -/
def isRedMsg (id : Nat) (m : OutMsg) : Bool := match m with | .request x _ _ _ _ _ _ k _ _ => x == id && decide (32 ≤ k) | _ => false

/-- Two REDs with one target, address, operation and size as one, whose operand is the combination (R217, R417). -/
def combineMsg (x y : OutMsg) : Option OutMsg :=
  match x, y with
  | .request a d f g st q fa k n v, .request _ d' _ _ _ _ fa' k' n' v' =>
    if d = d' ∧ fa = fa' ∧ k = k' ∧ n = n' then
      some (.request a d f g st q fa k n (toLE n (atomNew (k - 32) (8 * n) (ofLE v) (ofLE v'))))
    else none
  | _, _ => none

/-- SWITCH_COMBINE (R417): a switch combines the REDs of two outstanding accesses of one reduction tree. -/
def State.combine (s : State) (a b : Nat) : State :=
  match s.acc? a, s.acc? b, List.find? (isRedMsg a) s.fab.out, List.find? (isRedMsg b) s.fab.out with
  | some x, some y, some mx, some my =>
    (match s.treeOf x, combineMsg mx my with
     | some t, some m =>
       if a = b ∨ s.treeOf y ≠ some t then s
       else
         { s with fab := { s.fab with
            out := (s.fab.out.filter fun z => !isRedMsg b z).map fun z => if isRedMsg a z then m else z } }
     | _, _ => s)
  | _, _, _, _ => s

/-- SWITCH_COMBINE. -/
def execEvSwitchCombine (a b : Nat) (s : State) : Host.Outcome State Fault Refusal := .next (s.combine a b)

/-! ### Incoming requests and exports (R415, R416) -/

/-- SHECEL_REQUEST (R414, R416, R420): a peer's request arrives at a port and is performed when its stream's turn has come. A packet
of an incarnation that is gone is discarded and counted. 256 added to the operation's number marks a multicast member's copy. -/
def State.shecelRequest (s : State) (src : FromPeer) (fn : Nat) (place : StreamPlace) (faddr op size : Nat) (data : List Byte) :
    State :=
  if s.peerLost src.dev || src.inc != (Tab.getD s.fab.peers ⟨false, 0⟩ src.dev).incarnation then
    { s with fab := { s.fab with dropped := s.fab.dropped + 1 } }
  else
    let q : InReq :=
      { n := s.fab.reqNext, port := src.port, src := src.dev, fn := fn, grp := place.grp, stream := place.stream, seq := place.seq
        faddr := faddr, op := op % 256, size := size, data := data, mcast := decide (256 ≤ op), held := false, done := none }
    ({ s with fab := { s.fab with inReqs := s.fab.inReqs ++ [q], reqNext := s.fab.reqNext + 1 } } : State).serveTurn q.n

/-- SHECEL_REQUEST. -/
def execEvShecelRequest (src : FromPeer) (fn : Nat) (place : StreamPlace) (faddr op size : Nat) (data : List Byte) (s : State) :
    Host.Outcome State Fault Refusal := .next (s.shecelRequest src fn place faddr op size data)

/-- An export entry from its 128 bits (R415). -/
def exportOf (v : Nat) : Export :=
  { v := bitN v 0, tileKind := bitN v 1, rd := bitN v 2, w := bitN v 3, pasid := fld v 39 20, pages := fld v 63 40
    xbase := fld v 127 64 }

/-- EXPORT_TABLE_WRITE (R415). -/
def execEvExportTableWrite (fn e val : Nat) (s : State) : Host.Outcome State Fault Refusal :=
  .next (if fn < 16 ∧ e < 1024 then
      { s with fab := { s.fab with exports := Tab.set s.fab.exports (1024 * fn + e) (exportOf val) } }
    else s)

/-! ### Links and peers (R420, R422) -/

/-- HEARTBEAT (R420). -/
def execEvHeartbeat (port : Nat) (s : State) : Host.Outcome State Fault Refusal :=
  .next (if port < 18 ∧ Tab.getD s.fab.lastBeat 0 port + 1000 ≤ s.now then
      ({ s with fab := { s.fab with lastBeat := Tab.set s.fab.lastBeat port s.now } } : State).send (.heartbeat port)
    else s)

/-- LINK_SILENCE_TIMEOUT (R420): the switch has heard nothing on a link for 8 µs; the other planes carry the traffic. -/
def execEvLinkSilenceTimeout (port : Nat) (s : State) : Host.Outcome State Fault Refusal :=
  .next (if port < 18 ∧ Tab.getD s.fab.lastBeat 0 port + 8000 ≤ s.now then
      { s with fab := { s.fab with links := Tab.set s.fab.links port false } }
    else s)

/-- A connection that begins to close: what is not done on it is done with STATUS 0x15 (R425). -/
def State.closeConn (s : State) (f : Nat → Conn → Bool) : State :=
  let hit := fun (k : Nat) (c : Conn) => c.st == .opened && f k c
  let ks := (List.filter (fun c => hit c.1 c.2) s.fab.conns).map (·.1)
  { s with fab := { s.fab with
    conns := s.fab.conns.map fun c => if hit c.1 c.2 then (c.1, { c.2 with st := .closing }) else c
    netOps := s.fab.netOps.map fun o => if ks.contains o.conn && o.fail == 0 then { o with fail := 0x15 } else o } }

/-- DEATH_NOTICE (R420): the peer is lost; requests to it that are frozen, wait behind one or await an answer fail. -/
def State.deathNotice (s : State) (dev : Nat) : State :=
  let p := Tab.getD s.fab.peers ⟨false, 0⟩ dev
  let s : State := { s with fab := { s.fab with peers := Tab.set s.fab.peers dev { p with lost := true } } }
  let stuck := fun (a : Acc) => (s.frozenOf a.t.g a.stream).isSome
  let l := s.accs.filter fun a => decide (s.remoteOf a = some dev) &&
    (a.st == .frozen || a.st == .sent || (a.st == .pending && stuck a))
  (l.foldl (fun s a => s.failAcc a 0x15) s).closeConn fun _ c => c.peer == dev

/-- DEATH_NOTICE. -/
def execEvDeathNotice (dev : Nat) (s : State) : Host.Outcome State Fault Refusal := .next (s.deathNotice dev)

/-- PEER_RETURN (R420): under a new incarnation, whose streams begin afresh. -/
def execEvPeerReturn (dev incarnation : Nat) (s : State) : Host.Outcome State Fault Refusal :=
  let p := Tab.getD s.fab.peers ⟨false, 0⟩ dev
  let other := fun (x : StreamSeq) => x.key.head? != some dev
  .next (if p.incarnation < incarnation then
      { s with fab := { s.fab with
        peers := Tab.set s.fab.peers dev ⟨false, incarnation⟩
        inReqs := s.fab.inReqs.filter fun q => q.src != dev
        inSeq := s.fab.inSeq.filter other
        outSeq := s.fab.outSeq.filter other } }
    else s)

/-- ALLOWANCE_RETURN (R422): a peer's endpoint grants a function n sends; `dev` is the allowance's number, 16 times 4096·function +
device, and the peer's function. -/
def execEvAllowanceReturn (dev n : Nat) (s : State) : Host.Outcome State Fault Refusal :=
  .next { s with fab := { s.fab with allow := Tab.put s.fab.allow 0 dev (Tab.getD s.fab.allow 0 dev + n) } }

/-! ### Functions (R423, R424) -/

/-- Kill every grid of a partition (R362, R423, R424). -/
def State.killPart (s : State) (p : Nat) : State :=
  (List.filter (fun g => g.2.part == p) s.cp.grids).foldl (fun s g => s.killGrid g.1) s

/-- FUNCTION_TEARDOWN (R423 steps 1 to 4). A request that has not been sent is dropped with its thread's grid. -/
def State.teardown (s : State) (fn : Nat) : State :=
  match s.partOfFn fn with
  | none => s
  | some p =>
    if Tab.getD s.fab.quenched 0 fn ≠ 0 then s
    else
      let s := s.killPart p
      let mine := List.filter (fun k => k.1 / 65536 == fn) s.fab.allow
      let gone := fun (a : Acc) => a.part == p && (s.remoteOf a).isSome && a.st == .pending
      let s : State := { s with
        accs := s.accs.filter fun a => !gone a
        fab := { s.fab with
          units := s.fab.units.filter fun u => !s.accs.any fun a => a.id == u.acc && gone a
          quenched := Tab.set s.fab.quenched fn (s.now + 1)
          allow := List.filter (fun k => k.1 / 65536 != fn) s.fab.allow } }
      mine.foldl (fun s k => s.send (.allowances (k.1 % 65536) k.2)) s

/-- FUNCTION_TEARDOWN. -/
def execEvFunctionTeardown (fn : Nat) (s : State) : Host.Outcome State Fault Refusal := .next (s.teardown fn)

/-- Is a connection a partition's? -/
def State.connOf (s : State) (p : Nat) (c : Conn) : Bool := s.partOf c.pasid == p && (s.ctx c.pasid).isSome

/-- TEARDOWN_RTT_EXPIRY (R423 step 5): the exports of the function are cleared, and its connections close (R425). -/
def execEvTeardownRttExpiry (fn : Nat) (s : State) : Host.Outcome State Fault Refusal :=
  let t := Tab.getD s.fab.quenched 0 fn
  .next (match s.partOfFn fn with
    | some p =>
      if t ≠ 0 ∧ t + 2 * s.fab.rtt ≤ s.now + 1 then
        ({ s with fab := { s.fab with exports := List.filter (fun e => e.1 / 1024 != fn) s.fab.exports } } : State).closeConn
          fun _ c => s.connOf p c
      else s
    | none => s)

/-- Every outstanding SYSCALL of a partition completes with g8 all ones; g9 is a free value (R262, R424). -/
def State.resetCalls (s : State) (p : Nat) : State :=
  match s.part p with
  | none => s
  | some q =>
    let s := q.sys.foldl (fun (s : State) x =>
      ({ s with free := s.free + 1 } : State).sysReply x.g 0xFFFFFFFF#32 (Config.freeWord s.free)) s
    s.updPart p fun q => { q with sys := [] }

/-- FUNCTION_LEVEL_RESET (R424). -/
def State.functionReset (s : State) (fn : Nat) : State :=
  match s.partOfFn fn with
  | none => s
  | some p =>
    let s := (s.resetCalls p).killPart p
    let mine := fun (pasid : Nat) => (s.ctx pasid).isSome && s.partOf pasid == p
    let s : State := { s with
      cp := { s.cp with
        queues := Tab.mapV s.cp.queues fun q => if mine q.pasid then { q with st := .closed } else q
        handles := Tab.mapV s.cp.handles fun h => if mine h.pasid then { h with current := false } else h }
      teams := s.teams.map fun t =>
        if t.part = p then
          { t with notes := t.notes.filter fun n => match n with | .doorbell _ _ => false | _ => true
                   groups := Tab.mapV t.groups fun g =>
                     { g with threads := Tab.mapV g.threads fun th => { th with pend := th.pend &&& 0x0F#5 } } }
        else t }
    s.closeConn fun _ c => mine c.pasid

/-- FUNCTION_LEVEL_RESET. -/
def execEvFunctionLevelReset (fn : Nat) (s : State) : Host.Outcome State Fault Refusal := .next (s.functionReset fn)

/-! ### The network (R259, R425 to R427) -/

/-- CONNECTION_OPEN (R425): the service core opens a connection for one context. -/
def execEvConnectionOpen (conn pasid peer : Nat) (s : State) : Host.Outcome State Fault Refusal :=
  let shut : Bool := match Tab.find? s.fab.conns conn with | some c => c.st == .closed | none => true
  .next (if conn < 4096 ∧ shut then
      { s with fab := { s.fab with conns := Tab.set s.fab.conns conn ⟨.opened, pasid, peer, []⟩ } }
    else s)

/-- CONNECTION_CLOSE (R425). -/
def execEvConnectionClose (conn : Nat) (s : State) : Host.Outcome State Fault Refusal :=
  .next (s.closeConn fun k _ => k == conn)

/-- CONNECTION_CLOSED (R425): no operation is left on a closing connection. -/
def execEvConnectionClosed (conn : Nat) (s : State) : Host.Outcome State Fault Refusal :=
  .next (match Tab.find? s.fab.conns conn with
    | some c =>
      if c.st = .closing ∧ ¬ (s.fab.netOps.any fun o => o.conn == conn) then
        { s with fab := { s.fab with conns := Tab.set s.fab.conns conn { c with st := .closed } } }
      else s
    | none => s)

/-- The die of a network port (R18). -/
def netDie (port : Nat) : Nat := if port = 0 then 1 else 3

/-- The pool sectors, by address over 64, that some bytes of a context lie in. -/
def State.poolSectors (s : State) (g : Agent) (va n : Nat) : List Nat :=
  (sectorsOf va n).filterMap fun k =>
    match s.unitLeaf g (64 * k) ⟨false, true, false⟩ with
    | .ok l => (match s.placeOf l (64 * k) with | .pool page off => some (page * 1024 + off / 64) | _ => none)
    | .error _ => none

/-- The network as it writes a packet: its writes take their origin on the port's die (R317). -/
def placer (o : NetOp) (p : Placing) : Agent := ⟨[15, o.n, p.off], 48 * netDie p.port, o.pasid, false⟩

/-- Place a packet's bytes at their offset of a placement (R258, R426): a tile arrival, or memory or scratchpad bytes. None while
it waits, with what it waits for asked for. -/
def State.placePacket (s : State) (tm : Team) (o : NetOp) (p : Placing) : State × Bool :=
  let mc := tm.memberOf o.core
  let va := o.addr + p.off
  let fails := fun (s : State) (c : Nat) => s.netFails o.n p.off c
  if o.tile then
    if !tm.resident then (s, false)
    else
      let a : Arrival :=
        { ap := none, grid := tm.grid, team := tm.team, mc := mc, tile := o.addr % 256, ph := fld o.addr 11 8, off := p.off
          swz := true, data := p.data, prod := .net o.n }
      let s := s.updNet o.n fun x => { x with flying := x.flying + 1 }
      ({ s with arrivals := s.arrivals ++ [a] }, true)
  else
    match windowOf tm va p.data.length with
    | some (.scratch c z) =>
      if !tm.resident then (s, false)
      else
        ((s.updTeam tm.grid tm.team fun t =>
          { t with scratch := Tab.set t.scratch c (Mem.writeList (Tab.getD t.scratch [] c) z p.data) }).netPlaced o.n p.off
            p.data.length .zero [], true)
    | some .user =>
      if 2 ^ 57 < va + p.data.length then (fails s 0x06, true)
      else
        let secs := s.poolSectors (placer o p) va p.data.length
        (match s.unitWrite (placer o p) va p.data with
         | (.fail f, s) => (fails s f.code, true)
         | (.wait, s) => (s, false)
         | (.done s v, _) => (s.netPlaced o.n p.off p.data.length v secs, true))
    | _ => (fails s 0x06, true)

/-- The packet at place k of those that are being placed goes on (R426); one whose operation has failed or gone is discarded. -/
def State.placeStep (s : State) (k : Nat) : State :=
  match s.fab.placing[k]? with
  | none => s
  | some p =>
    let gone := fun (s : State) => { s with fab := { s.fab with placing := dropNth s.fab.placing k } }
    match s.netOp? p.op with
    | none => gone s
    | some o =>
      if o.fail ≠ 0 then gone (s.ackNet o p.off 0x0D)
      else
        match s.team? o.g.grid o.g.team with
        | none => gone (s.netPlaced o.n p.off p.data.length .zero [])
        | some tm => let r := s.placePacket tm o p; if r.2 then gone r.1 else r.1

/-- The receiver acknowledges a packet, or tells that its message has failed (R426). -/
def State.ackPacket (s : State) (conn msg off reason : Nat) : State := s.send (.packetAck conn msg off reason)

/-- A packet whose message no NPOST takes is discarded and counted, and the rest of the message with it (R426). -/
def State.dropPacket (s : State) (conn msg off : Nat) : State :=
  { s with fab := { s.fab with
      dropped := s.fab.dropped + 1
      conns := Tab.adjust s.fab.conns conn fun c => { c with gone := insNat msg c.gone } } }.ackPacket conn msg off 0x0D

/-- The NPOST that takes a packet of a message (R426): the one that the message has matched, or the oldest of its connection and
tag that has matched none. -/
def State.postFor (s : State) (conn msg tag : Nat) : Option NetOp :=
  let mine := fun (o : NetOp) => !o.send && o.conn == conn && o.fail == 0
  match List.find? (fun o : NetOp => mine o && o.matched == some msg) s.fab.netOps with
  | some o => some o
  | none =>
    if (match Tab.find? s.fab.conns conn with | some c => c.gone.contains msg | none => false) then none
    else List.find? (fun o : NetOp => mine o && o.tag == tag && o.matched.isNone) s.fab.netOps

/-- NETWORK_PACKET (R426): a packet of a message of `len` bytes goes to the message's NPOST; without one, or when the message
is too long for it, it is discarded. -/
def State.networkPacket (s : State) (conn : AtPort) (msg : MsgTag) (len off : Nat) (data : List Byte) : State :=
  match s.postFor conn.id msg.id msg.tag with
  | none => s.dropPacket conn.id msg.id off
  | some o =>
    if o.len < len ∨ len < off + data.length then s.dropPacket conn.id msg.id off
    else
      let s := s.updNet o.n fun x => { x with matched := some msg.id, len := len }
      ({ s with fab := { s.fab with placing := s.fab.placing ++ [⟨o.n, conn.port, off, data⟩] } } : State).placeStep s.fab.placing.length

/-- NETWORK_PACKET. -/
def execEvNetworkPacket (conn : AtPort) (msg : MsgTag) (len off : Nat) (data : List Byte) (s : State) :
    Host.Outcome State Fault Refusal := .next (s.networkPacket conn msg len off data)

/-- Is a network operation complete (R425, R426): it has failed, the receiver has acknowledged a send, or every byte of a
placement has been placed, and no arrival of it is in flight? -/
def NetOp.finished (o : NetOp) : Bool :=
  o.flying == 0 && (o.fail != 0 || o.send || (o.matched.isSome && decide (o.len ≤ o.placed)))

/-- The completion word (R259). -/
def NetOp.word (o : NetOp) (status : Nat) : Word := BitVec.ofNat 32 (status + 256 * ofB (!o.send) + 65536 * o.conn)

/-- Has every dirty pool sector of a list been written back (R402)? -/
def State.sectorsBack (s : State) (l : List Nat) : Bool :=
  s.frames.all fun e => e.2.loc || !(e.2.dirty.any fun k => l.contains (e.2.page * 1024 + k))

/-- NETWORK_COMPLETION (R259, R426): the word is pushed to q2; `status` is what the receiver answers to a send. A placement
completes once its writes are performed at system scope (R427). -/
def State.netComplete (s : State) (n status : Nat) : State :=
  match s.netOp? n with
  | none => s
  | some o =>
    let performed := o.send || o.fail != 0 || (s.allCover o.stamps && s.sectorsBack o.stored)
    if !o.finished || !performed then s
    else
      let st := if o.fail ≠ 0 then o.fail else if o.send then status % 256 else 0
      let s : State := { s with fab := { s.fab with netOps := s.fab.netOps.filter fun x => x.n != n } }
      let s := s.updGroup o.g fun g => { g with netOut := g.netOut - 1 }
      s.devPush o.g 2 (o.word st)

/-- NETWORK_COMPLETION. -/
def execEvNetworkCompletion (n status : Nat) (s : State) : Host.Outcome State Fault Refusal := .next (s.netComplete n status)

end Sys2Proof.Machine
end

