-- ==== Sys2Proof/Machine/MemInstr.lean ====
section
/-! DEFINITION. The memory instructions that take a table entry (R178, R179, R208 to R217). -/

namespace Sys2Proof.Machine

/-- LD.z8: a byte, zero-extended (R208). -/
def ldZ8Sem : MemSem := fun x => loadPlan x 1 false

/-- The meaning of LD.z8. -/
def execLdZ8 (pf : Pfx) (d a b : BitVec 8) (s : State) : Host.Outcome State Fault Refusal :=
  runMemOf (.ldZ8 pf d a b) ldZ8Sem s

/-- LD.s8: a byte, sign-extended (R208). -/
def ldS8Sem : MemSem := fun x => loadPlan x 1 true

/-- The meaning of LD.s8. -/
def execLdS8 (pf : Pfx) (d a b : BitVec 8) (s : State) : Host.Outcome State Fault Refusal :=
  runMemOf (.ldS8 pf d a b) ldS8Sem s

/-- LD.z16: a half, zero-extended (R208). -/
def ldZ16Sem : MemSem := fun x => loadPlan x 2 false

/-- The meaning of LD.z16. -/
def execLdZ16 (pf : Pfx) (d a b : BitVec 8) (s : State) : Host.Outcome State Fault Refusal :=
  runMemOf (.ldZ16 pf d a b) ldZ16Sem s

/-- LD.s16: a half, sign-extended (R208). -/
def ldS16Sem : MemSem := fun x => loadPlan x 2 true

/-- The meaning of LD.s16. -/
def execLdS16 (pf : Pfx) (d a b : BitVec 8) (s : State) : Host.Outcome State Fault Refusal :=
  runMemOf (.ldS16 pf d a b) ldS16Sem s

/-- LD: a word (R208). -/
def ldSem : MemSem := fun x => loadPlan x 4 false

/-- The meaning of LD. -/
def execLd (pf : Pfx) (d a b : BitVec 8) (s : State) : Host.Outcome State Fault Refusal :=
  runMemOf (.ld pf d a b) ldSem s

/-- LD.b64: a pair (R208). -/
def ldB64Sem : MemSem := fun x => loadPlan x 8 false

/-- The meaning of LD.b64. -/
def execLdB64 (pf : Pfx) (d a b : BitVec 8) (s : State) : Host.Outcome State Fault Refusal :=
  runMemOf (.ldB64 pf d a b) ldB64Sem s

/-- LD.b128: a quad (R208). -/
def ldB128Sem : MemSem := fun x => loadPlan x 16 false

/-- The meaning of LD.b128. -/
def execLdB128 (pf : Pfx) (d a b : BitVec 8) (s : State) : Host.Outcome State Fault Refusal :=
  runMemOf (.ldB128 pf d a b) ldB128Sem s

/-- ST.b8: D[7:0] (R208). -/
def stB8Sem : MemSem := fun x => storePlan x 1

/-- The meaning of ST.b8. -/
def execStB8 (pf : Pfx) (d a b : BitVec 8) (s : State) : Host.Outcome State Fault Refusal :=
  runMemOf (.stB8 pf d a b) stB8Sem s

/-- ST.b16: D[15:0] (R208). -/
def stB16Sem : MemSem := fun x => storePlan x 2

/-- The meaning of ST.b16. -/
def execStB16 (pf : Pfx) (d a b : BitVec 8) (s : State) : Host.Outcome State Fault Refusal :=
  runMemOf (.stB16 pf d a b) stB16Sem s

/-- ST: D (R208). -/
def stSem : MemSem := fun x => storePlan x 4

/-- The meaning of ST. -/
def execSt (pf : Pfx) (d a b : BitVec 8) (s : State) : Host.Outcome State Fault Refusal :=
  runMemOf (.st pf d a b) stSem s

/-- ST.b64: pair D (R208). -/
def stB64Sem : MemSem := fun x => storePlan x 8

/-- The meaning of ST.b64. -/
def execStB64 (pf : Pfx) (d a b : BitVec 8) (s : State) : Host.Outcome State Fault Refusal :=
  runMemOf (.stB64 pf d a b) stB64Sem s

/-- ST.b128: quad D; to the copy-engine window, a job card (R208, R254). -/
def stB128Sem : MemSem := fun x => { storePlan x 16 with inCard := true }

/-- The meaning of ST.b128. -/
def execStB128 (pf : Pfx) (d a b : BitVec 8) (s : State) : Host.Outcome State Fault Refusal :=
  runMemOf (.stB128 pf d a b) stB128Sem s

/-- ULD (R210). -/
def uldSem : MemSem := fun x => loadPlan x 4 false

/-- The meaning of ULD. -/
def execUld (pf : Pfx) (d a b : BitVec 8) (s : State) : Host.Outcome State Fault Refusal :=
  runUMemOf (.uld pf d a b) uldSem s

/-- ULD.b64 (R210). -/
def uldB64Sem : MemSem := fun x => loadPlan x 8 false

/-- The meaning of ULD.b64. -/
def execUldB64 (pf : Pfx) (d a b : BitVec 8) (s : State) : Host.Outcome State Fault Refusal :=
  runUMemOf (.uldB64 pf d a b) uldB64Sem s

/-- UST (R210). -/
def ustSem : MemSem := fun x => storePlan x 4

/-- The meaning of UST. -/
def execUst (pf : Pfx) (d a b : BitVec 8) (s : State) : Host.Outcome State Fault Refusal :=
  runUMemOf (.ust pf d a b) ustSem s

/-- UST.b64 (R210). -/
def ustB64Sem : MemSem := fun x => storePlan x 8

/-- The meaning of UST.b64. -/
def execUstB64 (pf : Pfx) (d a b : BitVec 8) (s : State) : Host.Outcome State Fault Refusal :=
  runUMemOf (.ustB64 pf d a b) ustB64Sem s

/-- LDS: the value is never the L1's (R214). -/
def ldsSem (z sc : Nat) : MemSem := fun x =>
  { strongPlan x (Enc.szBytes z) 0x03 sc (.load (Enc.szBytes z) false) with
    dst := Enc.regs (Enc.szBytes z), isLoad := true, need := ⟨true, false, false⟩ }

/-- The meaning of LDS. -/
def execLds (pf : Pfx) (d a : BitVec 8) (z : BitVec 2) (sc : BitVec 3) (s : State) : Host.Outcome State Fault Refusal :=
  runMemOf (.lds pf d a z sc) (ldsSem z.toNat sc.toNat) s

/-- STS (R214). -/
def stsSem (z sc : Nat) : MemSem := fun x =>
  { strongPlan x (Enc.szBytes z) 0x04 sc (.store (toLE (Enc.szBytes z) x.d)) with
    isStore := true, need := ⟨false, true, false⟩ }

/-- The meaning of STS. -/
def execSts (pf : Pfx) (d a : BitVec 8) (z : BitVec 2) (sc : BitVec 3) (s : State) : Host.Outcome State Fault Refusal :=
  runMemOf (.sts pf d a z sc) (stsSem z.toNat sc.toNat) s

/-- ATOM; the non-returning form counts as a store (R215). -/
def atomSem (o : Nat) (w : Bool) (sc : Nat) : MemSem := fun x =>
  let ret := x.m.rnd == 0#3
  { strongPlan x (if w then 8 else 4) 0x05 sc (.atom o w (x.d % 2 ^ (if w then 64 else 32)) ret) with
    dst := if ret then (if w then 2 else 1) else 0, isLoad := ret, isStore := !ret, need := ⟨true, true, false⟩ }

/-- The meaning of ATOM. -/
def execAtom (pf : Pfx) (d a : BitVec 8) (o : BitVec 4) (k : BitVec 1) (sc : BitVec 3) (s : State) : Host.Outcome State Fault Refusal :=
  runMemOf (.atom pf d a o k sc) (atomSem o.toNat (k == 1#1) sc.toNat) s

/-- CAS: the expected value in the low half of the block, the new one above it (R216). -/
def casSem (z sc : Nat) : MemSem := fun x =>
  let n := Enc.szBytes z
  { strongPlan x n 0x05 sc (.cas n (x.d % 2 ^ (8 * n)) (x.d / 2 ^ (8 * n) % 2 ^ (8 * n))) with
    dst := Enc.regs n, isLoad := true, need := ⟨true, true, false⟩ }

/-- The meaning of CAS. -/
def execCas (pf : Pfx) (d a : BitVec 8) (z : BitVec 2) (sc : BitVec 3) (s : State) : Host.Outcome State Fault Refusal :=
  runMemOf (.cas pf d a z sc) (casSem z.toNat sc.toNat) s

/-- RED (R217); it needs W (R379). -/
def redSem (o : Nat) (w : Bool) (sc : Nat) : MemSem := fun x =>
  { strongPlan x (if w then 8 else 4) 0x05 sc (.red o w (x.d % 2 ^ (if w then 64 else 32))) with
    isStore := true, need := ⟨false, true, false⟩ }

/-- The meaning of RED. -/
def execRed (pf : Pfx) (d a : BitVec 8) (o : BitVec 4) (k : BitVec 1) (sc : BitVec 3) (s : State) : Host.Outcome State Fault Refusal :=
  runMemOf (.red pf d a o k sc) (redSem o.toNat (k == 1#1) sc.toNat) s

/-- The bytes SSTX stores: n, or up to and with the first NUL of the chunk (R179). -/
def chunkBytes (n : Nat) (nul : Bool) (v : Nat) : List Byte :=
  let l := toLE n v
  if nul then l.take (l.findIdx (· == 0#8) + 1) else l

/-- SLDX: n bytes, or up to the first NUL; any alignment (R178). -/
def sldxSem (nul : Bool) (n : Nat) : MemSem := fun x =>
  { weakPlan x.a n 1 0x01 0 (.sldx n nul) with
    dst := 4, isLoad := true, need := ⟨true, false, false⟩ }

/-- The meaning of SLDX. -/
def execSldx (pf : Pfx) (d a : BitVec 8) (u : BitVec 1) (n : BitVec 4) (s : State) : Host.Outcome State Fault Refusal :=
  runMemOf (.sldx pf d a u n) (sldxSem (u == 1#1) (n.toNat + 1)) s

/-- SSTX (R179). -/
def sstxSem (nul : Bool) (n : Nat) : MemSem := fun x =>
  let bs := chunkBytes n nul x.d
  { weakPlan x.a bs.length 1 0x02 0 (.store bs) with
    isStore := true, need := ⟨false, true, false⟩, inTile := true }

/-- The meaning of SSTX. -/
def execSstx (pf : Pfx) (d a : BitVec 8) (u : BitVec 1) (n : BitVec 4) (s : State) : Host.Outcome State Fault Refusal :=
  runMemOf (.sstx pf d a u n) (sstxSem (u == 1#1) (n.toNat + 1)) s

end Sys2Proof.Machine
end

