-- ==== Sys2Proof/Machine/Mgmt.lean ====
section
/-! DEFINITION. Reliability, firmware, partitions, power and the management registers (R436 to R450). -/

namespace Sys2Proof.Machine

/-! ### The fatal error and its dump (R446) -/

/-- The 32 bytes of an error-log entry (R441). -/
def ErrEnt.bytes (e : ErrEnt) : List Byte :=
  toLE 4 e.cls ++ toLE 1 e.die ++ toLE 1 e.unit ++ toLE 2 e.pasid ++ toLE 4 e.detail ++ toLE 4 e.count ++ toLE 8 e.dtime
  ++ toLE 8 e.addr

/-- The first 8 bytes of a digest, as a number. -/
def digestHead (d : BitVec 384) : Nat := d.toNat % 2 ^ 64

/-- FWID (R446): the first 8 bytes of the five components' digests, XORed. -/
def State.fwid (s : State) : Nat :=
  (span 0 5).foldl (fun x k => x ^^^ digestHead (Tab.getD s.mg.firm .fresh k).digest) 0

/-- A dump section that the spec does not lay out: free bytes in a free number (assumption log 12). -/
def freeSection (seed : Nat) : List Byte := (span seed (Config.detail seed)).map Config.freeByte

/-- The sections' bytes, type 1 first (R446). -/
def State.dumpSections (s : State) : List (List Byte) :=
  s.mg.log.flatMap ErrEnt.bytes :: (span 2 5).map freeSection

/-- The section table: an entry of 16 bytes for each section from an offset up; the widths of its three fields are the
model's (assumption log 12). -/
def sectionTable : Nat → Nat → List (List Byte) → List Byte
  | _, _, [] => []
  | ty, off, b :: t => toLE 4 ty ++ toLE 4 off ++ toLE 8 b.length ++ sectionTable (ty + 1) (off + b.length) t

/-- The whole-state dump (R446); `unit` holds DIE in its low byte and UNIT above, as R441 lays them. -/
def State.dump (s : State) (cause unit addr : Nat) : List Byte :=
  let secs := s.dumpSections
  let body := sectionTable 1 (256 + 96) secs ++ secs.flatten
  toLE 4 0x504D5544 ++ toLE 4 1 ++ toLE 8 s.fwid ++ toLE 8 cause ++ toLE 4 unit ++ toLE 4 6 ++ toLE 8 s.now ++ toLE 8 addr
  ++ toLE 8 (256 + body.length) ++ toLE 8 256 ++ List.replicate 192 0#8 ++ body

/-- A fatal error (R446): issue stops on every core at one dtime, the dump is written into the host's buffer, and physical
function 0 reports the cause. -/
def State.fatalStop (s : State) (cause unit addr : Nat) : State :=
  if s.fatal then s
  else
    { s with
      fatal := true, grants := []
      host := Mem.writeList s.host s.mg.dumpAt (s.dump cause unit addr)
      mg := { s.mg with pf0 := some cause } }

/-- FATAL_ERROR (R446). -/
def execEvFatalError (cause unit addr : Nat) (s : State) : Host.Outcome State Fault Refusal := .next (s.fatalStop cause unit addr)

/-- A mailbox direction: from a base die to the controller, or back (R444). -/
def mailKey (stack dir : Nat) : Nat := 2 * stack + dir

/-- MAILBOX_TIMEOUT (R446): a stack's management core has not answered its mailbox for 100 ms. -/
def execEvMailboxTimeout (stack : Nat) (s : State) : Host.Outcome State Fault Refusal :=
  let k := mailKey stack 1
  .next (if stack < 8 ∧ Tab.getD s.mg.mail [] k ≠ [] ∧ Tab.getD s.mg.mailAt 0 k + 100000000 ≤ s.now then
      s.fatalStop 0x13 (stack / 2 + 256 * 0xFF) 0
    else s)

/-! ### HBM channels (R436, R439) -/

/-- The number of a channel. -/
def chanKey (stack chan : Nat) : Nat := 32 * stack + chan

/-- A channel's state. -/
def State.chan (s : State) (k : Nat) : Chan := Tab.getD s.mg.chans .fresh k

/-- Change a channel. -/
def State.updChan (s : State) (k : Nat) (f : Chan → Chan) : State :=
  { s with mg := { s.mg with chans := Tab.put s.mg.chans .fresh k (f (s.chan k)) } }

/-- UNIT of a channel (R441). -/
def chanUnit (stack chan : Nat) : Nat := 64 + 32 * (stack % 2) + chan

/-- Log an event of a channel in the device log (R442). -/
def State.logChan (s : State) (stack chan cls : Nat) : State :=
  s.logErr none cls (stack / 2) (chanUnit stack chan) 0 (Config.detail cls) 0

/-- The time within which a further parity alert meets the replay under way (assumption log 31). -/
def replaySpan : Nat := 350

/-- HBM_PARITY_ALERT (R436): a replay; the alert that makes the third replay fail stops the channel until it is retrained.
No data and no order changes. -/
def State.parityAlert (s : State) (stack chan : Nat) : State :=
  let k := chanKey stack chan
  let c := s.chan k
  if 8 ≤ stack ∨ 32 ≤ chan ∨ c.stopped ∨ c.quiesced then s
  else
    let n := if 0 < c.replays ∧ s.now < c.replayAt + replaySpan then c.replays + 1 else 1
    if 3 < n then s.updChan k fun c => { c with stopped := true, replays := 0 }
    else (s.updChan k fun c => { c with replays := n, replayAt := s.now }).logChan stack chan 0x03

/-- HBM_PARITY_ALERT. -/
def execEvHbmParityAlert (stack chan : Nat) (s : State) : Host.Outcome State Fault Refusal := .next (s.parityAlert stack chan)

/-- CHANNEL_RETRAIN (R436): the management core retrains a channel that waits for it; a failure is fatal (R446). -/
def State.channelRetrain (s : State) (stack chan : Nat) (ok : Bool) : State :=
  let k := chanKey stack chan
  let c := s.chan k
  if !(c.stopped || c.quiesced) then s
  else
    let s := s.logChan stack chan 0x03
    if ok then s.updChan k fun c => { c with stopped := false, quiesced := false, replays := 0 }
    else s.fatalStop 0x11 (stack / 2 + 256 * chanUnit stack chan) 0

/-- CHANNEL_RETRAIN. -/
def execEvChannelRetrain (stack chan : Nat) (ok : Bool) (s : State) : Host.Outcome State Fault Refusal :=
  .next (s.channelRetrain stack chan ok)

/-- ACTIVATION_ALERT (R439): with fewer than four owed refreshes the mitigation precedes the next activate; with four a
back-off begins, or merges with the one under way. -/
def State.activationAlert (s : State) (stack chan owed : Nat) : State :=
  if 8 ≤ stack ∨ 32 ≤ chan then s
  else
    s.updChan (chanKey stack chan) fun c =>
      match c.backoff with
      | some t =>
        if s.now < t + 1000 then { c with mitig := c.mitig + 2 }
        else if owed < 4 then { c with backoff := none, owed := 0, mitig := 0 }
        else { c with backoff := some s.now, owed := 4, mitig := 2 }
      | none => if owed < 4 then c else { c with backoff := some s.now, owed := 4, mitig := 2 }

/-- ACTIVATION_ALERT. -/
def execEvActivationAlert (stack chan owed : Nat) (s : State) : Host.Outcome State Fault Refusal :=
  .next (s.activationAlert stack chan owed)

/-- BACKOFF_WINDOW_EXPIRY (R439): the window of 1,000 ns ends before the unblocking; the back-off still completes. -/
def State.backoffLate (s : State) (stack chan : Nat) : State :=
  match (s.chan (chanKey stack chan)).backoff with
  | some t =>
    if t + 1000 ≤ s.now then
      (s.updChan (chanKey stack chan) fun c => { c with backoff := none, owed := 0, mitig := 0 }).logChan stack chan 0x04
    else s
  | none => s

/-- BACKOFF_WINDOW_EXPIRY. -/
def execEvBackoffWindowExpiry (stack chan : Nat) (s : State) : Host.Outcome State Fault Refusal :=
  .next (s.backoffLate stack chan)

/-! ### Scrubbing (R437) -/

/-- A stack's scrubber. -/
def State.scrub (s : State) (stack : Nat) : Scrub := Tab.getD s.mg.scrubs .fresh stack

/-- Change a scrubber. -/
def State.updScrub (s : State) (stack : Nat) (f : Scrub → Scrub) : State :=
  { s with mg := { s.mg with scrubs := Tab.put s.mg.scrubs .fresh stack (f (s.scrub stack)) } }

/-- Sectors of a stack (R17). -/
def stackSectors : Nat := 393216 * 1024

/-- SCRUB_STEP (R437): one sector is read, and written back corrected when it has a correctable error, which is counted. No
value changes. The pass begins anew after the last sector. -/
def State.scrubStep (s : State) (stack chan : Nat) (err : Bool) : State :=
  if 8 ≤ stack ∨ 32 ≤ chan then s
  else
    let s := if err then s.countErr (stack / 2) (chanUnit stack chan) 0x01 else s
    s.updScrub stack fun c =>
      let c := { c with corrected := c.corrected + ofB err }
      if c.covered + 1 < stackSectors then { c with covered := c.covered + 1 } else { c with covered := 0, started := s.now }

/-- SCRUB_STEP. -/
def execEvScrubStep (stack chan : Nat) (err : Bool) (s : State) : Host.Outcome State Fault Refusal :=
  .next (s.scrubStep stack chan err)

/-- The pass length in ns (R437). -/
def State.passNs (s : State) : Nat := s.mg.passHours * 3600000000000

/-- SCRUB_ESCALATOR_CHECK (R437): behind by more than 1/64 of the frames, the scrubber is granted its slot; caught up, it
loses it. -/
def execEvScrubEscalatorCheck (stack : Nat) (s : State) : Host.Outcome State Fault Refusal :=
  let c := s.scrub stack
  let done := c.covered * s.passNs
  let due := (s.now - c.started) * stackSectors
  .next (if stack < 8 then
      s.updScrub stack fun c =>
        { c with forced := decide (done + stackSectors * s.passNs / 64 < due) || (c.forced && decide (done < due)) }
    else s)

/-! ### Uncorrectable errors (R438, R440) -/

/-- The tables named by the entries of a table of some levels' size. -/
def State.tablesUnder (s : State) : Nat → Nat → Nat → List (Nat × Nat)
  | 0, _, _ => []
  | fuel + 1, lv, table =>
    let size := 8 * 2 ^ (levelBits lv).2
    (table, size) :: (span 0 (2 ^ (levelBits lv).2)).flatMap fun i =>
      let pa := table + 8 * i
      let e := ofLE (s.devBytes (homeOf pa) pa 8)
      if bitN e 0 && !bitN e 1 then State.tablesUnder s fuel (lv + 1) (fld e 51 8 * 256) else []

/-- Does a sector hold page-table state (R376)? -/
def State.tableSector (s : State) (pa : Nat) : Bool :=
  let a := alignDown pa 64
  s.cp.ctxs.any fun c => (s.tablesUnder 4 0 c.2.ptroot).any fun t => decide (t.1 < a + 64) && decide (a < t.1 + t.2)

/-- The partition in whose quota's local part a frame lies. -/
def State.localOwner (s : State) (f : Nat) : Option Nat := (List.find? (fun q => s.isLocal q.1 f) s.parts).map (·.1)

/-- UNIT of the channel of a physical address (R441). -/
def unitOfPa (pa : Nat) : Nat := chanUnit (chanOfPa pa / 32) (chanOfPa pa % 32)

/-- Log an uncorrectable error of HBM (R438, R441). -/
def State.logUncorr (s : State) (addr : Nat) : State := s.logErr none 0x02 (homeOf addr) (unitOfPa addr) 0 (Config.detail 0x02) addr

/-- Mark a sector of a frame lost (R438); a device-local frame is listed for it. -/
def State.markLost (s : State) (f sec p : Nat) : State :=
  let none' : FrameE :=
    { st := .valid, loc := true, part := p, page := 0, lease := 0, dirty := [], arrived := [], first := 0, cnt := 0, pins := 0
      lost := [], retries := 0, grp := 0, rd := (0, 0), since := 0 }
  let e := Tab.getD s.frames none' f
  { s with frames := Tab.set s.frames f { e with lost := insNat sec e.lost } }

/-- Does a frame lie in some partition's quota? The frames outside hold the command processor's state (assumption log 31). -/
def State.quotaFrame (s : State) (f : Nat) : Bool := s.parts.any fun q => decide (q.2.frame0 ≤ f) && decide (f < q.2.frame0 + q.2.frames)

/-- HBM_UNCORRECTABLE (R438): by what the sector holds. -/
def State.hbmUncorrectable (s : State) (addr : Nat) : State :=
  let f := addr / pageSize
  let sec := addr % pageSize / 64
  if frameCount ≤ f then s
  else if s.tableSector addr || !s.quotaFrame f then s.logUncorr addr |>.fatalStop 0x02 (homeOf addr + 256 * unitOfPa addr) addr
  else
    let s := s.logUncorr addr
    match s.localOwner f, Tab.find? s.frames f with
    | some p, _ => s.markLost f sec p
    | none, some e =>
      if e.st = .free ∨ (e.st = .filling ∧ ¬ e.arrived.contains sec) then s
      else if e.dirty.contains sec then s.markLost f sec e.part
      else { s with hbm := Mem.writeList s.hbm (f * pageSize + 64 * sec) (Mem.readList s.pool (e.page * pageSize + 64 * sec) 64) }
    | none, none => s

/-- HBM_UNCORRECTABLE. -/
def execEvHbmUncorrectable (addr : Nat) (s : State) : Host.Outcome State Fault Refusal := .next (s.hbmUncorrectable addr)

/-- DIE and UNIT of a core, or, from 192 up, of a group of L2 slices, ten to a die (R441). -/
def unitOf (n : Nat) : Nat × Nat := if n < 192 then (n / 48, n % 48) else ((n - 192) / 10, 48 + (n - 192) % 10)

/-- Is a write to a sector still on its way to the sector's home die? -/
def State.sectorOwed (s : State) (pa : Nat) : Bool :=
  (s.die (homeOf pa)).inbox.any fun m => decide (m.addr < pa + 64) && decide (pa < m.addr + m.data.length)

/-- ONDIE_ECC_ERROR (R440), by kind: 0 a corrected error; 1 and 2 a double error in a clean sector of an L1 or of an L2; 3 in
state that a team of grid g holds; 4 in state that no team holds. -/
def State.ondieEcc (s : State) (unit kind g addr : Nat) : State :=
  let u := unitOf unit
  let a := alignDown addr 64
  match kind with
  | 0 => s.countErr u.1 u.2 0x01
  | 1 => if unit < 192 then s.updCore unit fun c => { c with l1 := Tab.del c.l1 (a / 64) } else s
  | 2 =>
    if s.sectorOwed a ∨ u.2 ≠ 48 + l2Slice a / 8 then s
    else s.updDie u.1 fun d => { d with l2 := Tab.del d.l2 (a / 64) }
  | 3 =>
    (match s.grid? g with
     | some x =>
       ((s.killGrid g).logErr (some x.part) 0x02 u.1 u.2 x.pasid (Config.detail 0x02) addr).logErr (some x.part) 0x08 u.1 u.2
         x.pasid (Config.detail 0x08) addr
     | none => s)
  | _ => (s.logErr none 0x02 u.1 u.2 0 (Config.detail 0x02) addr).fatalStop 0x02 (u.1 + 256 * u.2) addr

/-- ONDIE_ECC_ERROR. -/
def execEvOndieEccError (core kind g _t addr : Nat) (s : State) : Host.Outcome State Fault Refusal :=
  .next (s.ondieEcc core kind g addr)

/-- ERROR_COUNTER_CLEAR (R443): a unit is 256·DIE + UNIT. -/
def execEvErrorCounterClear (unit cls : Nat) (s : State) : Host.Outcome State Fault Refusal :=
  .next { s with mg := { s.mg with counters := Tab.del s.mg.counters (unit * 16 + cls) } }

/-! ### The mailboxes (R444) -/

/-- Is there room for a message? A mailbox holds 16 in each direction. -/
def State.mailRoom (s : State) (k : Nat) : Bool := decide ((Tab.getD s.mg.mail [] k).length < 16)

/-- Put a message into a mailbox; it waits while the mailbox is full. -/
def State.post (s : State) (k : Nat) (m : MailMsg) : State :=
  let l := Tab.getD s.mg.mail [] k
  if s.mailRoom k then
    { s with mg := { s.mg with
        mail := Tab.set s.mg.mail k (l ++ [m])
        mailAt := if l = [] then Tab.set s.mg.mailAt k s.now else s.mg.mailAt } }
  else s

/-- REPAIR (R444): applied only while its channel is quiesced. -/
def execEvRepair (stack chan row spare left : Nat) (s : State) : Host.Outcome State Fault Refusal :=
  let c := s.chan (chanKey stack chan)
  .next (if (c.quiesced || c.stopped) && s.mailRoom (mailKey stack 0) then
      ({ s with mg := { s.mg with spares := s.mg.spares ++ [(stack, chan, row, spare)] } } : State).post (mailKey stack 0)
        (.repair stack chan row spare left)
    else s)

/-- RETRAIN (R444): the result of a channel that is being retrained goes to the controller; otherwise the controller asks
for it, and the channel is quiesced. -/
def execEvRetrain (stack chan : Nat) (ok : Bool) (s : State) : Host.Outcome State Fault Refusal :=
  let k := chanKey stack chan
  let c := s.chan k
  let dir := if c.quiesced || c.stopped then 0 else 1
  .next (if 8 ≤ stack ∨ 32 ≤ chan ∨ !s.mailRoom (mailKey stack dir) then s
    else (s.updChan k fun c => { c with quiesced := c.quiesced || !c.stopped }).post (mailKey stack dir) (.retrain stack chan ok))

/-- SCRUBSTAT (R444). -/
def execEvScrubstat (stack : Nat) (s : State) : Host.Outcome State Fault Refusal :=
  let c := s.scrub stack
  .next (if stack < 8 then s.post (mailKey stack 0) (.scrubstat stack (c.covered / 1024) c.corrected c.forced) else s)

/-- TELEM (R444). -/
def execEvTelem (stack temp rate power : Nat) (s : State) : Host.Outcome State Fault Refusal :=
  .next (if stack < 8 then s.post (mailKey stack 0) (.telem stack temp rate power) else s)

/-- RESET (R444): the controller tells a base die to quiesce a channel and retrain it. -/
def execEvReset (stack chan : Nat) (s : State) : Host.Outcome State Fault Refusal :=
  let k := mailKey stack 1
  .next (if 8 ≤ stack ∨ 32 ≤ chan ∨ !s.mailRoom k then s
    else (s.updChan (chanKey stack chan) fun c => { c with quiesced := true }).post k (.reset stack chan))

/-! ### Firmware and attestation (R445, R447) -/

/-- A class 0x09 entry of the device log (R447). -/
def State.logFirm (s : State) (why : Nat) : State := s.logErr none 0x09 0 0xFF 0 (Config.detail why) 0

/-- Check a component's image (R445): it starts with its digest recorded, or the failure is counted and the recovery window
stays open. -/
def State.checkImage (s : State) (comp : Nat) (image : List Byte) : State :=
  let f := Tab.getD s.mg.firm .fresh comp
  let s := s.logFirm comp
  if Config.signatureHolds image then
    let d := Config.sha384 image
    { s with mg := { s.mg with
      firm := Tab.set s.mg.firm comp { f with running := true, digest := d, recovery := false }
      measured := s.mg.measured ++ [d] } }
  else
    { s with mg := { s.mg with
      firm := Tab.set s.mg.firm comp { f with running := false, failures := f.failures + 1, recovery := true } } }

/-- FIRMWARE_RECOVERY_DOORBELL (R445): the host has written an image into the open window of a component. -/
def execEvFirmwareRecoveryDoorbell (comp : Nat) (image : List Byte) (s : State) : Host.Outcome State Fault Refusal :=
  .next (if comp < 5 ∧ (Tab.getD s.mg.firm .fresh comp).recovery then s.checkImage comp image else s)

/-- The bytes of the measurements. -/
def State.measurements (s : State) : List Byte := s.mg.measured.flatMap fun d => toLE 48 d.toNat

/-- SPDM_REQUEST (R447): the answer with its signature; a failed request is logged. -/
def execEvSpdmRequest (n : Nat) (s : State) : Host.Outcome State Fault Refusal :=
  let r := Config.spdmAnswer n s.measurements
  let s' := s.send (.spdm (r ++ Config.signResponse r))
  .next (if Config.spdmFails n then s'.logFirm n else s')

/-! ### Partitions (R448) -/

/-- A partition that has just been made, function number and number alike (R421). -/
def Part.made (fn : Nat) : Part :=
  { quads := [], frame0 := 0, frames := 0, locals := 0, svc := [], fring := 0, cring := 0, ftail := 0, ctail := 0, chead := 0
    ring := [], late := [], waiting := [], cmds := [], fids := [], fidNext := 1, errs := []
    errDrop := 0, sys := [], trace := [], traceOn := false, killRecs := [], fn := fn, keep := none }

/-- May a partition have these quads and frames: no other has one of them (R448)? -/
def State.boundsOk (s : State) (p : Nat) (quads : List Nat) (frame0 frames locals : Nat) : Bool :=
  decide (p < 16) && quads.all (fun q => decide (q < 48)) && decide (frame0 + frames ≤ frameCount) && decide (locals ≤ frames)
  && s.parts.all fun o => o.1 == p
      || (o.2.quads.all (fun q => !quads.contains q)
          && (decide (o.2.frame0 + o.2.frames ≤ frame0) || decide (frame0 + frames ≤ o.2.frame0)))

/-- Does a team run on one of these quads? -/
def State.runsOn (s : State) (quads : List Nat) : Bool :=
  s.teams.any fun t => t.resident && t.cores.any fun c => quads.contains (c / 4)

/-- The frames of a partition that hold pages and leave its quota. -/
def State.leaving (s : State) (p lo hi : Nat) : List (Nat × FrameE) :=
  List.filter (fun e => e.2.part == p && !e.2.loc && e.2.st != FrameSt.free && !(decide (lo ≤ e.1) && decide (e.1 < hi))) s.frames

/-- Evict a frame that leaves a quota (R383, R448): its dirty sectors go to the pool first. -/
def State.evict (s : State) (f : Nat) (e : FrameE) : State :=
  if e.st ≠ .valid ∨ e.pins ≠ 0 ∨ s.pageInUse e.part e.page ∨ !s.frameQuiet f then s
  else if e.dirty.isEmpty then s.freeFrame f
  else s.setFrameSt f .writeback

/-- Remove a partition whose function has been torn down (R423, R448). -/
def State.removePart (s : State) (p : Nat) : State :=
  match s.part p with
  | none => s
  | some q =>
    let t := Tab.getD s.fab.quenched 0 q.fn
    let gone := List.filter (fun e => e.2.part == p) s.frames
    if t = 0 ∨ s.now + 1 < t + 2 * s.fab.rtt ∨ s.teams.any (fun x => x.part == p) then s
    else if !(s.leaving p 0 0).isEmpty then (s.leaving p 0 0).foldl (fun s e => s.evict e.1 e.2) s
    else
      let s := gone.foldl (fun s e => s.freeFrame e.1) s
      { s with
        parts := Tab.del s.parts p
        leases := List.filter (fun l => l.2.part != p) s.leases
        fab := { s.fab with quenched := Tab.del s.fab.quenched q.fn }
        cp := { s.cp with
          ctxs := List.filter (fun c => c.2.part != p) s.cp.ctxs
          queues := List.filter (fun x => s.partOf x.2.pasid != p || (s.ctx x.2.pasid).isNone) s.cp.queues
          handles := List.filter (fun x => s.partOf x.2.pasid != p || (s.ctx x.2.pasid).isNone) s.cp.handles } }

/-- PARTITION_CHANGE (R448): a change that takes quads or frames waits until no team runs on those quads and the leaving
frames are evicted; page-ins meanwhile take only frames that remain. No quads: the partition is removed. -/
def State.partitionChange (s : State) (p : Nat) (quads : List Nat) (frame0 frames locals : Nat) : State :=
  if quads.isEmpty then s.removePart p
  else if !s.boundsOk p quads frame0 frames locals then s
  else
    let lo := frame0 + locals
    let hi := frame0 + frames
    match s.part p with
    | none =>
      { s with parts := Tab.set s.parts p { Part.made p with quads := quads, frame0 := frame0, frames := frames, locals := locals } }
    | some q =>
      let out := s.leaving p lo hi
      if s.runsOn (q.quads.filter fun x => !quads.contains x) || !out.isEmpty then
        out.foldl (fun s e => s.evict e.1 e.2) (s.updPart p fun q => { q with keep := some (lo, hi) })
      else
        s.updPart p fun q =>
          { q with quads := quads, frame0 := frame0, frames := frames, locals := locals, keep := none }

/-- PARTITION_CHANGE: of `quads` quads from quad0 up. -/
def execEvPartitionChange (part quads quad0 frame0 frames locals : Nat) (s : State) : Host.Outcome State Fault Refusal :=
  .next (s.partitionChange part (span quad0 quads) frame0 frames locals)

/-! ### Power (R449, R450) -/

/-- An island's record. -/
def State.island (s : State) (k : Nat) : Island := Tab.getD s.mg.islands .fresh k

/-- Change an island's record. -/
def State.updIsland (s : State) (k : Nat) (f : Island → Island) : State :=
  { s with mg := { s.mg with islands := Tab.put s.mg.islands .fresh k (f (s.island k)) } }

/-- A frequency within 0.6 to 2.1 GHz (R449). -/
def inRange (mhz : Nat) : Nat := max 600 (min 2100 mhz)

/-- A frequency lowered by a free number of steps, one at least, and not below 600 MHz: the spec does not say by how much
(R449). -/
def lowered (seed mhz : Nat) : Nat := max 600 (inRange mhz - 25 * (Config.detail seed + 1))

/-- May a party write an island's REQ (R450)? 0 is the root monitor core, p + 1 the service core of partition p. -/
def State.mayTune (s : State) (who island : Nat) : Bool :=
  decide (island < 128) && (who == 0 || (decide (island < 96) &&
    match s.part (who - 1) with | some q => q.quads.contains (island / 2) | none => false))

/-- FREQUENCY_REQUEST (R449, R450): REQ is rounded down to a step, and granted unless the island is throttled. -/
def execEvFrequencyRequest (who island mhz : Nat) (s : State) : Host.Outcome State Fault Refusal :=
  .next (if s.mayTune who island then
      s.updIsland island fun i =>
        let r := mhz % 65536 / 25 * 25
        { i with req := r, grant := if i.cap = 0 then inRange r else min i.grant (inRange r) }
    else s)

/-- THERMAL_THROTTLE (R446, R449): from 105 °C an island's frequency is lowered, below 100 °C restored; 115 °C is fatal. -/
def State.thermal (s : State) (island temp : Nat) : State :=
  let i := s.island island
  if 128 ≤ island then s
  else if 115 ≤ temp then s.fatalStop 0x12 (256 * 0xFF) 0
  else if 105 ≤ temp then
    if i.hot then s
    else
      ({ s with free := s.free + 1 } : State).updIsland island fun i =>
        { i with hot := true, cap := 2, grant := lowered s.free (if i.grant = 0 then i.req else i.grant) }
  else if temp < 100 ∧ i.hot then s.updIsland island fun i => { i with hot := false, cap := 0, grant := inRange i.req }
  else s

/-- THERMAL_THROTTLE. -/
def execEvThermalThrottle (island temp : Nat) (s : State) : Host.Outcome State Fault Refusal := .next (s.thermal island temp)

/-- PACKAGE_POWER_LIMIT (R449): the package's average power, in W, reaches the limit, or lies below it again. -/
def State.packagePower (s : State) (power : Nat) : State :=
  if 2000 ≤ power then
    (span 0 128).foldl (fun s k =>
      if (s.island k).cap = 0 then
        ({ s with free := s.free + 1 } : State).updIsland k fun i =>
          { i with cap := 1, grant := lowered s.free (if i.grant = 0 then i.req else i.grant) }
      else s) s
  else
    (span 0 128).foldl (fun s k =>
      if (s.island k).cap = 1 then s.updIsland k fun i => { i with cap := 0, grant := inRange i.req } else s) s

/-- PACKAGE_POWER_LIMIT. -/
def execEvPackagePowerLimit (power : Nat) (s : State) : Host.Outcome State Fault Refusal := .next (s.packagePower power)

/-- TELEMETRY_UPDATE (R450): POWER in units of 0.1 W and TEMP in °C. -/
def execEvTelemetryUpdate (island power temp : Nat) (s : State) : Host.Outcome State Fault Refusal :=
  .next (if island < 128 then
      s.updIsland island fun i =>
        { i with power := min 65535 power, temp := min 255 temp, grant := if i.cap = 0 then inRange i.req else i.grant }
    else s)

/-- The record's 64 bits (R450). -/
def Island.bits (i : Island) : Nat :=
  i.req + 2 ^ 16 * i.grant + 2 ^ 32 * i.cap + 2 ^ 40 * i.temp + 2 ^ 48 * i.power

/-! ### Reset and the registers without a row of their own -/

/-- DEVICE_RESET (R3, R317, R343): the machine right after reset; the pool and the host's memory, which are no part of the
device, and what the model keeps of its own stay. -/
def State.deviceReset (s : State) : State :=
  { State.reset with
    pool := s.pool, host := s.host, agenda := s.agenda, free := s.free
    fab := { State.reset.fab with hostMap := s.fab.hostMap } }

/-- DEVICE_RESET. -/
def execEvDeviceReset (s : State) : Host.Outcome State Fault Refusal := .next s.deviceReset

/-- Change a context of the service core's own partition (R338). -/
def State.setCtx (s : State) (p pasid : Nat) (f : Ctx → Ctx) : State :=
  match s.ctx pasid with
  | some c => if c.part = p then { s with cp := { s.cp with ctxs := Tab.set s.cp.ctxs pasid (f c) } } else s
  | none => s

/-- Grant a buffer handle to a context (R338, R424): the generation is current. -/
def State.grantHandle (s : State) (p h pasid : Nat) : State :=
  match s.ctx pasid with
  | some c =>
    if c.part = p ∧ h < 4096 then
      let x := Tab.getD s.cp.handles ⟨pasid, true, [], [], .zero⟩ h
      { s with cp := { s.cp with handles := Tab.set s.cp.handles h { x with pasid := pasid, current := true } } }
    else s
  | none => s

/-- Set DEP and RATE of a context's bucket at every port (R299). -/
def State.setWeir (s : State) (pasid val : Nat) : State :=
  let dep := max 1 (fld val 15 0)
  let rate := min 64 (fld val 22 16)
  { s with weirs := (span 0 320).foldl (fun m k =>
      let w := Tab.getD m .fresh (k * 2 ^ 20 + pasid)
      Tab.put m .fresh (k * 2 ^ 20 + pasid) { w with dep := dep, rate := rate }) s.weirs }

/-- A register of the service core of partition p, or a store to its memory (14), where the two rings of R398 stand: register
7 takes entries of the fault ring, and 15 advances the tail of the command ring. -/
def State.serviceWrite (s : State) (p reg idx val : Nat) : State :=
  match reg with
  | 0 => s.setCtx p idx fun c => { c with ttb := val }
  | 1 => s.setCtx p idx fun c => { c with ptroot := val }
  | 2 => s.setCtx p idx fun c => { c with image := val }
  | 3 => s.setCtx p idx fun c => { c with mcrep := val }
  | 4 => s.grantHandle p idx val
  | 5 =>
    (match s.part p with
     | some q => { s with fab := { s.fab with bar2 := Tab.set s.fab.bar2 q.fn val } }
     | none => s)
  | 6 => if s.partOf idx = p then s.setWeir idx val else s
  | 7 => s.updPart p (·.consume val)
  | 8 => s.updPart p fun q => { q with errs := q.errs.drop val }
  | 9 => s.updPart p fun q => { q with traceOn := bitN val 0 }
  | 10 => s.updPart p fun q => { q with trace := q.trace.drop val }
  | 11 => s.updPart p fun q => { q with killRecs := q.killRecs.drop val }
  | 12 => { s with mg := { s.mg with measured := s.mg.measured ++ [Config.sha384 (toLE idx val)] } }
  | 13 => s.setCtx p idx fun c => { c with hintDrops := 0 }
  | 14 => s.updPart p fun q => { q with svc := Mem.writeList q.svc idx (toLE 8 val) }
  | 15 => s.updPart p fun q => { q with ctail := q.ctail + min val (ringDepth - (q.ctail - q.chead)) }
  | _ => s

/-- A store of the host to its own memory (R410, R432). It keeps the stamps of the bytes that it replaces, so that what reads it
with an acquire is ordered behind what the host has read. -/
def State.hostStore (s : State) (a : Nat) (bs : List Byte) : State :=
  let v := (span a bs.length).foldl (fun v x => v.join (Tab.getD s.hmarks .zero x).st) VClk.zero
  { s with host := Mem.writeList s.host a bs, hmarks := hostMarks s.hmarks v a bs.length }

/-- A register of the root monitor core (0 and 1; 7 and 8, the addresses of a partition's rings of R398), of the package system
controller (2 to 4), of the fabric manager (5 and 6), an entry of the host's own translation (9, R408), or a store from outside
the device to host memory (10) or to the pool (11), of idx / 2^64 bytes. -/
def State.rootWrite (s : State) (reg idx val : Nat) : State :=
  match reg with
  | 0 => { s with mg := { s.mg with log := s.mg.log.drop val } }
  | 1 => { s with mg := { s.mg with dumpAt := val } }
  | 2 => { s with mg := { s.mg with passHours := max 1 (min 168 val) } }
  | 3 => if idx % 8 < 5 then s.checkImage (idx % 8) (toLE (idx / 8) val) else s
  | 4 => { s with mg := { s.mg with mail := Tab.adjust s.mg.mail idx fun l => l.drop val, mailAt := Tab.set s.mg.mailAt idx s.now } }
  | 5 => { s with fab := { s.fab with rtt := val } }
  | 6 => { s with fab := { s.fab with self := val % 4096 } }
  | 7 => s.updPart idx fun q => { q with fring := val }
  | 8 => s.updPart idx fun q => { q with cring := val }
  | 9 => { s with fab := { s.fab with hostMap := Tab.set s.fab.hostMap idx val } }
  | 10 => s.hostStore (idx % 2 ^ 64) (toLE (idx / 2 ^ 64) val)
  | 11 => { s with pool := Mem.writeList s.pool (idx % 2 ^ 64) (toLE (idx / 2 ^ 64) val) }
  | _ => s

/-- REGISTER_WRITE (R5): `who` is 0 for the root monitor core, the package system controller and the fabric manager, and
p + 1 for the service core of partition p. The numbers of the registers are the model's (assumption log 32). -/
def execEvRegisterWrite (who reg idx val : Nat) (s : State) : Host.Outcome State Fault Refusal :=
  .next (match who with
    | 0 => s.rootWrite reg idx val
    | p + 1 => s.serviceWrite p reg idx val)

end Sys2Proof.Machine
end

