-- ==== Sys2Proof/Machine/Sfu.lean ====
section
/-! DEFINITION. The queued instructions: special functions (R162), division (R163), conversions (R158 to R160) and quantisation (R164 to R167). -/

namespace Sys2Proof.Machine

/-- A queued meaning that looks at no team or core. -/
def plainSfu (f : LaneSem) : Team → Core → LaneSem := fun _ _ => f

/-- A special function's FP32 result: rounded once under the mode, then clamped (R162). -/
def LIn.sf (x : LIn) (r : FVal × Bool) : LOut :=
  LOut.word (formF .f32 x.m.rnd.toNat x.m.satc.toNat 0 r.1 r.2)

/-- A magnitude as a result. -/
def Mag.val (g : Mag) : FVal × Bool := (.fin g.neg g.m g.e, g.sticky)

/-- RCP (R162). -/
def rcpSem : LaneSem := fun x =>
  x.sf <| match x.fa .f32 with
    | .nan => (.nan, false)
    | .inf n => (.fin n 0 0, false)
    | .fin n m e => if m = 0 then (.inf n, false) else (divMag n 1 0 m e).val

/-- The meaning of RCP. -/
def execRcp (pf : Pfx) (d a : BitVec 8) (s : State) : Host.Outcome State Fault Refusal :=
  runSfuOf (.rcp pf d a) (plainSfu rcpSem) s

/-- RSQ (R162). -/
def rsqSem : LaneSem := fun x =>
  x.sf <| match x.fa .f32 with
    | .nan => (.nan, false)
    | .inf n => if n then (.nan, false) else (.fin false 0 0, false)
    | .fin n m e => if m = 0 then (.inf n, false) else if n then (.nan, false) else (rsqMag m e).val

/-- The meaning of RSQ. -/
def execRsq (pf : Pfx) (d a : BitVec 8) (s : State) : Host.Outcome State Fault Refusal :=
  runSfuOf (.rsq pf d a) (plainSfu rsqSem) s

/-- SQRT (R162). -/
def sqrtSem : LaneSem := fun x =>
  x.sf <| match x.fa .f32 with
    | .nan => (.nan, false)
    | .inf n => if n then (.nan, false) else (.inf false, false)
    | .fin n m e => if m = 0 then (.fin n 0 0, false) else if n then (.nan, false) else (sqrtMag m e).val

/-- The meaning of SQRT. -/
def execSqrt (pf : Pfx) (d a : BitVec 8) (s : State) : Host.Outcome State Fault Refusal :=
  runSfuOf (.sqrt pf d a) (plainSfu sqrtSem) s

/-- EXP2 (R162). -/
def exp2Sem : LaneSem := fun x =>
  x.sf <| match x.fa .f32 with
    | .nan => (.nan, false)
    | .inf n => if n then (.fin false 0 0, false) else (.inf false, false)
    | .fin n m e => if m = 0 then (.fin false 1 0, false) else (exp2Mag n m e).val

/-- The meaning of EXP2. -/
def execExp2 (pf : Pfx) (d a : BitVec 8) (s : State) : Host.Outcome State Fault Refusal :=
  runSfuOf (.exp2 pf d a) (plainSfu exp2Sem) s

/-- LOG2 (R162). -/
def log2Sem : LaneSem := fun x =>
  x.sf <| match x.fa .f32 with
    | .nan => (.nan, false)
    | .inf n => if n then (.nan, false) else (.inf false, false)
    | .fin n m e => if m = 0 then (.inf true, false) else if n then (.nan, false) else (log2Mag m e).val

/-- The meaning of LOG2. -/
def execLog2 (pf : Pfx) (d a : BitVec 8) (s : State) : Host.Outcome State Fault Refusal :=
  runSfuOf (.log2 pf d a) (plainSfu log2Sem) s

/-- SIN (R162). -/
def sinSem : LaneSem := fun x =>
  x.sf <| match x.fa .f32 with
    | .nan | .inf _ => (.nan, false)
    | .fin n m e => if m = 0 then (.fin n 0 0, false) else (sinMag n m e).val

/-- The meaning of SIN. -/
def execSin (pf : Pfx) (d a : BitVec 8) (s : State) : Host.Outcome State Fault Refusal :=
  runSfuOf (.sin pf d a) (plainSfu sinSem) s

/-- COS (R162). -/
def cosSem : LaneSem := fun x =>
  x.sf <| match x.fa .f32 with
    | .nan | .inf _ => (.nan, false)
    | .fin _ m e => (cosMag m e).val

/-- The meaning of COS. -/
def execCos (pf : Pfx) (d a : BitVec 8) (s : State) : Host.Outcome State Fault Refusal :=
  runSfuOf (.cos pf d a) (plainSfu cosSem) s

/-- TANH (R162). -/
def tanhSem : LaneSem := fun x =>
  x.sf <| match x.fa .f32 with
    | .nan => (.nan, false)
    | .inf n => (.fin n 1 0, false)
    | .fin n m e => if m = 0 then (.fin n 0 0, false) else (tanhMag n m e).val

/-- The meaning of TANH. -/
def execTanh (pf : Pfx) (d a : BitVec 8) (s : State) : Host.Outcome State Fault Refusal :=
  runSfuOf (.tanh pf d a) (plainSfu tanhSem) s

/-- FDIV (R162). -/
def fdivSem : LaneSem := fun x =>
  x.sf <| match x.fa .f32, x.fb .f32 with
    | .nan, _ | _, .nan | .inf _, .inf _ => (.nan, false)
    | .inf n, .fin k _ _ => (.inf (n != k), false)
    | .fin n _ _, .inf k => (.fin (n != k) 0 0, false)
    | .fin n m e, .fin k p f =>
      if p = 0 then (if m = 0 then (.nan, false) else (.inf (n != k), false))
      else if m = 0 then (.fin (n != k) 0 0, false)
      else (divMag (n != k) m e p f).val

/-- The meaning of FDIV. -/
def execFdiv (pf : Pfx) (d a b : BitVec 8) (s : State) : Host.Outcome State Fault Refusal :=
  runSfuOf (.fdiv pf d a b) (plainSfu fdivSem) s

/-- A division: a divisor of 0 raises Integer Divide (R163). -/
def divOr (b v : Nat) : LOut := if b = 0 then { LOut.nil with fault := some 0x11 } else LOut.word v

/-- IDIV truncates toward zero; −2^31 / −1 wraps or saturates (R163). -/
def idivSem : LaneSem := fun x => divOr x.b (formI 32 x.m.satc.toNat ((sx 32 x.a).tdiv (sx 32 x.b)))

/-- The meaning of IDIV. -/
def execIdiv (pf : Pfx) (d a b : BitVec 8) (s : State) : Host.Outcome State Fault Refusal :=
  runSfuOf (.idiv pf d a b) (plainSfu idivSem) s

/-- IDIV.nu (R163). -/
def idivNuSem : LaneSem := fun x => divOr x.b (x.a / x.b)

/-- The meaning of IDIV.nu. -/
def execIdivNu (pf : Pfx) (d a b : BitVec 8) (s : State) : Host.Outcome State Fault Refusal :=
  runSfuOf (.idivNu pf d a b) (plainSfu idivNuSem) s

/-- IREM: the remainder takes the sign of the dividend (R163). -/
def iremSem : LaneSem := fun x => divOr x.b (wrapI 32 ((sx 32 x.a).tmod (sx 32 x.b)))

/-- The meaning of IREM. -/
def execIrem (pf : Pfx) (d a b : BitVec 8) (s : State) : Host.Outcome State Fault Refusal :=
  runSfuOf (.irem pf d a b) (plainSfu iremSem) s

/-- IREM.nu (R163). -/
def iremNuSem : LaneSem := fun x => divOr x.b (x.a % x.b)

/-- The meaning of IREM.nu. -/
def execIremNu (pf : Pfx) (d a b : BitVec 8) (s : State) : Host.Outcome State Fault Refusal :=
  runSfuOf (.iremNu pf d a b) (plainSfu iremNuSem) s

/-- Width and signedness of an integer format (R148). -/
def intFmt (c : Nat) : Nat × Bool :=
  match c with
  | 0 => (32, true) | 1 => (32, false) | 2 => (64, true) | 3 => (64, false)
  | 4 => (16, true) | 5 => (16, false) | 6 => (8, true) | _ => (8, false)

/-- An integer saturated to a format and placed in its registers (R83, R148). -/
def placeInt (c : Nat) (z : Int) : Nat :=
  let (w, sg) := intFmt c
  let lo : Int := if sg then -(2 ^ (w - 1) : Nat) else 0
  let hi : Int := (2 ^ (if sg then w - 1 else w) : Nat) - 1
  wrapI (max w 32) (max lo (min z hi))

/-- The least and greatest number of an integer format's range, far enough out to saturate. -/
def bigInt (neg : Bool) : Int := if neg then -(2 ^ 70 : Nat) else (2 ^ 70 : Nat)

/-- The generator after an element (R78). -/
def LIn.rs (x : LIn) : Word := if x.m.rnd = 6#3 then rsStep x.t.rs else x.t.rs

/-- F2F (R158). -/
def f2fSem (dst src : BitVec 4) : LaneSem := fun x =>
  let r := convF (fmtOf dst.toNat) x.m.rnd.toNat x.m.satc.toNat (Mod.sclZ x.m) (x.fa (fmtOf src.toNat)) x.t.rs
  { LOut.words (fmtOf dst.toNat).nregs r.1 with rs := some r.2.1 }

/-- The meaning of F2F. -/
def execF2f (pf : Pfx) (d a : BitVec 8) (y x : BitVec 4) (s : State) : Host.Outcome State Fault Refusal :=
  runSfuOf (.f2f pf d a y x) (plainSfu (f2fSem y x)) s

/-- F2I: toward zero by default; always saturates (R83, R159). -/
def f2iSem (dst src : BitVec 4) : LaneSem := fun x =>
  let mode := modeOr x.m.rnd.toNat 2
  let z := match (x.fa (fmtOf src.toNat)).scale (Mod.sclZ x.m) with
    | .nan => 0
    | .inf n => bigInt n
    | .fin n m e => roundInt mode n m e (x.rs.toNat / 256)
  { LOut.words ((intFmt dst.toNat).1 / 64 + 1) (placeInt dst.toNat z) with rs := some x.rs }

/-- The meaning of F2I. -/
def execF2i (pf : Pfx) (d a : BitVec 8) (y x : BitVec 4) (s : State) : Host.Outcome State Fault Refusal :=
  runSfuOf (.f2i pf d a y x) (plainSfu (f2iSem y x)) s

/-- I2F (R83, R160). -/
def i2fSem (dst src : BitVec 4) : LaneSem := fun x =>
  let (w, sg) := intFmt src.toNat
  let z : Int := if sg then sx w x.a else (x.a % 2 ^ w : Nat)
  let f := fmtOf dst.toNat
  LOut.words f.nregs (x.form f (.fin (decide (z < 0)) z.natAbs 0))

/-- The meaning of I2F. -/
def execI2f (pf : Pfx) (d a : BitVec 8) (y x : BitVec 4) (s : State) : Host.Outcome State Fault Refusal :=
  runSfuOf (.i2f pf d a y x) (plainSfu (i2fSem y x)) s

/-- The largest finite value of a narrow format, as m·2^e (R164). -/
def maxFin (c : Nat) : Nat × Int :=
  match c with | 4 => (7, 6) | 5 => (7, 13) | 6 => (3, 1) | _ => (63, -4)

/-- Is m·2^e at most n·2^k? -/
def leMag (m : Nat) (e : Int) (n : Nat) (k : Int) : Bool :=
  decide (m * 2 ^ (e - min e k).toNat ≤ n * 2 ^ (k - min e k).toNat)

/-- The least of n+1 exponents from E up with m·2^e ≤ M·2^E. -/
def ceilExp (m : Nat) (e : Int) (mx : Nat × Int) (ex : Int) : Nat → Int
  | 0 => ex
  | n + 1 => if leMag m e mx.1 (mx.2 + ex) then ex else ceilExp m e mx (ex + 1) n

/-- A scale byte (R74, R164, R165): `low` lowers the exponent of a finite magnitude by one. -/
def scaleByte (c : Nat) (v : FVal) (low : Bool) : Nat :=
  match v with
  | .nan => 0xFF
  | .inf _ => 0xFE
  | .fin _ m e =>
    if m = 0 then 0
    else
      let mx := maxFin c
      let ex := ceilExp m e mx (e + Nat.log2 m - mx.2 - Nat.log2 mx.1 - 1) 3
      (max (-127) (min (ex - ofB low) 127) + 127).toNat

/-- QSCALE (R164). -/
def qscaleSem : LaneSem := fun x => LOut.word (scaleByte x.b (x.fa .f32) false)

/-- The meaning of QSCALE. -/
def execQscale (pf : Pfx) (d a b : BitVec 8) (s : State) : Host.Outcome State Fault Refusal :=
  runSfuOf (.qscale pf d a b) (plainSfu qscaleSem) s

/-- QSCALE.adapt: B is the threshold, D the count word (R165). -/
def qscaleAdaptSem : LaneSem := fun x => LOut.word (scaleByte 7 (x.fa .f32) (decide (x.b < x.d % 65536)))

/-- The meaning of QSCALE.adapt. -/
def execQscaleAdapt (pf : Pfx) (d a b : BitVec 8) (s : State) : Host.Outcome State Fault Refusal :=
  runSfuOf (.qscaleAdapt pf d a b) (plainSfu qscaleAdaptSem) s

/-- Four elements encoded in order under one scale (R166): the codes, the generator, underflows and clips. -/
def packElems (c rnd satc sc : Nat) (a : Nat) (rs : Word) : Nat → Nat × Word × Nat × Nat
  | 0 => (0, rs, 0, 0)
  | n + 1 =>
    let (k, rs, u, cl) := packElems c rnd satc sc a rs n
    let v := decodeF .f32 (a / 2 ^ (32 * n) % 2 ^ 32)
    let v := if sc = 0xFF then .nan else v.scale (127 - (sc : Int))
    let r := convF (fmtOf c) rnd satc 0 v rs
    (k + r.1 * (2 ^ ((fmtOf c).body + 1)) ^ n, r.2.1, u + ofB (r.2.2 == .underflow), cl + ofB (r.2.2 == .clip))

/-- QPACK: D takes the codes and D+1 the counts; REC adds them to a record of the team (R166). -/
def qpackSem : Team → Core → LaneSem := fun tm c x =>
  let f := fld x.b 11 8
  let n := fld x.b 15 12
  let rec? := bitN x.b 16
  let own := match Tab.find? c.recs n with | some r => r.grid == tm.grid && r.team == tm.team | none => false
  if f < 4 ∨ 7 < f then { LOut.nil with fault := some 0x01 }
  else if rec? && !own then { LOut.nil with fault := some 0x13 }
  else
    let (k, rs, u, cl) := packElems f x.m.rnd.toNat x.m.satc.toNat (x.b % 256) x.a x.t.rs 4
    let cnt := min (x.d % 65536 + u) 0xFFFF + 65536 * min (x.d / 65536 + cl) 0xFFFF
    { LOut.words 2 (k + 2 ^ 32 * cnt) with rs := some rs, recAdd := if rec? then some (n, u, cl) else none }

/-- The meaning of QPACK. -/
def execQpack (pf : Pfx) (d a b : BitVec 8) (s : State) : Host.Outcome State Fault Refusal :=
  runSfuOf (.qpack pf d a b) qpackSem s

/-- QUNPK (R167). -/
def qunpkSem (el : BitVec 3) (c : BitVec 4) : LaneSem := fun x =>
  let f := fmtOf c.toNat
  let w := f.body + 1
  let sc : Nat := x.a / 2 ^ 32 % 256
  let v := if sc = 0xFF then FVal.nan else (decodeF f (x.a % 2 ^ 32 / 2 ^ (w * el.toNat))).scale (sc - 127 : Int)
  LOut.word (formF .f32 x.m.rnd.toNat x.m.satc.toNat 0 v false)

/-- The meaning of QUNPK. -/
def execQunpk (pf : Pfx) (d a : BitVec 8) (e : BitVec 3) (f : BitVec 4) (s : State) : Host.Outcome State Fault Refusal :=
  runSfuOf (.qunpk pf d a e f) (plainSfu (qunpkSem e f)) s

end Sys2Proof.Machine
end

