-- ==== Sys2Proof/Machine/Dispatch.lean ====
section
/-! DEFINITION. The dispatch: each instruction and step to its meaning. -/

namespace Sys2Proof.Machine

/-- The effect of one instruction or device step. -/
def exec (i : Instr) (s : State) : Host.Outcome State Fault Refusal :=
  match i with
  | .iadd pf d a b => Sys2Proof.Machine.execIadd pf d a b s
  | .isub pf d a b => Sys2Proof.Machine.execIsub pf d a b s
  | .imul pf d a b => Sys2Proof.Machine.execImul pf d a b s
  | .imulh pf d a b => Sys2Proof.Machine.execImulh pf d a b s
  | .imulhHu pf d a b => Sys2Proof.Machine.execImulhHu pf d a b s
  | .imad pf d a b => Sys2Proof.Machine.execImad pf d a b s
  | .add64 pf d a b => Sys2Proof.Machine.execAdd64 pf d a b s
  | .sub64 pf d a b => Sys2Proof.Machine.execSub64 pf d a b s
  | .mul64 pf d a b => Sys2Proof.Machine.execMul64 pf d a b s
  | .addc pf d a b => Sys2Proof.Machine.execAddc pf d a b s
  | .subb pf d a b => Sys2Proof.Machine.execSubb pf d a b s
  | .imin pf d a b => Sys2Proof.Machine.execImin pf d a b s
  | .iminNu pf d a b => Sys2Proof.Machine.execIminNu pf d a b s
  | .imax pf d a b => Sys2Proof.Machine.execImax pf d a b s
  | .imaxNu pf d a b => Sys2Proof.Machine.execImaxNu pf d a b s
  | .lea pf d a b => Sys2Proof.Machine.execLea pf d a b s
  | .and pf d a b => Sys2Proof.Machine.execAnd pf d a b s
  | .or pf d a b => Sys2Proof.Machine.execOr pf d a b s
  | .xor pf d a b => Sys2Proof.Machine.execXor pf d a b s
  | .andn pf d a b => Sys2Proof.Machine.execAndn pf d a b s
  | .shl pf d a b => Sys2Proof.Machine.execShl pf d a b s
  | .shr pf d a b => Sys2Proof.Machine.execShr pf d a b s
  | .sar pf d a b => Sys2Proof.Machine.execSar pf d a b s
  | .rot pf d a b => Sys2Proof.Machine.execRot pf d a b s
  | .funnel pf d a b => Sys2Proof.Machine.execFunnel pf d a b s
  | .bfe pf d a b => Sys2Proof.Machine.execBfe pf d a b s
  | .bfi pf d a b => Sys2Proof.Machine.execBfi pf d a b s
  | .popc pf d a => Sys2Proof.Machine.execPopc pf d a s
  | .clz pf d a => Sys2Proof.Machine.execClz pf d a s
  | .ctz pf d a => Sys2Proof.Machine.execCtz pf d a s
  | .brev pf d a => Sys2Proof.Machine.execBrev pf d a s
  | .mov pf d a => Sys2Proof.Machine.execMov pf d a s
  | .sel pf d a b => Sys2Proof.Machine.execSel pf d a b s
  | .isetp pf c p a b => Sys2Proof.Machine.execIsetp pf c p a b s
  | .isetp64 pf c p a b => Sys2Proof.Machine.execIsetp64 pf c p a b s
  | .psetp pf c p x y => Sys2Proof.Machine.execPsetp pf c p x y s
  | .movi pf d im => Sys2Proof.Machine.execMovi pf d im s
  | .movhi pf d im => Sys2Proof.Machine.execMovhi pf d im s
  | .idot4 pf d a b => Sys2Proof.Machine.execIdot4 pf d a b s
  | .dmuls pf d a b => Sys2Proof.Machine.execDmuls pf d a b s
  | .hash pf d a b => Sys2Proof.Machine.execHash pf d a b s
  | .hcomb pf d a b => Sys2Proof.Machine.execHcomb pf d a b s
  | .part pf d a b => Sys2Proof.Machine.execPart pf d a b s
  | .bloom pf d a b => Sys2Proof.Machine.execBloom pf d a b s
  | .scmp pf d a b => Sys2Proof.Machine.execScmp pf d a b s
  | .sfind pf d a b => Sys2Proof.Machine.execSfind pf d a b s
  | .slen pf d a => Sys2Proof.Machine.execSlen pf d a s
  | .shash pf d a b => Sys2Proof.Machine.execShash pf d a b s
  | .fadd pf d a b => Sys2Proof.Machine.execFadd pf d a b s
  | .fmul pf d a b => Sys2Proof.Machine.execFmul pf d a b s
  | .ffma pf d a b => Sys2Proof.Machine.execFfma pf d a b s
  | .fmin pf d a b => Sys2Proof.Machine.execFmin pf d a b s
  | .fmax pf d a b => Sys2Proof.Machine.execFmax pf d a b s
  | .fcmp pf c p a b => Sys2Proof.Machine.execFcmp pf c p a b s
  | .fclass pf d a => Sys2Proof.Machine.execFclass pf d a s
  | .frnd pf d a => Sys2Proof.Machine.execFrnd pf d a s
  | .hadd2 pf d a b => Sys2Proof.Machine.execHadd2 pf d a b s
  | .hmul2 pf d a b => Sys2Proof.Machine.execHmul2 pf d a b s
  | .hfma2 pf d a b => Sys2Proof.Machine.execHfma2 pf d a b s
  | .bdot2 pf d a b => Sys2Proof.Machine.execBdot2 pf d a b s
  | .dadd pf d a b => Sys2Proof.Machine.execDadd pf d a b s
  | .dmul pf d a b => Sys2Proof.Machine.execDmul pf d a b s
  | .dfma pf d a b => Sys2Proof.Machine.execDfma pf d a b s
  | .dcmp pf c p a b => Sys2Proof.Machine.execDcmp pf c p a b s
  | .shfl pf d a n f => Sys2Proof.Machine.execShfl pf d a n f s
  | .shflx pf d a n f => Sys2Proof.Machine.execShflx pf d a n f s
  | .perm pf d a n => Sys2Proof.Machine.execPerm pf d a n s
  | .vote pf d a n f => Sys2Proof.Machine.execVote pf d a n f s
  | .matchL pf d a n f => Sys2Proof.Machine.execMatchL pf d a n f s
  | .reduce pf d a n f => Sys2Proof.Machine.execReduce pf d a n f s
  | .reduceF pf d a n f => Sys2Proof.Machine.execReduceF pf d a n f s
  | .scan pf d a n f => Sys2Proof.Machine.execScan pf d a n f s
  | .scanF pf d a n f => Sys2Proof.Machine.execScanF pf d a n f s
  | .popm pf d a n f => Sys2Proof.Machine.execPopm pf d a n f s
  | .hdm16 pf d a n => Sys2Proof.Machine.execHdm16 pf d a n s
  | .hdm32 pf d a n => Sys2Proof.Machine.execHdm32 pf d a n s
  | .hadd2Bf16 pf d a b => Sys2Proof.Machine.execHadd2Bf16 pf d a b s
  | .hmul2Bf16 pf d a b => Sys2Proof.Machine.execHmul2Bf16 pf d a b s
  | .hfma2Bf16 pf d a b => Sys2Proof.Machine.execHfma2Bf16 pf d a b s
  | .ckpack pf d a q n => Sys2Proof.Machine.execCkpack pf d a q n s
  | .ckunpk pf d a q => Sys2Proof.Machine.execCkunpk pf d a q s
  | .ckadd pf d a b => Sys2Proof.Machine.execCkadd pf d a b s
  | .cksub pf d a b => Sys2Proof.Machine.execCksub pf d a b s
  | .ckaxis pf d a q x => Sys2Proof.Machine.execCkaxis pf d a q x s
  | .ckins pf d a q x => Sys2Proof.Machine.execCkins pf d a q x s
  | .ckcmp pf c p a b => Sys2Proof.Machine.execCkcmp pf c p a b s
  | .ckbox pf c p a b => Sys2Proof.Machine.execCkbox pf c p a b s
  | .cknext pf d a b => Sys2Proof.Machine.execCknext pf d a b s
  | .ckprev pf d a b => Sys2Proof.Machine.execCkprev pf d a b s
  | .cksplit pf d => Sys2Proof.Machine.execCksplit pf d s
  | .ckrlist pf d a b => Sys2Proof.Machine.execCkrlist pf d a b s
  | .cklvl pf d a m l => Sys2Proof.Machine.execCklvl pf d a m l s
  | .ckwide pf d a w => Sys2Proof.Machine.execCkwide pf d a w s
  | .uadd pf d a b => Sys2Proof.Machine.execUadd pf d a b s
  | .usub pf d a b => Sys2Proof.Machine.execUsub pf d a b s
  | .umul pf d a b => Sys2Proof.Machine.execUmul pf d a b s
  | .uand pf d a b => Sys2Proof.Machine.execUand pf d a b s
  | .uor pf d a b => Sys2Proof.Machine.execUor pf d a b s
  | .uxor pf d a b => Sys2Proof.Machine.execUxor pf d a b s
  | .ushl pf d a b => Sys2Proof.Machine.execUshl pf d a b s
  | .ushr pf d a b => Sys2Proof.Machine.execUshr pf d a b s
  | .usetp pf c p a b => Sys2Proof.Machine.execUsetp pf c p a b s
  | .usel pf d a b => Sys2Proof.Machine.execUsel pf d a b s
  | .umov pf d a => Sys2Proof.Machine.execUmov pf d a s
  | .umovi pf d im => Sys2Proof.Machine.execUmovi pf d im s
  | .umovhi pf d im => Sys2Proof.Machine.execUmovhi pf d im s
  | .elect pf c p a => Sys2Proof.Machine.execElect pf c p a s
  | .ubcast pf d a f l => Sys2Proof.Machine.execUbcast pf d a f l s
  | .rcp pf d a => Sys2Proof.Machine.execRcp pf d a s
  | .rsq pf d a => Sys2Proof.Machine.execRsq pf d a s
  | .sqrt pf d a => Sys2Proof.Machine.execSqrt pf d a s
  | .exp2 pf d a => Sys2Proof.Machine.execExp2 pf d a s
  | .log2 pf d a => Sys2Proof.Machine.execLog2 pf d a s
  | .sin pf d a => Sys2Proof.Machine.execSin pf d a s
  | .cos pf d a => Sys2Proof.Machine.execCos pf d a s
  | .tanh pf d a => Sys2Proof.Machine.execTanh pf d a s
  | .fdiv pf d a b => Sys2Proof.Machine.execFdiv pf d a b s
  | .idiv pf d a b => Sys2Proof.Machine.execIdiv pf d a b s
  | .idivNu pf d a b => Sys2Proof.Machine.execIdivNu pf d a b s
  | .irem pf d a b => Sys2Proof.Machine.execIrem pf d a b s
  | .iremNu pf d a b => Sys2Proof.Machine.execIremNu pf d a b s
  | .f2f pf d a y x => Sys2Proof.Machine.execF2f pf d a y x s
  | .f2i pf d a y x => Sys2Proof.Machine.execF2i pf d a y x s
  | .i2f pf d a y x => Sys2Proof.Machine.execI2f pf d a y x s
  | .qscale pf d a b => Sys2Proof.Machine.execQscale pf d a b s
  | .qscaleAdapt pf d a b => Sys2Proof.Machine.execQscaleAdapt pf d a b s
  | .qpack pf d a b => Sys2Proof.Machine.execQpack pf d a b s
  | .qunpk pf d a e f => Sys2Proof.Machine.execQunpk pf d a e f s
  | .ldZ8 pf d a b => Sys2Proof.Machine.execLdZ8 pf d a b s
  | .ldS8 pf d a b => Sys2Proof.Machine.execLdS8 pf d a b s
  | .ldZ16 pf d a b => Sys2Proof.Machine.execLdZ16 pf d a b s
  | .ldS16 pf d a b => Sys2Proof.Machine.execLdS16 pf d a b s
  | .ld pf d a b => Sys2Proof.Machine.execLd pf d a b s
  | .ldB64 pf d a b => Sys2Proof.Machine.execLdB64 pf d a b s
  | .ldB128 pf d a b => Sys2Proof.Machine.execLdB128 pf d a b s
  | .ldC pf d a t => Sys2Proof.Machine.execLdC pf d a t s
  | .ldCB128 pf d a t => Sys2Proof.Machine.execLdCB128 pf d a t s
  | .stB8 pf d a b => Sys2Proof.Machine.execStB8 pf d a b s
  | .stB16 pf d a b => Sys2Proof.Machine.execStB16 pf d a b s
  | .st pf d a b => Sys2Proof.Machine.execSt pf d a b s
  | .stB64 pf d a b => Sys2Proof.Machine.execStB64 pf d a b s
  | .stB128 pf d a b => Sys2Proof.Machine.execStB128 pf d a b s
  | .lds pf d a z sc => Sys2Proof.Machine.execLds pf d a z sc s
  | .sts pf d a z sc => Sys2Proof.Machine.execSts pf d a z sc s
  | .uld pf d a b => Sys2Proof.Machine.execUld pf d a b s
  | .uldB64 pf d a b => Sys2Proof.Machine.execUldB64 pf d a b s
  | .ust pf d a b => Sys2Proof.Machine.execUst pf d a b s
  | .ustB64 pf d a b => Sys2Proof.Machine.execUstB64 pf d a b s
  | .atom pf d a o k sc => Sys2Proof.Machine.execAtom pf d a o k sc s
  | .cas pf d a z sc => Sys2Proof.Machine.execCas pf d a z sc s
  | .red pf d a o k sc => Sys2Proof.Machine.execRed pf d a o k sc s
  | .fence pf k sc => Sys2Proof.Machine.execFence pf k sc s
  | .prefL1 pf a r => Sys2Proof.Machine.execPrefL1 pf a r s
  | .prefL2 pf a r => Sys2Proof.Machine.execPrefL2 pf a r s
  | .prefHbm pf a r => Sys2Proof.Machine.execPrefHbm pf a r s
  | .prefTier pf d a t r => Sys2Proof.Machine.execPrefTier pf d a t r s
  | .residQ pf d a => Sys2Proof.Machine.execResidQ pf d a s
  | .residKeep pf a => Sys2Proof.Machine.execResidKeep pf a s
  | .residEvict pf a => Sys2Proof.Machine.execResidEvict pf a s
  | .sldx pf d a u n => Sys2Proof.Machine.execSldx pf d a u n s
  | .sstx pf d a u n => Sys2Proof.Machine.execSstx pf d a u n s
  | .tdef pf t a => Sys2Proof.Machine.execTdef pf t a s
  | .tarm pf t a b => Sys2Proof.Machine.execTarm pf t a b s
  | .twait pf t a => Sys2Proof.Machine.execTwait pf t a s
  | .tcons pf t => Sys2Proof.Machine.execTcons pf t s
  | .tstat pf d t => Sys2Proof.Machine.execTstat pf d t s
  | .bar pf u v k => Sys2Proof.Machine.execBar pf u v k s
  | .tbinit pf d a => Sys2Proof.Machine.execTbinit pf d a s
  | .tbexp pf d a => Sys2Proof.Machine.execTbexp pf d a s
  | .tbarr pf d a => Sys2Proof.Machine.execTbarr pf d a s
  | .tbwait pf d a p => Sys2Proof.Machine.execTbwait pf d a p s
  | .ctrwait pf d a sc => Sys2Proof.Machine.execCtrwait pf d a sc s
  | .ctrwaitYield pf d a sc => Sys2Proof.Machine.execCtrwaitYield pf d a sc s
  | .mres pf r a => Sys2Proof.Machine.execMres pf r a s
  | .mrel pf r a => Sys2Proof.Machine.execMrel pf r a s
  | .mldt pf r t b => Sys2Proof.Machine.execMldt pf r t b s
  | .mldtC pf r t b => Sys2Proof.Machine.execMldtC pf r t b s
  | .mldg pf r a b => Sys2Proof.Machine.execMldg pf r a b s
  | .mzero pf r => Sys2Proof.Machine.execMzero pf r s
  | .mma pf c a b => Sys2Proof.Machine.execMma pf c a b s
  | .mmap pf c a b => Sys2Proof.Machine.execMmap pf c a b s
  | .mstt pf t a b => Sys2Proof.Machine.execMstt pf t a b s
  | .launch pf d a => Sys2Proof.Machine.execLaunch pf d a s
  | .nsend pf d => Sys2Proof.Machine.execNsend pf d s
  | .npost pf d => Sys2Proof.Machine.execNpost pf d s
  | .bra pf o => Sys2Proof.Machine.execBra pf o s
  | .brau pf g o => Sys2Proof.Machine.execBrau pf g o s
  | .brx pf a => Sys2Proof.Machine.execBrx pf a s
  | .call pf o => Sys2Proof.Machine.execCall pf o s
  | .callx pf a => Sys2Proof.Machine.execCallx pf a s
  | .ret pf => Sys2Proof.Machine.execRet pf s
  | .csw pf a => Sys2Proof.Machine.execCsw pf a s
  | .rejoin pf k n => Sys2Proof.Machine.execRejoin pf k n s
  | .exit pf => Sys2Proof.Machine.execExit pf s
  | .yield pf => Sys2Proof.Machine.execYield pf s
  | .nop pf => Sys2Proof.Machine.execNop pf s
  | .sread pf d sc => Sys2Proof.Machine.execSread pf d sc s
  | .sreadW pf sc a => Sys2Proof.Machine.execSreadW pf sc a s
  | .trap pf c => Sys2Proof.Machine.execTrap pf c s
  | .syscall pf c => Sys2Proof.Machine.execSyscall pf c s
  | .ulien pf m => Sys2Proof.Machine.execUlien pf m s
  | .ulidis pf m => Sys2Proof.Machine.execUlidis pf m s
  | .uliret pf => Sys2Proof.Machine.execUliret pf s
  | .brkpt pf c => Sys2Proof.Machine.execBrkpt pf c s
  | .event pf c => Sys2Proof.Machine.execEvent pf c s
  | .evClauseEntry g t im pc => Sys2Proof.Machine.execEvClauseEntry g t im pc s
  | .evWaitselMet g t im tid => Sys2Proof.Machine.execEvWaitselMet g t im tid s
  | .evIssueArbitration core part => Sys2Proof.Machine.execEvIssueArbitration core part s
  | .evEntryAged g t im pc prio => Sys2Proof.Machine.execEvEntryAged g t im pc prio s
  | .evDemotionTimerExpiry g t im pc prio => Sys2Proof.Machine.execEvDemotionTimerExpiry g t im pc prio s
  | .evProducerValueArrives acc fresh => Sys2Proof.Machine.execEvProducerValueArrives acc fresh s
  | .evQueuePopServed g t im q => Sys2Proof.Machine.execEvQueuePopServed g t im q s
  | .evQueueSpaceFreed g t q => Sys2Proof.Machine.execEvQueueSpaceFreed g t q s
  | .evSfuCompletion g t im n => Sys2Proof.Machine.execEvSfuCompletion g t im n s
  | .evStoreRetires acc => Sys2Proof.Machine.execEvStoreRetires acc s
  | .evCtrwaitPoll g t im tid => Sys2Proof.Machine.execEvCtrwaitPoll g t im tid s
  | .evTileArrival n => Sys2Proof.Machine.execEvTileArrival n s
  | .evTileDrainComplete g t c tile => Sys2Proof.Machine.execEvTileDrainComplete g t c tile s
  | .evHoldStoreExpiry n => Sys2Proof.Machine.execEvHoldStoreExpiry n s
  | .evWeirWindow die slice => Sys2Proof.Machine.execEvWeirWindow die slice s
  | .evWeirServe die slice pasid => Sys2Proof.Machine.execEvWeirServe die slice pasid s
  | .evJobCardAccept core chan => Sys2Proof.Machine.execEvJobCardAccept core chan s
  | .evJobStart core job => Sys2Proof.Machine.execEvJobStart core job s
  | .evJobSector core job => Sys2Proof.Machine.execEvJobSector core job s
  | .evJobComplete core job => Sys2Proof.Machine.execEvJobComplete core job s
  | .evMatrixOpComplete core => Sys2Proof.Machine.execEvMatrixOpComplete core s
  | .evMldgFillComplete core n => Sys2Proof.Machine.execEvMldgFillComplete core n s
  | .evPendingLaunchTake g t => Sys2Proof.Machine.execEvPendingLaunchTake g t s
  | .evSpawnWrite fn ctx size off data => Sys2Proof.Machine.execEvSpawnWrite fn ctx size off data s
  | .evTeamSelect => Sys2Proof.Machine.execEvTeamSelect s
  | .evQueueAged q => Sys2Proof.Machine.execEvQueueAged q s
  | .evTeamRetire g t => Sys2Proof.Machine.execEvTeamRetire g t s
  | .evContinuationSwapOut g t => Sys2Proof.Machine.execEvContinuationSwapOut g t s
  | .evContinuationPoll g t => Sys2Proof.Machine.execEvContinuationPoll g t s
  | .evApertureUnbind ap => Sys2Proof.Machine.execEvApertureUnbind ap s
  | .evQueueDescriptorWrite q desc => Sys2Proof.Machine.execEvQueueDescriptorWrite q desc s
  | .evQueueDestroy q => Sys2Proof.Machine.execEvQueueDestroy q s
  | .evQueueRingUnmapped q => Sys2Proof.Machine.execEvQueueRingUnmapped q s
  | .evContextCreate pasid part fn slot ttb ptroot trapTab recArea image mcrep => Sys2Proof.Machine.execEvContextCreate pasid part fn slot ttb ptroot trapTab recArea image mcrep s
  | .evSyscallReply n g8 g9 => Sys2Proof.Machine.execEvSyscallReply n g8 g9 s
  | .evFaultToPager part => Sys2Proof.Machine.execEvFaultToPager part s
  | .evInterruptSourceEvent g t im source => Sys2Proof.Machine.execEvInterruptSourceEvent g t im source s
  | .evDoorbell fn ctx size off val => Sys2Proof.Machine.execEvDoorbell fn ctx size off val s
  | .evPreemptRequest g t deadline allow who => Sys2Proof.Machine.execEvPreemptRequest g t deadline allow who s
  | .evDrainDeadline g t => Sys2Proof.Machine.execEvDrainDeadline g t s
  | .evDiscard g t => Sys2Proof.Machine.execEvDiscard g t s
  | .evSave g t => Sys2Proof.Machine.execEvSave g t s
  | .evRestore g t => Sys2Proof.Machine.execEvRestore g t s
  | .evTranslationWalk core pasid va => Sys2Proof.Machine.execEvTranslationWalk core pasid va s
  | .evPageIn n => Sys2Proof.Machine.execEvPageIn n s
  | .evPageSectorArrives frame => Sys2Proof.Machine.execEvPageSectorArrives frame s
  | .evWritebackComplete frame => Sys2Proof.Machine.execEvWritebackComplete frame s
  | .evInvalidateComplete frame => Sys2Proof.Machine.execEvInvalidateComplete frame s
  | .evDecayTick => Sys2Proof.Machine.execEvDecayTick s
  | .evLeaseExpiry part id => Sys2Proof.Machine.execEvLeaseExpiry part id s
  | .evLeaseCheckFault acc => Sys2Proof.Machine.execEvLeaseCheckFault acc s
  | .evReplay part tag fid => Sys2Proof.Machine.execEvReplay part tag fid s
  | .evDecline part tag fid => Sys2Proof.Machine.execEvDecline part tag fid s
  | .evLeaseSet part tag rec => Sys2Proof.Machine.execEvLeaseSet part tag rec s
  | .evLeaseDrop part tag id => Sys2Proof.Machine.execEvLeaseDrop part tag id s
  | .evInval part tag pasid va pages => Sys2Proof.Machine.execEvInval part tag pasid va pages s
  | .evRevoke part tag id deadline => Sys2Proof.Machine.execEvRevoke part tag id deadline s
  | .evUnknownPagerCommand part tag op => Sys2Proof.Machine.execEvUnknownPagerCommand part tag op s
  | .evRevokeWritebackDone part id => Sys2Proof.Machine.execEvRevokeWritebackDone part id s
  | .evPoolNodeLost node => Sys2Proof.Machine.execEvPoolNodeLost node s
  | .evPoolRequestTimeout node => Sys2Proof.Machine.execEvPoolRequestTimeout node s
  | .evPoolReadPoison frame => Sys2Proof.Machine.execEvPoolReadPoison frame s
  | .evWritebackFailure frame => Sys2Proof.Machine.execEvWritebackFailure frame s
  | .evBackInvalidationSnoop port page => Sys2Proof.Machine.execEvBackInvalidationSnoop port page s
  | .evStampedWriteApply die origin => Sys2Proof.Machine.execEvStampedWriteApply die origin s
  | .evHostSnoop line => Sys2Proof.Machine.execEvHostSnoop line s
  | .evBar2Access fn off op data => Sys2Proof.Machine.execEvBar2Access fn off op data s
  | .evShecelRequest src fn place faddr op size data => Sys2Proof.Machine.execEvShecelRequest src fn place faddr op size data s
  | .evStreamResume g t im stream => Sys2Proof.Machine.execEvStreamResume g t im stream s
  | .evStreamAbort g t im stream => Sys2Proof.Machine.execEvStreamAbort g t im stream s
  | .evShecelReply acc reason data => Sys2Proof.Machine.execEvShecelReply acc reason data s
  | .evMulticastAck acc expd pos neg => Sys2Proof.Machine.execEvMulticastAck acc expd pos neg s
  | .evSwitchCombine a b => Sys2Proof.Machine.execEvSwitchCombine a b s
  | .evHeartbeat port => Sys2Proof.Machine.execEvHeartbeat port s
  | .evLinkSilenceTimeout port => Sys2Proof.Machine.execEvLinkSilenceTimeout port s
  | .evDeathNotice dev => Sys2Proof.Machine.execEvDeathNotice dev s
  | .evPeerReturn dev incarnation => Sys2Proof.Machine.execEvPeerReturn dev incarnation s
  | .evAllowanceReturn dev n => Sys2Proof.Machine.execEvAllowanceReturn dev n s
  | .evFunctionTeardown fn => Sys2Proof.Machine.execEvFunctionTeardown fn s
  | .evTeardownRttExpiry fn => Sys2Proof.Machine.execEvTeardownRttExpiry fn s
  | .evFunctionLevelReset fn => Sys2Proof.Machine.execEvFunctionLevelReset fn s
  | .evExportTableWrite fn e val => Sys2Proof.Machine.execEvExportTableWrite fn e val s
  | .evConnectionOpen conn pasid peer => Sys2Proof.Machine.execEvConnectionOpen conn pasid peer s
  | .evConnectionClose conn => Sys2Proof.Machine.execEvConnectionClose conn s
  | .evConnectionClosed conn => Sys2Proof.Machine.execEvConnectionClosed conn s
  | .evNetworkPacket conn msg len off data => Sys2Proof.Machine.execEvNetworkPacket conn msg len off data s
  | .evNetworkCompletion n status => Sys2Proof.Machine.execEvNetworkCompletion n status s
  | .evHbmParityAlert stack chan => Sys2Proof.Machine.execEvHbmParityAlert stack chan s
  | .evChannelRetrain stack chan ok => Sys2Proof.Machine.execEvChannelRetrain stack chan ok s
  | .evScrubStep stack chan err => Sys2Proof.Machine.execEvScrubStep stack chan err s
  | .evScrubEscalatorCheck stack => Sys2Proof.Machine.execEvScrubEscalatorCheck stack s
  | .evHbmUncorrectable addr => Sys2Proof.Machine.execEvHbmUncorrectable addr s
  | .evActivationAlert stack chan owed => Sys2Proof.Machine.execEvActivationAlert stack chan owed s
  | .evBackoffWindowExpiry stack chan => Sys2Proof.Machine.execEvBackoffWindowExpiry stack chan s
  | .evOndieEccError core kind g t addr => Sys2Proof.Machine.execEvOndieEccError core kind g t addr s
  | .evErrorCounterClear unit cls => Sys2Proof.Machine.execEvErrorCounterClear unit cls s
  | .evRepair stack chan row spare left => Sys2Proof.Machine.execEvRepair stack chan row spare left s
  | .evRetrain stack chan ok => Sys2Proof.Machine.execEvRetrain stack chan ok s
  | .evScrubstat stack => Sys2Proof.Machine.execEvScrubstat stack s
  | .evTelem stack temp rate power => Sys2Proof.Machine.execEvTelem stack temp rate power s
  | .evReset stack chan => Sys2Proof.Machine.execEvReset stack chan s
  | .evMailboxTimeout stack => Sys2Proof.Machine.execEvMailboxTimeout stack s
  | .evFatalError cause unit addr => Sys2Proof.Machine.execEvFatalError cause unit addr s
  | .evFirmwareRecoveryDoorbell comp image => Sys2Proof.Machine.execEvFirmwareRecoveryDoorbell comp image s
  | .evSpdmRequest n => Sys2Proof.Machine.execEvSpdmRequest n s
  | .evPartitionChange part quads quad0 frame0 frames locals => Sys2Proof.Machine.execEvPartitionChange part quads quad0 frame0 frames locals s
  | .evFrequencyRequest who island mhz => Sys2Proof.Machine.execEvFrequencyRequest who island mhz s
  | .evThermalThrottle island temp => Sys2Proof.Machine.execEvThermalThrottle island temp s
  | .evTelemetryUpdate island power temp => Sys2Proof.Machine.execEvTelemetryUpdate island power temp s
  | .evDeviceReset => Sys2Proof.Machine.execEvDeviceReset s
  | .evRegisterWrite who reg idx val => Sys2Proof.Machine.execEvRegisterWrite who reg idx val s
  | .evPoolWritebackAck frame sector => Sys2Proof.Machine.execEvPoolWritebackAck frame sector s
  | .evPackagePowerLimit power => Sys2Proof.Machine.execEvPackagePowerLimit power s

end Sys2Proof.Machine
end

