-- ==== Sys2Proof/Machine/Schedule.lean ====
section
/-! DEFINITION. What comes next (assumption log 3): an issue that has been granted; else what comes from outside, as the
agenda says; else the device's own next step, in an order that the spec leaves open. -/

namespace Sys2Proof.Machine

/-- A step of the machine. -/
abbrev Act := State → Host.Outcome State Fault Refusal

/-! ### The device's own steps that may come next -/

/-- A step that always answers a next state. -/
def ownAct (f : State → State) : Act := fun s => .next (f s)

/-- Steps of a group: its queues, its queued results, its threads at headers, and the times of its entries. -/
def groupEvents (tm : Team) (g : Group) : List Act :=
  let r := tm.ref g.gid
  let ts := g.threads.flatMap fun p =>
    if p.2.atHeader then [execEvClauseEntry r.grid r.team r.gid p.2.pc]
    else
      match p.2.st with
      | .entering => [execEvWaitselMet r.grid r.team r.gid p.1]
      | .parked (.ctr _ _ _ _ _) => [execEvCtrwaitPoll r.grid r.team r.gid p.1]
      | .taking _ _ _ => [ownAct (·.takingStep ⟨r, p.1⟩)]
      | _ => []
  let es := g.front.flatMap fun e =>
    (if e.idle = 2048 ∧ e.aged = none then [execEvEntryAged r.grid r.team r.gid e.pc e.prio] else [])
    ++ (if e.demo = 1 then [execEvDemotionTimerExpiry r.grid r.team r.gid e.pc e.prio] else [])
  ts ++ es ++ g.sfq.map fun e => execEvSfuCompletion r.grid r.team r.gid e.id

/-- Steps of a team. -/
def teamEvents (tm : Team) : List Act :=
  let g := tm.grid
  let t := tm.team
  let own := match tm.st with
    | .running => tm.groups.flatMap (fun p => groupEvents tm p.2) ++ [execEvContinuationSwapOut g t]
    | .stopped .discard => [execEvDiscard g t]
    | .stopped _ => [execEvSave g t]
    | .continuation _ _ => [execEvContinuationPoll g t]
    | _ => []
  own
  ++ (tm.pops.map fun p => execEvQueuePopServed p.g.grid p.g.team p.g.gid p.port)
  ++ (tm.pushes.map fun p => execEvQueueSpaceFreed g t p.port)
  ++ (tm.tiles.flatMap fun c =>
      (List.filter (fun (e : Nat × Tile) => e.2.st == .draining) c.2).map fun e => execEvTileDrainComplete g t c.1 e.1)
  ++ (if tm.pend.isEmpty then [] else [execEvPendingLaunchTake g t])
  ++ (if tm.preempt.isSome then [execEvDrainDeadline g t] else [])
  ++ [execEvTeamRetire g t]

/-- Steps of a core's engines. -/
def State.coreEvents (s : State) (n : Nat) (c : Core) : List Act :=
  (if c.seq.isEmpty then [] else [execEvMatrixOpComplete n])
  ++ (c.seq.flatMap fun o => match o.kind with | .mldg _ => [execEvMldgFillComplete n o.id] | _ => [])
  ++ (c.jobs.map fun j =>
      match j.st with
      | .running => execEvJobSector n j.num
      | .landed => execEvJobComplete n j.num
      | _ => execEvJobStart n j.num)
  ++ (if s.accs.any (fun a => a.core == n && match a.op with | .card _ => true | _ => false)
      then (span 0 16).map fun k => execEvJobCardAccept n k else [])

/-- Outstanding accesses that may fail their lease's checks, be performed or retire. -/
def State.accEvents (s : State) : List Act :=
  s.accs.flatMap fun a =>
    [execEvLeaseCheckFault a.id, if a.dest.isSome then execEvProducerValueArrives a.id false else execEvStoreRetires a.id]

/-- Stamped writes on their way. -/
def State.dieEvents (s : State) : List Act :=
  s.dies.flatMap fun d => if d.2.inbox.isEmpty then [] else (otherDies d.1).map fun o => execEvStampedWriteApply d.1 o

/-- Steps of the command processor. -/
def State.cpEvents (s : State) : List Act :=
  (if s.cp.queues.isEmpty then [] else [execEvTeamSelect])
  ++ (s.cp.queues.flatMap fun q =>
      execEvQueueAged q.1 :: if q.2.st = .destroying then [execEvQueueDestroy q.1] else [])
  ++ (s.cp.grids.flatMap fun g => if s.teams.any fun t => t.grid == g.1 then [] else [execEvTeamRetire g.1 0])
  ++ ((span 0 s.cp.spawns.length).map fun n => ownAct (·.spawnTake n))
  ++ ((span 0 s.cp.qwrites.length).map fun n => ownAct (·.queueStore n))
  ++ (span 0 s.cp.hold.length).map execEvHoldStoreExpiry
  ++ (s.cp.apers.flatMap fun a => if a.2.retiredAt.isSome then [execEvApertureUnbind a.1] else [])

/-- Does a release at system scope, or a grid's completion, wait for the pool (R334, R402)? -/
def State.awaitsPool (s : State) : Bool :=
  (s.accs.any fun a => a.rel)
  || (s.teams.any fun t => t.groups.any fun g => g.2.threads.any fun th => th.2.st == .parked .fence)
  || (s.cp.grids.any fun g => !g.2.stored.isEmpty)
  || s.fab.netOps.any fun o => !o.stored.isEmpty

/-- Steps of the page cache and of a partition's pager port. -/
def State.pageEvents (s : State) : List Act :=
  (if s.decayDue then [execEvDecayTick] else [])
  ++ (s.parts.flatMap fun p => ownAct (·.takeCommand p.1) :: if p.2.waiting.isEmpty then [] else [execEvFaultToPager p.1])
  ++ (span 0 s.pageReqs.length).map execEvPageIn
  ++ (s.frames.flatMap fun f =>
      match f.2.st with
      | .filling => [execEvPageSectorArrives f.1]
      | .writeback => [execEvWritebackComplete f.1]
      | .invalidating => [execEvInvalidateComplete f.1]
      | .valid => if s.awaitsPool then f.2.dirty.map fun k => execEvPoolWritebackAck f.1 k else []
      | .free => [])
  ++ (s.leases.flatMap fun l =>
      match l.2.st with
      | .valid => if l.2.expiry ≤ s.now then [execEvLeaseExpiry l.2.part l.1] else []
      | .revoking _ _ _ => [execEvRevokeWritebackDone l.2.part l.1]
      | _ => [])

/-- Steps of the fabrics: incoming requests (R414), host accesses (R411), multicast reports (R418), placements (R426) and the
network's operations. -/
def State.netEvents (s : State) : List Act :=
  (s.fab.inReqs.map fun q => ownAct (·.serveTurn q.n))
  ++ ((span 0 s.fab.bars.length).map fun k => ownAct (·.barStep k))
  ++ ((span 0 s.fab.mcAcks.length).map fun k => ownAct (·.mcStep k))
  ++ ((span 0 s.fab.placing.length).map fun k => ownAct (·.placeStep k))
  ++ (s.fab.netOps.flatMap fun o => if o.send && o.fail == 0 then [] else [execEvNetworkCompletion o.n 0])
  ++ (s.fab.conns.flatMap fun c => if c.2.st == .closing then [execEvConnectionClosed c.1] else [])

/-- Every step of the device's own that may come next. -/
def State.ownEvents (s : State) : List Act :=
  (s.srcs.map fun x => execEvInterruptSourceEvent x.1.grid x.1.team x.1.gid x.2)
  ++ (span 0 s.arrivals.length).map execEvTileArrival
  ++ s.accEvents ++ s.dieEvents
  ++ (s.teams.flatMap teamEvents)
  ++ (s.cores.flatMap fun c => s.coreEvents c.1 c.2)
  ++ s.cpEvents ++ s.pageEvents ++ s.netEvents

/-! ### The default order -/

/-- Is an operation a step of the device or of its surroundings, and no instruction of a program? -/
def Instr.isEvent (i : Instr) : Bool := i.spec.isNone

/-- The first of some steps that changes the machine. -/
def State.firstActive (s : State) : List Act → Option State
  | [] => none
  | i :: t =>
    match i s with
    | .next s' => if s' = s then State.firstActive s t else some s'
    | _ => State.firstActive s t

/-- A list turned by n places. -/
def turnList {α : Type} (n : Nat) (l : List α) : List α := l.drop (n % l.length) ++ l.take (n % l.length)

/-- The cores that hold groups which may issue. -/
def State.liveCores (s : State) : List Nat :=
  insNats (s.teams.flatMap fun t => if t.issues then t.groups.map fun g => g.2.core else []) []

/-- A clk of the next core in turn (R276). -/
def State.nextClk (s : State) : Option State :=
  match (turnList (s.turn / 2) s.liveCores).head? with
  | some c => if s.fatal then none else some (s.arbitrate c)
  | none => none

/-- The device's own next step: by turns a clk of a core and another step; none when only time passes. -/
def State.ownStep (s : State) : State :=
  let ev := s.firstActive (turnList (s.turn / 2) s.ownEvents)
  let r := if s.turn % 2 = 0 then s.nextClk.orElse fun _ => ev else ev.orElse fun _ => s.nextClk
  let s' := r.getD s
  { s' with turn := s.turn + 1 }

/-! ### One step -/

/-- What follows an instruction that has executed (R93). -/
def State.afterIssue (b : State) (i : Instr) :
    Host.Outcome State Fault Refusal → Host.Outcome State Fault Refusal
  | .next s => .next (s.noteYield b i)
  | .fault f => .fault f
  | .refused r => .refused r

/-- The next granted issue (R275, R276): its threads that still stand there execute the instruction, or take Illegal
Instruction. -/
def State.issue (s : State) : Host.Outcome State Fault Refusal :=
  let b := s.takeGrant.1
  if s.takeGrant.2 then
    match b.curInstr with
    | some i => b.afterIssue i (exec i b)
    | none => .next b.issueFault
  else .next b

/-- The next step, the passing of time apart. -/
def State.advance (s : State) : Host.Outcome State Fault Refusal :=
  if s.grants.isEmpty then
    match s.agenda with
    | .ev i :: t =>
      let s : State := { s with agenda := t }
      if Instr.isEvent i then exec i s else .next s
    | .wait n :: t => .next { s with agenda := t, now := s.now + n }
    | [] => .next s.ownStep
  else s.issue

/-- A step takes a nanosecond (assumption log 2). -/
def tick : Host.Outcome State Fault Refusal → Host.Outcome State Fault Refusal
  | .next s => .next { s with now := s.now + 1 }
  | .fault f => .fault f
  | .refused r => .refused r

end Sys2Proof.Machine
end

