-- ==== Sys2Proof/Machine/Boot.lean ====
section
/-! DEFINITION. How one instruction comes to stand where the next step executes it (assumption log 4): it stands for what
the host, the root monitor core and the command processor do before a program's first instruction. -/

namespace Sys2Proof.Machine

/-- The address of the program's one clause header. -/
def bootHdr : Nat := 0x20000

/-- Where the boot tables stand: the root table at 0, the table of the second level here. -/
def bootTable : Nat := 0x40000

/-- The header of an `any` clause of one instruction, its RJP bit set for REJOIN (R90, R94). -/
def bootHeader (ws : List Nat) : Nat :=
  let base := (ws.dropWhile fun w => isRep w || isMod w).headD 0
  0xA1C00000 + (if base / 2 ^ 24 = 0xD7 then 8 else 0)

/-- Device memory with the tables and the program: addresses below 1 GiB map to themselves (R376, R378). -/
def bootMem (m : Mem) (ws : List Nat) : Mem :=
  let m := Mem.writeN m 0 8 (1 + bootTable)
  let m := Mem.writeN m bootTable 8 0x1F
  Mem.writeList m bootHdr ((bootHeader ws :: ws).flatMap (toLE 4))

/-- A kernel with every register. -/
def bootKernel : Kernel := { wregs := 512, gregs := 512, scratch := 0, tiles := 0, entry := bootHdr, code := bootHdr }

/-- A thread inside the clause, at its one instruction. -/
def bootThread (code : List Nat) (tid : Nat) : Thread :=
  { Thread.fresh with
    pc := bootHdr + 4, hdr := bootHdr, cend := bootHdr + 4 * code.length, code := code, inside := true, rs := rsSeed tid 0 }

/-- The group of the program. -/
def bootGroup (code : List Nat) : Group :=
  { gid := 0, core := 0, part := 0, slot := 0, g := [], ge := [], q0 := [], q1 := [], q2 := [], sfq := [], sfNext := 0
    uli := 0#5, seq := 0, q0out := 0, netOut := 0, threads := (span 0 64).map fun tid => (tid, bootThread code tid)
    front := [⟨0, bootHdr + 4, span 0 64, 0, none, 0, .none⟩] }

/-- The team of the program, team 0 of grid 1. -/
def bootTeam (code : List Nat) : Team :=
  { grid := 1, team := 0, pasid := 1, part := 0, queue := 0, depth := 0, st := .running, cores := [0], kern := bootKernel
    groups := [(0, bootGroup code)], scratch := [], tiles := [], heldArr := [], chans := [], pops := [], pushes := []
    pend := [], children := 0, admitAt := 0, preempt := none, notes := [], image := 0, saved := [], empt := [], detached := []
    landed := [], stopAt := 0, ranks := [], vec := .zero }

/-- The grid of the program. -/
def bootGrid : Grid :=
  { id := 1, pasid := 1, part := 0, queue := 0, depth := 0, kern := bootKernel, join := 0, teams := 1, groups := 1
    minSpan := 1, idem := false, apv := false, aper := 0, hold := 0, handles := [], args := [], nextTeam := 1
    parent := none, killed := false, stamps := .zero, abandoned := false, acq := .zero, deps := [], need := .zero, stored := [] }

/-- The partition of the program: quad 0, and frames 0 to 63 for device-local pages. -/
def bootPart : Part := { Part.made 0 with quads := [0], frame0 := 0, frames := 64, locals := 64 }

/-- The context of the program. -/
def bootCtx : Ctx :=
  { part := 0, fn := 0, slot := 0, ttb := 0, ptroot := 0, trapTab := 0x50000, recArea := 0x100000, image := 0, mcrep := 0, hintDrops := 0 }

/-- The machine with one instruction's words in its program, and thread 0 granted its issue. -/
def State.bootWith (s : State) (ws : List Nat) (len : Nat) : State :=
  { s with
    agenda := []
    grants := [⟨⟨1, 0, 0⟩, 0, bootHdr + 4, [0]⟩]
    hbm := bootMem s.hbm ws
    teams := [bootTeam (bootHeader ws :: ws.take len)]
    parts := Tab.set s.parts 0 bootPart
    cp := { s.cp with
      ctxs := Tab.set s.cp.ctxs 1 bootCtx
      grids := Tab.set s.cp.grids 1 bootGrid
      gridNext := max 2 s.cp.gridNext } }

/-- How many words the instruction at the head of some words takes. -/
def bootLen (ws : List Nat) : Nat := match decodeWords ws with | .ok (_, n) => n | .error _ => 3

end Sys2Proof.Machine
end

