-- ==== Sys2Proof/Machine/Step.lean ====
section
/-! DEFINITION. The step, and the machine with an instruction where the next step executes it. -/

namespace Sys2Proof.Machine

/-- One step: an issue that has been granted, or what comes next from outside or in the device, and a nanosecond. -/
def step (s : State) : Host.Outcome State Fault Refusal := tick s.advance

/-- The machine with the instruction of an opcode-table word where the next step executes it (assumption log 4). -/
def State.withFetchWord (s : State) (nbits w : Nat) : State :=
  let ws := wordsOf (toLE 12 (w % 2 ^ nbits))
  s.bootWith ws (bootLen ws)

end Sys2Proof.Machine
end

