-- ==== Sys2Proof/Claims.lean ====
section
/-! DEFINITION. The vocabulary of the statements: what a state shows of a group, a team and a thread, what has stayed, and
what an issue of each pipeline gives. -/

namespace Sys2Proof.Claims

open Machine

/-- The group a reference names. -/
def grp (s : State) (r : GRef) : Option Group := (s.group? r).map (·.2)

/-- A team, its groups left out. -/
def bare (s : State) (a b : Nat) : Option Team := (s.team? a b).map fun t => { t with groups := [] }

/-- The thread a reference names. -/
def thr (s : State) (t : TRef) : Option Thread := (grp s t.g).bind fun g => Tab.find? g.threads t.tid

/-- From s to t nothing has changed but the group r: no memory, no other group, no field of a team but its groups, and
nothing else of the machine. -/
def OnlyGroup (s t : State) (r : GRef) : Prop :=
  t = { s with teams := t.teams } ∧ (∀ a b, bare t a b = bare s a b) ∧ ∀ r', r' ≠ r → grp t r' = grp s r'

/-- The last of some writes to register n. -/
def lastOf {α : Type} (l : List (Nat × α)) (n : Nat) : Option α := (l.reverse.find? fun p => p.1 == n).map (·.2)

/-! ### Numbers -/

/-- The low n bits of x as a two's complement number. -/
def sval (n x : Nat) : Int := (BitVec.ofNat n x).toInt

/-- The n-bit pattern of an integer. -/
def wrapped (n : Nat) (z : Int) : Nat := (BitVec.ofInt n z).toNat

/-- An integer result of n bits: clamped to the signed range when SATC is 01, and wrapped (R64). -/
def intRes (m : Mod) (n : Nat) (z : Int) : Nat :=
  wrapped n (if m.satc = 1#2 then max (-(2 ^ (n - 1))) (min z (2 ^ (n - 1) - 1)) else z)

/-- The integer conditions of ISETP, ISETP64 and USETP on n-bit values (R111). -/
def holds (c n a b : Nat) : Bool :=
  match c with
  | 0 => a = b
  | 1 => a ≠ b
  | 2 => sval n a < sval n b
  | 3 => sval n a ≤ sval n b
  | 4 => sval n a > sval n b
  | 5 => sval n a ≥ sval n b
  | 6 => a < b
  | 7 => a ≤ b
  | 8 => a > b
  | _ => a ≥ b

/-- A rational rounded to an integer: 2 toward zero, 3 up, 4 down, 5 to nearest with ties away from zero, otherwise to
nearest with ties to even (R75, R77). -/
def rounded (mode : Nat) (q : Rat) : Int :=
  let lo : Int := q.floor
  if (lo : Rat) = q then lo
  else
    match mode with
    | 2 => if q < 0 then lo + 1 else lo
    | 3 => lo + 1
    | 4 => lo
    | 5 => if q - lo = 1 / 2 then (if q < 0 then lo else lo + 1) else if q - lo < 1 / 2 then lo else lo + 1
    | _ => if q - lo = 1 / 2 then (if lo % 2 = 0 then lo else lo + 1) else if q - lo < 1 / 2 then lo else lo + 1

/-- The first of the 16 bytes of a chunk that is v, when no NUL stands before it; otherwise 16 (R181). -/
def find16 (a v : Nat) : Nat :=
  match (List.range 16).find? fun i => decide (a / 2 ^ (8 * i) % 256 = v ∨ a / 2 ^ (8 * i) % 256 = 0) with
  | some i => if a / 2 ^ (8 * i) % 256 = v then i else 16
  | none => 16

/-- A byte into a CRC-32C (R182). -/
def crcByte (c v : Nat) : Nat :=
  (List.range 8).foldl (fun c _ => c / 2 ^^^ (if c % 2 = 1 then 0x82F63B78 else 0)) (c ^^^ v)

/-- The order of two FP32 values that are not NaN, −0 below +0 (R151). -/
def below (a b : Nat) : Bool :=
  let o := (decodeF .f32 a).cmp (decodeF .f32 b)
  o = -1 || (o = 0 && a.testBit 31)

/-- The conditions of FCMP and DCMP (R152). -/
def ordered (c : Nat) (a b : FVal) : Bool :=
  let un := a.isNan || b.isNan
  let o := a.cmp b
  match c with
  | 0 => !un && o = 0 | 1 => !un && o ≠ 0 | 2 => !un && o < 0 | 3 => !un && o ≤ 0 | 4 => !un && o > 0
  | 5 => !un && o ≥ 0 | 6 => !un | 7 => un | 8 => un || o = 0 | 9 => un || o < 0 | 10 => un || o ≤ 0
  | 11 => un || o > 0 | 12 => un || o ≥ 0 | 13 => un || o ≠ 0 | _ => un

/-- Two 16-bit elements (R63). -/
def both (e : Nat → Nat) : Nat := e 0 + 2 ^ 16 * e 1

/-- axis(k, a) of a curve key read under d axes: its bits stand d apart from bit a; 0 when there is no such axis (R187). -/
def axisUnder (w d k a : Nat) : Nat :=
  if a < d then ((List.range (w / d)).map fun j => if k.testBit (j * d + a) then 2 ^ j else 0).sum else 0

/-- A key of n registers made of d axis values that pass through fit (R187). -/
def fitted (n w d : Nat) (m : Mod) (v : Nat → Int) : LOut :=
  let top : Int := 2 ^ (w / d)
  let keep := fun i => if 0 ≤ v i ∧ v i < top then v i else if m.satc = 1#2 then max 0 (min (v i) (top - 1)) else v i % top
  { LOut.words n (ckMake w d ((List.range d).map fun i => (keep i).toNat)) with
    af := ((List.range d).map fun i => if 0 ≤ v i ∧ v i < top then 0 else 2 ^ i).sum }

/-- Is a canonical key in the box of two corners (R188)? -/
def inBox (lo hi k : Nat) : Bool :=
  let d := ckDim 61 lo
  ckDim 61 hi = d ∧ ckDim 61 k = d ∧ ∀ a < d, axisUnder 61 d lo a ≤ ckAxis 61 k a ∧ ckAxis 61 k a ≤ axisUnder 61 d hi a

/-- A result of the special-function unit: rounded once into FP32 under the mode, then clamped (R162). -/
def special (x : LIn) (v : FVal × Bool) : LOut := .words 1 (formF .f32 x.m.rnd.toNat x.m.satc.toNat 0 v.1 v.2)

/-- M(f): the largest magnitude of a narrow format (R164). -/
def maxFinite (c : Nat) : Rat := match c with | 4 => 448 | 5 => 57344 | 6 => 6 | _ => 63 / 16

/-- What QPACK makes of four values: the codes, the generator, underflows and clips. -/
structure Packed where
  codes : Nat
  rs : Word
  under : Nat
  clip : Nat
deriving DecidableEq, Repr

/-- Four values of a lane quad encoded under the scale byte sc, the lowest first (R166). -/
def packed4 (f : Fmt) (m : Mod) (sc a : Nat) (rs : Word) : Packed :=
  (List.range 4).foldl (fun q i =>
    let v := decodeF .f32 (a / 2 ^ (32 * i) % 2 ^ 32)
    let v := if sc = 255 then FVal.nan else v.scale (127 - (sc : Int))
    let rs := if m.rnd = 6#3 then rsStep q.rs else q.rs
    let z := resolve f (if m.rnd = 0#3 then 1 else m.rnd.toNat) m.satc.toNat v false (rs.toNat / 2 ^ 8)
    ⟨q.codes + 2 ^ ((f.body + 1) * i) * rndBits f (clampF f m.satc.toNat z.1), rs,
     q.under + (if z.2 = .underflow then 1 else 0), q.clip + (if z.2 = .clip then 1 else 0)⟩) ⟨0, rs, 0, 0⟩

/-- A uniform instruction's lane operands are the lowest thread's. -/
def own (_ : Group) (lo : Nat × Thread) : Nat × Thread := lo

/-- The value a member of a shuffle takes (R169). -/
def shuffled (f : Nat) (x : XIn) (p : Nat × LIn) : Nat :=
  let k := p.2.d % 64
  let r := (x.mem.filter fun q => decide (q.1 < p.1)).length
  let byTid := fun (u : Nat) => List.find? (fun q : Nat × LIn => decide (q.1 = u)) x.mem
  let src := match f with
    | 0 => byTid k
    | 1 => x.mem[r + k]?
    | 2 => if k ≤ r then x.mem[r - k]? else none
    | 3 => x.mem[(r + k) % x.mem.length]?
    | _ => byTid (p.1 ^^^ k)
  src.elim p.2.a fun q => q.2.a

/-- The integer combination of values in order, from the identity (R174). -/
def combined (c : Nat) (l : List Nat) : Nat :=
  match c with
  | 0 => l.sum % 2 ^ 32
  | 1 => l.foldl (· &&& ·) 0xFFFFFFFF
  | 2 => l.foldl (· ||| ·) 0
  | 3 => l.foldl (· ^^^ ·) 0
  | 4 => l.foldl (fun x y => if sval 32 x ≤ sval 32 y then x else y) 0x7FFFFFFF
  | 5 => l.foldl (fun x y => if sval 32 x ≤ sval 32 y then y else x) 0x80000000
  | 6 => l.foldl min 0xFFFFFFFF
  | _ => l.foldl max 0

/-- The floating combination of FP32 values (R174): the exact sum rounded once, or the least or greatest that is not NaN,
bit for bit. -/
def combinedF (c : Nat) (l : List Nat) : Nat :=
  let num := l.filter fun x => !(decodeF .f32 x).isNan
  match c with
  | 0 => if l = [] then 0 else formF .f32 1 0 0 (fsum 1 (l.map (decodeF .f32))) false
  | 2 => if l = [] then 0xFF800000 else match num with
    | [] => 0x7FC00000 | x :: t => t.foldl (fun x y => if below x y then y else x) x
  | _ => if l = [] then 0x7F800000 else match num with
    | [] => 0x7FC00000 | x :: t => t.foldl (fun x y => if below x y then x else y) x

/-- The first n stages of the Hadamard transform (R176). -/
def transformed (v : List Nat) : Nat → List Nat
  | 0 => v
  | s + 1 =>
    let v := transformed v s
    let at32 := fun i => decodeF .f32 (v.getD i 0)
    let rounds := fun x => formF .f32 1 0 0 x false
    let w := (List.range v.length).map fun i =>
      if i.testBit s then rounds (fsum 1 [at32 (i - 2 ^ s), (at32 i).neg]) else rounds (fsum 1 [at32 i, at32 (i + 2 ^ s)])
    match s with
    | 3 => w.map fun x => rounds ((decodeF .f32 x).scale (-2))
    | 4 => w.map fun x => rounds ((decodeF .f32 x).mul (decodeF .f32 0x3F3504F3))
    | _ => w

/-- The address of the MEM form: the base pair plus the offset, 32 bits signed, or 64 under O64, negated under NEGB (R208). -/
def address (x : LIn) : Nat :=
  let off := sval (if x.m.absb ∧ ¬ x.bImm then 64 else 32) x.b
  wrapped 64 (x.a + if x.m.negb then -off else off)

/-- A weak access of n bytes that asks for nothing more. -/
def asked (va n kind stream : Nat) (op : AccOp) : Plan :=
  { va := va, size := n, align := n, kind := kind, strong := false, scope := 0, acq := false, rel := false, stream := stream
    op := op, dst := 0, isLoad := false, isStore := false, entry := true, need := ⟨false, false, false⟩, inUser := true
    inTile := false, inCard := false }

/-- A strong access of n bytes at pairA (R207, R213). -/
def strongly (x : LIn) (n kind scope : Nat) (op : AccOp) : Plan :=
  { asked x.a n kind x.m.scl.toNat op with
    strong := true, scope := scope, acq := x.m.satc = 1#2 ∨ x.m.satc = 3#2, rel := x.m.satc = 2#2 ∨ x.m.satc = 3#2 }

/-! ### Lane and queued instructions -/

/-- The registers a lane result writes, with their words: D's, then the further ones. -/
def regWrites (x : Dec) (o : Opds) (out : LOut) : List (Nat × Word) :=
  (match out.val with | some v => (o.d.lanes x.sp.d.wr).zip (cutWords out.cnt v) | none => []) ++ out.more

/-- A thread t that has written registers w and a lane result's predicates, af bits and generator is u: every other
register is as it was, the written ones are full, and nothing else of the thread has changed. -/
structure LaneRes (t u : Thread) (w : List (Nat × Word)) (out : LOut) : Prop where
  rest : u = { t with w := u.w, we := u.we, p := u.p, af := t.af ||| BitVec.ofNat 8 out.af, rs := out.rs.getD t.rs }
  regs : ∀ n, u.reg n = (lastOf w n).getD (t.reg n)
  full : ∀ n, n ∈ u.we ↔ n ∈ t.we ∧ ∀ p ∈ w, p.1 ≠ n
  preds : ∀ n, n < 7 → u.pred n = (lastOf out.preds n).getD (t.pred n)

/-- A thread passes the instruction by, or runs it on registers and immediates: its checks pass, no field is a port, its
result is no fault, and the registers whose allocation is found only now are allocated and full. -/
def LaneOk (x : Dec) (out : LIn → LOut) (tm : Team) (g : Group) (p : Nat × Thread) : Prop :=
  x.check tm.kern g p.2 = .skip ∨
  ∃ o, x.check tm.kern g p.2 = .go o ∧ (∀ q, o.a ≠ .port q) ∧ (∀ q, o.d ≠ .port q) ∧
    (out (x.linOf o g p.2 p.1)).fault = none ∧
    ∀ n ∈ (out (x.linOf o g p.2 p.1)).need, n < tm.kern.wregs ∧ n ∉ p.2.we

/-- What an issue of instruction i gives in each thread that performs it, when each may run: out of the values the
thread reads (R116). The machine goes on; in each thread the result is written and the instruction passed; a thread whose
guard is false passes it with nothing written; and nothing else of the machine changes but the group's frontier. -/
def LaneGives (i : Instr) (out : LIn → LOut) : Prop :=
  ∀ (s : State) (tm : Team) (g : Group), s.group? s.cur.g = some (tm, g) →
    (∀ p ∈ g.active s.cur.set, LaneOk (decOf i) out tm g p) →
    ∃ t g', exec i s = .next t ∧ OnlyGroup s t s.cur.g ∧ grp t s.cur.g = some g' ∧
      g' = { g with threads := g'.threads, front := g'.front } ∧
      (∀ n, (∀ p ∈ g.active s.cur.set, p.1 ≠ n) → Tab.find? g'.threads n = Tab.find? g.threads n) ∧
      ∀ p ∈ g.active s.cur.set,
        ((decOf i).check tm.kern g p.2 = .skip →
          Tab.find? g'.threads p.1 = some (p.2.advance (decOf i) (s.hp tm g))) ∧
        ∀ o, (decOf i).check tm.kern g p.2 = .go o →
          ∃ u, LaneRes p.2 u (regWrites (decOf i) o (out ((decOf i).linOf o g p.2 p.1)))
              (out ((decOf i).linOf o g p.2 p.1)) ∧
            Tab.find? g'.threads p.1 = some (u.advance (decOf i) (s.hp tm g))

/-- A thread passes a queued instruction by, or issues it: its checks pass and its operands make no fault. -/
def SfuOk (x : Dec) (out : LIn → LOut) (tm : Team) (g : Group) (p : Nat × Thread) : Prop :=
  x.check tm.kern g p.2 = .skip ∨
  ∃ o, x.check tm.kern g p.2 = .go o ∧ (out (x.linOf o g p.2 p.1)).fault = none

/-- What a queued instruction's issue leaves for the queue: each thread that issues it, with D's registers and their
words. -/
def sfuEntry (x : Dec) (out : LIn → LOut) (tm : Team) (g : Group) (set : List (Nat × Thread)) :
    List (Nat × List (Nat × Word)) :=
  set.filterMap fun p => match x.check tm.kern g p.2 with
    | .go o =>
      let r := out (x.linOf o g p.2 p.1)
      some (p.1, (o.d.lanes x.sp.d.wr).zip (cutWords r.cnt (r.val.getD 0)))
    | _ => none

/-- What an issue of a queued instruction gives (R161), while its group's queue has room: one entry of the queue, which
holds every thread's results; D's registers empty, the instruction passed, and nothing else changed. -/
def SfuGives (i : Instr) (out : LIn → LOut) : Prop :=
  ∀ (s : State) (tm : Team) (g : Group), s.group? s.cur.g = some (tm, g) → g.sfq.length < 32 →
    (∀ p ∈ g.active s.cur.set, SfuOk (decOf i) out tm g p) →
    ∃ t g', exec i s = .next t ∧ OnlyGroup s t s.cur.g ∧ grp t s.cur.g = some g' ∧
      g' = { g with threads := g'.threads, front := g'.front, sfq := g'.sfq, sfNext := g'.sfNext } ∧
      (let e := sfuEntry (decOf i) out tm g (g.active s.cur.set)
       (e ≠ [] → g'.sfq = g.sfq ++ [⟨g.sfNext, e⟩] ∧ g'.sfNext = g.sfNext + 1) ∧
       (e = [] → g'.sfq = g.sfq ∧ g'.sfNext = g.sfNext)) ∧
      (∀ n, (∀ p ∈ g.active s.cur.set, p.1 ≠ n) → Tab.find? g'.threads n = Tab.find? g.threads n) ∧
      ∀ p ∈ g.active s.cur.set,
        ((decOf i).check tm.kern g p.2 = .skip →
          Tab.find? g'.threads p.1 = some (p.2.advance (decOf i) (s.hp tm g))) ∧
        ∀ o, (decOf i).check tm.kern g p.2 = .go o →
          ∃ u : Thread, u = { p.2 with we := u.we, rs := (out ((decOf i).linOf o g p.2 p.1)).rs.getD p.2.rs } ∧
            (∀ n, n ∈ u.we ↔ n ∈ p.2.we ∨ n ∈ o.d.lanes (decOf i).sp.d.wr) ∧
            Tab.find? g'.threads p.1 = some (u.advance (decOf i) (s.hp tm g))

/-! ### Uniform instructions -/

/-- What an issue of a uniform instruction gives (R48, R130) when its checks pass on g registers and immediates: once for
the issue set, the value in D's g register, the predicates, and the instruction passed by every thread of the set. `src`
tells whose lane register a lane operand names. -/
def UnifGives (i : Instr) (src : Group → Nat × Thread → Nat × Thread) (out : UIn → UOut) : Prop :=
  ∀ (s : State) (tm : Team) (g : Group) (lo : Nat × Thread) (rest : List (Nat × Thread)) (o : Opds),
    s.group? s.cur.g = some (tm, g) → g.active s.cur.set = lo :: rest →
    (decOf i).checkUnif tm.kern g { (src g lo).2 with ri := lo.2.ri } = .go o →
    (∀ q, o.a ≠ .port q) → (∀ q, o.d ≠ .port q) →
    ∃ t g', exec i s = .next t ∧ OnlyGroup s t s.cur.g ∧ grp t s.cur.g = some g' ∧
      g' = { g with g := g'.g, ge := g'.ge, threads := g'.threads, front := g'.front } ∧
      (let r := out ((decOf i).uinOf o g { (src g lo).2 with ri := lo.2.ri } (lo :: rest))
       (∀ n, g'.reg n = match r.val with
         | some v => if o.d = .unif n then BitVec.ofNat 32 v else g.reg n
         | none => g.reg n) ∧
       (∀ n, n ∈ g'.ge ↔ n ∈ g.ge ∧ ¬ (o.d = .unif n ∧ r.val.isSome)) ∧
       ∀ p ∈ lo :: rest, ∃ u : Thread, u = { p.2 with p := u.p } ∧
         (∀ n, n < 7 → u.pred n
           = (lastOf (r.preds.filterMap fun q => if q.1 = p.1 then some q.2 else none) n).getD (p.2.pred n)) ∧
         Tab.find? g'.threads p.1 = some (u.advance (decOf i) (s.hp tm g))) ∧
      ∀ n, (∀ p ∈ lo :: rest, p.1 ≠ n) → Tab.find? g'.threads n = Tab.find? g.threads n

/-! ### Cross-lane instructions -/

/-- The members of a cross-lane issue with the values they read (R168): the threads of the issue whose checks pass and
whose bit of the member mask is set. -/
def members (x : Dec) (tm : Team) (g : Group) (set : List (Nat × Thread)) : List (Nat × LIn) :=
  set.filterMap fun p => match x.check tm.kern g p.2 with
    | .go o => if (x.memberMask g).testBit p.1 then some (p.1, x.linOf o g p.2 p.1) else none
    | _ => none

/-- A thread passes a cross-lane instruction by, or takes part in it with registers: its checks pass, and D is no port. -/
def CrossOk (x : Dec) (tm : Team) (g : Group) (p : Nat × Thread) : Prop :=
  x.check tm.kern g p.2 = .skip ∨ ∃ o, x.check tm.kern g p.2 = .go o ∧ ∀ q, o.d ≠ .port q

/-- What a cross-lane result gives a thread: its part of the answer, none when it has none, and p6. -/
def crossOut (out : XOut) (tid : Nat) : LOut :=
  let l := match (List.find? (fun q : Nat × LOut => q.1 == tid) out.lanes).map (·.2) with
    | some l => l
    | none => LOut.nil
  { l with preds := (match out.p6 with | some b => [(6, b)] | none => []) ++ l.preds }

/-- The g registers a cross-lane result writes, with their words. -/
def gWrites (x : Dec) (tm : Team) (g : Group) (set : List (Nat × Thread)) (out : XOut) : List (Nat × Word) :=
  match out.g, set.findSome? (fun p => match x.check tm.kern g p.2 with | .go o => some o | _ => none) with
  | some v, some o => (x.gDst o).zip (cutWords (x.gDst o).length v)
  | _, _ => []

/-- What an issue of a cross-lane instruction gives (R168): all its threads at once, out of the members' values; the g
registers of its total; and nothing else. -/
def CrossGives (i : Instr) (out : XIn → XOut) : Prop :=
  ∀ (s : State) (tm : Team) (g : Group), s.group? s.cur.g = some (tm, g) →
    (∀ p ∈ g.active s.cur.set, CrossOk (decOf i) tm g p) →
    ∃ t g', exec i s = .next t ∧ OnlyGroup s t s.cur.g ∧ grp t s.cur.g = some g' ∧
      g' = { g with g := g'.g, ge := g'.ge, threads := g'.threads, front := g'.front } ∧
      (let r := out ⟨(decOf i).pf.m, members (decOf i) tm g (g.active s.cur.set)⟩
       let w := gWrites (decOf i) tm g (g.active s.cur.set) r
       (∀ n, g'.reg n = (lastOf w n).getD (g.reg n)) ∧ (∀ n, n ∈ g'.ge ↔ n ∈ g.ge ∧ ∀ q ∈ w, q.1 ≠ n) ∧
       ∀ p ∈ g.active s.cur.set,
        ((decOf i).check tm.kern g p.2 = .skip →
          Tab.find? g'.threads p.1 = some (p.2.advance (decOf i) (s.hp tm g))) ∧
        ∀ o, (decOf i).check tm.kern g p.2 = .go o →
          ∃ u, LaneRes p.2 u (regWrites (decOf i) o (crossOut r p.1)) (crossOut r p.1) ∧
            Tab.find? g'.threads p.1 = some (u.advance (decOf i) (s.hp tm g))) ∧
      ∀ n, (∀ p ∈ g.active s.cur.set, p.1 ≠ n) → Tab.find? g'.threads n = Tab.find? g.threads n

/-! ### Memory instructions -/

/-- Accesses numbered in order from n. -/
def numbered : Nat → List Acc → List Acc
  | _, [] => []
  | n, a :: t => { a with id := n } :: numbered (n + 1) t

/-- From s to t the accesses `new` have been taken on, numbered in order, and group r has changed; of each core only its
kept translations may have changed; and nothing else: no byte of any memory, no other group, no other field. -/
def OnlyIssued (s t : State) (r : GRef) (new : List Acc) : Prop :=
  t = { s with teams := t.teams, cores := t.cores, accs := s.accs ++ numbered s.accNext new
               accNext := s.accNext + new.length } ∧
  (∀ c, t.core c = { s.core c with tlb := (t.core c).tlb }) ∧
  (∀ a b, bare t a b = bare s a b) ∧ ∀ r', r' ≠ r → grp t r' = grp s r'

/-- A thread passes a memory instruction by, or issues it: its checks pass, and its access meets no fault of R205. -/
def MemOk (x : Dec) (plan : LIn → Plan) (s : State) (tm : Team) (g : Group) (p : Nat × Thread) : Prop :=
  x.check tm.kern g p.2 = .skip ∨
  ∃ o w l, x.check tm.kern g p.2 = .go o ∧ s.planCheck g.core tm (plan (x.linOf o g p.2 p.1)) = .ok (w, l) ∧ w ≠ .card

/-- The accesses that the threads of an issue take on, each with the translations its checks have found. -/
def newAccs (x : Dec) (plan : LIn → Plan) (s : State) (tm : Team) (g : Group) (set : List (Nat × Thread)) : List Acc :=
  set.filterMap fun p => match x.check tm.kern g p.2 with
    | .go o => (match s.planCheck g.core tm (plan (x.linOf o g p.2 p.1)) with
      | .ok (_, l, l2) =>
        some ((plan (x.linOf o g p.2 p.1)).acc tm g [p.1] p.2 (destOf o.d (plan (x.linOf o g p.2 p.1)).dst) l l2)
      | .error _ => none)
    | _ => none

/-- What an issue of a memory instruction gives (R205, R206), while the table has room: each thread that performs it takes
on one access, its destination empties, and it passes the instruction. -/
def MemGives (i : Instr) (plan : LIn → Plan) : Prop :=
  ∀ (s : State) (tm : Team) (g : Group), s.group? s.cur.g = some (tm, g) →
    s.otUsed g.core + (decOf i).takers (g.active s.cur.set) ≤ 1024 →
    (∀ p ∈ g.active s.cur.set, MemOk (decOf i) plan s tm g p) →
    ∃ t g', exec i s = .next t ∧ OnlyIssued s t s.cur.g (newAccs (decOf i) plan s tm g (g.active s.cur.set)) ∧
      grp t s.cur.g = some g' ∧ g' = { g with threads := g'.threads, front := g'.front } ∧
      (∀ n, (∀ p ∈ g.active s.cur.set, p.1 ≠ n) → Tab.find? g'.threads n = Tab.find? g.threads n) ∧
      ∀ p ∈ g.active s.cur.set,
        ((decOf i).check tm.kern g p.2 = .skip →
          Tab.find? g'.threads p.1 = some (p.2.advance (decOf i) (s.hp tm g))) ∧
        ∀ o, (decOf i).check tm.kern g p.2 = .go o →
          ∃ u : Thread, u = { p.2 with we := u.we } ∧
            (∀ n, n ∈ u.we ↔ n ∈ p.2.we ∨ n ∈ o.d.lanes (decOf i).sp.d.wr) ∧
            Tab.find? g'.threads p.1 = some (u.advance (decOf i) (s.hp tm g))

/-- What an issue of a uniform memory instruction gives (R210), while the table has room: one access for the set, D's g
registers empty, and the instruction passed by every thread of the set. -/
def UMemGives (i : Instr) (plan : LIn → Plan) : Prop :=
  ∀ (s : State) (tm : Team) (g : Group) (lo : Nat × Thread) (rest : List (Nat × Thread)) (o : Opds) (w : Win)
    (l l2 : Option Leaf), s.group? s.cur.g = some (tm, g) → g.active s.cur.set = lo :: rest →
    s.otUsed g.core + 1 ≤ 1024 → (decOf i).checkUnif tm.kern g lo.2 = .go o →
    s.planCheck g.core tm (plan ((decOf i).linOf o g lo.2 lo.1)) = .ok (w, l, l2) →
    ∃ t g', exec i s = .next t ∧
      OnlyIssued s t s.cur.g [(plan ((decOf i).linOf o g lo.2 lo.1)).acc tm g ((lo :: rest).map (·.1)) lo.2
        (destOf o.d (plan ((decOf i).linOf o g lo.2 lo.1)).dst) l l2] ∧
      grp t s.cur.g = some g' ∧ g' = { g with ge := g'.ge, threads := g'.threads, front := g'.front } ∧
      (∀ n, n ∈ g'.ge ↔ n ∈ g.ge ∨ n ∈ o.d.unifs (decOf i).sp.d.wr) ∧
      (∀ p ∈ lo :: rest, Tab.find? g'.threads p.1 = some (p.2.advance (decOf i) (s.hp tm g))) ∧
      ∀ n, (∀ p ∈ lo :: rest, p.1 ≠ n) → Tab.find? g'.threads n = Tab.find? g.threads n

/-! ### Instructions that act thread by thread, and those that act once -/

/-- s and t are the same machine but for the frontier of group r (R273). -/
def Aside (s t : State) (r : GRef) : Prop := ∃ f : Group → List FEntry, t = s.updGroup r fun g => { g with front := f g }

/-- The machine executes instruction i in one thread, whose checks have passed (R114): c holds the thread, its group and
team, the fields and the operands. -/
structure Solo (i : Instr) (s : State) (c : One) : Prop where
  ref : c.r = s.cur.g
  group : s.group? c.r = some (c.tm, c.g)
  set : s.cur.set = [c.tid]
  thread : Tab.find? c.g.threads c.tid = some c.t
  ready : c.t.st = .ready
  prio : c.t.prio = s.cur.prio
  pc : c.t.pc = s.cur.pc
  ri : c.t.ri ≤ 64
  dec : c.x = decOf i
  check : c.x.check c.tm.kern c.g c.t = .go c.o

/-- An issue of i in one thread, as c has it, leaves the machine as `f s`, the group's frontier aside. -/
def Does (i : Instr) (s : State) (c : One) (f : State → State) : Prop := ∃ t, exec i s = .next t ∧ Aside (f s) t c.r

/-- The machine executes instruction i once for an issue set (R225, R238): c holds the set, the threads of G and the
lowest of them, whose checks have passed; no thread of G lacks its destination. -/
structure Whole (i : Instr) (s : State) (c : Once) : Prop where
  ref : c.r = s.cur.g
  group : s.group? c.r = some (c.tm, c.g)
  set : c.set = c.g.active s.cur.set
  dec : c.x = decOf i
  gset : c.gset = List.filter (fun p => !c.x.legal p.2 || c.x.guard p.2) c.set
  low : c.gset.head? = some (c.tid, c.t)
  check : c.x.check c.tm.kern c.g c.t = .go c.o
  dest : ∀ p ∈ c.gset, c.x.dstEmpty c.o p.2 c.g = false

/-- An issue of i, as c has it, leaves the machine as `f s`, the group's frontier aside. -/
def DoesOnce (i : Instr) (s : State) (c : Once) (f : State → State) : Prop := ∃ t, exec i s = .next t ∧ Aside (f s) t c.r

/-- The machine with u in place of the thread of c. -/
def puts (c : One) (u : Thread) (s : State) : State := s.updThread c.ref fun _ => u

/-- A thread u of c at the header h, reached by the transfer that c stands at (R93, R136): not yet inside that clause, at
its block priority. -/
def arrives (s : State) (c : One) (h : Nat) (u : Thread) : Thread :=
  { u with
    pc := h, hdr := h, inside := false, intd := false, from? := some c.t.pc, ri := 0, popped := none, st := .ready
    prio := match s.codeWord c.g.core c.tm.pasid h with | .ok (some w) => w / 2 ^ 13 % 256 | _ => c.t.prio }

/-- A thread that may leave identifier k (R141): it is in a set of threads parked there that name no live thread outside
the set. -/
def MayLeave (g : Group) (k tid : Nat) : Prop :=
  ∃ R : List Nat, tid ∈ R ∧ ∀ x ∈ R, ∃ t m, Tab.find? g.threads x = some t ∧ t.st = .rejoining k m ∧
    ∀ u v, Tab.find? g.threads u = some v → v.live = true → m.testBit u = true → u ∈ R

/-- A thread past its REJOIN, which is one word. -/
def pastRejoin (hp : Nat → Nat → Nat) (t : Thread) : Thread :=
  if t.pc + 4 = t.cend then
    { t with pc := t.cend, hdr := t.cend, inside := false, intd := false, prio := hp t.cend t.prio, from? := none, st := .ready }
  else { t with pc := t.pc + 4, st := .ready }

/-! ### What fences and tiles wait for -/

/-- The accesses of a thread that are outstanding. -/
def outstanding (s : State) (t : TRef) (a : Acc) : Prop := a ∈ s.accs ∧ a.t.g = t.g ∧ t.tid ∈ a.set

/-- The release part of a fence holds (R219, R315, R319, R332, R402): the thread's accesses and acquires are done; its die's
vector, and from device scope on every die's, covers the stamps of the writes that it has made or met; and at system scope its
stores are back in the pool. -/
def Released (s : State) (core : Nat) (t : TRef) (th : Thread) (scope : Nat) : Prop :=
  (∀ a, outstanding s t a → a.op = .resid ∨ ∃ v, a.op = .clock v) ∧
  (∀ d, d = core / 48 ∨ (3 ≤ scope ∧ d < 4) → (s.die d).v.covers (th.wrote.join th.seen) = true) ∧
  (scope = 4 → ∀ e ∈ s.frames, e.2.loc = false → ∀ k ∈ e.2.dirty, e.2.page * 1024 + k ∉ th.stored)

/-- The acquire part of a fence holds (R219, R319, R324, R333): the thread's loads, read-modify-writes and acquires are done,
none of its requests waits on a frozen stream, and from device scope on its die's vector covers what the thread has met. -/
def Acquired (s : State) (core : Nat) (t : TRef) (th : Thread) (scope : Nat) : Prop :=
  (∀ a, outstanding s t a → a.op.reads = false ∧ a.acq = false ∧
    ∀ b ∈ s.accs, b.st = .frozen → b.id ≤ a.id → b.t.g = t.g → b.stream = a.stream → s.remoteOf a = none) ∧
  (3 ≤ scope → (s.die (core / 48)).v.covers th.seen = true)

/-- Core n holds no copy in its L1 any more (R297, R319). -/
def emptyL1 (n : Nat) (s : State) : State := s.updCore n fun k => { k with l1 := [] }

/-- A thread has no access to some bytes of its member core's scratchpad outstanding, tile reads apart (R328). -/
def Quiet (s : State) (r : GRef) (tids : List Nat) (mc off n : Nat) : Prop :=
  ∀ a ∈ s.accs, a.t.g = r → (∃ x ∈ a.set, x ∈ tids) → (∃ k i, a.op = .ldc k i) ∨
    a.va + a.size ≤ 0xFE * 2 ^ 56 + mc * 2 ^ 20 + off ∨ 0xFE * 2 ^ 56 + mc * 2 ^ 20 + off + n ≤ a.va

/-- No acquire of some threads of a group is outstanding (R324 to R327). -/
def NoAcquire (s : State) (r : GRef) (tids : List Nat) : Prop :=
  ∀ a ∈ s.accs, a.t.g = r → (∃ x ∈ a.set, x ∈ tids) → a.acq = false

/-- No acquire of some threads of a group is outstanding, and no releasing access of theirs waits for its release (R324 to
R327: AQ and RL before TC). -/
def OrderHolds (s : State) (r : GRef) (tids : List Nat) : Prop :=
  NoAcquire s r tids ∧
  ∀ a ∈ s.accs, a.t.g = r → (∃ x ∈ a.set, x ∈ tids) → a.rel = true → a.st = .pending → s.releaseHolds a = true

/-- A tile number that a tile instruction may name: below TILES, and defined (R225). -/
def Named (c : One) (n : Nat) : Prop := n < c.tm.kern.tiles ∧ (c.tm.tile c.mc n).defd = true

/-- A thread has no deferred fault of a job that was to complete a tile or a barrier (R357). -/
def NoneDue (t : Thread) (tile : Option Nat) (bar : Option (Nat × Nat)) : Prop :=
  ∀ d ∈ t.defd, ∀ x y, d.kind = .engine x y → (tile = none ∨ x ≠ tile) ∧ (bar = none ∨ y ≠ bar)

/-- A hint dropped (R388): counted in its context, and under `.report` written to the partition's fault ring. -/
def dropped (s : State) (pasid va reason : Nat) (report : Bool) : State :=
  { s with
    cp := { s.cp with
      ctxs := Tab.adjust s.cp.ctxs pasid fun c => { c with hintDrops := min 0xFFFFFFFF (c.hintDrops + 1) } }
    parts := if report then Tab.adjust s.parts (s.partOf pasid) fun q =>
        q.push (.event reason pasid (va / 65536 * 65536)) else s.parts }

/-! ### The matrix sequence -/

/-- An operation on records rc, ra and rb that an issue puts into a core's matrix sequence, before it has its number. -/
def operation (c : Once) (s : State) (k : MKind) (rc ra rb layout : Nat) : MOp :=
  { id := 0, kind := k, g := c.r, tid := c.tid, c := rc, a := ra, b := rb, layout := layout, lines := [], seqNo := c.g.seq
    kblk := 0, reuse := c.x.pf.m.reuse, acc := s.accNext }

/-- The operation enters the matrix sequence of a core, last (R247). -/
def enters (core : Nat) (o : MOp) (s : State) : State :=
  s.updCore core fun k => { k with seq := k.seq ++ [{ o with id := k.opNext }], opNext := k.opNext + 1 }

/-- An operation that will push a status word is counted in its group (R251). -/
def counted (r : GRef) (s : State) : State := s.updGroup r fun g => { g with q0out := g.q0out + 1, seq := g.seq + 1 }

/-- Every thread of G has done what a release at a scope waits for (R219). -/
def AllReleased (s : State) (c : Once) (scope : Nat) : Prop := ∀ p ∈ c.gset, Released s c.g.core ⟨c.r, p.1⟩ p.2 scope

/-! ### Events -/

/-- The waits of a header hold for a thread of group g (R92): for each class of operation that its WAITSEL bits 9 to 12
select, no more than WAITN are outstanding. -/
def WaitsMet (s : State) (g : Group) (t : TRef) (hw : Nat) : Prop :=
  let n := hw / 2 ^ 5 % 16
  let mine := s.accs.filter fun a => decide (a.t.g = t.g ∧ t.tid ∈ a.set)
  (hw.testBit 9 = true → (mine.filter fun a => a.isLoad).length ≤ n) ∧
  (hw.testBit 10 = true → (mine.filter fun a => a.isStore).length ≤ n) ∧
  (hw.testBit 11 = true → ∀ e ∈ g.sfq, ∀ p ∈ e.res, p.1 ≠ t.tid) ∧
  (hw.testBit 12 = true → s.groupWork t.g ≤ n)

/-- Nothing takes the place of a thread's step at a header: no deferred fault (R357), no enabled source (R363). -/
def Free (g : Group) (th : Thread) : Prop := th.defd = [] ∧ (th.frame.inh = true ∨ th.pend &&& g.uli = 0#5)

end Sys2Proof.Claims
end

