-- ==== Sys2Proof/Safety.lean ====
section
/-! DEFINITION. What counts as a safe run: the machine goes on, and what it keeps stays in its canonical form. -/

namespace Sys2Proof.Safety

/-- Does a step answer a next state? -/
def goesOn (s : Machine.State) : Bool := match Machine.step s with | .next _ => true | _ => false

/-- The three memories are in canonical form: addresses rise strictly, and no entry holds what an unlisted address reads
as. -/
def memoriesOk (s : Machine.State) : Bool := Mem.wf s.hbm && Mem.wf s.pool && Mem.wf s.host

end Sys2Proof.Safety
end

