-- ==== Sys2Proof/Certificates/Slice0/Obligations.lean ====
section
/-! DEFINITION. The statements. -/

section Statements

open Sys2Proof
open Machine Claims

/-! ### The lane instructions -/

/-- The integer arithmetic instructions run in every thread of the issue that may run them, and write these results:
sums, differences and products (R118), the carried ones (R121), minima, maxima and addresses (R122). -/
def Obligations.IntegerArithmetic : Prop :=
  ∀ (pf : Pfx) (d a b : BitVec 8),
    LaneGives (.iadd pf d a b) (fun x => .words 1 (intRes x.m 32 (sval 32 x.a + sval 32 x.b))) ∧
    LaneGives (.isub pf d a b) (fun x => .words 1 (intRes x.m 32 (sval 32 x.a - sval 32 x.b))) ∧
    LaneGives (.imul pf d a b) (fun x => .words 1 (intRes x.m 32 (sval 32 x.a * sval 32 x.b))) ∧
    LaneGives (.imulh pf d a b) (fun x => .words 1 (wrapped 32 (sval 32 x.a * sval 32 x.b / 2 ^ 32))) ∧
    LaneGives (.imulhHu pf d a b) (fun x => .words 1 (x.a * x.b / 2 ^ 32)) ∧
    LaneGives (.imad pf d a b) (fun x => .words 1 (intRes x.m 32 (sval 32 x.a * sval 32 x.b + sval 32 x.d))) ∧
    LaneGives (.add64 pf d a b) (fun x => .words 2 (intRes x.m 64 (sval 64 x.a + sval 64 x.b))) ∧
    LaneGives (.sub64 pf d a b) (fun x => .words 2 (intRes x.m 64 (sval 64 x.a - sval 64 x.b))) ∧
    LaneGives (.mul64 pf d a b) (fun x => .words 2 (x.a * x.b)) ∧
    LaneGives (.addc pf d a b) (fun x =>
      .words 2 ((x.a + x.b + x.d % 2) % 2 ^ 32 + 2 ^ 32 * ((x.a + x.b + x.d % 2) / 2 ^ 32))) ∧
    LaneGives (.subb pf d a b) (fun x =>
      .words 2 (wrapped 32 ((x.a : Int) - x.b - (x.d % 2 : Nat)) + (if x.a < x.b + x.d % 2 then 2 ^ 32 else 0))) ∧
    LaneGives (.imin pf d a b) (fun x => .words 1 (if sval 32 x.a ≤ sval 32 x.b then x.a else x.b)) ∧
    LaneGives (.iminNu pf d a b) (fun x => .words 1 (min x.a x.b)) ∧
    LaneGives (.imax pf d a b) (fun x => .words 1 (if sval 32 x.a ≤ sval 32 x.b then x.b else x.a)) ∧
    LaneGives (.imaxNu pf d a b) (fun x => .words 1 (max x.a x.b)) ∧
    LaneGives (.lea pf d a b) (fun x => .words 2 (wrapped 64 (x.a + sval 32 x.b * 2 ^ x.m.scl.toNat)))

/-- The bitwise operations, the shifts by any count (R119), the fields of BFE and BFI (R120) and the bit counts.

Moves, the selection by a predicate (R123), comparisons into a predicate (R111, R124), predicate operations (R125)
and constants (R126). A write to p7 is ignored, for a thread has no such bit (R45). -/
def Obligations.LogicShiftsAndMoves : Prop :=
  (∀ (pf : Pfx) (d a b : BitVec 8),
       LaneGives (.and pf d a b) (fun x => .words 1 (x.a &&& x.b)) ∧
       LaneGives (.or pf d a b) (fun x => .words 1 (x.a ||| x.b)) ∧
       LaneGives (.xor pf d a b) (fun x => .words 1 (x.a ^^^ x.b)) ∧
       LaneGives (.andn pf d a b) (fun x => .words 1 (x.a &&& (x.b ^^^ (2 ^ 32 - 1)))) ∧
       LaneGives (.shl pf d a b) (fun x => .words 1 (if x.b < 32 then x.a * 2 ^ x.b % 2 ^ 32 else 0)) ∧
       LaneGives (.shr pf d a b) (fun x => .words 1 (if x.b < 32 then x.a / 2 ^ x.b else 0)) ∧
       LaneGives (.sar pf d a b) (fun x => .words 1 (wrapped 32
         (if x.b < 32 then sval 32 x.a / 2 ^ x.b else if sval 32 x.a < 0 then -1 else 0))) ∧
       LaneGives (.rot pf d a b) (fun x => .words 1
         (x.a % 2 ^ 32 * 2 ^ (x.b % 32) % 2 ^ 32 + x.a % 2 ^ 32 / 2 ^ (32 - x.b % 32))) ∧
       LaneGives (.funnel pf d a b) (fun x => .words 1 ((x.a * 2 ^ 32 + x.d) / 2 ^ (x.b % 64) % 2 ^ 32)) ∧
       LaneGives (.bfe pf d a b) (fun x =>
         let pos := x.b % 32
         let len := min (x.b / 2 ^ 8 % 64) (32 - pos)
         let f := x.a / 2 ^ pos % 2 ^ len
         .words 1 (wrapped 32 (if x.b.testBit 15 ∧ 0 < len ∧ 2 ^ (len - 1) ≤ f then (f : Int) - 2 ^ len else f))) ∧
       LaneGives (.bfi pf d a b) (fun x =>
         let pos := x.b % 32
         let len := min (x.b / 2 ^ 8 % 64) (32 - pos)
         .words 1 (x.d % 2 ^ pos + x.a % 2 ^ len * 2 ^ pos + x.d / 2 ^ (pos + len) * 2 ^ (pos + len))) ∧
       LaneGives (.popc pf d a) (fun x => .words 1 ((List.range 32).countP fun k => x.a.testBit k)) ∧
       LaneGives (.clz pf d a) (fun x => .words 1
         (((List.range 32).find? fun k => x.a % 2 ^ 32 / 2 ^ (31 - k) % 2 = 1).getD 32)) ∧
       LaneGives (.ctz pf d a) (fun x => .words 1 (((List.range 32).find? fun k => x.a.testBit k).getD 32)) ∧
       LaneGives (.brev pf d a) (fun x => .words 1
         ((List.range 32).foldl (fun r k => r + (if x.a.testBit k then 2 ^ (31 - k) else 0)) 0))) ∧
  (∀ (pf : Pfx) (d a b : BitVec 8) (c : BitVec 5) (p u v : BitVec 3) (k : BitVec 16),
       LaneGives (.mov pf d a) (fun x => .words 1 x.a) ∧
       LaneGives (.sel pf d a b) (fun x => .words 1 (if (x.t.pred x.m.gp.toNat) != x.m.gneg then x.a else x.b)) ∧
       LaneGives (.isetp pf c p a b) (fun x => .pred p.toNat (holds c.toNat 32 x.a x.b)) ∧
       LaneGives (.isetp64 pf c p a b) (fun x => .pred p.toNat (holds c.toNat 64 x.a x.b)) ∧
       LaneGives (.psetp pf c p u v) (fun x =>
         let y := x.t.pred u.toNat
         let z := x.t.pred v.toNat
         .pred p.toNat (match c.toNat with
           | 0 => y && z | 1 => y || z | 2 => y ^^ z | 3 => y && !z | 4 => !(y && z) | 5 => !(y || z) | 6 => !(y ^^ z)
           | _ => y)) ∧
       LaneGives (.movi pf d k) (fun _ => .words 1 k.toNat) ∧
       LaneGives (.movhi pf d k) (fun x => .words 1 (x.d % 2 ^ 16 + 2 ^ 16 * k.toNat)))

/-- IDOT4 adds four signed byte products to D, an immediate standing for each byte (R103, R127); DMULS rounds the exact
product over 10^k to an integer under its mode, nearest even when RND is 0 (R75, R128).

The hashes (R183), the Bloom masks (R185), and the string instructions on chunks of 16
bytes (R177, R180 to R182). -/
def Obligations.ProductsHashesAndStrings : Prop :=
  (∀ (pf : Pfx) (d a b : BitVec 8),
       LaneGives (.idot4 pf d a b) (fun x =>
         let byte := fun (v i : Nat) => sval 8 (v / 2 ^ (8 * i))
         .words 1 (intRes x.m 32 (sval 32 x.d + ((List.range 4).map fun i =>
           byte x.a i * byte x.b (if x.bImm then 0 else i)).sum))) ∧
       LaneGives (.dmuls pf d a b) (fun x =>
         let z := sval 64 x.a * sval 64 x.b
         let q := rounded (if x.m.rnd = 0#3 then 1 else x.m.rnd.toNat) (z / (10 ^ (x.d % 64) : Rat))
         .words 4 (wrapped 128 q))) ∧
  (∀ (pf : Pfx) (d a b : BitVec 8),
       LaneGives (.hash pf d a b) (fun x => .words 1 (fmix (BitVec.ofNat 32 (x.a ^^^ x.b))).toNat) ∧
       LaneGives (.hcomb pf d a b) (fun x => .words 1
         (fmix ((BitVec.ofNat 32 x.a).rotateLeft 7 + BitVec.ofNat 32 x.b)).toNat) ∧
       LaneGives (.bloom pf d a b) (fun x => .words 1
         (((List.range (min (x.b % 8) 4)).foldl (fun m i => m ||| 2 ^ (x.a / 2 ^ (5 * i) % 32)) 0))) ∧
       LaneGives (.scmp pf d a b) (fun x =>
         let s := fun i => x.a / 2 ^ (8 * i) % 256
         let t := fun i => x.b / 2 ^ (8 * i) % 256
         .words 1 (match (List.range 16).find? fun i => decide (s i ≠ t i ∨ s i = 0) with
           | some i => i + 2 ^ 8 * (if s i < t i then 1 else if t i < s i then 2 else 3)
           | none => 16)) ∧
       LaneGives (.sfind pf d a b) (fun x => .words 1 (find16 x.a (x.b % 256))) ∧
       LaneGives (.slen pf d a) (fun x => .words 1 (find16 x.a 0)) ∧
       LaneGives (.shash pf d a b) (fun x => .words 1
         (((List.range (find16 x.a 0)).foldl (fun c i => crcByte c (x.a / 2 ^ (8 * i) % 256)) x.b))))

/-- The checks before an instruction (R114) and the queue ports of class 0 and 1 (R55 to R58, R129), for one thread: a
check that fails raises its fault, an operand that is empty parks the thread, and neither writes anything. A pop is made
pending with the instruction, its destination empty, or with a predicate to write the thread parks; a push appends the
32-bit result to its channel, or waits with it, parked, while the channel is full. A uniform pop or push is one for the issue
set. -/
def Obligations.ChecksAndPorts : Prop :=
  ∀ (pf : Pfx) (d a b : BitVec 8) (c : BitVec 5) (p : BitVec 3) (s : State) (tm : Team) (g : Group) (tid : Nat) (th : Thread),
    let r := s.cur.g
    s.group? r = some (tm, g) → g.active s.cur.set = [(tid, th)] →
    let apart := fun (t : State) (new : List Pop) (wait : List PushWait) (g' : Group) => ∃ tm', t.group? r = some (tm', g') ∧
      tm' = { tm with groups := tm'.groups, pops := tm.pops ++ new, pushes := tm.pushes ++ wait } ∧
      (∀ x y, (x, y) ≠ (r.grid, r.team) → t.team? x y = s.team? x y) ∧ (∀ r', r' ≠ r → grp t r' = grp s r') ∧
      ∀ n, n ≠ tid → Tab.find? g'.threads n = Tab.find? g.threads n
    let parks := fun (i : Instr) (w : Wait) (new : List Pop) (wait : List PushWait) => ∃ t g', exec i s = .next t ∧
      t = { s with teams := t.teams } ∧ apart t new wait g' ∧ g' = { g with threads := g'.threads, front := g'.front } ∧
      Tab.find? g'.threads tid = some { th with st := .parked w }
    (∀ i ∈ [Instr.iadd pf d a b, .isub pf d a b, .imul pf d a b, .imulh pf d a b, .imulhHu pf d a b, .imad pf d a b,
        .add64 pf d a b, .sub64 pf d a b, .mul64 pf d a b, .addc pf d a b, .subb pf d a b, .imin pf d a b, .iminNu pf d a b,
        .imax pf d a b, .imaxNu pf d a b, .lea pf d a b, .and pf d a b, .or pf d a b, .xor pf d a b, .andn pf d a b,
        .shl pf d a b, .shr pf d a b, .sar pf d a b, .rot pf d a b, .funnel pf d a b, .bfe pf d a b, .bfi pf d a b,
        .sel pf d a b, .mov pf d a, .idot4 pf d a b, .dmuls pf d a b, .hash pf d a b, .hcomb pf d a b, .part pf d a b,
        .bloom pf d a b, .scmp pf d a b, .sfind pf d a b, .shash pf d a b, .fadd pf d a b, .fmul pf d a b, .ffma pf d a b,
        .fmin pf d a b, .fmax pf d a b, .hadd2 pf d a b, .hmul2 pf d a b, .hfma2 pf d a b, .bdot2 pf d a b, .dadd pf d a b,
        .dmul pf d a b, .dfma pf d a b, .hadd2Bf16 pf d a b, .hmul2Bf16 pf d a b, .hfma2Bf16 pf d a b, .ckadd pf d a b,
        .cksub pf d a b, .isetp pf c p a b, .fcmp pf c p a b],
      let x := decOf i
      (∀ f, x.check tm.kern g th = .fault f → ∃ u t, exec i s = .next t ∧ OnlyGroup s u r ∧
        (grp u r).map (fun g => { g with threads := [] }) = some { g with threads := [] } ∧
        (∀ n, thr u ⟨r, n⟩ = thr s ⟨r, n⟩) ∧ Aside (u.raise ⟨r, tid⟩ f 0 0) t r) ∧
      (x.check tm.kern g th = .park → parks i .reg [] []) ∧
      ∀ o q, x.check tm.kern g th = .go o → o.a = .port q →
        let v := x.linOf o g th tid
        let pop := fun (dst : Option Nat) => (⟨r, false, [tid], q, i, dst, v.b, v.d, th.pred pf.m.gp.toNat ^^ pf.m.gneg⟩ : Pop)
        (i ∈ [.isetp pf c p a b, .fcmp pf c p a b] → parks i .pop [pop none] []) ∧
        (i ∉ [.isetp pf c p a b, .fcmp pf c p a b] → ∃ (t : State) (g' : Group) (u : Thread), exec i s = .next t ∧
          t = { s with teams := t.teams } ∧ apart t [pop (some v.dreg)] [] g' ∧
          g' = { g with threads := g'.threads, front := g'.front } ∧ u = { th with we := u.we } ∧
          (∀ n, n ∈ u.we ↔ n ∈ th.we ∨ n ∈ o.d.lanes x.sp.d.wr) ∧
          Tab.find? g'.threads tid = some (u.advance x (s.hp tm g)))) ∧
    (let i := Instr.mov pf d a
     let x := decOf i
     ∀ o q, x.check tm.kern g th = .go o → o.d = .port q → (∀ k, o.a ≠ .port k) → (∀ w ∈ tm.pushes, w.port ≠ q) →
      th.st = .ready →
      (16 ≤ (queueOf tm g q).length →
        parks i .push [] [⟨r, [tid], i, q, BitVec.ofNat 32 (x.linOf o g th tid).a, [], 0, none⟩]) ∧
      ((queueOf tm g q).length < 16 → ∃ t tm' g', exec i s = .next t ∧
        t = { s with teams := t.teams, srcs := s.srcs ++ if queueOf tm g q = [] then [(r, 3)] else [] } ∧
        t.group? r = some (tm', g') ∧ tm' = { tm with groups := tm'.groups, chans := tm'.chans } ∧
        (∀ k, Tab.getD tm'.chans [] k
          = if k = q then queueOf tm g q ++ [BitVec.ofNat 32 (x.linOf o g th tid).a] else Tab.getD tm.chans [] k) ∧
        (∀ r', r' ≠ r → grp t r' = grp s r') ∧ g' = { g with threads := g'.threads, front := g'.front } ∧
        (∀ n, n ≠ tid → Tab.find? g'.threads n = Tab.find? g.threads n) ∧
        Tab.find? g'.threads tid = some (th.advance x (s.hp tm g)))) ∧
    (let i := Instr.uadd pf d a b
     let x := decOf i
     ∀ o, x.checkUnif tm.kern g th = .go o →
      let v := x.uinOf o g th [(tid, th)]
      (∀ q n, o.a = .port q → o.d = .unif n → ∃ t tm' g', exec i s = .next t ∧
        t = { s with teams := t.teams } ∧ t.group? r = some (tm', g') ∧ tm'.chans = tm.chans ∧
        tm'.pops = tm.pops ++ [⟨r, true, [tid], q, i, some n, v.b, v.d, th.pred pf.m.gp.toNat ^^ pf.m.gneg⟩] ∧
        g'.g = g.g ∧ (∀ m, m ∈ g'.ge ↔ m ∈ g.ge ∨ m = n) ∧
        Tab.find? g'.threads tid = some (th.advance x (s.hp tm g))) ∧
      (∀ q, o.d = .port q → (∀ k, o.a ≠ .port k) → (∀ w ∈ tm.pushes, w.port ≠ q) → (queueOf tm g q).length < 16 →
        ∃ t tm' g', exec i s = .next t ∧ t.group? r = some (tm', g') ∧ tm'.pops = tm.pops ∧ g'.g = g.g ∧
          queueOf tm' g' q = queueOf tm g q ++ [BitVec.ofNat 32 (intRes pf.m 32 (sval 32 v.a + sval 32 v.b))] ∧
          Tab.find? g'.threads tid = some (th.advance x (s.hp tm g))))

/-- PART maps a hash to one of b partitions (R184): its word is that of opcode 0x2A in the TRI form, it writes the floor of
the product of its unsigned operands over 2^32, and b = 0 gives 0. -/
def Obligations.PartitionIndex : Prop :=
  (∀ (pf : Pfx) (d a b : BitVec 8),
    LaneGives (.part pf d a b) (fun x => .words 1 (if x.b = 0 then 0 else x.a * x.b / 2 ^ 32))) ∧
  (∀ d a b : BitVec 8, decodeWords [2 ^ 24 * 0x2A + 2 ^ 16 * d.toNat + 2 ^ 8 * a.toNat + b.toNat]
    = .ok (.part Pfx.none d a b, 1)) ∧
  0x80000000 * 10 / 2 ^ 32 = 5

/-- FP32 arithmetic: the exact result, scaled, rounded once, resolved and clamped (R79, R150); FMIN and FMAX bit for bit
(R151); the conditions of FCMP (R152); the classes of FCLASS (R153); FRND, whose zero keeps the operand's sign (R154).

The packed arithmetic: each 16-bit element computed exactly and formed for itself (R156); BDOT2, rounded once into
FP32 (R157).

FP64 arithmetic on pairs (R155) and the conditions of DCMP (R152). -/
def Obligations.FloatArithmetic : Prop :=
  (∀ (pf : Pfx) (d a b : BitVec 8) (c : BitVec 5) (p : BitVec 3),
       LaneGives (.fadd pf d a b) (fun x => .words 1 (x.form .f32 (fsum x.mode [x.fa .f32, x.fb .f32]))) ∧
       LaneGives (.fmul pf d a b) (fun x => .words 1 (x.form .f32 ((x.fa .f32).mul (x.fb .f32)))) ∧
       LaneGives (.ffma pf d a b) (fun x =>
         .words 1 (x.form .f32 (fsum x.mode [(x.fa .f32).mul (x.fb .f32), decodeF .f32 x.d]))) ∧
       LaneGives (.fmin pf d a b) (fun x => .words 1 (
         if (x.fa .f32).isNan ∧ (x.fb .f32).isNan then 0x7FC00000
         else if (x.fa .f32).isNan then x.fbB .f32 else if (x.fb .f32).isNan then x.fbA .f32
         else if below (x.fbA .f32) (x.fbB .f32) then x.fbA .f32 else x.fbB .f32)) ∧
       LaneGives (.fmax pf d a b) (fun x => .words 1 (
         if (x.fa .f32).isNan ∧ (x.fb .f32).isNan then 0x7FC00000
         else if (x.fa .f32).isNan then x.fbB .f32 else if (x.fb .f32).isNan then x.fbA .f32
         else if below (x.fbA .f32) (x.fbB .f32) then x.fbB .f32 else x.fbA .f32)) ∧
       LaneGives (.fcmp pf c p a b) (fun x => .pred p.toNat (ordered c.toNat (x.fa .f32) (x.fb .f32))) ∧
       LaneGives (.fclass pf d a) (fun x => .words 1 (
         let neg := x.a.testBit 31
         let ex := x.a / 2 ^ 23 % 2 ^ 8
         let fr := x.a % 2 ^ 23
         2 ^ (if ex = 255 ∧ fr = 0 then (if neg then 0 else 7) else if ex = 255 then (if fr.testBit 22 then 9 else 8)
           else if ex = 0 ∧ fr = 0 then (if neg then 3 else 4) else if ex = 0 then (if neg then 2 else 5)
           else if neg then 1 else 6))) ∧
       LaneGives (.frnd pf d a) (fun x => .words 1 (formF .f32 1 x.m.satc.toNat 0 (match x.fa .f32 with
         | .fin n m e => .fin n (roundInt x.mode n m e 0).natAbs 0
         | v => v) false))) ∧
  (∀ (pf : Pfx) (d a b : BitVec 8),
       (∀ f i, (f, i) ∈ [(Fmt.f16, Instr.hadd2 pf d a b), (.bf16, .hadd2Bf16 pf d a b)] →
         LaneGives i fun x => .words 1 (both fun k =>
           (x.elem k).form f (fsum x.mode [(x.elem k).fa f, (x.elem k).fb f]))) ∧
       (∀ f i, (f, i) ∈ [(Fmt.f16, Instr.hmul2 pf d a b), (.bf16, .hmul2Bf16 pf d a b)] →
         LaneGives i fun x => .words 1 (both fun k => (x.elem k).form f (((x.elem k).fa f).mul ((x.elem k).fb f)))) ∧
       (∀ f i, (f, i) ∈ [(Fmt.f16, Instr.hfma2 pf d a b), (.bf16, .hfma2Bf16 pf d a b)] →
         LaneGives i fun x => .words 1 (both fun k =>
           (x.elem k).form f (fsum x.mode [((x.elem k).fa f).mul ((x.elem k).fb f), decodeF f (x.elem k).d]))) ∧
       LaneGives (.bdot2 pf d a b) (fun x => .words 1 (x.form .f32 (fsum x.mode [decodeF .f32 x.d,
         ((x.elem 0).fa .bf16).mul ((x.elem 0).fb .bf16), ((x.elem 1).fa .bf16).mul ((x.elem 1).fb .bf16)])))) ∧
  (∀ (pf : Pfx) (d a b : BitVec 8) (c : BitVec 5) (p : BitVec 3),
       LaneGives (.dadd pf d a b) (fun x => .words 2 (x.form .f64 (fsum x.mode [x.fa .f64, x.fb .f64]))) ∧
       LaneGives (.dmul pf d a b) (fun x => .words 2 (x.form .f64 ((x.fa .f64).mul (x.fb .f64)))) ∧
       LaneGives (.dfma pf d a b) (fun x =>
         .words 2 (x.form .f64 (fsum x.mode [(x.fa .f64).mul (x.fb .f64), decodeF .f64 x.d]))) ∧
       LaneGives (.dcmp pf c p a b) (fun x => .pred p.toNat (ordered c.toNat (x.fa .f64) (x.fb .f64))))

/-- A curve key holds each axis value that fits its axis (R84, R187): read back it is the same; the key's DC is d − 1;
canon keeps every axis and is idempotent. For 64-bit keys and for 128-bit keys.

CKPACK, CKADD, CKSUB, CKINS and CKWIDE make canonical keys of axis values that pass through fit: a value out of range
sets its af bit, and is clamped under SATC 01 and wrapped otherwise (R187, R189, R191, R192, R200). -/
def Obligations.CurveKeyCodecs : Prop :=
  (∀ w ∈ [61, 125], ∀ d, 0 < d → d ≤ 8 → ∀ v : List Nat, v.length = d → (∀ x ∈ v, x < 2 ^ (w / d)) →
       ckMake w d v < 2 ^ (w + 3) ∧ ckDim w (ckMake w d v) = d ∧
       (∀ a, ckAxis w (ckMake w d v) a = v.getD a 0) ∧ ckCanon w (ckMake w d v) = ckMake w d v) ∧
  (∀ (pf : Pfx) (d a b : BitVec 8) (q u : BitVec 1) (n y : BitVec 3),
       let w := if q = 1#1 then 125 else 61
       let r := if q = 1#1 then 2 else 1
       LaneGives (.ckpack pf d a q n) (fun x => fitted (2 * r) w (n.toNat + 1) x.m fun i =>
         x.a / 2 ^ (32 * r * i) % 2 ^ (32 * r)) ∧
       LaneGives (.ckadd pf d a b) (fun x =>
         let d := x.a / 2 ^ 61 % 8 + 1
         fitted 2 61 d x.m fun i => (axisUnder 61 d x.a i : Int) + axisUnder 61 d x.b i) ∧
       LaneGives (.cksub pf d a b) (fun x =>
         let d := x.a / 2 ^ 61 % 8 + 1
         fitted 2 61 d x.m fun i => (axisUnder 61 d x.a i : Int) - axisUnder 61 d x.b i) ∧
       LaneGives (.ckins pf d a q y) (fun x =>
         let d := x.d / 2 ^ w % 8 + 1
         fitted (2 * r) w d x.m fun i => if i = y.toNat then x.a else axisUnder w d x.d i) ∧
       LaneGives (.ckwide pf d a u) (fun x =>
         if u = 0#1 then
           .words 4 (ckMake 125 (x.a / 2 ^ 61 % 8 + 1)
             ((List.range (x.a / 2 ^ 61 % 8 + 1)).map (axisUnder 61 (x.a / 2 ^ 61 % 8 + 1) x.a)))
         else
           let d := x.a / 2 ^ 125 % 8 + 1
           fitted 2 61 d x.m fun i => (axisUnder 125 d x.a i : Int)))

/-- CKUNPK and CKAXIS write axes; one too wide for its registers sets its af bit (R187, R190). CKCMP and CKBOX compare
canonical keys (R193, R194). CKLVL gives the first and the last key of a cell and a key's level (R199).

CKNEXT and CKPREV move a cursor to the nearest key of a box and tell it by p6 (R195); CKSPLIT divides a box that is
not contiguous (R196); CKRLIST lists up to eight runs of a box's keys from the cursor (R197). -/
def Obligations.CurveKeysAndBoxes : Prop :=
  (∀ (pf : Pfx) (d a b : BitVec 8) (q : BitVec 1) (n p : BitVec 3) (c : BitVec 5) (m : BitVec 2) (l : BitVec 6),
       let w := if q = 1#1 then 125 else 61
       let r := if q = 1#1 then 2 else 1
       LaneGives (.ckunpk pf d a q) (fun x =>
         let dim := x.a / 2 ^ w % 8 + 1
         { LOut.nil with
           more := (List.range dim).flatMap fun i => wordsAt (x.dreg + r * i) r (axisUnder w dim x.a i)
           need := (List.range (r * dim)).map (x.dreg + ·)
           af := if dim = 1 ∧ 2 ^ (32 * r) ≤ axisUnder w dim x.a 0 then 1 else 0 }) ∧
       LaneGives (.ckaxis pf d a q n) (fun x =>
         let v := axisUnder w (x.a / 2 ^ w % 8 + 1) x.a n.toNat
         { LOut.words r (v % 2 ^ (32 * r)) with af := if 2 ^ (32 * r) ≤ v then 2 ^ n.toNat else 0 }) ∧
       LaneGives (.ckcmp pf c p a b) (fun x =>
         let w := if c.toNat < 8 then 61 else 125
         let y := ckCanon w x.a
         let z := ckCanon w x.b
         .pred p.toNat (match c.toNat % 8 with
           | 0 => y = z | 1 => y ≠ z | 2 => y < z | 3 => y ≤ z | 4 => y > z | 5 => y ≥ z
           | _ => ckDim w y = ckDim w z ∧ ∀ i < ckDim w y, ckAxis w y i ≤ ckAxis w z i)) ∧
       LaneGives (.ckbox pf c p a b) (fun x =>
         let y := ckCanon 61 x.a
         let lo := x.b % 2 ^ 64
         let hi := x.b / 2 ^ 64
         .pred p.toNat (match c.toNat with
           | 0 => inBox lo hi y | 1 => ¬ inBox lo hi y
           | _ => ckDim 61 y = ckDim 61 lo ∧ ckCanon 61 lo ≤ y ∧ y ≤ ckCanon 61 hi)) ∧
       LaneGives (.cklvl pf d a m l) (fun x =>
         let k := ckCanon 61 x.a
         let dim := ckDim 61 k
         let g := 2 ^ (min l.toNat (61 / dim) * dim)
         match m.toNat with
         | 0 => .words 2 (k / g * g)
         | 1 => .words 2 (k / g * g + (g - 1))
         | _ => .words 1 (((List.range (61 / dim)).map (· + 1)).foldl (fun t i => if k % 2 ^ 61 % 2 ^ (i * dim) = 0 then i else t) 0))) ∧
  (∀ (pf : Pfx) (d a b : BitVec 8),
       LaneGives (.cknext pf d a b) (fun x =>
         match (boxOf x.a).bind fun q => q.next (ckCanon 61 x.d) (x.b == 1) with
         | some k => { LOut.words 2 k with preds := [(6, true)] }
         | none => .pred 6 false) ∧
       LaneGives (.ckprev pf d a b) (fun x =>
         match (boxOf x.a).bind fun q => q.prev (ckCanon 61 x.d) (x.b == 1) with
         | some k => { LOut.words 2 k with preds := [(6, true)] }
         | none => .pred 6 false) ∧
       LaneGives (.cksplit pf d) (fun x =>
         match boxOf x.d with
         | some q =>
           if q.contiguous then .pred 6 false
           else
             { LOut.words 8 (q.split.1.lo + 2 ^ 64 * q.split.1.hi + 2 ^ 128 * (q.split.2.lo + 2 ^ 64 * q.split.2.hi)) with
               preds := [(6, true)] }
         | none => .pred 6 false) ∧
       LaneGives (.ckrlist pf d a b) (fun x =>
         let n := min x.b 8
         let runs := match boxOf x.a with | some q => q.runs (ckCanon 61 x.d) false n | none => ([], true)
         { LOut.nil with
           more := (match runs.1.getLast? with | some e => wordsAt x.dreg 2 (ckSucc e.2) | none => [])
             ++ [(x.dreg + 2, BitVec.ofNat 32 runs.1.length), (x.dreg + 3, if runs.2 then 1#32 else 0#32)]
             ++ runs.1.zipIdx.flatMap fun e => wordsAt (x.dreg + 4 + 4 * e.2) 4 (e.1.1 + e.1.2 * 2 ^ 64)
           need := (List.range (4 + 4 * n)).map (x.dreg + ·)
           preds := [(6, decide (0 < runs.1.length))] }))

/-! ### The queued instructions -/

/-- The special functions of a finite operand that is not zero, and of the specials (R162): each result is rounded once
under the mode and clamped. The roots, quotients, exponentials, logarithms and trigonometric values come as magnitudes
with what lies below them (assumption log 8).

Integer division truncates toward zero and the remainder has the dividend's sign; a divisor of 0 raises Integer
Divide, 0x11, and writes nothing (R163). -/
def Obligations.FunctionsAndDivision : Prop :=
  (∀ (pf : Pfx) (d a b : BitVec 8),
       SfuGives (.rcp pf d a) (fun x => special x (match x.fa .f32 with
         | .nan => (.nan, false) | .inf n => (.fin n 0 0, false)
         | .fin n m e => if m = 0 then (.inf n, false) else (divMag n 1 0 m e).val)) ∧
       SfuGives (.rsq pf d a) (fun x => special x (match x.fa .f32 with
         | .fin n 0 _ => (.inf n, false) | .inf false => (.fin false 0 0, false)
         | .fin false m e => (rsqMag m e).val | _ => (.nan, false))) ∧
       SfuGives (.sqrt pf d a) (fun x => special x (match x.fa .f32 with
         | .fin n 0 _ => (.fin n 0 0, false) | .inf false => (.inf false, false)
         | .fin false m e => (sqrtMag m e).val | _ => (.nan, false))) ∧
       SfuGives (.exp2 pf d a) (fun x => special x (match x.fa .f32 with
         | .nan => (.nan, false) | .inf true => (.fin false 0 0, false) | .inf false => (.inf false, false)
         | .fin n m e => if m = 0 then (.fin false 1 0, false) else (exp2Mag n m e).val)) ∧
       SfuGives (.log2 pf d a) (fun x => special x (match x.fa .f32 with
         | .fin _ 0 _ => (.inf true, false) | .inf false => (.inf false, false)
         | .fin false m e => (log2Mag m e).val | _ => (.nan, false))) ∧
       SfuGives (.sin pf d a) (fun x => special x (match x.fa .f32 with
         | .fin n m e => if m = 0 then (.fin n 0 0, false) else (sinMag n m e).val | _ => (.nan, false))) ∧
       SfuGives (.cos pf d a) (fun x => special x (match x.fa .f32 with
         | .fin _ m e => (cosMag m e).val | _ => (.nan, false))) ∧
       SfuGives (.tanh pf d a) (fun x => special x (match x.fa .f32 with
         | .nan => (.nan, false) | .inf n => (.fin n 1 0, false)
         | .fin n m e => if m = 0 then (.fin n 0 0, false) else (tanhMag n m e).val)) ∧
       SfuGives (.fdiv pf d a b) (fun x => special x (match x.fa .f32, x.fb .f32 with
         | .fin n m e, .fin k p f =>
           if p = 0 then (if m = 0 then .nan else .inf (n != k), false)
           else if m = 0 then (.fin (n != k) 0 0, false) else (divMag (n != k) m e p f).val
         | .inf n, .fin k _ _ => (.inf (n != k), false)
         | .fin n _ _, .inf k => (.fin (n != k) 0 0, false)
         | _, _ => (.nan, false)))) ∧
  (∀ (pf : Pfx) (d a b : BitVec 8),
       SfuGives (.idiv pf d a b) (fun x => if x.b = 0 then { LOut.nil with fault := some 0x11 } else
         .words 1 (intRes x.m 32 ((sval 32 x.a).tdiv (sval 32 x.b)))) ∧
       SfuGives (.idivNu pf d a b) (fun x => if x.b = 0 then { LOut.nil with fault := some 0x11 } else .words 1 (x.a / x.b)) ∧
       SfuGives (.irem pf d a b) (fun x => if x.b = 0 then { LOut.nil with fault := some 0x11 } else
         .words 1 (wrapped 32 (sval 32 x.a - sval 32 x.b * (sval 32 x.a).tdiv (sval 32 x.b)))) ∧
       SfuGives (.iremNu pf d a b) (fun x => if x.b = 0 then { LOut.nil with fault := some 0x11 } else .words 1 (x.a % x.b))) ∧
  (∀ (pf : Pfx) (d a b : BitVec 8) (s : State) (c : One),
       ∀ i ∈ [Instr.idiv pf d a b, .idivNu pf d a b, .irem pf d a b, .iremNu pf d a b], Solo i s c → c.g.sfq.length < 32 →
       c.vals.b = 0 → ∃ u t, exec i s = .next t ∧ OnlyGroup s u c.r ∧
         (grp u c.r).map (fun g => { g with threads := [] }) = some { c.g with threads := [] } ∧
         (∀ n, thr u ⟨c.r, n⟩ = thr s ⟨c.r, n⟩) ∧ Aside (u.raise c.ref 0x11 0 0) t c.r)

/-- The conversions between floating formats (R158), to integers, always saturating (R83, R159), and from them (R160);
the generator steps once for a stochastic element (R78).

A scale byte names the least exponent E for which m / 2^E does not exceed the format's largest magnitude, one less when
QSCALE.adapt lowers it, clamped to a byte biased by 127 (R74, R164, R165); a QUNPK element is decoded and scaled (R167).

Where a special function or a division by a number that is not 0 issues in one thread, the machine goes on: the queue has one
entry more, with the register and its word, the register is empty, and the thread is past the instruction (R161). -/
def Obligations.ConversionsAndQuantisation : Prop :=
  (∀ (pf : Pfx) (d a : BitVec 8) (y z : BitVec 4),
       SfuGives (.f2f pf d a y z) (fun x =>
         let rs := if x.m.rnd = 6#3 then rsStep x.t.rs else x.t.rs
         let f := fmtOf y.toNat
         let v := (x.fa (fmtOf z.toNat)).scale (sval 4 x.m.scl.toNat)
         let mode := if x.m.rnd = 0#3 then 1 else x.m.rnd.toNat
         { LOut.words f.nregs (rndBits f (clampF f x.m.satc.toNat (resolve f mode x.m.satc.toNat v false (rs.toNat / 2 ^ 8)).1)) with
           rs := some rs }) ∧
       SfuGives (.f2i pf d a y z) (fun x =>
         let rs := if x.m.rnd = 6#3 then rsStep x.t.rs else x.t.rs
         let w := (intFmt y.toNat).1
         let least : Int := if (intFmt y.toNat).2 then -2 ^ (w - 1) else 0
         let most : Int := if (intFmt y.toNat).2 then 2 ^ (w - 1) - 1 else 2 ^ w - 1
         { LOut.words (if w = 64 then 2 else 1) (wrapped (max w 32)
             (match (x.fa (fmtOf z.toNat)).scale (sval 4 x.m.scl.toNat) with
             | .nan => 0
             | .inf neg => if neg then least else most
             | .fin neg m e =>
               max least (min most (roundInt (if x.m.rnd = 0#3 then 2 else x.m.rnd.toNat) neg m e (rs.toNat / 2 ^ 8))))) with
           rs := some rs }) ∧
       SfuGives (.i2f pf d a y z) (fun x =>
         let v : Int := if (intFmt z.toNat).2 then sval (intFmt z.toNat).1 x.a else ((x.a % 2 ^ (intFmt z.toNat).1 : Nat) : Int)
         .words (fmtOf y.toNat).nregs (x.form (fmtOf y.toNat) (.fin (v < 0) v.natAbs 0)))) ∧
  (∀ (pf : Pfx) (d a b : BitVec 8) (e : BitVec 3) (f : BitVec 4),
       SfuGives (.qscale pf d a b) (fun x => .words 1 (scaleByte x.b (x.fa .f32) false)) ∧
       SfuGives (.qscaleAdapt pf d a b) (fun x => .words 1 (scaleByte 7 (x.fa .f32) (x.b < x.d % 2 ^ 16))) ∧
       SfuGives (.qunpk pf d a e f) (fun x =>
         let w := (fmtOf f.toNat).body + 1
         let sc : Nat := x.a / 2 ^ 32 % 2 ^ 8
         let v : FVal := if sc = 255 then .nan
           else (decodeF (fmtOf f.toNat) (x.a % 2 ^ 32 / 2 ^ (w * e.toNat))).scale ((sc : Int) - 127)
         special x (v, false))) ∧
  (∀ (pf : Pfx) (d a b : BitVec 8) (s : State) (c : One),
       let ways := [Instr.idiv pf d a b, .idivNu pf d a b, .irem pf d a b, .iremNu pf d a b]
       ∀ i ∈ [Instr.rcp pf d a, .rsq pf d a, .sqrt pf d a, .exp2 pf d a, .log2 pf d a, .sin pf d a, .cos pf d a, .tanh pf d a,
         .fdiv pf d a b] ++ ways,
       Solo i s c → c.g.sfq.length < 32 → (i ∈ ways → c.vals.b ≠ 0) →
       ∃ (t : State) (g' : Group) (u : Thread) (v : Word), exec i s = .next t ∧ OnlyGroup s t c.r ∧ grp t c.r = some g' ∧
         g' = { c.g with threads := g'.threads, front := g'.front, sfq := g'.sfq, sfNext := c.g.sfNext + 1 } ∧
         g'.sfq = c.g.sfq ++ [⟨c.g.sfNext, [(c.tid, [(c.dreg, v)])]⟩] ∧
         u = { c.t with we := u.we } ∧ (∀ n, n ∈ u.we ↔ n ∈ c.t.we ∨ n = c.dreg) ∧
         Tab.find? g'.threads c.tid = some (u.advance c.x (s.hp c.tm c.g)))

/-- The exponent of a scale byte (R164, R165): for a finite m·2^e that is not 0 and a format of largest magnitude M, E is
the one integer with M·2^(E−1) < m·2^e ≤ M·2^E, one less when lowered, and the byte is it, clamped, plus 127.

QPACK encodes four values under one scale in order (R80 to R82), and counts the underflows and the clips into the
register above the codes, saturating; with REC it adds them to the team's record (R166, R300). One thread's issue. -/
def Obligations.CrossLaneQuantisation : Prop :=
  (∀ c ∈ [4, 5, 6, 7], ∀ (n low : Bool) (m : Nat) (e E : Int), 0 < m →
       (maxFinite c : Rat) * 2 ^ (E - 1) < m * 2 ^ e → (m : Rat) * 2 ^ e ≤ maxFinite c * 2 ^ E →
       (scaleByte c (.fin n m e) low : Int) = max (-127) (min (if low then E - 1 else E) 127) + 127) ∧
  (∀ (pf : Pfx) (d a b : BitVec 8) (s : State) (c : One), Solo (.qpack pf d a b) s c → c.g.sfq.length < 32 →
       let x := c.vals
       let n := x.b / 2 ^ 12 % 16
       let r := packed4 (fmtOf (x.b / 2 ^ 8 % 16)) x.m (x.b % 2 ^ 8) x.a c.t.rs
       4 ≤ x.b / 2 ^ 8 % 16 → x.b / 2 ^ 8 % 16 ≤ 7 →
       (x.b.testBit 16 = true →
         ∃ e, Tab.find? (s.core c.g.core).recs n = some e ∧ e.grid = c.tm.grid ∧ e.team = c.tm.team) →
       ∃ (t : State) (g' : Group) (th : Thread), exec (.qpack pf d a b) s = .next t ∧ grp t c.r = some g' ∧
         g'.sfq = c.g.sfq ++ [⟨c.g.sfNext, [(c.tid, [(c.dreg, BitVec.ofNat 32 r.codes),
           (c.dreg + 1, BitVec.ofNat 32 (min 65535 (x.d % 2 ^ 16 + r.under) + 2 ^ 16 * min 65535 (x.d / 2 ^ 16 + r.clip)))])]⟩] ∧
         th = { c.t with rs := r.rs, we := th.we } ∧ (∀ k, k ∈ th.we ↔ k ∈ c.t.we ∨ k = c.dreg ∨ k = c.dreg + 1) ∧
         Tab.find? g'.threads c.tid = some (th.advance c.x (s.hp c.tm c.g)) ∧
         t = { s with teams := t.teams, cores := t.cores } ∧ (∀ r', r' ≠ c.r → grp t r' = grp s r') ∧
         ∀ m, t.core m = if m = c.g.core ∧ x.b.testBit 16 = true then
             { s.core m with recs := Tab.adjust (s.core m).recs n fun e =>
               { e with under := min 65535 (e.under + r.under), clip := min 65535 (e.clip + r.clip) } }
           else s.core m)

/-! ### The uniform and the cross-lane instructions -/

/-- The uniform instructions execute once for the issue set (R48, R130): results in a g register; USETP gives every thread
of the set the same predicate and USEL looks at the lowest thread's (R131). -/
def Obligations.UniformArithmetic : Prop :=
  ∀ (pf : Pfx) (d a b : BitVec 8) (c : BitVec 5) (p : BitVec 3) (k : BitVec 16),
    UnifGives (.uadd pf d a b) own (fun x => ⟨some (intRes x.m 32 (sval 32 x.a + sval 32 x.b)), []⟩) ∧
    UnifGives (.usub pf d a b) own (fun x => ⟨some (intRes x.m 32 (sval 32 x.a - sval 32 x.b)), []⟩) ∧
    UnifGives (.umul pf d a b) own (fun x => ⟨some (intRes x.m 32 (sval 32 x.a * sval 32 x.b)), []⟩) ∧
    UnifGives (.uand pf d a b) own (fun x => ⟨some (x.a &&& x.b), []⟩) ∧
    UnifGives (.uor pf d a b) own (fun x => ⟨some (x.a ||| x.b), []⟩) ∧
    UnifGives (.uxor pf d a b) own (fun x => ⟨some (x.a ^^^ x.b), []⟩) ∧
    UnifGives (.ushl pf d a b) own (fun x => ⟨some (if x.b < 32 then x.a * 2 ^ x.b % 2 ^ 32 else 0), []⟩) ∧
    UnifGives (.ushr pf d a b) own (fun x => ⟨some (if x.b < 32 then x.a / 2 ^ x.b else 0), []⟩) ∧
    UnifGives (.usetp pf c p a b) own (fun x =>
      ⟨none, x.set.map fun t => (t.1, p.toNat, holds c.toNat 32 x.a x.b)⟩) ∧
    UnifGives (.usel pf d a b) own (fun x =>
      ⟨some (if (x.set.head?.any fun t => t.2.pred x.m.gp.toNat != x.m.gneg) then x.a else x.b), []⟩) ∧
    UnifGives (.umov pf d a) own (fun x => ⟨some x.a, []⟩) ∧
    UnifGives (.umovi pf d k) own (fun _ => ⟨some k.toNat, []⟩) ∧
    UnifGives (.umovhi pf d k) own (fun x => ⟨some (x.d % 2 ^ 16 + 2 ^ 16 * k.toNat), []⟩)

/-- ELECT makes the predicate of at most one thread of the set true: the first, the last, the first of a mask, or the
member of a rank modulo the set's size (R132). UBCAST copies a lane register of one lane of the group, or of the set's
lowest thread, to a g register (R134).

The shuffles: each member takes the value of a source member, or keeps its own when there is none (R169); PERM
gathers by rank (R170).

VOTE's four summaries, each for a set with no member too (R171); MATCH's mask or leader and rank of the members that
hold a member's value (R172); POPM's count of the live members below a member (R173). -/
def Obligations.ShufflesAndVotes : Prop :=
  (∀ (pf : Pfx) (d a : BitVec 8) (c : BitVec 5) (p : BitVec 3) (f : BitVec 1) (l : BitVec 6),
       UnifGives (.elect pf c p a) own (fun x =>
         let ts := x.set.map (·.1)
         let who := match c.toNat with
           | 0 => ts.head? | 1 => ts.getLast? | 2 => ts.find? fun t => x.a.testBit t | _ => ts[x.a % ts.length]?
         ⟨none, ts.map fun t => (t, p.toNat, who = some t)⟩) ∧
       UnifGives (.ubcast pf d a f l) (fun g lo =>
           if f = 1#1 then lo else ((Tab.find? g.threads l.toNat).map fun t => (l.toNat, t)).getD lo)
         (fun x => ⟨some x.a, []⟩)) ∧
  (∀ (pf : Pfx) (d a : BitVec 8) (n f : BitVec 4),
       CrossGives (.shfl pf d a n f) (fun x => ⟨x.mem.map fun p => (p.1, .words 1 (shuffled f.toNat x p)), none, none⟩) ∧
       CrossGives (.shflx pf d a n f) (fun x => ⟨x.mem.map fun p => (p.1, .words 2 (shuffled f.toNat x p)), none, none⟩) ∧
       CrossGives (.perm pf d a n) (fun x =>
         ⟨x.mem.map fun p => (p.1, .words 1 ((x.mem[p.2.d % x.mem.length]?).elim 0 (·.2.a))), none, none⟩)) ∧
  (∀ (pf : Pfx) (d a : BitVec 8) (n f : BitVec 4),
       CrossGives (.vote pf d a n f) (fun x =>
         let live := (x.mem.filter fun p => p.2.a ≠ 0).map (·.1)
         let other := x.mem.find? fun p => p.2.a ≠ (x.mem.head?.elim 0 (·.2.a))
         let r : Nat × Nat := match f.toNat with
           | 0 => ((live.map (2 ^ ·)).sum % 2 ^ 32, (live.map (2 ^ ·)).sum / 2 ^ 32)
           | 1 => (live.length, x.mem.length)
           | 2 => (if other.isNone then 1 else 0, other.elim 64 (·.1))
           | _ => (live.head?.getD 64, live.getLast?.getD 64)
         ⟨[], some (r.1 + 2 ^ 32 * r.2), none⟩) ∧
       CrossGives (.matchL pf d a n f) (fun x =>
         ⟨x.mem.map fun p =>
           let same := (x.mem.filter fun q => q.2.a = p.2.a).map (·.1)
           (p.1, .words 2 (if f.getLsbD 1 then same.head?.getD 0 + 2 ^ 32 * (same.filter (· < p.1)).length
             else (same.map (2 ^ ·)).sum)), none, none⟩) ∧
       CrossGives (.popm pf d a n f) (fun x =>
         ⟨x.mem.map fun p => (p.1, .words 1 ((x.mem.filter fun q => q.2.a ≠ 0 ∧ (q.1 < p.1 ∨ (f = 1#4 ∧ q.1 = p.1))).length)),
          none, none⟩))

/-- REDUCE and SCAN combine the members' values in ascending tid, give the identity for none, and tell by p6 whether there
is a member (R174, R175); the floating forms round an exact combination once.

HDM.16 and HDM.32 transform each aligned group of lanes whose lanes are all members, in stages of sums and differences
rounded to nearest even, and write no other lane (R176). -/
def Obligations.ReductionsAndHadamard : Prop :=
  (∀ (pf : Pfx) (d a : BitVec 8) (n f : BitVec 4),
       CrossGives (.reduce pf d a n f) (fun x =>
         ⟨[], some (combined (f.toNat % 8) (x.mem.map (·.2.a))), some (x.mem ≠ [])⟩) ∧
       CrossGives (.reduceF pf d a n f) (fun x =>
         ⟨[], some (combinedF (f.toNat % 8) (x.mem.map fun p => p.2.fbA .f32)), some (x.mem ≠ [])⟩) ∧
       CrossGives (.scan pf d a n f) (fun x =>
         ⟨x.mem.zipIdx.map fun p => (p.1.1, .words 1 (combined (f.toNat % 8)
             ((x.mem.map (·.2.a)).take (if f.getLsbD 3 then p.2 else p.2 + 1)))),
          some (combined (f.toNat % 8) (x.mem.map (·.2.a))), some (x.mem ≠ [])⟩) ∧
       CrossGives (.scanF pf d a n f) (fun x =>
         ⟨x.mem.zipIdx.map fun p => (p.1.1, .words 1 (combinedF (f.toNat % 8)
             ((x.mem.map fun p => p.2.fbA .f32).take (if f.getLsbD 3 then p.2 else p.2 + 1)))),
          some (combinedF (f.toNat % 8) (x.mem.map fun p => p.2.fbA .f32)), some (x.mem ≠ [])⟩)) ∧
  (∀ (pf : Pfx) (d a : BitVec 8) (n : BitVec 4), ∀ q ∈ [(4, Instr.hdm16 pf d a n), (5, .hdm32 pf d a n)],
       CrossGives q.2 (fun x =>
         ⟨(List.range (64 / 2 ^ q.1)).flatMap fun b =>
           let lanes := (List.range (2 ^ q.1)).map fun i => 2 ^ q.1 * b + i
           let vals := lanes.filterMap fun t => (x.mem.find? fun p => p.1 = t).map (·.2.a)
           if vals.length = 2 ^ q.1 then (lanes.zip (transformed vals q.1)).map fun p => (p.1, .words 1 p.2) else [],
          none, none⟩))

/-! ### Memory instructions: what an issue asks for -/

/-- The weak loads of the lane file ask for 1 to 16 bytes at base plus offset, aligned to their size (R204, R206, R208).

The weak stores ask to write the low bytes of D (R206, R208), in memory, the scratchpad or the tile aperture (R202);
a store of 16 bytes that names the copy-engine window is stated apart. -/
def Obligations.WeakAccesses : Prop :=
  (∀ (pf : Pfx) (d a b : BitVec 8), ∀ q ∈ [(1, false, Instr.ldZ8 pf d a b), (1, true, .ldS8 pf d a b),
         (2, false, .ldZ16 pf d a b), (2, true, .ldS16 pf d a b), (4, false, .ld pf d a b), (8, false, .ldB64 pf d a b),
         (16, false, .ldB128 pf d a b)],
       MemGives q.2.2 (fun x => { asked (address x) q.1 1 x.m.scl.toNat (.load q.1 q.2.1) with
         dst := max 1 (q.1 / 4), isLoad := true, need := ⟨true, false, false⟩ })) ∧
  (∀ (pf : Pfx) (d a b : BitVec 8), ∀ q ∈ [(1, Instr.stB8 pf d a b), (2, .stB16 pf d a b), (4, .st pf d a b),
         (8, .stB64 pf d a b), (16, .stB128 pf d a b)],
       MemGives q.2 (fun x => { asked (address x) q.1 2 x.m.scl.toNat (.store (toLE q.1 x.d)) with
         isStore := true, need := ⟨false, true, false⟩, inTile := true, inCard := q.1 = 16 }))

/-- The strong accesses LDS, STS, ATOM, CAS and RED ask for one access at pairA at their scope, ORDER bit 0 acquiring and
bit 1 releasing (R207, R213 to R217). -/
def Obligations.StrongAccesses : Prop :=
  ∀ (pf : Pfx) (d a : BitVec 8) (z : BitVec 2) (sc : BitVec 3) (o : BitVec 4) (k : BitVec 1),
    let n := 4 * 2 ^ z.toNat
    let w := if k = 1#1 then 8 else 4
    MemGives (.lds pf d a z sc) (fun x => { strongly x n 3 sc.toNat (.load n false) with
      dst := n / 4, isLoad := true, need := ⟨true, false, false⟩ }) ∧
    MemGives (.sts pf d a z sc) (fun x => { strongly x n 4 sc.toNat (.store (toLE n x.d)) with
      isStore := true, need := ⟨false, true, false⟩ }) ∧
    MemGives (.atom pf d a o k sc) (fun x =>
      { strongly x w 5 sc.toNat (.atom o.toNat (k = 1#1) (x.d % 2 ^ (8 * w)) (x.m.rnd = 0#3)) with
        dst := if x.m.rnd = 0#3 then w / 4 else 0, isLoad := x.m.rnd = 0#3, isStore := x.m.rnd ≠ 0#3
        need := ⟨true, true, false⟩ }) ∧
    MemGives (.cas pf d a z sc) (fun x =>
      { strongly x n 5 sc.toNat (.cas n (x.d % 2 ^ (8 * n)) (x.d / 2 ^ (8 * n) % 2 ^ (8 * n))) with
        dst := n / 4, isLoad := true, need := ⟨true, true, false⟩ }) ∧
    MemGives (.red pf d a o k sc) (fun x =>
      { strongly x w 5 sc.toNat (.red o.toNat (k = 1#1) (x.d % 2 ^ (8 * w))) with
        isStore := true, need := ⟨false, true, false⟩ })

/-- SLDX and SSTX move a chunk of a string at any alignment (R178, R179); TBINIT and TBEXP act on a transaction barrier of
16 bytes in the scratchpad window (R234, R235).

The uniform loads and stores make one access for the issue set (R210). -/
def Obligations.ChunksBarrierObjectsAndUniformMemory : Prop :=
  (∀ (pf : Pfx) (d a : BitVec 8) (u : BitVec 1) (k : BitVec 4),
       let n := k.toNat + 1
       MemGives (.sldx pf d a u k) (fun x => { asked x.a n 1 0 (.sldx n (u = 1#1)) with
         align := 1, dst := 4, isLoad := true, need := ⟨true, false, false⟩ }) ∧
       MemGives (.sstx pf d a u k) (fun x =>
         let bytes := (List.range n).map fun i => BitVec.ofNat 8 (x.d / 2 ^ (8 * i))
         let kept := if u = 1#1 then bytes.takeWhile (· ≠ 0#8) ++ (bytes.dropWhile (· ≠ 0#8)).take 1 else bytes
         { asked x.a kept.length 2 0 (.store kept) with
           align := 1, isStore := true, need := ⟨false, true, false⟩, inTile := true }) ∧
       MemGives (.tbinit pf d a) (fun x => { asked x.a 16 5 0 (.tbinit (x.d % 2 ^ 24)) with strong := true, inUser := false }) ∧
       MemGives (.tbexp pf d a) (fun x => { asked x.a 16 5 0 (.tbexp x.d) with strong := true, inUser := false })) ∧
  (∀ (pf : Pfx) (d a b : BitVec 8),
       (∀ q ∈ [(4, Instr.uld pf d a b), (8, .uldB64 pf d a b)],
         UMemGives q.2 (fun x => { asked (address x) q.1 1 x.m.scl.toNat (.load q.1 false) with
           dst := q.1 / 4, isLoad := true, need := ⟨true, false, false⟩ })) ∧
       (∀ q ∈ [(4, Instr.ust pf d a b), (8, .ustB64 pf d a b)],
         UMemGives q.2 (fun x => { asked (address x) q.1 2 x.m.scl.toNat (.store (toLE q.1 x.d)) with
           isStore := true, need := ⟨false, true, false⟩, inTile := true })))

/-- A job card (R254, R272): a 16-byte store to the copy-engine window by one thread leaves the card as an access that carries
it, and the thread stays at the store, not parked, until its channel has accepted it; then it goes on. Nothing is stored. -/
def Obligations.JobCardStore : Prop :=
  ∀ (pf : Pfx) (d a b : BitVec 8) (s : State) (c : One) (l : Option Leaf × Option Leaf),
    Solo (.stB128 pf d a b) s c → s.otUsed c.g.core + 1 ≤ 1024 →
    let p : Plan := { asked (address c.vals) 16 2 c.vals.m.scl.toNat (.store (toLE 16 c.vals.d)) with
      isStore := true, need := ⟨false, true, false⟩, inTile := true, inCard := true }
    s.planCheck c.g.core c.tm p = .ok (.card, l) →
    let given := ∃ y ∈ s.accs, y.cardOf ⟨c.tm.ref c.g.gid, c.tid⟩ c.t.pc c.t.ri = true
    let goes := fun (new : List Acc) (u : Thread) => ∃ t g', exec (.stB128 pf d a b) s = .next t ∧ OnlyIssued s t c.r new ∧
      grp t c.r = some g' ∧ g' = { c.g with threads := g'.threads, front := g'.front } ∧
      (∀ n, n ≠ c.tid → Tab.find? g'.threads n = Tab.find? c.g.threads n) ∧ Tab.find? g'.threads c.tid = some u
    (c.t.popped = none → ¬ given →
      goes [{ (p.acc c.tm c.g [c.tid] c.t none none none) with op := .card (ofLE (toLE 16 c.vals.d)) }] c.t) ∧
    (c.t.popped = none → given → goes [] c.t) ∧
    (c.t.popped.isSome → goes [] (c.t.advance c.x (s.hp c.tm c.g)))

/-! ### Control and system instructions -/

/-- BRA, BRAU and CALL move a thread to the header of R96; BRX, CALLX, RET and CSW to a byte offset of the code, or raise
0x02 there when the offset is misaligned (R97, R136 to R140). CALL and CALLX leave the next header's offset in link, CSW
in its pair with the frame pointer. -/
def Obligations.Transfers : Prop :=
  ∀ (pf : Pfx) (o : BitVec 16) (a : BitVec 8) (s : State) (c : One),
    let near := wrapped 64 ((c.t.hdr : Int) + 4 * sval 16 o.toNat)
    let next := BitVec.ofInt 32 ((c.t.cend : Int) - c.tm.kern.code)
    let there := fun (off : Nat) => (c.tm.kern.code + off) % 2 ^ 64
    let goes := fun (h : Nat) (u : Thread) => puts c (arrives s c h u)
    (Solo (.bra pf o) s c → Does (.bra pf o) s c (goes near c.t)) ∧
    (∀ g, Solo (.brau pf g o) s c →
      Does (.brau pf g o) s c (if c.vals.d ≠ 0 then goes near c.t else c.done)) ∧
    (Solo (.call pf o) s c → Does (.call pf o) s c (goes near { c.t with link := next })) ∧
    (Solo (.brx pf a) s c → c.vals.a % 4 = 0 → Does (.brx pf a) s c (goes (there c.vals.a) c.t)) ∧
    (Solo (.callx pf a) s c → c.vals.a % 4 = 0 →
      Does (.callx pf a) s c (goes (there c.vals.a) { c.t with link := next })) ∧
    (Solo (.ret pf) s c → c.t.link.toNat % 4 = 0 → Does (.ret pf) s c (goes (there c.t.link.toNat) c.t)) ∧
    (∀ n, c.o.a = .lane n → Solo (.csw pf a) s c → c.vals.a % 4 = 0 →
      Does (.csw pf a) s c (goes (there (c.vals.a % 2 ^ 32))
        { c.t.setRegs [(n, next), (n + 1, c.t.fp)] with fp := BitVec.ofNat 32 (c.vals.a / 2 ^ 32) })) ∧
    ∀ q ∈ [(Instr.brx pf a, c.vals.a), (.callx pf a, c.vals.a), (.ret pf, c.t.link.toNat),
        (.csw pf a, c.vals.a % 2 ^ 32)],
      Solo q.1 s c → q.2 % 4 ≠ 0 → Does q.1 s c fun s => s.raise c.ref 0x02 0 (there q.2)

/-- REJOIN parks the thread at its identifier with its mask; then exactly the threads that may leave go on (R141). With
none that may and every live thread of the group parked in REJOIN, each raises 0x0E at its own, its mask as the address
and the threads parked as SMASK (R142, R280).

EXIT ends the thread when nothing holds it up (R143); it parks while a register is empty, an access over Shecel, to a tile
or under replay is unanswered, or a job of its runs; and a deferred fault that is due is delivered in place of it. YIELD gives the
other entries of the partition precedence for a round and changes no result; NOP has no effect (R93, R144). -/
def Obligations.JoinsAndExits : Prop :=
  (∀ (pf : Pfx) (k : BitVec 8) (n : BitVec 4) (s : State) (c : One), Solo (.rejoin pf k n) s c →
       let parked := { c.t with st := .rejoining k.toNat (c.g.pair (2 * n.toNat)) }
       let g1 := { c.g with threads := Tab.adjust c.g.threads c.tid fun _ => parked }
       let all := ∀ p ∈ Tab.listed g1.threads, p.2.live = true → ∃ j m, p.2.st = .rejoining j m
       (¬ all ∨ (∃ x, MayLeave g1 k.toNat x) →
         ∃ t g', exec (.rejoin pf k n) s = .next t ∧ OnlyGroup s t c.r ∧ grp t c.r = some g' ∧
           g' = { c.g with threads := g'.threads, front := g'.front } ∧
           ∀ x th, Tab.find? g1.threads x = some th →
             (MayLeave g1 k.toNat x → Tab.find? g'.threads x = some (pastRejoin (s.hp c.tm c.g) th)) ∧
             (¬ MayLeave g1 k.toNat x → Tab.find? g'.threads x = some th)) ∧
       (all → (∀ x, ¬ MayLeave g1 k.toNat x) →
         let l := List.filter (fun (p : Nat × Thread) => p.2.live) (Tab.listed g1.threads)
         Does (.rejoin pf k n) s c fun s => l.foldl (fun s p =>
           let s := s.updThread ⟨c.r, p.1⟩ fun t => if t.live then { t with st := .ready } else t
           let m := match p.2.st with | .rejoining _ m => m | _ => 0
           s.takeFault ⟨c.r, p.1⟩ { s.mkRec ⟨c.r, p.1⟩ 0x0E 0 p.2.pc m with smask := l.foldl (fun x q => x + 2 ^ q.1) 0 } .fault
             p.2.here) (puts c parked s))) ∧
  (∀ (pf : Pfx) (s : State) (c : One),
       let held := (∃ r ∈ c.t.we, r ∉ c.t.defdRegs) ∨ (∃ a ∈ s.accsOf c.ref, s.holdsExit a = true) ∨
         ∃ k ∈ s.cores, ∃ j ∈ k.2.jobs, j.t = c.ref
       (Solo (.exit pf) s c → held → Does (.exit pf) s c (puts c { c.t with st := .parked .exit })) ∧
       (Solo (.exit pf) s c → ¬ held → c.t.defd ≠ [] → Does (.exit pf) s c fun s => s.deliverDeferred c.ref 0) ∧
       (Solo (.exit pf) s c → ¬ held → c.t.defd = [] →
         (∀ gid tid th, thr s ⟨⟨c.r.grid, c.r.team, gid⟩, tid⟩ = some th → th.arrived = []) →
         (∀ tid th, thr s ⟨c.r, tid⟩ = some th → th.rejoins = false) →
         Does (.exit pf) s c (puts c { c.t with st := .exited, ri := 0, popped := none })) ∧
       (Solo (.yield pf) s c →
         let u := c.t.advance c.x (s.hp c.tm c.g)
         Does (.yield pf) s c fun s => (puts c u s).updCore c.g.core fun k =>
           { k with yieldP := Tab.put k.yieldP 0 c.g.part (yieldMark c.g.slot u.prio u.pc) }) ∧
       (Solo (.nop pf) s c → Does (.nop pf) s c c.done))

/-- SREAD copies a special register at once, but clk and dtime, whose value is the present one and arrives as a load's
does; SREAD.w writes the ones that may be written, each in its own bits, and a generator of 0 becomes 0x6D2B_79F5 (R49,
R52, R135).

SYSCALL, once its group's g8 to g15 are full and its release at system scope holds, sends them to the partition's
service core and leaves g8 and g9 empty (R262). -/
def Obligations.SpecialRegistersAndCalls : Prop :=
  (∀ (pf : Pfx) (d a : BitVec 8) (s : State) (c : One),
       (∀ q ∈ [(0, c.tid), (1, c.g.gid), (2, c.tm.team), (3, c.tm.grid), (4, 64 * c.g.gid + c.tid), (5, c.tm.depth),
           (8, c.t.ri), (9, c.t.af.toNat), (10, c.t.fp.toNat), (11, c.t.link.toNat), (12, c.t.rs.toNat),
           (16, (c.t.ireg 0).toNat), (17, (c.t.ireg 1).toNat), (18, (c.t.ireg 2).toNat), (19, (c.t.ireg 3).toNat)],
         let i := Instr.sread pf d (BitVec.ofNat 8 q.1)
         Solo i s c → Does i s c (c.write [(c.dreg, BitVec.ofNat 32 q.2)])) ∧
       (∀ q ∈ [(6, (s.core c.g.core).clk), (7, s.now)],
         let i := Instr.sread pf d (BitVec.ofNat 8 q.1)
         Solo i s c → Does i s c fun s =>
           let p := { asked 0 8 0 0 (.clock (q.2 % 2 ^ 64)) with align := 1 }
           let a := { p.acc c.tm c.g [c.tid] c.t (destOf c.o.d 2) none none with entry := false, id := s.accNext }
           c.done (({ s with accs := s.accs ++ [a], accNext := s.accNext + 1 } : State).updThread c.ref fun t =>
             t.markEmpty (c.o.d.lanes c.x.sp.d.wr))) ∧
       let v := BitVec.ofNat 32 c.vals.a
       ∀ q ∈ [(9, fun t : Thread => { t with af := v.setWidth 8 }), (10, fun t : Thread => { t with fp := v }),
           (11, fun t : Thread => { t with link := v }),
           (12, fun t : Thread => { t with rs := if v = 0#32 then 0x6D2B79F5#32 else v }),
           (16, fun t : Thread => t.setIreg 0 (v.setWidth 16)), (17, fun t : Thread => t.setIreg 1 (v.setWidth 16)),
           (18, fun t : Thread => t.setIreg 2 (v.setWidth 16)), (19, fun t : Thread => t.setIreg 3 (v.setWidth 16))],
         let i := Instr.sreadW pf (BitVec.ofNat 8 q.1) a
         Solo i s c → Does i s c fun s => c.done (s.updThread c.ref q.2)) ∧
  (∀ (pf : Pfx) (n : BitVec 16) (s : State) (c : Once),
       (Whole (.syscall pf n) s c → 16 ≤ c.tm.kern.gregs → (∀ r ∈ c.g.ge, r < 8 ∨ 16 ≤ r) →
         (∀ p ∈ c.gset, s.fenceReleased c.g.core ⟨c.r, p.1⟩ p.2 4 = true) →
         DoesOnce (.syscall pf n) s c fun s =>
           let q : SysReq := ⟨s.accNext, c.r, n.toNat, [8, 9, 10, 11, 12, 13, 14, 15].map c.g.reg⟩
           c.done (({ s with
             accNext := s.accNext + 1
             parts := Tab.adjust s.parts c.tm.part fun p => { p with sys := p.sys ++ [q] } } : State).updGroup c.r
               fun g => g.markEmpty [8, 9])) ∧
       (Whole (.syscall pf n) s c → c.tm.kern.gregs < 16 → DoesOnce (.syscall pf n) s c (c.fault 0x03 0 0)))

/-- TRAP and BRKPT take their fault in each thread, which resumes at the header after its clause (R261, R361); ULIRET
brings back what the handler's entry saved, and outside a handler it is illegal (R362); at the header where an interrupt was
taken no second one is (R363). ULIEN and ULIDIS change the group's
mask (R263). -/
def Obligations.TrapsAndHandlerReturn : Prop :=
  ∀ (pf : Pfx) (n : BitVec 16) (m : BitVec 5) (s : State) (c : One) (w : Once),
    (∀ q ∈ [(Instr.trap pf n, 0x16), (.brkpt pf n, 0x17)], Solo q.1 s c → Does q.1 s c fun s =>
      s.takeFault c.ref (s.mkRec c.ref q.2 0 c.t.pc n.toNat) .trap ⟨c.t.cend, c.t.cend, c.t.cend, false⟩) ∧
    (Solo (.uliret pf) s c → c.t.frame.inh = false → Does (.uliret pf) s c fun s => s.raise c.ref 0x01 0 0) ∧
    (Solo (.uliret pf) s c → c.t.frame.inh = true →
      let f := c.t.frame
      let u := { c.t with
        code := f.tcode, intd := f.tint, ri := f.tri, link := f.tlink, fp := f.tfp, from? := none, st := .ready
        frame := { f with inh := false } }
      Does (.uliret pf) s c (puts c (
        if f.tin then { u with pc := f.tpc, hdr := f.thdr, cend := f.tcend, prio := f.tprio, inside := true }
        else { u with
          pc := f.tpc, hdr := f.tpc, cend := f.tcend, inside := false
          prio := match s.codeWord c.g.core c.tm.pasid f.tpc with | .ok (some w) => w / 2 ^ 13 % 256 | _ => f.tprio }))) ∧
    (Whole (.ulien pf m) s w →
      DoesOnce (.ulien pf m) s w fun s => w.done (s.updGroup w.r fun g => { g with uli := g.uli ||| m })) ∧
    (Whole (.ulidis pf m) s w →
      DoesOnce (.ulidis pf m) s w fun s => w.done (s.updGroup w.r fun g => { g with uli := g.uli &&& ~~~ m }))

/-- EVENT (R264): once per issue, one record of 16 bytes joins the partition's trace buffer while its service core has
enabled tracing, with dtime in bits 127:64, the teamid in 63:32, the gid in 31:24, bits 7:0 of the core number in 23:16 and
the code in 15:0; otherwise nothing; the set goes on past it and nothing else changes. -/
def Obligations.TraceEvent : Prop :=
  ∀ (pf : Pfx) (n : BitVec 16) (s : State) (c : Once), Whole (.event pf n) s c →
    DoesOnce (.event pf n) s c fun s =>
      let e := 2 ^ 64 * (s.now % 2 ^ 64) + 2 ^ 32 * (c.tm.team % 2 ^ 32) + 2 ^ 24 * (c.g.gid % 2 ^ 8)
        + 2 ^ 16 * (c.g.core % 2 ^ 8) + n.toNat
      c.done { s with parts := Tab.adjust s.parts c.tm.part fun q =>
        if q.traceOn then { q with trace := q.trace ++ [BitVec.ofNat 128 e] } else q }

/-! ### Synchronisation, tiles and hints -/

/-- FENCE (R219, R220, R319): a release completes when the thread's earlier accesses have been performed and are covered;
an acquire, when its loads have brought their values, and from team scope on it empties the L1 (R297); a full fence, when both
hold and its die's vector covers those that earlier full fences of the scope have reported (R329). Until then the thread
parks. A due deferred fault takes the place of a release (R357); a fault of a stream is due at any fence (R333, assumption
log 63). -/
def Obligations.Fences : Prop :=
  ∀ (pf : Pfx) (k : BitVec 2) (sc : BitVec 3) (s : State) (c : One), Solo (.fence pf k sc) s c →
    let i := Instr.fence pf k sc
    let core := c.g.core
    let scope := sc.toNat
    let due := fun (d : Deferred) => d.rcd.code = 0x14 ∨ (k ≠ 0#2 ∧ ∀ f rs, d.kind ≠ .load f rs)
    let late := ∃ d ∈ c.t.defd, due d
    let clears := fun (s : State) => if 2 ≤ scope then emptyL1 core s else s
    let v := (s.die (core / 48)).v
    let goal := if scope = 4 then s.cp.fenceDev.join s.cp.fenceSys else if scope = 3 then s.cp.fenceDev else .zero
    let parks := puts c { c.t with st := .parked .fence }
    (k = 0#2 → ¬ late → Acquired s core c.ref c.t scope → Does i s c fun s => c.done (clears s)) ∧
    (k = 0#2 → ¬ late → ¬ Acquired s core c.ref c.t scope → Does i s c parks) ∧
    (k = 1#2 → ¬ late → Released s core c.ref c.t scope → Does i s c c.done) ∧
    (k ≠ 0#2 → ¬ late → ¬ Released s core c.ref c.t scope → Does i s c parks) ∧
    (k = 2#2 → ¬ late → ¬ Acquired s core c.ref c.t scope → Does i s c parks) ∧
    (late → ∃ n d, c.t.defd[n]? = some d ∧ due d ∧ (∀ m e, m < n → c.t.defd[m]? = some e → ¬ due e) ∧
      Does i s c fun s => s.deliverDeferred c.ref n) ∧
    (k = 2#2 → ¬ late → c.t.fenceV = none → Released s core c.ref c.t scope → Acquired s core c.ref c.t scope →
      v.covers goal = true → Does i s c fun s =>
        let s := { s with cp := { s.cp with
          fenceDev := if 3 ≤ scope ∧ scope ≤ 4 then s.cp.fenceDev.join v else s.cp.fenceDev
          fenceSys := if scope = 4 then s.cp.fenceSys.join v else s.cp.fenceSys } }
        c.done (clears s))

/-- BAR (R233): while another live thread of the team has arrived nowhere, the thread's arrival is noted and it goes on,
under .arrive, or parks. When the others have arrived, the barrier completes: the marks of arrival go and the threads that
wait there are ready. The thread that has waited passes with an acquire at team scope. Without .nofence an arrival waits
for its release; a second arrival waits for the first. -/
def Obligations.TeamBarriers : Prop :=
  ∀ (pf : Pfx) (u v : BitVec 1) (k : BitVec 4) (s : State) (c : One), Solo (.bar pf u v k) s c →
    let i := Instr.bar pf u v k
    let n := k.toNat
    let marked := { c.t with arrived := insNat n c.t.arrived, st := if v = 1#1 then c.t.st else .barred n }
    let mine := if v = 1#1 then marked.advance c.x (s.hp c.tm c.g) else marked
    let fresh := c.t.popped = none ∧ n ∉ c.t.arrived
    let free := u = 1#1 ∨ Released s c.g.core c.ref c.t 2
    let at' := fun (gid tid : Nat) => thr s ⟨⟨c.r.grid, c.r.team, gid⟩, tid⟩
    (fresh → free → (∃ gid tid th, at' gid tid = some th ∧ ¬ (gid = c.r.gid ∧ tid = c.tid) ∧ th.live = true ∧
        th.arrived = []) → Does i s c (puts c mine)) ∧
    (fresh → free → c.t.arrived = [] → (∀ gid tid th, at' gid tid = some th → th.arrived = [] ∨ th.arrived = [n]) →
      (∀ gid tid th, at' gid tid = some th → (gid = c.r.gid ∧ tid = c.tid) ∨ th.live = false ∨ th.arrived = [n]) →
      ∃ t, exec i s = .next t ∧ t = { s with teams := t.teams } ∧
        (∀ r, (r.grid, r.team) ≠ (c.r.grid, c.r.team) → grp t r = grp s r) ∧
        ∀ gid tid, thr t ⟨⟨c.r.grid, c.r.team, gid⟩, tid⟩ = (at' gid tid).map fun th =>
            let x := { (if gid = c.r.gid ∧ tid = c.tid then mine else th) with arrived := [] }
            if x.st = .barred n then { x with st := .ready, popped := some 0#32 }
            else if x.st = .parked .bar then { x with st := .ready } else x) ∧
    (c.t.popped.isSome → Does i s c fun s => c.done (if u = 1#1 then s else emptyL1 c.g.core s)) ∧
    (c.t.popped = none → n ∈ c.t.arrived → Does i s c (puts c { c.t with st := .parked .bar })) ∧
    (fresh → ¬ free → Does i s c (puts c { c.t with st := .parked .fence }))

/-- TBARR takes on an arrival at the barrier, its register empty, unless no arrival is left for it in the phase, those that have
issued and are not performed counted (assumption log 64), when it parks (R235); TBWAIT passes once the object's phase is not
the one named and the thread's earlier loads, read-modify-writes and acquires are done (R324), with pN = DET and an acquire at
team scope, and what the jobs counted there have written then counts as met (R330); it parks until then (R236). -/
def Obligations.TransactionBarriers : Prop :=
  ∀ (pf : Pfx) (d a : BitVec 8) (n : BitVec 3) (s : State) (c : One) (mc off : Nat) (l : Option Leaf × Option Leaf),
    let p : Plan := { asked c.vals.a 16 5 0 .tbarr with strong := true, inUser := false }
    s.planCheck c.g.core c.tm p = .ok (.scratch mc off, l) →
    let x := Mem.readN (Tab.getD c.tm.scratch [] mc) off 16
    let arriv := x / 2 ^ 8 % 2 ^ 24
    let reload := x / 2 ^ 64 % 2 ^ 24
    let out := s.accs.countP fun b =>
      decide (b.op = .tbarr ∧ b.t.g.grid = c.tm.grid ∧ b.t.g.team = c.tm.team ∧ b.va = c.vals.a)
    let early := ∀ b ∈ s.accs, b.t.g = c.r → c.tid ∈ b.set → b.op.reads = false ∧ b.acq = false
    let parks := puts c { c.t with st := .parked .tbar }
    x / 2 ^ 64 % 2 ^ 32 = reload →
    (Solo (.tbarr pf d a) s c → s.otUsed c.g.core + 1 ≤ 1024 → (reload = 0 ∨ out < arriv) →
      Does (.tbarr pf d a) s c fun s =>
        let q := { ({ p with dst := 1, rel := true, scope := 2 }).acc c.tm c.g [c.tid] c.t (destOf c.o.d 1) none none with
          id := s.accNext }
        c.done (({ s with accs := s.accs ++ [q], accNext := s.accNext + 1 } : State).updThread c.ref fun t =>
          t.markEmpty (c.o.d.lanes c.x.sp.d.wr))) ∧
    (Solo (.tbarr pf d a) s c → s.otUsed c.g.core + 1 ≤ 1024 → reload ≠ 0 → arriv ≤ out →
      NoneDue c.t none (some (mc, off)) → Does (.tbarr pf d a) s c parks) ∧
    (Solo (.tbwait pf d a n) s c → s.otUsed c.g.core + 1 ≤ 1024 → x % 16 ≠ c.vals.d % 16 → early →
      Quiet s c.r [c.tid] mc off 16 → Does (.tbwait pf d a n) s c fun s =>
        c.done ((emptyL1 c.g.core s).updThread c.ref fun t =>
          { t.setPred n.toNat (x.testBit 4) with
            wrote := t.wrote.join (Tab.getD c.tm.landed .zero (2 ^ 20 * mc + off)) })) ∧
    (Solo (.tbwait pf d a n) s c → s.otUsed c.g.core + 1 ≤ 1024 → (x % 16 = c.vals.d % 16 ∨ ¬ early) →
      NoneDue c.t none (some (mc, off)) → Does (.tbwait pf d a n) s c parks) ∧
    ∀ i ∈ [Instr.tbarr pf d a, .tbwait pf d a n], Solo i s c → 1024 < s.otUsed c.g.core + 1 → exec i s = .next s

/-- CTRWAIT and CTRWAIT.yield (R237): a counter that reads at least the target lets the thread go on with an acquire, once what
it has read is covered (R319); one that reads less parks it with the address, the target, the scope and the clk. The counter
is read in the scratchpad, or in device memory of the core's own die, where the load meets the stamps of the bytes and brings
the die's vector. -/
def Obligations.JoinCounters : Prop :=
  ∀ (pf : Pfx) (d a : BitVec 8) (sc : BitVec 3) (s : State) (c : One) (y : Bool),
    let i := if y then Instr.ctrwaitYield pf d a sc else .ctrwait pf d a sc
    let scope := sc.toNat
    let p : Plan := { asked c.vals.a 8 3 0 (.ctr c.vals.d) with strong := true, scope := scope, need := ⟨true, false, false⟩ }
    let waits := fun (th : Thread) =>
      { th with st := .parked (.ctr c.vals.a c.vals.d scope (s.core c.g.core).clk y) }
    let v := (s.die (c.g.core / 48)).v
    let comes := fun (u : Thread) (t : State) => exec i s = .next t ∧ thr t c.ref = some u ∧
      t.hbm = s.hbm ∧ t.pool = s.pool ∧ t.host = s.host ∧ (∀ r', r' ≠ c.r → grp t r' = grp s r') ∧
      t.accs = s.accs.filter fun b => b.id != s.accNext
    Solo i s c → c.t.popped = none → (∀ b, ¬ outstanding s c.ref b) → s.otUsed c.g.core + 1 ≤ 1024 → c.tm.st = .running →
    (∀ mc off l, s.planCheck c.g.core c.tm p = .ok (.scratch mc off, none, l) →
      let x := Mem.readN (Tab.getD c.tm.scratch [] mc) off 8
      let covered := scope < 3 ∨ v.covers c.t.seen = true
      (c.vals.d ≤ x → covered → ∃ t, comes (c.t.advance c.x (s.hp c.tm c.g)) t ∧
        (2 ≤ scope → (t.core c.g.core).l1 = [])) ∧
      (c.vals.d ≤ x → ¬ covered → ∃ t, comes { c.t with st := .parked .fence, popped := some 0#32 } t) ∧
      (x < c.vals.d → ∃ t, comes (waits c.t) t)) ∧
    (∀ l, s.planCheck c.g.core c.tm p = .ok (.user, some l, none) → l.lease = 0 → c.vals.a % 8 = 0 →
      let pa := l.pg * 65536 + c.vals.a % 65536
      pa + 8 ≤ 2 ^ 60 → homeOf pa = c.g.core / 48 → s.lostIn pa 8 false = false → s.chanHeld pa = false → c.t.floor = [] →
      let x := ofLE (Mem.readList s.hbm pa 8)
      let seen := (c.t.seen.join (stampsOf ((span pa 8).map s.homeCopy))).join v
      (c.vals.d ≤ x → (scope < 3 ∨ v.covers seen = true) → ∃ (t : State) (u : Thread),
        comes (u.advance c.x (s.hp c.tm c.g)) t ∧ u = { c.t with seen := seen, floor := u.floor } ∧
        (2 ≤ scope → (t.core c.g.core).l1 = [])) ∧
      (x < c.vals.d → ∃ (t : State) (u : Thread),
        comes (waits u) t ∧ u = { c.t with seen := seen, floor := u.floor }))

/-- TDEF defines an EMPTY tile from its descriptor and TARM arms it, after which the arrivals held for its phase are applied
in order; TARM waits, the set not parked, while the tile is READY or DRAINING; what they refuse raises 0x0C (R225 to R227,
R287, R290).

TWAIT passes when the tile is READY at the phase named or 1 to 7 phases past it, after the thread's acquires; TCONS, and LD.c
with a read of the tile's bytes, consume a READY tile, the last consume draining it, after the thread's acquires and releases
and its own accesses to those bytes (R324 to R328); until then they park. TSTAT reads the entry (R211, R228 to R230, R287, R328). A tile that is not named so raises 0x0C. -/
def Obligations.TilesAndTheirWaits : Prop :=
  (∀ (pf : Pfx) (n a b : BitVec 8) (s : State) (c : Once),
       let tn := n.toNat
       let e := c.tm.tile c.mc tn
       let v := c.vals.a
       let bad := c.fault 0x0C 0 0
       (Whole (.tdef pf n a) s c →
         let ok := tn < c.tm.kern.tiles ∧ e.st = .empty ∧ v / 2 ^ 16 % 2 ^ 14 ≠ 0 ∧
           64 * (v % 2 ^ 14 + v / 2 ^ 16 % 2 ^ 14) ≤ c.tm.partBytes
         (ok → DoesOnce (.tdef pf n a) s c fun s => c.done (s.updTile c.tm.grid c.tm.team c.mc tn fun e =>
           { e with
             defd := true, owner := c.g.gid, base := v % 2 ^ 14, len := v / 2 ^ 16 % 2 ^ 14, span := v / 2 ^ 32 % 8
             fmt := v / 2 ^ 40 % 16 })) ∧
         (¬ ok → DoesOnce (.tdef pf n a) s c bad)) ∧
       (Whole (.tarm pf n a b) s c →
         let ok := tn < c.tm.kern.tiles ∧ e.defd = true ∧ e.owner = c.g.gid ∧ 0 < v ∧ v ≤ e.len ∧ 0 < c.vals.b ∧
           c.vals.b < 65536
         let mine := fun (x : Arrival) => x.mc = c.mc ∧ x.tile = tn ∧ x.ph = e.ph
         (ok → e.st = .empty → DoesOnce (.tarm pf n a b) s c fun s =>
           let s := s.updTeam c.tm.grid c.tm.team fun t => { t with heldArr := t.heldArr.filter fun x => decide (¬ mine x) }
           let s := s.updTile c.tm.grid c.tm.team c.mc tn fun e =>
             { e with st := .filling, abytes := 0, exp := v, cons := c.vals.b, rds := 0, mstt := false }
           c.done ((c.tm.heldArr.filter fun x => decide (mine x)).foldl State.applyArrival s)) ∧
         (ok → e.st = .ready ∨ e.st = .draining → (∀ p ∈ c.gset, NoneDue p.2 (some tn) none) →
           DoesOnce (.tarm pf n a b) s c id) ∧
         (¬ ok ∨ e.st = .filling → DoesOnce (.tarm pf n a b) s c bad))) ∧
  (∀ (pf : Pfx) (d a n : BitVec 8) (s : State) (c : One),
       let tn := n.toNat
       let e := c.tm.tile c.mc tn
       let parks := puts c { c.t with st := .parked .tile }
       let bad := fun s => s.raise c.ref 0x0C 0 0
       let eat := fun (e : Tile) => { e with cons := e.cons - 1, st := if e.cons ≤ 1 then TileState.draining else .ready }
       let far := (e.ph + 16 - c.vals.a % 16 % 16) % 16
       let seen := ((e.st = .ready ∧ e.ph = c.vals.a % 16) ∨ (1 ≤ far ∧ far ≤ 7)) ∧ NoAcquire s c.r [c.tid]
       let ripe := e.st = .ready ∧ OrderHolds s c.r [c.tid] ∧ Quiet s c.r [c.tid] c.mc (64 * e.base) (64 * e.len)
       (Solo (.twait pf n a) s c →
         (Named c tn → seen → Does (.twait pf n a) s c c.done) ∧
         (Named c tn → ¬ seen → NoneDue c.t (some tn) none → Does (.twait pf n a) s c parks) ∧
         (¬ Named c tn → Does (.twait pf n a) s c bad)) ∧
       (Solo (.tcons pf n) s c →
         (Named c tn → ripe → Does (.tcons pf n) s c fun s => c.done (s.updTile c.tm.grid c.tm.team c.mc tn eat)) ∧
         (Named c tn → ¬ ripe → NoneDue c.t (some tn) none → Does (.tcons pf n) s c parks) ∧
         (¬ Named c tn → Does (.tcons pf n) s c bad)) ∧
       (Solo (.tstat pf d n) s c →
         (Named c tn → Does (.tstat pf d n) s c (c.write (wordsAt c.dreg 2
           ((match e.st with | .empty => 0 | .filling => 1 | .ready => 2 | .draining => 3) + 2 ^ 4 * e.ph
             + (if ∃ x ∈ c.tm.heldArr, x.mc = c.mc ∧ x.tile = tn then 2 ^ 8 else 0) + 2 ^ 16 * e.cons
             + 2 ^ 32 * (e.abytes / 64) + 2 ^ 48 * e.exp)))) ∧
         (¬ Named c tn → Does (.tstat pf d n) s c bad)) ∧
       ∀ q ∈ [(4, 1, Instr.ldC pf d a n), (16, 4, .ldCB128 pf d a n)], Solo q.2.2 s c → s.otUsed c.g.core + 1 ≤ 1024 →
         let p : Plan := { asked c.vals.a q.1 1 0 (.ldc q.1 tn) with dst := q.2.1, isLoad := true, inUser := false }
         ∀ off, p.window c.tm = some (.scratch c.mc off) → c.vals.a % q.1 = 0 → 64 * e.base ≤ off →
           off + q.1 ≤ 64 * (e.base + e.len) → Named c tn →
           (ripe → Does q.2.2 s c fun s =>
             let s := s.updTile c.tm.grid c.tm.team c.mc tn fun e => { eat e with rds := e.rds + 1 }
             let x := { p.acc c.tm c.g [c.tid] c.t (destOf c.o.d p.dst) none none with id := s.accNext }
             c.done (({ s with accs := s.accs ++ [x], accNext := s.accNext + 1 } : State).updThread c.ref fun t =>
               t.markEmpty (c.o.d.lanes c.x.sp.d.wr))) ∧
           (¬ ripe → NoneDue c.t (some tn) none → Does q.2.2 s c parks))

/-- PREF.l1 and PREF.l2 bring the sector at the address nearer, or have its absent pool page fetched; PREF.hbm and PREF.tier
make a group of pages, counted at a barrier under .tb; a hint that fails a check is dropped and counted. RESID.q asks for a
page's residency word, RESID.keep and RESID.evict set its frame's counter to 255 or 0 (R221 to R224, R388, R428). None of
them ever faults on its page. -/
def Obligations.HintsAndResidency : Prop :=
  ∀ (pf : Pfx) (d a : BitVec 8) (r t : BitVec 1) (s : State) (c : One),
    let va := c.vals.a
    let core := c.g.core
    let me := c.tm.pasid
    let check := s.hintCheck core me va false
    let rep := r = 1#1
    let near := [(true, Instr.prefL1 pf a r), (false, .prefL2 pf a r)]
    let marks := [(255, Instr.residKeep pf a), (0, .residEvict pf a)]
    (∀ q ∈ near, Solo q.2 s c → ∀ why, check = .error why → Does q.2 s c fun s => c.done (dropped s me va why rep)) ∧
    (∀ q ∈ near, Solo q.2 s c → ∀ l pa, check = .ok l → s.placeOf l (va / 64 * 64) = .dev pa → s.chanHeld pa = false →
      Does q.2 s c fun s => c.done (if q.1 then s.fillL1 core pa 64 else s.fillSectors (core / 48) pa 64)) ∧
    (∀ q ∈ near, Solo q.2 s c → ∀ l page off, check = .ok l → s.placeOf l (va / 64 * 64) = .pool page off →
      s.frameOf (s.partOf me) page = none →
      (∀ x ∈ s.pageReqs, x.part = s.partOf me → x.page = page → x.group ≠ 0) →
      Does q.2 s c fun s => c.done { s with pageReqs := s.pageReqs ++
        [{ part := s.partOf me, pasid := me, page := page, lease := l.lease, sector := off / 64, group := 0
           ord := 0, va := va / 65536 * 65536, report := false, wait := true, bar := none }] }) ∧
    (Solo (.prefHbm pf a r) s c →
      Does (.prefHbm pf a r) s c fun s => c.done (s.tierGroup core me [va / 65536 * 65536] rep none)) ∧
    (Solo (.prefTier pf d a t r) s c →
      let g := c.vals.d
      let pages := (List.range (g / 16 % 16 + 1)).flatMap fun i => (List.range (g % 16 + 1)).map fun j =>
        (va / 65536 * 65536 + (i * (g / 256 % 2 ^ 24) + j) * 65536) % 2 ^ 64
      (t = 0#1 → Does (.prefTier pf d a t r) s c fun s => c.done (s.tierGroup core me pages rep none)) ∧
      (t = 1#1 → ∀ mc off, windowOf c.tm (0xFE * 2 ^ 56 + g / 2 ^ 32 % 2 ^ 22) 16 = some (.scratch mc off) →
        g / 2 ^ 32 % 16 = 0 → Does (.prefTier pf d a t r) s c fun s =>
          c.done ((s.tbLand c.tm.grid c.tm.team mc off (-(1024 * pages.length : Nat))).tierGroup core me pages rep
            (some (c.tm.grid, c.tm.team, mc, off))))) ∧
    (Solo (.residQ pf d a) s c → Does (.residQ pf d a) s c fun s =>
      let x := { (asked va 1 1 0 .resid).acc c.tm c.g [c.tid] c.t (destOf c.o.d 1) none none with
        entry := false, id := s.accNext }
      c.done (({ s with accs := s.accs ++ [x], accNext := s.accNext + 1 } : State).updThread c.ref fun t =>
        t.markEmpty (c.o.d.lanes c.x.sp.d.wr))) ∧
    ∀ q ∈ marks, Solo q.2 s c →
      (∀ why, check = .error why → Does q.2 s c fun s => c.done (dropped s me va why false)) ∧
      ∀ l, check = .ok l →
        (∀ page off f e, s.placeOf l va = .pool page off → s.frameOf (s.partOf me) page = some (f, e) →
          Does q.2 s c fun s => c.done { s with frames := Tab.adjust s.frames f fun e => { e with cnt := q.1 } }) ∧
        ((∀ page off, s.placeOf l va = .pool page off → s.frameOf (s.partOf me) page = none) → Does q.2 s c c.done)

/-! ### Matrix instructions, launches and the network -/

/-- MRES reserves a record that is free, with its granules, from its descriptor, and clears them, or raises 0x13; MREL puts
a release of a record of the team into the matrix sequence, its register empty in every thread of G; MZERO a clearing of its
accumulator (R239 to R241, R246, R247).

MLDT reads a READY tile of the record's format into the record's bricks, after its threads' acquires, and MLDT.c consumes it,
after their releases and their accesses to its bytes too (R324 to R328); MLDG pins every line of its source and then does the
same from memory. Each enters the matrix sequence with its layout. A record, tile or layout
that does not fit raises 0x13, 0x0C or 0x12 (R243 to R245, R287). -/
def Obligations.MatrixRecordsAndLoads : Prop :=
  (∀ (pf : Pfx) (n : BitVec 4) (a : BitVec 8) (s : State) (c : Once),
       let core := s.core c.g.core
       let v := c.vals.a
       let k := n.toNat
       let bad := c.fault 0x13 0 0
       let r : Rec := { grid := c.tm.grid, team := c.tm.team, afmt := v / 2 ^ 22 % 4, blk := v / 2 ^ 20 % 4
                        efmt := v / 2 ^ 16 % 16, ngr := v / 2 ^ 8 % 64, base := v % 64, clip := 0, under := 0 }
       let free := r.afmt ≠ 3 ∧ r.efmt ∈ [1, 2, 4, 5, 6, 7, 8] ∧ r.base + r.ngr ≤ 63 ∧ Tab.find? core.recs k = none ∧
         ∀ q ∈ core.recs, q.2.base + q.2.ngr < r.base ∨ r.base + r.ngr < q.2.base
       (Whole (.mres pf n a) s c →
         (free → DoesOnce (.mres pf n a) s c fun s => c.done (s.updCore c.g.core fun x =>
           { x with
             recs := Tab.set x.recs k r, accs := Tab.del x.accs k
             bricks := (span (2 * r.base) (2 * (r.ngr + 1))).foldl Tab.del x.bricks })) ∧
         (¬ free → DoesOnce (.mres pf n a) s c bad)) ∧
       (Whole (.mrel pf n a) s c →
         (∀ q, core.rec? c.tm k = some q → DoesOnce (.mrel pf n a) s c fun s =>
           let regs := c.o.a.lanes c.x.sp.a.wr
           let tids := c.gset.map (·.1)
           c.done (tids.foldl (fun s tid => s.updThread ⟨c.r, tid⟩ fun t => t.markEmpty regs)
             (enters c.g.core (operation c s (.mrel tids (regs.headD 0)) k k k 0) s))) ∧
         (core.rec? c.tm k = none → DoesOnce (.mrel pf n a) s c bad)) ∧
       (Whole (.mzero pf n) s c →
         ((∃ q, core.rec? c.tm k = some q ∧ 15 ≤ q.ngr) → DoesOnce (.mzero pf n) s c fun s =>
           c.done (enters c.g.core (operation c s .mzero k k k 0) s)) ∧
         ((∀ q, core.rec? c.tm k = some q → q.ngr < 15) → DoesOnce (.mzero pf n) s c bad))) ∧
  (∀ (pf : Pfx) (n : BitVec 4) (t b : BitVec 8) (s : State) (c : Once),
       let core := s.core c.g.core
       let k := n.toNat
       let tn := t.toNat
       let e := c.tm.tile c.mc tn
       let v := c.vals.b
       let l := layoutOf v
       let tids := c.gset.map (·.1)
       let free := fun (eats : Bool) => if eats then
         OrderHolds s c.r tids ∧ Quiet s c.r tids c.mc (64 * e.base) (64 * e.len) else NoAcquire s c.r tids
       (∀ q ∈ [(false, Instr.mldt pf n t b), (true, .mldtC pf n t b)], Whole q.2 s c →
         (core.rec? c.tm k = none → DoesOnce q.2 s c (c.fault 0x13 0 0)) ∧
         ∀ r, core.rec? c.tm k = some r →
           (¬ (tn < c.tm.kern.tiles ∧ e.defd = true) → DoesOnce q.2 s c (c.fault 0x0C 0 0)) ∧
           (tn < c.tm.kern.tiles → e.defd = true →
             (∀ x, l.check r = some x → DoesOnce q.2 s c (c.fault x 0 0)) ∧
             (l.check r = none → (e.fmt ≠ r.efmt ∨ e.span ≠ l.swz) → DoesOnce q.2 s c (c.fault 0x12 0 0)) ∧
             (l.check r = none → e.fmt = r.efmt → e.span = l.swz → 64 * e.len < l.limit r →
               DoesOnce q.2 s c (c.fault 0x0C 0 0)) ∧
             (l.check r = none → e.fmt = r.efmt → e.span = l.swz → l.limit r ≤ 64 * e.len → ¬ (e.st = .ready ∧ free q.1) →
               (∀ p ∈ c.gset, NoneDue p.2 (some tn) none) → DoesOnce q.2 s c id) ∧
             (l.check r = none → e.fmt = r.efmt → e.span = l.swz → l.limit r ≤ 64 * e.len → e.st = .ready → free q.1 →
               DoesOnce q.2 s c fun s =>
                 let s := s.updTile c.tm.grid c.tm.team c.mc tn fun e =>
                   { (if q.1 then { e with cons := e.cons - 1, st := if e.cons ≤ 1 then TileState.draining else .ready } else e)
                     with rds := e.rds + 1 }
                 c.done (enters c.g.core (operation c s (.mldt tn (if q.1 then 1 else 0)) k k k v) s)))) ∧
       (Whole (.mldg pf n t b) s c →
         (core.rec? c.tm k = none → DoesOnce (.mldg pf n t b) s c (c.fault 0x13 0 0)) ∧
         ∀ r (pa : Nat → Nat), core.rec? c.tm k = some r → l.check r = none → l.swz = 0 →
           let lines := linesOf (l.sectors r c.vals.a)
           c.t.popped = none → (∀ p ∈ c.gset, p.2.pinned = 0) → core.pinCount + lines.length ≤ 256 →
           (∀ p ∈ core.pins, p.op ≠ if p.waits then s.accNext else core.opNext) →
           (∀ x ∈ lines, s.pinLine c.g.core c.tm x = .line (pa x)) →
           ∃ u, exec (.mldg pf n t b) s = .next u ∧ u.hbm = s.hbm ∧ u.pool = s.pool ∧ u.host = s.host ∧
             (u.core c.g.core).seq = core.seq ++ [{ operation c s (.mldg c.vals.a) k k k v with
               id := core.opNext, lines := lines.map fun x => (x, pa x), acc := s.accNext + 1 }] ∧
             (u.core c.g.core).opNext = core.opNext + 1 ∧
             (u.core c.g.core).pinsOf core.opNext = lines.map (fun x => (x, pa x)) ∧
             ((∀ p ∈ c.set, u.hp c.tm c.g p.2.cend p.2.prio = s.hp c.tm c.g p.2.cend p.2.prio) →
               ∀ x, thr u x = thr (c.done s) x)))

/-- MMA and MMAP enter the matrix sequence, MMAP that of both cores of its pair, when their records match; MSTT arms its
tile and enters it; each is counted for its status word, and waits, not parked, while q0 has no room for one (R248 to
R252). -/
def Obligations.MatrixProducts : Prop :=
  ∀ (pf : Pfx) (rc ra rb : BitVec 4) (t b : BitVec 8) (s : State) (c : Once),
    let core := c.g.core
    let k := rc.toNat
    let x := ra.toNat
    let y := rb.toNat
    let tn := t.toNat
    let room := c.g.q0.length + c.g.q0out < 16
    (Whole (.mma pf rc ra rb) s c →
      (∀ f, (s.core core).mmaCheck c.tm k x y = some f → DoesOnce (.mma pf rc ra rb) s c (c.fault f 0 0)) ∧
      ((s.core core).mmaCheck c.tm k x y = none →
        (¬ room → DoesOnce (.mma pf rc ra rb) s c id) ∧
        (room → DoesOnce (.mma pf rc ra rb) s c fun s =>
          c.done (counted c.r (enters core (operation c s .mma k x y 0) s))))) ∧
    (Whole (.mmap pf rc ra rb) s c →
      ((core % 2 = 1 ∨ core + 1 ∉ c.tm.cores) → DoesOnce (.mmap pf rc ra rb) s c (c.fault 0x18 0 0)) ∧
      (core % 2 = 0 → core + 1 ∈ c.tm.cores → (s.core core).mmaCheck c.tm k x y = none →
        (s.core (core + 1)).mmaCheck c.tm k x y = none →
        (∀ n ∈ [k, x, y], ∃ p q, (s.core core).rec? c.tm n = some p ∧ (s.core (core + 1)).rec? c.tm n = some q ∧
          p.efmt = q.efmt ∧ p.blk = q.blk ∧ p.afmt = q.afmt) →
        (¬ room → DoesOnce (.mmap pf rc ra rb) s c id) ∧
        (room → DoesOnce (.mmap pf rc ra rb) s c fun s =>
          c.done (counted c.r (enters (core + 1) (operation c s (.mmap true) k x y 0)
            (enters core (operation c s (.mmap false) k x y 0) s)))))) ∧
    (Whole (.mstt pf t ra b) s c →
      let v := c.vals.b
      let m := c.x.pf.m
      let fmt := v % 16
      let e := c.tm.tile c.mc tn
      let need := match fmt with | 0 => 1024 | 1 => 512 | 2 => 512 | 6 => 128 | _ => 256
      ((∀ r, (s.core core).rec? c.tm x = some r → r.ngr < 15) → DoesOnce (.mstt pf t ra b) s c (c.fault 0x13 0 0)) ∧
      ∀ r, (s.core core).rec? c.tm x = some r → 15 ≤ r.ngr → fmt ∈ [0, 1, 2, 4, 5, 6, 7] → (r.afmt ≠ 0 → fmt = 0) →
        tn < c.tm.kern.tiles → e.defd = true → e.fmt = fmt → e.owner = c.g.gid → need ≤ e.len → v / 2 ^ 16 % 2 ^ 16 ≠ 0 →
        (e.st = .ready ∨ e.st = .draining → (∀ p ∈ c.gset, NoneDue p.2 (some tn) none) →
          DoesOnce (.mstt pf t ra b) s c id) ∧
        (e.st = .empty → ¬ room → DoesOnce (.mstt pf t ra b) s c id) ∧
        (e.st = .empty → room → (∀ q ∈ c.tm.heldArr, ¬ (q.mc = c.mc ∧ q.tile = tn ∧ q.ph = e.ph)) →
          DoesOnce (.mstt pf t ra b) s c fun s =>
            let s := s.updTile c.tm.grid c.tm.team c.mc tn fun e =>
              { e with st := .filling, abytes := 0, exp := need, cons := v / 2 ^ 16 % 2 ^ 16, rds := 0, mstt := true }
            let s := enters core (operation c s (.mstt tn v m.satc.toNat m.scl.toNat m.rnd.toNat c.t.rs) x x x 0) s
            let s := if m.rnd = 6#3 ∧ r.afmt = 0 then
              s.updThread ⟨c.r, c.tid⟩ fun t => { t with rs := (List.range 16384).foldl (fun z _ => rsStep z) t.rs } else s
            c.done (counted c.r s)))

/-- LAUNCH, issued with the team's thread 0, appends the record at its address with the arguments of D to the team's pending
launches once its release at device scope holds and the record's bytes are there; it parks while the team may not launch, and
raises 0x01 without thread 0 and 0x0F at depth 10 (R256). -/
def Obligations.Launches : Prop :=
  ∀ (pf : Pfx) (d a : BitVec 8) (s : State) (c : Once), Whole (.launch pf d a) s c →
    let i := Instr.launch pf d a
    let first := c.g.gid = 0 ∧ ∃ p ∈ c.set, p.1 = 0
    let may := c.tm.pend.length < 4 ∧ c.g.q1.length + (c.tm.pend.filter fun p => p.gid = c.g.gid).length < 4
    (¬ first → DoesOnce i s c (c.fault 0x01 0 0)) ∧
    (first → 10 ≤ c.tm.depth → DoesOnce i s c (c.fault 0x0F 0 0)) ∧
    (first → c.tm.depth < 10 → ¬ may → DoesOnce i s c (c.park .launch)) ∧
    (first → c.tm.depth < 10 → may → ¬ AllReleased s c 3 → DoesOnce i s c id) ∧
    (first → c.tm.depth < 10 → may → AllReleased s c 3 →
      let rcd := s.readRec c.tm c.g.core c.r c.vals.a
      (∀ m, rcd.1 = .error m → DoesOnce i s c fun _ => c.fail 0x01 m rcd.2) ∧
      (rcd.1 = .ok none → DoesOnce i s c fun _ => rcd.2) ∧
      (∀ bs, rcd.1 = .ok (some bs) → DoesOnce i s c fun _ =>
        c.done (rcd.2.updTeam c.tm.grid c.tm.team fun t =>
          { t with pend := t.pend ++ [⟨c.g.gid, bs.take 32 ++ toLE 32 c.vals.d, (rcd.2.die (c.g.core / 48)).v⟩] })) ∧
      ∀ mc off l, s.planCheck c.g.core c.tm
          { asked c.vals.a 64 1 0 (.load 64 false) with align := 8, need := ⟨true, false, false⟩, isLoad := true }
          = .ok (.scratch mc off, l) →
        rcd = (.ok (some (Mem.readList (Tab.getD c.tm.scratch [] mc) off 64)), s))

/-- NSEND and NPOST take on a message operation of their descriptor, numbered in order, and count it in the group (R258); a
connection that is not the context's own, or not open, is the operation's status at once (R425). NSEND first waits for its
release at system scope and for the bytes of its message, and sends it in packets of 4,096 bytes (R426, R427); a fault of the
bytes is the status, after the packets before it. A length of 0 raises 0x01, and both wait, not parked, while 32 status words
are outstanding. -/
def Obligations.NetworkMessages : Prop :=
  ∀ (pf : Pfx) (d : BitVec 8) (s : State) (c : Once),
    let v := c.vals.d
    let conn := v % 2 ^ 16
    let tag := v / 2 ^ 24 % 2 ^ 8
    let len := v / 2 ^ 32 % 2 ^ 32
    let addr := v / 2 ^ 64 % 2 ^ 64
    let room := c.g.q2.length + c.g.netOut < 32
    let st := match Tab.find? s.fab.conns conn with
      | none => 0x08
      | some k => if 4096 ≤ conn ∨ k.pasid ≠ c.tm.pasid then 0x08 else if k.st = .opened then 0 else 0x15
    let op := fun (send : Bool) (status : Nat) =>
      ({ n := s.fab.netNext, send := send, g := c.r, pasid := c.tm.pasid, part := c.tm.part, core := c.g.core
         conn := conn, tag := tag, len := len, addr := addr, tile := v.testBit 16, placed := 0, fail := status
         flying := 0, matched := none, stamps := .zero, stored := [] } : NetOp)
    let adds := fun (o : NetOp) (s : State) =>
      c.done (({ s with fab := { s.fab with netOps := s.fab.netOps ++ [o], netNext := s.fab.netNext + 1 } } : State).updGroup c.r
        fun g => { g with netOut := g.netOut + 1 })
    (∀ q ∈ [(true, Instr.nsend pf d), (false, .npost pf d)], Whole q.2 s c →
      (len = 0 → DoesOnce q.2 s c (c.fault 0x01 0 0)) ∧ (len ≠ 0 → ¬ room → DoesOnce q.2 s c id)) ∧
    (Whole (.npost pf d) s c → len ≠ 0 → room → DoesOnce (.npost pf d) s c (adds (op false st))) ∧
    (Whole (.nsend pf d) s c → len ≠ 0 → room → ¬ AllReleased s c 4 → DoesOnce (.nsend pf d) s c id) ∧
    (Whole (.nsend pf d) s c → len ≠ 0 → room → AllReleased s c 4 → st ≠ 0 →
      DoesOnce (.nsend pf d) s c (adds (op true st))) ∧
    (Whole (.nsend pf d) s c → len ≠ 0 → room → AllReleased s c 4 → st = 0 → ∀ (bs : Nat → List Byte) (n : Nat),
      let all := (len + 4095) / 4096
      let size := fun (k : Nat) => min 4096 (len - 4096 * k)
      let part := fun (k : Nat) => s.netSource c.tm (op true 0) (4096 * k) (size k)
      let sent := fun (s : State) => ({ s with fab := { s.fab with
        out := s.fab.out ++ (List.range n).map fun k => .packet conn tag (4096 * k) len (bs k) } } : State).unitsDone
          (sender (op true 0))
      (∀ k < n, part k = .done (bs k)) →
      (n = all → DoesOnce (.nsend pf d) s c fun s => adds (op true 0) (sent s)) ∧
      (n < all → ∀ x, part n = .fail x → DoesOnce (.nsend pf d) s c fun s => adds (op true x.code) (sent s)) ∧
      (n < all → part n = .wait → DoesOnce (.nsend pf d) s c fun s =>
        s.unitAskLong (sender (op true 0)) ⟨true, false, false⟩ (size n / 256 + 2) (addr + 4096 * n) (size n)))

/-! ### Clauses, arbitration and queues -/

/-- CLAUSE_ENTRY and WAITSEL_MET (R92, R94, R273): a thread at a header whose clause passes its checks takes its words, its end
and its priority, and stands at the clause's first instruction when its waits hold; it is Entering while they do not, and an
Entering thread goes on once they hold. The core notes the words that it has fetched (R99). ENTRY_AGED and
DEMOTION_TIMER_EXPIRY (R281, R282) change one field of one entry. -/
def Obligations.ClauseEntry : Prop :=
  ∀ (s : State) (r : GRef) (tm : Team) (g : Group) (pc prio tid : Nat) (ws : List Nat) (th : Thread),
    s.group? r = some (tm, g) →
    (∀ f : FEntry → FEntry, (∀ e ∈ g.front, ¬ (e.prio = prio ∧ e.pc = pc) → f e = e) →
      let t := s.updGroup r fun _ => { g with front := g.front.map f }
      ((∀ e ∈ g.front, e.prio = prio → e.pc = pc →
          f e = if e.idle = 2048 ∧ e.aged = none then { e with aged := some (rankRoom * ((s.core g.core).clk + 1)) } else e) →
        exec (.evEntryAged r.grid r.team r.gid pc prio) s = .next t) ∧
      ((∀ e ∈ g.front, e.prio = prio → e.pc = pc → f e = { e with demo := if e.demo ≤ 1 then 0 else e.demo }) →
        exec (.evDemotionTimerExpiry r.grid r.team r.gid pc prio) s = .next t)) ∧
    (tm.st = .running → Tab.find? g.threads tid = some th → Free g th → th.hdr = pc →
      let hw := ws.headD 0
      let enters : Thread := { th with pc := pc + 4, inside := true, intd := false, from? := none, st := .ready }
      let reads := fun (u : Thread) => { u with code := ws, cend := pc + 4 * ws.length, prio := hw / 2 ^ 13 % 2 ^ 8 }
      let fetches := fun (s : State) => (s.keepCode g.core tm.pasid pc ws).codeDone g.core tm.pasid pc ws.length
      let become := fun (i : Instr) (f : State → State) (u : Thread) =>
        ∃ t, exec i s = .next t ∧ Aside ((f s).updThread ⟨r, tid⟩ fun _ => u) t r
      (s.checkClause g.core tm.pasid pc = .ok ws →
        List.filter (fun p => decide (p.2.st = .ready ∧ p.2.inside = false ∧ p.2.pc = pc)) g.threads = [(tid, th)] →
        (WaitsMet s g ⟨r, tid⟩ hw → become (.evClauseEntry r.grid r.team r.gid pc) fetches (reads enters)) ∧
        (¬ WaitsMet s g ⟨r, tid⟩ hw →
          become (.evClauseEntry r.grid r.team r.gid pc) fetches (reads { th with st := .entering }))) ∧
      (th.st = .entering → th.code.headD 0 = hw →
        (WaitsMet s g ⟨r, tid⟩ hw → become (.evWaitselMet r.grid r.team r.gid tid) id enters) ∧
        (¬ WaitsMet s g ⟨r, tid⟩ hw → exec (.evWaitselMet r.grid r.team r.gid tid) s = .next s)))

/-- ISSUE_ARBITRATION (R14, R272, R275, R276): one clk of a core passes, which its four partitions share, and at most sixteen
issues are granted, to groups of running teams on the core, each with threads that are Ready inside a clause; the only
candidate, its slot not held, is granted. Of the groups the frontiers alone change, and of the cores this one. A fatal error
grants nothing (R446). -/
def Obligations.Arbitration : Prop :=
  ∀ (s : State) (core part : Nat),
    (s.fatal = true → exec (.evIssueArbitration core part) s = .next s) ∧
    (s.fatal = false → ∃ t new, exec (.evIssueArbitration core part) s = .next t ∧ t.grants = s.grants ++ new ∧
      t = { s with grants := t.grants, teams := t.teams, cores := t.cores } ∧
      (∀ n, n ≠ core → t.core n = s.core n) ∧ (∀ a b, bare t a b = bare s a b) ∧
      (∀ r, (grp t r).map (fun g => { g with front := [] }) = (grp s r).map fun g => { g with front := [] }) ∧
      (t.core core).clk = (s.core core).clk + 1 ∧ new.length ≤ 16 ∧
      (∀ x ∈ new, ∃ tm ∈ s.teams, ∃ p ∈ tm.groups, x.g = ⟨tm.grid, tm.team, p.2.gid⟩ ∧ tm.st = .running ∧
        p.2.core = core ∧ p.2.part < 4 ∧ x.set ≠ [] ∧
        ∀ n ∈ x.set, ∃ th, Tab.find? p.2.threads n = some th ∧ th.st = .ready ∧ th.inside = true) ∧
      ∀ (q : Nat) (c : Cand), q < 4 → (s.groupsOn core q).flatMap (fun p => s.candidates p.1 p.2) = [c] →
        (∀ k < 4, k ≠ q → (s.groupsOn core k).flatMap (fun p => s.candidates p.1 p.2) = []) →
        Tab.getD (s.core core).busy 0 (4 * q + if c.lane then 0 else if c.uni then 2 else 3) ≤ (s.core core).clk →
        new = [⟨c.g, c.prio, c.pc, c.set⟩])

/-- A pop takes the first entry of its queue, in the order in which pops were made: its destination is full with it, or its
thread writes the predicate and goes on (R54, R58, R129). The push that has waited longest at a channel with room is performed
and its thread goes on, an entry of the special-function queue writes its results (R161), of the frontier changing the spin
detectors alone (R281), and a source event sets the pending bit of every live thread (R363).

CTRWAIT_POLL (R237): a thread that waits at a counter in the scratchpad goes on once the counter reads at least the
target, and waits on while it reads less. -/
def Obligations.QueuesAndCounters : Prop :=
  (∀ (s : State) (r : GRef) (tm : Team) (g : Group), s.group? r = some (tm, g) →
       (tm.st = .running → ∀ (p : Pop) (rest : List Pop) (tid : Nat) (th : Thread) (v : Word) (q : List Word),
         tm.pops = p :: rest → p.g = r → p.uniform = false → p.set = [tid] → Tab.find? g.threads tid = some th →
         (queueOf tm g p.port) = v :: q →
         ∃ t tm' g', exec (.evQueuePopServed r.grid r.team r.gid p.port) s = .next t ∧ t.group? r = some (tm', g') ∧
           tm'.pops = rest ∧ queueOf tm' g' p.port = q ∧
           (∀ pf cc pr a b, p.dst = none → p.i = .isetp pf cc pr a b →
             ∃ u : Thread, u = { th with p := u.p } ∧
               (∀ n < 7, u.pred n = if n = pr.toNat then holds cc.toNat 32 v.toNat p.bval else th.pred n) ∧
               Tab.find? g'.threads tid = some (u.advance (decOf p.i) (s.hp tm g))) ∧
           ∀ n pf d a, p.dst = some n → p.i = .mov pf d a → ∃ u, Tab.find? g'.threads tid = some u ∧
             (∀ m, u.reg m = if m = n then v else th.reg m) ∧ (∀ m, m ∈ u.we ↔ m ∈ th.we ∧ m ≠ n) ∧
             (th.st = .parked .reg → u.st = .ready)) ∧
       (tm.st = .running → ∀ (w : PushWait) (rest : List PushWait) (tid : Nat) (th : Thread), 8 ≤ w.port →
         (Tab.getD tm.chans [] w.port).length < 16 → tm.pushes = w :: rest → w.g = r → w.set = [tid] →
         Tab.find? g.threads tid = some th → ∃ t tm' g' u, exec (.evQueueSpaceFreed r.grid r.team w.port) s = .next t ∧
           t.group? r = some (tm', g') ∧ tm'.pushes = rest ∧
           (∀ k, Tab.getD tm'.chans [] k = if k = w.port then Tab.getD tm.chans [] k ++ [w.v] else Tab.getD tm.chans [] k) ∧
           (∀ n, n ≠ tid → Tab.find? g'.threads n = Tab.find? g.threads n) ∧
           LaneRes th u [] { LOut.nil with preds := w.preds, af := w.af, rs := w.rs } ∧
           Tab.find? g'.threads tid = some (u.advance (decOf w.i) (s.hp tm g))) ∧
       (∀ (e : SfEntry) (rest : List SfEntry) (tid : Nat) (th : Thread) (l : List (Nat × Word)),
         g.sfq = e :: rest → (∀ x ∈ rest, x.id ≠ e.id) → e.res = [(tid, l)] → Tab.find? g.threads tid = some th →
         ∃ t g' u, exec (.evSfuCompletion r.grid r.team r.gid e.id) s = .next t ∧ OnlyGroup s t r ∧ grp t r = some g' ∧
           g' = { g with sfq := rest, threads := g'.threads, front := g'.front } ∧
           (g'.front.map fun e => { e with spin := .none }) = (g.front.map fun e => { e with spin := .none }) ∧
           Tab.find? g'.threads tid = some u ∧
           (∀ m, u.reg m = (lastOf l m).getD (th.reg m)) ∧ (∀ m, m ∈ u.we ↔ m ∈ th.we ∧ ∀ p ∈ l, p.1 ≠ m) ∧
           (th.st = .parked .reg → u.st = .ready)) ∧
       (∀ (n : Nat) (rest : List (GRef × Nat)), n < 5 → s.srcs = (r, n) :: rest →
         let pends := fun (g : Group) => { g with threads := Tab.mapV g.threads fun th =>
           if th.st = .exited then th else { th with pend := th.pend ||| BitVec.ofNat 5 (2 ^ n) } }
         exec (.evInterruptSourceEvent r.grid r.team r.gid n) s = .next (
           if n = 3 then ({ s with srcs := rest } : State).updTeam r.grid r.team fun tm =>
             { tm with groups := Tab.mapV tm.groups pends }
           else ({ s with srcs := rest } : State).updGroup r pends))) ∧
  (∀ (s : State) (t : TRef) (tm : Team) (g : Group) (th : Thread) (va target scope since mc off : Nat) (y : Bool)
       (l : Option Leaf),
       s.thread? t = some (tm, g, th) → tm.st = .running → th.st = .parked (.ctr va target scope since y) →
       (∀ b, ¬ outstanding s t b) → s.otUsed g.core + 1 ≤ 1024 →
       s.planCheck g.core tm { asked va 8 3 0 (.ctr target) with
         strong := true, scope := scope, need := ⟨true, false, false⟩ } = .ok (.scratch mc off, none, l) →
       ∃ u, exec (.evCtrwaitPoll t.g.grid t.g.team t.g.gid t.tid) s = .next u ∧ u.hbm = s.hbm ∧ u.pool = s.pool ∧
         u.host = s.host ∧ (∀ r, r ≠ t.g → grp u r = grp s r) ∧ (u.accs = s.accs.filter fun b => b.id != s.accNext) ∧
         thr u t = some (if target ≤ Mem.readN (Tab.getD tm.scratch [] mc) off 8
           then { th with st := .ready, popped := some 0#32 } else th))

/-! ### Accesses, tiles and the engine -/

/-- PRODUCER_VALUE_ARRIVES and STORE_RETIRES (R53, R54, R206): an access that is ready leaves the table; a load's register
is full with the bytes of the scratchpad or of the frame at its own die; a store's bytes stand there, its write to the device
carries the die's raised vector to the three other dies (R317), and the thread's vector takes the stamp. STAMPED_WRITE_APPLY
(R318, R320): the next write of an origin is applied once the vector covers what its stamp does, at its home to the bytes that
no later write has taken. -/
def Obligations.AccessesPerformed : Prop :=
  (∀ (s : State) (a : Acc) (tm : Team) (g : Group) (th : Thread) (fresh : Bool),
    s.acc? a.id = some a → s.thread? a.t = some (tm, g, th) → a.set = [a.t.tid] → tm.st = .running → a.job = none →
    a.acq = false → a.rel = false → a.strong = false → s.accReady a = true →
    let left := s.accs.filter fun b => b.id != a.id
    let d := a.core / 48
    let v := (s.die d).v.bump d
    let fills := fun (t : State) (n : Nat) (w : Word) => ∃ u, thr t a.t = some u ∧
      (∀ m, u.reg m = if m = n then w else th.reg m) ∧ (∀ m, m ∈ u.we ↔ m ∈ th.we ∧ m ≠ n) ∧
      (th.st = .parked .reg → u.st = .ready)
    (∀ c off, a.leaf = none → windowOf tm a.va a.size = some (.scratch c off) →
      (∀ n, a.op = .load 4 false → a.size = 4 → a.dest = some ⟨false, n, 1⟩ →
        ∃ t, exec (.evProducerValueArrives a.id fresh) s = .next t ∧ t = { s with accs := left, teams := t.teams } ∧
          fills t n (BitVec.ofNat 32 (Mem.readN (Tab.getD tm.scratch [] c) off 4))) ∧
      (∀ bs, a.op = .store bs → a.dest = none →
        ∃ t tm', exec (.evStoreRetires a.id) s = .next t ∧ t = { s with accs := left, teams := t.teams } ∧
          t.team? a.t.g.grid a.t.g.team = some tm' ∧
          ∀ c' x, Mem.read (Tab.getD tm'.scratch [] c') x
            = if c' = c ∧ off ≤ x ∧ x < off + bs.length then bs.getD (x - off) 0#8
              else Mem.read (Tab.getD tm.scratch [] c') x)) ∧
    (∀ l, a.leaf = some l → a.leaf2 = none → l.lease = 0 → a.prog = 0 → a.va % 65536 + a.size ≤ 65536 → th.floor = [] →
      d < 4 →
      let pa := l.pg * 65536 + a.va % 65536
      pa + a.size ≤ 2 ^ 60 → homeOf pa = d → s.lostIn pa a.size a.op.writes = false → s.chanHeld pa = false →
      (∀ n, a.op = .load 4 false → a.size = 4 → a.dest = some ⟨false, n, 1⟩ →
        (∀ i < 4, s.l1Copy a.core (pa + i) = none) →
        ∃ t, exec (.evProducerValueArrives a.id fresh) s = .next t ∧ t.accs = left ∧ t.hbm = s.hbm ∧
          fills t n (BitVec.ofNat 32 (ofLE (Mem.readList s.hbm pa 4)))) ∧
      (∀ bs, a.op = .store bs → a.dest = none → bs.length = a.size → 0 < a.size →
        (∀ i < a.size, keyLt (v.sum, d) (Tab.getD (s.die d).marks .zero (pa + i)).key = false ∧
          keyLt (v.sum, d) (Tab.getD (s.die d).rmw (0, 0) (pa + i)) = false) →
        ∃ t u, exec (.evStoreRetires a.id) s = .next t ∧ t.accs = left ∧ thr t a.t = some u ∧ u.wrote = th.wrote.join v ∧
          (t.die d).v = v ∧
          (∀ e < 4, e ≠ d → (t.die e).v = (s.die e).v ∧ (t.die e).inbox = (s.die e).inbox ++ [⟨d, v, pa, bs⟩]) ∧
          ∀ x, Mem.read t.hbm x = if pa ≤ x ∧ x < pa + bs.length then bs.getD (x - pa) 0#8 else Mem.read s.hbm x))) ∧
  ∀ (s : State) (e o : Nat) (m : Stamped) (rest : List Stamped), o < 4 → (s.die e).inbox = m :: rest → m.origin = o →
    let v := (s.die e).v
    let may := m.s.get o = v.get o + 1 ∧ ∀ k < 4, k ≠ o → m.s.get k ≤ v.get k
    let home := m.addr < 2 ^ 60 ∧ homeOf m.addr = e
    (¬ may → ∃ t, exec (.evStampedWriteApply e o) s = .next t ∧ t.dies = s.dies ∧ t.hbm = s.hbm) ∧
    (may → ∃ t, exec (.evStampedWriteApply e o) s = .next t ∧ (t.die e).v = v.put o (m.s.get o) ∧
      (t.die e).inbox = rest ∧
      (home → ∀ i < m.data.length, Mem.read t.hbm (m.addr + i) =
        if keyLt (m.s.sum, o) (Tab.getD (s.die e).marks .zero (m.addr + i)).key then Mem.read s.hbm (m.addr + i)
        else m.data.getD i 0#8) ∧
      ∀ x, (x < m.addr ∨ m.addr + m.data.length ≤ x ∨ ¬ home) → Mem.read t.hbm x = Mem.read s.hbm x)

/-- TILE_ARRIVAL (R289, R290): the first arrival on its way, for a FILLING tile of a resident team at its phase and within
its length and expectation, is written and counted, the last one making the tile READY, and its store retires.
TILE_DRAIN_COMPLETE (R287): a DRAINING tile without reads is EMPTY at the next phase. HOLD_STORE_EXPIRY (R294): an arrival
held beyond its aperture's time is rejected, and its store's fault 0x0D is deferred (R212).

The weir (R299). At a window's end each bucket of the port pays its debt from its rate and gains the rest in tokens, up
to its depth; a request is served from a token, or from an idle clk of the window before while the debt is below half the
depth. -/
def Obligations.TileEventsAndWeirs : Prop :=
  (∀ s : State,
       (∀ (a : Arrival) (rest : List Arrival) (k id : Nat) (b : Aper) (tm : Team), s.arrivals = a :: rest → a.ap = some k →
         Tab.find? s.cp.apers k = some b → s.team? b.grid b.team = some tm → tm.resident = true → a.mc < tm.cores.length →
         a.tile < tm.kern.tiles → a.swz = false → a.prod = .store id → (s.acc? id).isSome = true →
         let e := tm.tile a.mc a.tile
         e.st = .filling → e.mstt = false → a.ph = e.ph → a.off + a.data.length ≤ 64 * e.len →
         e.abytes + a.data.length ≤ 64 * e.exp →
         ∃ t tm', exec (.evTileArrival 0) s = .next t ∧ t.team? b.grid b.team = some tm' ∧ t.arrivals = rest ∧
           t.acc? id = none ∧
           tm'.tile a.mc a.tile = { e with
             abytes := e.abytes + a.data.length
             st := if e.abytes + a.data.length = 64 * e.exp then .ready else .filling } ∧
           ∀ x, Mem.read (Tab.getD tm'.scratch [] a.mc) x =
             if 64 * e.base + a.off ≤ x ∧ x < 64 * e.base + a.off + a.data.length
             then a.data.getD (x - (64 * e.base + a.off)) 0#8 else Mem.read (Tab.getD tm.scratch [] a.mc) x) ∧
       (∀ (g t mc n : Nat) (tm : Team), s.team? g t = some tm → (tm.tile mc n).st = .draining →
         ((tm.tile mc n).rds = 0 → exec (.evTileDrainComplete g t mc n) s =
           .next (s.updTile g t mc n fun e => { e with st := .empty, ph := (e.ph + 1) % 16 })) ∧
         ((tm.tile mc n).rds ≠ 0 → exec (.evTileDrainComplete g t mc n) s = .next s)) ∧
       ∀ (h : HoldEnt) (rest : List HoldEnt) (bs : List Byte) (a : Acc) (th : Thread), s.cp.hold = h :: rest →
         (s.now ≤ h.until_ → exec (.evHoldStoreExpiry 0) s = .next s) ∧
         (h.until_ < s.now → h.arr.prod = .store a.id → s.acc? a.id = some a → a.op = .store bs → a.set = [a.t.tid] →
           thr s a.t = some th →
           ∃ t u r, exec (.evHoldStoreExpiry 0) s = .next t ∧ t.cp.hold = rest ∧ t.acc? a.id = none ∧ thr t a.t = some u ∧
             u.defd = th.defd ++ [⟨.store, r⟩] ∧ r.code = 0x0D ∧ r.kind = 0x09)) ∧
  (∀ (s : State) (die pa : Nat),
       let slice := pa / 512 % 80
       let p := die * 80 + slice
       let bucket := fun (s : State) (p pasid : Nat) => Tab.getD s.weirs .fresh (p * 2 ^ 20 + pasid)
       (∃ t, exec (.evWeirWindow die slice) s = .next t ∧ t = { s with weirs := t.weirs, weirIdle := t.weirIdle } ∧
         (∀ q pasid, pasid < 2 ^ 20 → bucket t q pasid =
           let w := bucket s q pasid
           let pay := min w.rate w.debt
           if q = p then
             { w with debt := w.debt - pay, tokens := min (w.tokens + (w.rate - pay)) w.dep } else w) ∧
         Tab.getD t.weirIdle 0 (2 * p) = 64 - Tab.getD s.weirIdle 0 (2 * p + 1) ∧ Tab.getD t.weirIdle 0 (2 * p + 1) = 0) ∧
       ∀ pasid, pasid < 2 ^ 20 →
         let w := bucket s p pasid
         let idle := Tab.getD s.weirIdle 0 (2 * p)
         let serves := fun (w' : Weir) (i : Nat) => ∃ t, exec (.evWeirServe die pa pasid) s = .next t ∧
           t = { s with weirs := t.weirs, weirIdle := t.weirIdle } ∧ bucket t p pasid = w' ∧
           Tab.getD t.weirIdle 0 (2 * p) = i ∧
           Tab.getD t.weirIdle 0 (2 * p + 1) = Tab.getD s.weirIdle 0 (2 * p + 1) + 1
         (1 ≤ w.tokens → serves { w with tokens := w.tokens - 1 } idle) ∧
         (w.tokens = 0 → w.debt < w.dep / 2 → 0 < idle → serves { w with debt := w.debt + 1 } (idle - 1)) ∧
         (w.tokens = 0 → (w.dep / 2 ≤ w.debt ∨ idle = 0) → exec (.evWeirServe die pa pasid) s = .next s))

/-- The copy engine. JOB_CARD_ACCEPT (R254, R303, R304): a channel that holds fewer than eight takes the oldest card, its
template with the card's arguments, and its thread goes on. JOB_START (R303, R308, R309): a job that may start runs, and arms
its destination tile when the card says so. JOB_SECTOR (R306, R309, R310): the next sector's bytes are written and counted,
the last one landing the job. JOB_COMPLETE (R303, R309): a landed job leaves, after its consume. -/
def Obligations.EngineJobs : Prop :=
  ∀ (s : State) (core : Nat),
    (∀ (a : Acc) (v : Nat) (th : Thread) (b : List Byte) (p : Tmpl) (x : Ctx) (l r : List Acc),
      s.accs = l ++ a :: r → a.core = core →
      let chan := a.va / 2 ^ 6 % 16
      (∀ y ∈ l, ∀ w, y.core = core → y.va / 2 ^ 6 % 16 = chan → y.op ≠ .card w) →
      a.op = .card v → thr s a.t = some th → s.ctx a.pasid = some x →
      let q := (s.core core).jobs.filter fun j => decide (j.chan = chan ∧ j.st = .queued)
      let gone := fun (t : State) => ∀ y ∈ t.accs, y.id ≠ a.id
      (¬ (th.st = .ready ∧ th.pc = a.pc ∧ th.ri = a.ri) →
        ∃ t, exec (.evJobCardAccept core chan) s = .next t ∧ gone t ∧ t.cores = s.cores) ∧
      (th.st = .ready → th.pc = a.pc → th.ri = a.ri →
        (8 ≤ q.length → exec (.evJobCardAccept core chan) s = .next s) ∧
        (q.length < 8 → let va := (x.ttb + 128 * (v % 1024)) % 2 ^ 64; va + 128 ≤ 2 ^ 57 →
          (s.unitRead ⟨[4, core, chan], core, a.pasid, false⟩ va 128 ⟨true, false, false⟩).1 = .done b →
          parseTmpl (applyArgs b v) v = some p →
          (v.testBit 10 = true → p.dtile = true) → (v.testBit 12 = true → p.stile = true) →
          ∃ t j, exec (.evJobCardAccept core chan) s = .next t ∧ (t.core core).jobs = (s.core core).jobs ++ [j] ∧
            j.st = .queued ∧ j.chan = chan ∧ j.card = v ∧ j.tmpl = applyArgs b v ∧ j.t = a.t ∧ j.eprog = 0 ∧
            j.seq = (s.core core).jobNext ∧ (t.core core).jobNext = (s.core core).jobNext + 1 ∧ gone t ∧
            thr t a.t = some { th with popped := some 0#32 }))) ∧
    ∀ (j : Job) (tm : Team) (p : Tmpl), (s.core core).job? j.num = some j →
      s.team? j.t.g.grid j.t.g.team = some tm → j.tm? = some p →
      let mc := tm.memberOf core
      let becomes := fun (k : Job) => s.updCore core fun c => { c with jobs := c.jobs.map fun x => if x.num = j.num then k else x }
      (∀ k ∈ (s.core core).jobs, k.num = j.num → k = j) →
      (s.jobMayStart tm core j p = true → tileFault tm core j p = none → p.stile = false →
        (p.dtile = false → exec (.evJobStart core j.num) s = .next (becomes { j with st := .running, ph := 0 })) ∧
        (p.dtile = true → j.card.testBit 10 = true →
          let dn := p.dst % 256
          let e := tm.tile mc dn
          e.st = .empty → (∀ y ∈ tm.heldArr, ¬ (y.mc = mc ∧ y.tile = dn ∧ y.ph = e.ph)) →
          ∃ t tm', exec (.evJobStart core j.num) s = .next t ∧
            (t.core core).job? j.num = some { j with st := .running, ph := e.ph } ∧
            t.team? tm.grid tm.team = some tm' ∧ tm'.tile mc dn = { e with
              st := .filling, abytes := 0, exp := p.sectors, cons := j.card / 2 ^ 24 % 256, mstt := false, rds := 0 })) ∧
      (j.st = .running → (∀ a ∈ s.accs, ¬ (a.core = core ∧ a.job = some j.num)) → p.dtile = false → j.bar = none →
        ∀ bs c off, (∀ n ∈ p.sector j.eprog, p.byteCheck tm mc n = none) →
        s.jobBytes core tm j p (p.sector j.eprog) = .ok bs → bs ≠ [] →
        let va := p.dstVa tm mc (64 * j.eprog)
        windowOf tm va bs.length = some (.scratch c off) → va % 65536 + bs.length ≤ 65536 →
        ∃ t tm', exec (.evJobSector core j.num) s = .next t ∧
          (t.core core).job? j.num = some { j with
            eprog := j.eprog + 1, buf := [], st := if p.sectors ≤ j.eprog + 1 then .landed else .running } ∧
          t.team? tm.grid tm.team = some tm' ∧
          (∀ n, j.srcTile = some n → (tm'.tile mc n).rds =
            (tm.tile mc n).rds - if p.sectors ≤ j.eprog + 1 then 1 else 0) ∧
          ∀ x, Mem.read (Tab.getD tm'.scratch [] c) x =
            if off ≤ x ∧ x < off + bs.length then bs.getD (x - off) 0#8 else Mem.read (Tab.getD tm.scratch [] c) x) ∧
      (j.st = .landed → j.flying = 0 →
        let left := fun (t : State) => (t.core core).jobs = (s.core core).jobs.filter fun x => x.num != j.num
        (j.card.testBit 12 = false → ∃ t, exec (.evJobComplete core j.num) s = .next t ∧ left t) ∧
        (∀ n, j.card.testBit 12 = true → j.srcTile = some n →
          let e := tm.tile mc n
          (e.st = .ready → ∃ t tm', exec (.evJobComplete core j.num) s = .next t ∧ left t ∧
            t.team? tm.grid tm.team = some tm' ∧ tm'.tile mc n = { e with
              cons := e.cons - 1, st := if e.cons ≤ 1 then .draining else .ready }) ∧
          (e.st ≠ .ready → exec (.evJobComplete core j.num) s = .next s)))

/-- The matrix sequence (R247): its first operation is performed and leaves. MZERO leaves an accumulator of zeros (R240);
MMA adds the sums of its blocks to every word and pushes its status word to q0 (R87, R249, R251); MREL frees the record and
its counters go to its threads (R241); an MLDG's bricks are those of its pinned lines, once its loads may be performed
(R245). -/
def Obligations.MatrixCompletes : Prop :=
  ∀ (s : State) (core : Nat) (o : MOp) (rest : List MOp),
    let k := s.core core
    (∀ r va, o ∈ k.seq → (∀ x ∈ k.seq, x.id = o.id → x = o) → Tab.find? k.recs o.c = some r → o.kind = .mldg va →
      (∀ x ∈ k.seq, x.id < o.id → x.c ≠ o.c ∧ x.a ≠ o.c ∧ x.b ≠ o.c) →
      (s.mldgReady core o va = false → exec (.evMldgFillComplete core o.id) s = .next s) ∧
      (s.mldgReady core o va = true → ∃ t, exec (.evMldgFillComplete core o.id) s = .next t ∧
        (t.core core).seq = k.seq.filter (fun x => x.id != o.id) ∧
        (t.core core).bricks =
          (k.loadBricks o.c r (layoutOf o.layout) (fun x => s.lineByte core o.lines (va + x))
            (fun x => s.lineByte core o.lines (va + x)) s.free).bricks)) ∧
    (k.seq = o :: rest → (∀ x ∈ rest, x.id ≠ o.id) →
      (∀ r, o.kind = .mzero → Tab.find? k.recs o.c = some r →
        ∃ t, exec (.evMatrixOpComplete core) s = .next t ∧ (t.core core).seq = rest ∧ (t.core core).recs = k.recs ∧
          ∀ i, ((t.core core).accum o.c).word i = 0#32) ∧
      (∀ rc ra rb tm g, o.kind = .mma → o.kblk = 0 → Tab.find? k.recs o.c = some rc → Tab.find? k.recs o.a = some ra →
        Tab.find? k.recs o.b = some rb → s.group? o.g = some (tm, g) → tm.resident = true →
        ∃ t g', exec (.evMatrixOpComplete core) s = .next t ∧ (t.core core).seq = rest ∧ grp t o.g = some g' ∧
          g'.q0 = g.q0 ++ [BitVec.ofNat 32 (16 * o.c + 65536 * (o.seqNo % 65536))] ∧ g'.q0out = g.q0out - 1 ∧
          ∀ i < 16384, ((t.core core).accum o.c).word i = BitVec.ofNat 32
            (cellSum ⟨k, ra⟩ ⟨k, rb⟩ rc.afmt (i / 128) (i % 128) 0 ra.kLen ((k.accum o.c).word i).toNat)) ∧
      (∀ r tid reg th, o.kind = .mrel [tid] reg → Tab.find? k.recs o.c = some r → thr s ⟨o.g, tid⟩ = some th →
        ∃ t u, exec (.evMatrixOpComplete core) s = .next t ∧ (t.core core).seq = rest ∧
          Tab.find? (t.core core).recs o.c = none ∧ thr t ⟨o.g, tid⟩ = some u ∧
          u.reg reg = BitVec.ofNat 32 (r.under + 65536 * r.clip) ∧ reg ∉ u.we))

/-! ### Launch, scheduling and pre-emption -/

/-- SPAWN_WRITE (R341, R344, R345): a 64-byte record whose checks pass enters its queue's ring as a grid with the next
gridid, and TAIL rises; one for a full ring, one of another size and one whose check fails is counted in REJECT, the last
reported too. PENDING_LAUNCH_TAKE (R257, R350): the oldest pending launch of a team becomes a child grid, or is turned away,
and q1 of the launching group takes the word that says which; it waits while the child store is full. Both wait while the
kernel descriptor cannot be read yet. -/
def Obligations.LaunchTaken : Prop :=
  ∀ (s : State) (id : Nat), s.cpUp = true → id = s.cp.gridNext → id < 2 ^ 32 → id % 2 ^ 24 ≠ 0 → s.grid? id = none →
    (∀ (fn slot off pasid : Nat) (data : List Byte) (x : Queue), s.ctxAt fn slot = some pasid → data.length = 64 →
      off % 64 = 0 →
      let r := parseRec data
      let own := [0, fn, slot]
      let acq := (s.die 0).v.join (s.die 2).v
      let rejects := fun (size : Nat) => ∃ t y, exec (.evSpawnWrite fn slot size off data) s = .next t ∧
        t.cp.grids = s.cp.grids ∧ t.cp.spawns = s.cp.spawns ∧ Tab.find? t.cp.queues r.queue = some y ∧
        y.reject = x.reject + 1 ∧ y.tail = x.tail
      Tab.find? s.cp.queues r.queue = some x → x.pasid = pasid → s.ringMapped x = true →
      (∀ w ∈ s.cp.spawns, ¬ (w.fn = fn ∧ w.slot = slot)) →
      (∀ size, size ≠ 64 → rejects size) ∧
      (x.tail - x.head = 2 ^ x.logsz → rejects 64) ∧
      (x.tail - x.head ≠ 2 ^ x.logsz →
        (∀ k, s.recCheck own pasid r = .ok (some k) → ∃ t y, exec (.evSpawnWrite fn slot 64 off data) s = .next t ∧
          t.grid? id = some (s.gridOf r k none 0 acq id) ∧ t.cp.gridNext = (id + 1) % 2 ^ 32 ∧ t.cp.spawns = s.cp.spawns ∧
          Tab.find? t.cp.queues r.queue = some y ∧ y.tail = x.tail + 1 ∧ y.ring = x.ring ++ [id]) ∧
        (∀ c, s.recCheck own pasid r = .error c → rejects 64 ∧
          ∀ t, exec (.evSpawnWrite fn slot 64 off data) s = .next t → pasid ∈ t.cp.closedRep) ∧
        (s.recCheck own pasid r = .ok none → exec (.evSpawnWrite fn slot 64 off data) s =
          .next (({ s with cp := { s.cp with spawns := s.cp.spawns ++ [⟨fn, slot, data, acq⟩] } } : State).askKernel
            own pasid r.kdesc)))) ∧
    ∀ (tm : Team) (g : Group) (p : PLaunch) (rest : List PLaunch), s.group? ⟨tm.grid, tm.team, p.gid⟩ = some (tm, g) →
      tm.st = .running → tm.pend = p :: rest →
      let r := parseRec p.rcd
      let own := [1, tm.grid, tm.team]
      let answers := fun (t : State) (w children : Nat) => ∃ tm' g', t.group? ⟨tm.grid, tm.team, p.gid⟩ = some (tm', g') ∧
        tm'.pend = rest ∧ tm'.children = children ∧ g'.q1 = g.q1 ++ [BitVec.ofNat 32 w]
      (s.recCheck own tm.pasid r = .ok none →
        exec (.evPendingLaunchTake tm.grid tm.team) s = .next (s.askKernel own tm.pasid r.kdesc)) ∧
      (∀ c, s.recCheck own tm.pasid r = .error c → ∃ t, exec (.evPendingLaunchTake tm.grid tm.team) s = .next t ∧
        answers t c tm.children ∧ t.cp = s.cp) ∧
      (∀ k x, s.recCheck own tm.pasid r = .ok (some k) → Tab.find? s.cp.queues r.queue = some x →
        (x.maxd < tm.depth + 1 → ∃ t, exec (.evPendingLaunchTake tm.grid tm.team) s = .next t ∧
          answers t 0x0F tm.children ∧ t.cp = s.cp) ∧
        (tm.depth + 1 ≤ x.maxd → 16384 ≤ (s.cp.grids.filter fun z => z.2.parent.isSome).length →
          exec (.evPendingLaunchTake tm.grid tm.team) s = .next s) ∧
        (tm.depth + 1 ≤ x.maxd → (s.cp.grids.filter fun z => z.2.parent.isSome).length < 16384 →
          ∃ t y, exec (.evPendingLaunchTake tm.grid tm.team) s = .next t ∧ answers t (id % 2 ^ 24 * 256) (tm.children + 1) ∧
            t.grid? id = some (s.gridOf r k (some (tm.grid, tm.team)) (tm.depth + 1) p.vec id) ∧
            Tab.find? t.cp.queues r.queue = some y ∧ y.kids = x.kids ++ [id]))

/-- TEAM_SELECT (R347 to R349): the one open queue, its head a ready grid whose next team fits and whose groups its deficit
allows, has that team admitted on the cores chosen. QUEUE_AGED (R348), QUEUE_DESTROY, which closes a queue once none of its
teams is left, and QUEUE_RING_UNMAPPED (R346), QUEUE_DESCRIPTOR_WRITE (R343), APERTURE_UNBIND (R355) and CONTEXT_CREATE
(R338), which gives the new context's record slots their reset contents: CHAN reads 0xFF (R8). -/
def Obligations.QueuesAndContexts : Prop :=
  ∀ (s : State) (q : Nat),
    (∀ (x : Queue) (gid : Nat) (c : Bool) (y : Grid) (cores : List Nat), s.cpUp = true → s.cp.queues = [(q, x)] →
      x.st = .opened → x.conts = [] → x.readmit = [] → s.headOf x = some (.grid gid c) → s.grid? gid = some y →
      s.headReady (.grid gid c) = true → s.gridPlace y = some cores → 0 < y.groups → y.groups ≤ x.deficit + x.quant →
      ∃ t, exec .evTeamSelect s = .next t ∧ t.cp.lastQ = q ∧ ∃ tm ∈ t.teams, tm.grid = y.id ∧ tm.team = y.nextTeam ∧
        tm.cores = cores ∧ tm.kern = y.kern ∧ tm.st = .running ∧ tm.groups.length = y.groups) ∧
    (∀ (x : Queue), Tab.find? s.cp.queues q = some x →
      let errs : State := { s.updQueue q fun _ => { x with st := .error } with
        cp := { (s.updQueue q fun _ => { x with st := .error }).cp with closedRep := s.cp.closedRep ++ [x.pasid] } }
      let becomes := fun (y : Queue) => exec (.evQueueAged q) s = .next (s.updQueue q fun _ => y)
      (∀ h, s.headOf x = some h → s.headReady h = true →
        (x.head? ≠ some h.key → becomes { x with head? := some h.key, readySince := some s.now, aged := false }) ∧
        (∀ since, x.head? = some h.key → x.readySince = some since →
          (x.age ≠ 0 → max since x.lastAdmit + 1000 * x.age ≤ s.now → becomes { x with aged := true }) ∧
          (s.now < max since x.lastAdmit + 1000 * x.age ∨ x.age = 0 → becomes x))) ∧
      ((∀ h, s.headOf x = some h → s.headReady h = false) →
        becomes { x with head? := none, readySince := none, aged := false, deficit := 0 }) ∧
      (x.st = .destroying → ∃ t y, exec (.evQueueDestroy q) s = .next t ∧ Tab.find? t.cp.queues q = some y ∧
        y.readmit = [] ∧ y.deficit = 0 ∧ ((∀ tm ∈ s.teams, tm.queue ≠ q) → y.st = .closed) ∧
        ((∃ tm ∈ s.teams, tm.queue = q) → y.st = .destroying)) ∧
      (x.st ≠ .destroying → exec (.evQueueDestroy q) s = .next s) ∧
      (x.st = .opened → s.ringMapped x = false → exec (.evQueueRingUnmapped q) s = .next errs) ∧
      (x.st ≠ .opened ∨ s.ringMapped x = true → exec (.evQueueRingUnmapped q) s = .next s)) ∧
    (∀ d, q < 1024 → ∃ t x, exec (.evQueueDescriptorWrite q d) s = .next t ∧ Tab.find? t.cp.queues q = some x ∧
      x.base = d / 2 ^ 64 % 2 ^ 64 ∧ x.pasid = d / 2 ^ 44 % 2 ^ 20 ∧ x.maxd = d / 2 ^ 40 % 16 ∧ x.logsz = d / 2 ^ 36 % 16 ∧
      x.quant = d / 2 ^ 28 % 256 ∧ x.age = d / 2 ^ 16 % 4096 ∧ x.swap = d.testBit 15 ∧ x.pri = d / 2 ^ 12 % 8 ∧
      x.st = (match d % 4 with | 0 => .closed | 1 => .opened | 2 => .destroying | _ => .error)) ∧
    (∀ (ap : Nat) (a : Aper) (since : Nat), Tab.find? s.cp.apers ap = some a → a.retiredAt = some since →
      (since + 2 ^ a.hold * 1000 ≤ s.now → ∃ t, exec (.evApertureUnbind ap) s = .next t ∧
        ∀ k, Tab.find? t.cp.apers k = if k = ap then none else Tab.find? s.cp.apers k) ∧
      (s.now < since + 2 ^ a.hold * 1000 → exec (.evApertureUnbind ap) s = .next s)) ∧
    ∀ pasid part fn slot ttb ptroot trapTab recArea image mcrep : Nat,
      let i := Instr.evContextCreate pasid part fn slot ttb ptroot trapTab recArea image mcrep
      (s.ctx pasid = none → s.cp.ctxs.length < 1024 → pasid < 2 ^ 20 → (s.part part).isSome = true →
        ∃ t, exec i s = .next t ∧ (∀ k, t.ctx k = if k = pasid then
            some { part := part, fn := fn, slot := slot, ttb := ttb, ptroot := ptroot, trapTab := trapTab
                   recArea := recArea, image := image, mcrep := mcrep, hintDrops := 0 }
          else s.ctx k) ∧
          t.cores = s.cores ∧ t.teams = s.teams ∧ t.pool = s.pool ∧ t.host = s.host ∧
          (recArea % 64 = 0 → ∀ a, Mem.read t.hbm a = Mem.read s.hbm a ∨ (a % 64 = 0x3A ∧ Mem.read t.hbm a = 0xFF#8))) ∧
      ((s.ctx pasid).isSome = true → exec i s = .next s)

/-- TEAM_RETIRE (R351 to R353): a team that is quiet leaves the machine, or becomes an awaiting-children record while a
child grid lives; a grid without teams whose release holds completes. CONTINUATION_SWAP_OUT (R354) stops a team that waits in
CTRWAIT.yield; CONTINUATION_POLL (R355) puts its record at its queue's head once a strong load of the counter returns the
target or more, and waits for a load that cannot be performed yet. DOORBELL
(R363, R411) sets pending bit 4. -/
def Obligations.TeamEvents : Prop :=
  ∀ (s : State) (g n : Nat),
    (∀ tm, s.team? g n = some tm →
      (s.teamQuiet tm = true → tm.pend = [] → tm.children = 0 →
        ∃ t, exec (.evTeamRetire g n) s = .next t ∧ t.team? g n = none) ∧
      (s.teamQuiet tm = true → tm.st = .running → tm.children ≠ 0 →
        ∃ t x, exec (.evTeamRetire g n) s = .next t ∧ t.team? g n = some x ∧ x.st = .awaiting ∧ x.heldArr = []) ∧
      (s.teamQuiet tm = false → exec (.evTeamRetire g n) s = .next s) ∧
      (∀ q va target, tm.st = .running → tm.preempt = none → Tab.find? s.cp.queues tm.queue = some q → q.swap = true →
        s.yieldWait tm = some (va, target) → ∃ t x, exec (.evContinuationSwapOut g n) s = .next t ∧ t.team? g n = some x ∧
          x.st = .stopped (.swap va target) ∧ t.grants = s.grants.filter fun z => !(z.g.grid == g && z.g.team == n)) ∧
      (∀ q va target, tm.st = .continuation va target → Tab.find? s.cp.queues tm.queue = some q → (g, n) ∉ q.conts →
        let load := s.unitGet ⟨[11, tm.grid, tm.team], 0, tm.pasid, true⟩ va 8 ⟨true, false, false⟩
        let polls := fun (y : Queue) => ∃ t, exec (.evContinuationPoll g n) s = .next t ∧ t.teams = s.teams ∧
          t.cp = (s.updQueue tm.queue fun _ => y).cp
        (∀ b, load = .done b → target ≤ ofLE b → polls { q with conts := q.conts ++ [(g, n)] }) ∧
        (∀ b, load = .done b → ofLE b < target → polls q) ∧
        (∀ f, load = .fail f → polls q) ∧
        (load = .wait → exec (.evContinuationPoll g n) s =
          .next (s.unitAsk ⟨[11, tm.grid, tm.team], 0, tm.pasid, true⟩ va 8 (.load 8 false) ⟨true, false, false⟩)))) ∧
    (∀ x : Grid, s.team? g n = none → s.grid? g = some x → x.id = g → x.teams ≤ x.nextTeam → x.killed = false →
      x.abandoned = false → (∀ t ∈ s.teams, t.grid ≠ g) → (∀ q ∈ s.cp.queues, ∀ r ∈ q.2.readmit, r.1 ≠ g) →
      s.gridReleased x = true → x.join = 0 → ∃ t, exec (.evTeamRetire g n) s = .next t ∧ t.grid? g = none) ∧
    ∀ (fn slot val : Nat) (r : GRef) (tm : Team) (gr : Group), r.grid = val % 2 ^ 32 → r.team = val / 2 ^ 40 % 2 ^ 24 →
      r.gid = val / 2 ^ 35 % 32 → s.group? r = some (tm, gr) → s.ctxAt fn slot = some tm.pasid → gr.over = false →
      tm.st = .running → exec (.evDoorbell fn slot 8 0 val) s = .next (s.updGroup r fun g =>
        { g with threads := Tab.mapV g.threads fun th =>
            if th.st = .exited then th else { th with pend := th.pend ||| 16#5 } })

/-- Pre-emption (R364 to R367, R374). A request has the team drain when that is allowed and the estimate of R365 meets the
deadline; failing that discard, where allowed and the grid may run again from its start; failing that save. DRAIN_DEADLINE
chooses between the last two. A second request for a stopped team joins the first: the earlier deadline, the actions both
allow, and a report to each. DISCARD takes a stopped team off its cores, to be admitted afresh; SAVE keeps it, once its image
can be written; RESTORE runs a saved team on cores that suit it. -/
def Obligations.Preemption : Prop :=
  ∀ (s : State) (g n : Nat) (tm : Team), s.team? g n = some tm →
    let now := s.now
    let tg := tm.groups.length
    let ended := (List.filter (fun p : Nat × Group => p.2.over) tm.groups).length
    let rerun := (∃ x, s.grid? tm.grid = some x ∧ x.idem = true) ∧ tm.children = 0 ∧ tm.pend = [] ∧ s.sysOut tm = false
    let becomes := fun (i : Instr) (st : TeamSt) (p : Preempt) => ∃ t x, exec i s = .next t ∧ t.team? g n = some x ∧
      x.st = st ∧ x.preempt = some p
    (∀ deadline allow who, tm.st = .running → tm.preempt = none →
      let i := Instr.evPreemptRequest g n deadline allow who
      let p : Preempt := ⟨deadline, allow % 8, [who], false⟩
      let fits := ended ≠ 0 ∧ now * ended + (now - tm.admitAt) * (tg - ended) ≤ deadline * ended
      (allow.testBit 0 = true → fits → becomes i .running { p with draining := true }) ∧
      (¬ (allow.testBit 0 = true ∧ fits) → allow.testBit 1 = true → rerun → becomes i (.stopped .discard) p) ∧
      (¬ (allow.testBit 0 = true ∧ fits) → ¬ (allow.testBit 1 = true ∧ rerun) → becomes i (.stopped .save) p)) ∧
    (∀ p w deadline allow who, tm.st = .stopped w → tm.preempt = some p →
      let both := p.allow &&& (allow % 8)
      becomes (.evPreemptRequest g n deadline allow who) (.stopped w) { p with
        deadline := min p.deadline deadline, allow := if both = 0 then 4 else both, who := p.who ++ [who] }) ∧
    (∀ p, tm.st = .running → tm.preempt = some p → p.draining = true →
      let i := Instr.evDrainDeadline g n
      (now < p.deadline → exec i s = .next s) ∧
      (p.deadline ≤ now → p.allow.testBit 1 = true → rerun → becomes i (.stopped .discard) { p with draining := false }) ∧
      (p.deadline ≤ now → ¬ (p.allow.testBit 1 = true ∧ rerun) → becomes i (.stopped .save) { p with draining := false })) ∧
    (∀ p x, tm.st = .stopped .discard → tm.preempt = some p → s.drained tm false = true →
      Tab.find? s.cp.queues tm.queue = some x →
      ∃ t y, exec (.evDiscard g n) s = .next t ∧ t.team? g n = none ∧ Tab.find? t.cp.queues tm.queue = some y ∧
        y.readmit = x.readmit ++ [(g, n)] ∧
        t.cp.reports = s.cp.reports ++ p.who.map fun w => ⟨w, g, n, 1, now, decide (p.deadline < now)⟩) ∧
    (∀ w c x t', tm.st = .stopped w → w ≠ .discard → s.drained tm true = true → s.ctx tm.pasid = some c →
      (s.saveSteps tm w).team? g n = some x →
      (let img := (s.saveSteps tm w).image x
       State.writeImage (saver tm) (img.length / 65536 + 2) c.image img (s.saveSteps tm w) = some t') →
      ∃ t x, exec (.evSave g n) s = .next t ∧ t.team? g n = some x ∧ x.preempt = none ∧ x.image = c.image ∧
        x.st = (match w with | .swap va target => .continuation va target | _ => .saved)) ∧
    (tm.st = .saved → s.gridKilled g = false →
      (∀ cores, s.restorePlace tm = some cores → ∃ t x, exec (.evRestore g n) s = .next t ∧ t.team? g n = some x ∧
        x.st = .running ∧ x.cores = cores ∧ x.admitAt = now ∧ x.notes = []) ∧
      (s.restorePlace tm = none → exec (.evRestore g n) s = .next s))

/-- A team retires only after every copy job it has issued has completed or been abandoned (R312): while a job of the team
is on a core, or kept with its saved state, TEAM_RETIRE leaves the machine as it is. -/
def Obligations.TeamRetiresAfterJobs : Prop :=
  ∀ (s : State) (grid team : Nat) (tm : Team), s.team? grid team = some tm →
    ((∃ k ∈ s.cores, ∃ j ∈ k.2.jobs, j.t.g.grid = grid ∧ j.t.g.team = team) ∨ (∃ k ∈ tm.saved, k.2.jobs ≠ [])) →
    exec (.evTeamRetire grid team) s = .next s

/-! ### The pager, leases and frames -/

/-- FAULT_TO_PAGER (R399): the fault that has waited longest takes the next FID and an entry of the ring, or joins the
pending FAULT of its context, page and code; it waits while the ring is full. REPLAY and DECLINE (R399, R455) answer the
holders of a FID. Every command ends in one DONE, and an entry of the ring stands in the service core's memory as its 128 bytes
(R398): LEASE_SET and LEASE_DROP (R390), which ends a revocation that is under way, INVAL (R381), REVOKE and its end, which
waits for the requests that have passed the lease's check (R397), and an unlisted one with status 1. -/
def Obligations.PagerCommands : Prop :=
  ∀ (s : State) (p tag : Nat) (q : Part), s.part p = some q →
    let wrote := fun (q' : Part) (x : FRing) => q.ring.length < 256 → q.late = [] →
      q'.ring = q.ring ++ [x] ∧ q'.ftail = q.ftail + 1 ∧
      ∀ k < 128, Mem.read q'.svc (q.fring + 128 * (q.ftail % 256) + k) = x.bytes.getD k 0#8
    let ends := fun (i : Instr) (status : Nat) (f : State → Prop) =>
      ∃ t q', exec i s = .next t ∧ t.part p = some q' ∧
        (q.cmds = [] → wrote q' (.done tag status 0 false) ∧ q'.cmds = []) ∧ f t
    (∀ h pasid r rest, q.waiting = (h, pasid, r) :: rest →
      let page := r.va / 65536
      let other := fun (e : Nat × FidEnt) => ¬ (e.2.pasid = pasid ∧ e.2.page = page ∧ e.2.code = r.code)
      ((∀ e ∈ q.fids, other e) → (256 ≤ q.ring.length ∨ q.late ≠ []) → exec (.evFaultToPager p) s = .next s) ∧
      ((∀ e ∈ q.fids, other e) → q.ring.length < 256 → q.late = [] → 0 < q.fidNext → q.fidNext < 65536 →
        Tab.find? q.fids q.fidNext = none →
        ∃ t q', exec (.evFaultToPager p) s = .next t ∧ t.part p = some q' ∧ q'.waiting = rest ∧
          wrote q' (.fault q.fidNext 1 pasid r) ∧
          Tab.find? q'.fids q.fidNext = some ⟨pasid, page, r.code, 1, [h], [r]⟩ ∧
          ∀ x th, h = .thread x → thr s x = some th → th.live = true →
            thr t x = some { th with st := .held q.fidNext }) ∧
      (∀ fid e l, q.fids = (fid, e) :: l → ¬ other (fid, e) →
        ∃ t q', exec (.evFaultToPager p) s = .next t ∧ t.part p = some q' ∧ q'.waiting = rest ∧
          q'.ring.length = q.ring.length ∧
          Tab.find? q'.fids fid = some { e with
            count := e.count + 1, holders := e.holders ++ [h], recs := e.recs ++ [r] })) ∧
    (∀ fid e, Tab.find? q.fids fid = some e →
      (∀ x th, e.holders = [.thread x] → thr s x = some th → th.st = .held fid →
        ends (.evReplay p tag fid) 0 fun t =>
          thr t x = some { th with st := .ready } ∧ ((t.part p).bind fun q => Tab.find? q.fids fid) = none) ∧
      (∀ a tid th r, e.holders = [.access a.id] → e.recs = [r] → s.acc? a.id = some a → a.st = .held fid → a.set = [tid] →
        thr s ⟨a.t.g, tid⟩ = some th →
        ends (.evDecline p tag fid) 0 fun t => t.acc? a.id = none ∧ ∃ u, thr t ⟨a.t.g, tid⟩ = some u ∧
          u.defd = th.defd ++ [⟨match a.dest with
            | some d => .load (if d.uniform then 1 else 0) (span d.reg d.cnt) | none => .store,
            { r with thread := tid, replay := false }⟩])) ∧
    (∀ op, (op = 0 ∨ 6 < op) → ends (.evUnknownPagerCommand p tag op) 1 fun _ => True) ∧
    (∀ rcd : Nat,
      let i := Instr.evLeaseSet p tag rcd
      let id := rcd % 2 ^ 24
      let rights := rcd / 2 ^ 24 % 4
      let node := rcd / 2 ^ 128 % 2 ^ 16
      let repl := [rcd / 2 ^ 144 % 2 ^ 16, rcd / 2 ^ 160 % 2 ^ 16, rcd / 2 ^ 176 % 2 ^ 16]
      let good := (rights = 1 ∨ rights = 2) ∧ id ≠ 0 ∧ node < 0x1000 ∧ (rights = 2 → repl = [0xFFFF, 0xFFFF, 0xFFFF])
      ((rights = 0 ∨ rights = 3 ∨ id = 0) → ends i 1 fun t => t.leases = s.leases) ∧
      (good → Tab.find? s.leases id = none → 4096 ≤ s.leases.length → ends i 2 fun t => t.leases = s.leases) ∧
      (good → Tab.find? s.leases id = none → s.leases.length < 4096 → ends i 0 fun t =>
        ∀ k, Tab.find? t.leases k = if k = id then some
            { part := p, st := .valid, rw := rights == 2, pages := rcd / 2 ^ 26 % 2 ^ 22, base := rcd / 2 ^ 48 % 2 ^ 48
              epoch := rcd / 2 ^ 96 % 2 ^ 32, node := node, repl := repl, expiry := rcd / 2 ^ 192 % 2 ^ 64 }
          else Tab.find? s.leases k)) ∧
    (∀ id, (∀ x ∈ s.frames, x.2.loc = true ∨ x.2.lease ≠ id) →
      (Tab.find? s.leases id = none → ends (.evLeaseDrop p tag id) 4 fun t => t.leases = s.leases) ∧
      (∀ e, Tab.find? s.leases id = some e → (∀ a b c, e.st ≠ .revoking a b c) → ends (.evLeaseDrop p tag id) 0 fun t =>
        ∀ k, Tab.find? t.leases k = if k = id then none else Tab.find? s.leases k) ∧
      (∀ e a deadline n, Tab.find? s.leases id = some e → e.st = .revoking a deadline n → e.part = p → q.cmds = [(a, none)] →
        q.ring.length < 255 → q.late = [] → ∃ t q', exec (.evLeaseDrop p tag id) s = .next t ∧ t.part p = some q' ∧
          q'.ring = q.ring ++ [.done a 0 0 (decide (deadline < s.now)), .done tag 0 0 false] ∧ q'.cmds = [] ∧
          Tab.find? t.leases id = none) ∧
      (∀ deadline, Tab.find? s.leases id = none →
        ends (.evRevoke p tag id deadline) 4 fun t => t.leases = s.leases) ∧
      (∀ e deadline, Tab.find? s.leases id = some e → e.st = .valid →
        ∃ t q', exec (.evRevoke p tag id deadline) s = .next t ∧ t.part p = some q' ∧ q'.cmds = q.cmds ++ [(tag, none)] ∧
          Tab.find? t.leases id = some { e with st := .revoking tag deadline 0 }) ∧
      (∀ e deadline n, Tab.find? s.leases id = some e → e.st = .revoking tag deadline n → e.part = p →
        let passed := fun (a : Acc) => (a.st = .sent ∨ a.st = .frozen) ∧ ∃ l, a.leaf = some l ∧ l.lease = id
        ((∃ a ∈ s.accs, passed a) → exec (.evRevokeWritebackDone p id) s = .next s) ∧
        (q.cmds = [(tag, none)] → (∀ a ∈ s.accs, ¬ passed a) →
          ∃ t q', exec (.evRevokeWritebackDone p id) s = .next t ∧ t.part p = some q' ∧
            wrote q' (.done tag 0 0 (decide (deadline < s.now))) ∧ q'.cmds = [] ∧
            Tab.find? t.leases id = some { e with st := .revoked }))) ∧
    (∀ pasid va pages, pasid < 2 ^ 20 → va < 2 ^ 57 →
      (s.usesPages pasid (va / 65536) pages = true → exec (.evInval p tag pasid va pages) s = .next s) ∧
      (s.usesPages pasid (va / 65536) pages = false → ends (.evInval p tag pasid va pages) 0 fun t =>
        ∀ c, (t.core c).l1 = [] ∧ ∀ n, va / 65536 ≤ n → n < va / 65536 + pages → n < 2 ^ 48 →
          Tab.find? (t.core c).tlb (pasid * 2 ^ 48 + n) = none))

/-- TRANSLATION_WALK (R380), LEASE_EXPIRY (R391) and LEASE_CHECK_FAULT (R395, R455): a core keeps a valid translation; a
lease past its EXPIRY is EXPIRED; and an access that meets one is held, its fault 0x09 waiting for the pager. POOL_NODE_LOST,
POOL_REQUEST_TIMEOUT, once a request to the node has stood for 2 ms, and WRITEBACK_FAILURE (R396, R412, R413): a read-write
lease of a lost node is LOST, a read-only one goes on at its first replica, and the partition's ring says so. -/
def Obligations.LeaseEvents : Prop :=
  ∀ s : State,
    (∀ core pasid va, va < 2 ^ 57 →
      (∀ l, s.walk pasid va = .ok l → ∃ t, exec (.evTranslationWalk core pasid va) s = .next t ∧
        t = { s with cores := t.cores } ∧ Tab.find? (t.core core).tlb (pasid * 2 ^ 48 + va / 65536) = some l) ∧
      (∀ f, s.walk pasid va = .error f → exec (.evTranslationWalk core pasid va) s = .next s)) ∧
    (∀ id e, Tab.find? s.leases id = some e → e.st = .valid →
      (e.expiry ≤ s.now → exec (.evLeaseExpiry e.part id) s =
        .next { s with leases := Tab.set s.leases id { e with st := .expired } }) ∧
      (s.now < e.expiry → exec (.evLeaseExpiry e.part id) s = .next s)) ∧
    (∀ (a : Acc) (l : Leaf) (e : Lease) (q : Part) (tm : Team), s.acc? a.id = some a → a.job = none → a.set ≠ [] →
      a.prog = 0 → (∀ x, a.op ≠ .ctr x) →
      s.team? a.t.g.grid a.t.g.team = some tm → tm.st = .running → s.accReady a = true → a.leaf = some l → l.lease ≠ 0 →
      Tab.find? s.leases l.lease = some e → e.st = .valid → e.expiry ≤ s.now → s.part a.part = some q →
      ∃ t q' r, exec (.evLeaseCheckFault a.id) s = .next t ∧ t.acc? a.id = some { a with st := .held 0 } ∧
        t.part a.part = some q' ∧ q'.waiting = q.waiting ++ [(.access a.id, a.pasid, r)] ∧ r.code = 0x09 ∧
        r.lease = l.lease ∧ r.va = a.va) ∧
    (∀ node,
      let late := ∃ x ∈ s.frames, ∃ l, x.2.loc = false ∧ (x.2.st = .filling ∨ x.2.st = .writeback) ∧
        x.2.since + 2000000 ≤ s.now ∧ Tab.find? s.leases x.2.lease = some l ∧ l.node = node
      (late → exec (.evPoolRequestTimeout node) s = exec (.evPoolNodeLost node) s) ∧
      (¬ late → exec (.evPoolRequestTimeout node) s = .next s)) ∧
    (∀ (node id p : Nat) (q : Part) (e : Lease), node < 0x1000 →
      let i := Instr.evPoolNodeLost node
      s.parts = [(p, q)] → s.leases = [(id, e)] → q.ring.length < 256 → q.late = [] → e.part = p → e.node = node → e.st = .valid → (∀ x ∈ s.frames, x.2.loc = true ∨ x.2.lease ≠ id) →
      (e.rw = true → ∃ t q', exec i s = .next t ∧ t.leases = [(id, { e with st := .lost })] ∧ t.part p = some q' ∧
        q'.ring = q.ring ++ [.nodeLoss node 1 0 [id] 0]) ∧
      (∀ a b c, e.rw = false → e.repl = [a, b, c] → a ≠ 0xFFFF → ∃ t, exec i s = .next t ∧
        t.leases = [(id, { e with node := a, repl := [b, c].filter fun x => x != 0xFFFF })])) ∧
    ∀ (f : Nat) (e : FrameE), Tab.find? s.frames f = some e → e.loc = false → e.dirty ≠ [] →
      (e.retries < 3 → exec (.evWritebackFailure f) s =
        .next { s with frames := Tab.set s.frames f { e with retries := e.retries + 1 } }) ∧
      (∀ l, 3 ≤ e.retries → Tab.find? s.leases e.lease = some l →
        exec (.evWritebackFailure f) s = exec (.evPoolNodeLost l.node) s)

/-- The frames (R382 to R386). PAGE_IN gives the oldest request a frame, or sends a dirty victim to WRITEBACK;
PAGE_SECTOR_ARRIVES brings the next sector from the pool, and the last makes the frame VALID; WRITEBACK_COMPLETE and
INVALIDATE_COMPLETE write the dirty sectors back and free the frame; DECAY_TICK halves the counts; POOL_READ_POISON frees
the frame (R412); BACK_INVALIDATION_SNOOP answers with the dirty sectors and invalidates the frames of every partition that
hold the page (R401); POOL_WRITEBACK_ACK writes one sector back (R402). -/
def Obligations.FrameEvents : Prop :=
  ∀ s : State,
    let back := fun (t : State) (f : Nat) (e : FrameE) => ∀ k ∈ e.dirty, k ∉ e.lost → ∀ i < 64,
      Mem.read t.pool (e.page * 65536 + 64 * k + i) = Mem.read s.hbm (f * 65536 + 64 * k + i)
    let frees := fun (i : Instr) (f : Nat) (e : FrameE) =>
      ∃ t, exec i s = .next t ∧ Tab.find? t.frames f = none ∧ back t f e
    (∀ (q : PageReq) (rest : List PageReq) (f : Nat), s.pageReqs = q :: rest → q.wait = true → q.group = 0 →
      s.frameOf q.part q.page = none →
      (s.takeFrame q.part 0 = .frame f → ∃ t, exec (.evPageIn 0) s = .next t ∧ t.pageReqs = rest ∧
        Tab.find? t.frames f = some
          { st := .filling, loc := false, part := q.part, page := q.page, lease := q.lease, dirty := [], arrived := []
            first := q.sector, cnt := 1, pins := 0, lost := [], retries := 0, grp := 0, rd := (0, 0), since := s.now } ∧
        ∀ x, x / 1024 = f → (∀ d, Tab.find? (t.die d).l2 x = none) ∧ ∀ c, Tab.find? (t.core c).l1 x = none) ∧
      (s.takeFrame q.part 0 = .dirty f → exec (.evPageIn 0) s =
        .next { s with frames := Tab.adjust s.frames f fun e => { e with st := .writeback, since := s.now } })) ∧
    (exec .evDecayTick s = .next (if (s.decays + 1) * 2 ^ 20 * 10 ≤ 21 * s.now then
      { s with
        decays := s.decays + 1
        frames := Tab.mapV s.frames fun e => if e.loc then e else { e with cnt := e.cnt / 2 } }
      else s)) ∧
    (∀ port page,
      (s.framesOf page = [] → exec (.evBackInvalidationSnoop port page) s =
        .next { s with fab := { s.fab with out := s.fab.out ++ [.snoopDone port page []] } }) ∧
      ((∀ x ∈ s.framesOf page, s.frameQuiet x.1 = true) → ∃ t, exec (.evBackInvalidationSnoop port page) s = .next t ∧
        ∀ x ∈ s.framesOf page, Tab.find? s.frames x.1 = some x.2 → x.2.st = .valid →
          ∃ u, Tab.find? t.frames x.1 = some u ∧ u.st = .invalidating)) ∧
    ∀ (f : Nat) (e : FrameE), Tab.find? s.frames f = some e → e.loc = false →
      (∀ k, e.st = .filling → s.readTurn e = true → e.nextSector = some k → (e.first ∉ e.arrived → k = e.first) ∧ k ∉ e.arrived ∧
        ∃ t, exec (.evPageSectorArrives f) s = .next t ∧
          Tab.find? t.frames f = some { e with
            since := s.now, arrived := insNat k e.arrived, st := if 1024 ≤ e.arrived.length + 1 then .valid else .filling } ∧
          ∀ i < 64, Mem.read t.hbm (f * 65536 + 64 * k + i) = Mem.read s.pool (e.page * 65536 + 64 * k + i)) ∧
      (e.st = .filling → ∃ t, exec (.evPoolReadPoison f) s = .next t ∧ Tab.find? t.frames f = none ∧
        ∀ q ∈ t.pageReqs, ¬ (q.part = e.part ∧ q.page = e.page ∧ q.group = 0)) ∧
      (s.frameQuiet f = true →
        (e.st = .writeback → frees (.evWritebackComplete f) f e) ∧
        (e.st = .invalidating → e.pins = 0 → frees (.evInvalidateComplete f) f e) ∧
        (e.st = .valid → s.framesOf e.page = [(f, e)] → ∀ port l, Tab.find? s.leases e.lease = some l → l.rw = true →
          ∃ t u, exec (.evBackInvalidationSnoop port e.page) s = .next t ∧ back t f e ∧ Tab.find? t.frames f = some u ∧
            u.st = .invalidating ∧ ((∃ k ∈ e.dirty, k ∉ e.lost) → u.dirty = []) ∧
            t.fab.out = s.fab.out ++ [.snoopDone port e.page ((e.dirty.filter fun k => !e.lost.contains k).map fun k =>
              (k, Mem.readList s.hbm (f * 65536 + 64 * k) 64))]) ∧
        (∀ k, e.st = .valid → k ∈ e.dirty → k ∉ e.lost → ∃ t, exec (.evPoolWritebackAck f k) s = .next t ∧
          Tab.find? t.frames f = some { e with dirty := delNat k e.dirty, cnt := min 255 (e.cnt + 1) } ∧
          ∀ i < 64, Mem.read t.pool (e.page * 65536 + 64 * k + i) = Mem.read s.hbm (f * 65536 + 64 * k + i))) ∧
      (e.st = .invalidating → e.pins ≠ 0 → exec (.evInvalidateComplete f) s = .next s)

/-! ### The host, the fabric and the network -/

/-- SYSCALL_REPLY fills g8 and g9 of the group (R262); HOST_SNOOP is answered (R410); BAR2_ACCESS reads and writes in the
context selected, and adds with FetchAdd (R407), or aborts (R411). SHECEL_REQUEST (R332, R414, R416): a load through a valid
export is answered with its bytes when its stream's turn has come, one out of turn waits, and a packet of a lost peer or of an
incarnation that is gone is dropped (R420). SHECEL_REPLY (R419, R422) brings a load's value and returns an allowance; a fault at
the target freezes the stream, which STREAM_RESUME and STREAM_ABORT end (R333, R416); MULTICAST_ACK writes the group's report,
after which the store retires once every die has it (R418); SWITCH_COMBINE (R417). -/
def Obligations.FabricRequests : Prop :=
  ∀ s : State,
    let sends := fun (t : State) (m : OutMsg) => t.fab.out = s.fab.out ++ [m]
    (∀ p q l x rest tm g g8 g9, s.parts = (p, q) :: l → q.sys = x :: rest → s.group? x.g = some (tm, g) → tm.st = .running →
      ∃ t g' q', exec (.evSyscallReply x.n g8 g9) s = .next t ∧ grp t x.g = some g' ∧ t.part p = some q' ∧
        q'.sys = (x :: rest).filter (fun y => y.n != x.n) ∧ 8 ∉ g'.ge ∧ 9 ∉ g'.ge ∧
        ∀ n, g'.reg n = if n = 8 then BitVec.ofNat 32 g8 else if n = 9 then BitVec.ofNat 32 g9 else g.reg n) ∧
    (∀ line, exec (.evHostSnoop line) s =
      .next { s with fab := { s.fab with out := s.fab.out ++ [.hostSnoopDone line] } }) ∧
    (∀ port fn off op data, (∀ x ∈ s.fab.bars, x.port ≠ port ∧ x.n ≠ s.fab.reqNext) →
      let i := Instr.evBar2Access ⟨port, fn⟩ off op data
      let n := data.length
      let s1 : State := { s with fab := { s.fab with
        bars := s.fab.bars ++ [⟨s.fab.reqNext, port, fn, off, op, data⟩], reqNext := s.fab.reqNext + 1 } }
      let ends := fun (u : State) (b : List Byte) (abort : Bool) => ∃ t, exec i s = .next t ∧ t.fab.bars = s.fab.bars ∧
        t.fab.out = s.fab.out ++ [.completion off b abort] ∧ t.hbm = u.hbm ∧ t.pool = u.pool ∧ t.host = u.host
      (Tab.find? s.fab.bar2 fn = none → ends s [] true) ∧
      ∀ pasid, Tab.find? s.fab.bar2 fn = some pasid →
        let g : Agent := ⟨[13, s.fab.reqNext], if port = 0 then 0 else 96, pasid, false⟩
        (2 ^ 40 < off + n → ends s [] true) ∧
        (off + n ≤ 2 ^ 40 →
          (op = 0 → (∀ b, (s1.unitRead g off n ⟨true, false, false⟩).1 = .done b → ends s b false) ∧
            (∀ f, (s1.unitRead g off n ⟨true, false, false⟩).1 = .fail f → ends s [] true)) ∧
          (op = 1 → ∀ u v, (s1.unitWrite g off data).1 = .done u v → ends u [] false) ∧
          (op = 2 → (n = 4 ∨ n = 8) → off % n = 0 → ∀ u v old,
            s1.unitRmw g off n (.atom 0 (n == 8) (ofLE data) true) = .done u v old → ends u (toLE n old) false))) ∧
    (∀ port src inc fn grp stream seq faddr op size data,
      let i := Instr.evShecelRequest ⟨port, src, inc⟩ fn ⟨grp, stream, seq⟩ faddr op size data
      ((s.peerLost src = true ∨ inc ≠ (Tab.getD s.fab.peers ⟨false, 0⟩ src).incarnation) → exec i s =
        .next { s with fab := { s.fab with dropped := s.fab.dropped + 1 } }) ∧
      (s.peerLost src = false → inc = (Tab.getD s.fab.peers ⟨false, 0⟩ src).incarnation → s.fab.inReqs = [] →
        let turn := seqOf s.fab.inSeq [src, fn, grp, stream, 0]
        (op < 256 → turn.next < seq → ∃ t x, exec i s = .next t ∧ t = { s with fab := t.fab } ∧ t.fab.out = s.fab.out ∧
          t.fab.inReqs = [x] ∧ x.seq = seq ∧ x.done = none) ∧
        ∀ x l, op = 0 → seq ≤ turn.next →
          let f := faddr / 2 ^ 60 % 16
          let off := faddr % 2 ^ 50
          let va := x.xbase + off
          Tab.getD s.fab.quenched 0 f = 0 → (s.partOfFn f).isSome = true →
          Tab.find? s.fab.exports (1024 * f + faddr / 2 ^ 50 % 1024) = some x → x.v = true → x.rd = true → x.tileKind = false →
          off < 65536 * (x.pages + 1) → va < 2 ^ 57 → s.translate 0 x.pasid va ⟨true, false, false⟩ = .ok l → l.lease = 0 →
          let pa := l.pg * 65536 + va % 65536
          s.chanHeld pa = false → s.lostIn pa size false = false → (s.die (homeOf pa)).v.covers turn.last = true →
          ∃ t, exec i s = .next t ∧ t.fab.inReqs = [] ∧ (seqOf t.fab.inSeq [src, fn, grp, stream, 0]).next = max turn.next (seq + 1) ∧
            sends t (.reply src stream faddr 0 (toLE size (ofLE ((span pa size).map fun a => (s.homeCopy a).b)))))) ∧
    (∀ (a : Acc) (dev : Nat), s.acc? a.id = some a → a.st = .sent → s.remoteOf a = some dev → a.job = none → a.acq = false →
      (∀ x, a.op ≠ .ctr x) →
      let fn := s.fnOf a.part
      Tab.getD s.fab.quenched 0 fn = 0 →
      let left := fun (t : State) => Tab.getD t.fab.allow 0 (s.allowOf a) = Tab.getD s.fab.allow 0 (s.allowOf a) + 1
      (dev < 0x1000 →
        (∀ n th data, a.op = .load 4 false → a.dest = some ⟨false, n, 1⟩ → thr s a.t = some th →
          ∃ t u, exec (.evShecelReply a.id 0 data) s = .next t ∧ t.acc? a.id = none ∧ left t ∧ thr t a.t = some u ∧
            u.reg n = BitVec.ofNat 32 (ofLE data) ∧ n ∉ u.we) ∧
        (∀ reason data, 0x07 ≤ reason → reason ≤ 0x0B → exec (.evShecelReply a.id reason data) s =
          .next (s.setAcc { a with st := .frozen })) ∧
        (∀ reason th data, 0x0B < reason → a.set = [a.t.tid] → thr s a.t = some th → th.st = .ready →
          ∃ t u r, exec (.evShecelReply a.id reason data) s = .next t ∧ t.acc? a.id = none ∧ left t ∧ thr t a.t = some u ∧
            u.defd = th.defd ++ [r] ∧ r.rcd.code = reason)) ∧
      (∀ expd pos neg bs, 0x1000 ≤ dev → a.op = .store bs → a.dest = none → a.entry = true →
        let grp := dev - 0x1000
        let key := 4096 * a.pasid + grp
        let n := Tab.getD s.fab.reports 0 key + 1
        let base := match s.ctx a.pasid with | some c => c.mcrep | none => 0
        let s1 : State := { s with fab := { s.fab with mcAcks := [⟨a.id, expd, pos, neg, none⟩] } }
        let put := (s1.unitWrite ⟨[14, a.id], a.core, a.pasid, true⟩ (base + 64 * grp) (reportBytes n expd pos neg)).1
        (s.fab.mcAcks = [] → ∀ u v, put = .done u v → ∃ t, exec (.evMulticastAck a.id expd pos neg) s = .next t ∧
          t.hbm = u.hbm ∧ t.pool = u.pool ∧ t.host = u.host ∧ Tab.getD t.fab.reports 0 key = n ∧
          t.fab.mcAcks = [⟨a.id, expd, pos, neg, some v⟩]) ∧
        (∀ v, s.fab.mcAcks = [⟨a.id, expd, pos, neg, some v⟩] →
          (s.allCover v = true → (s.mcStep 0).acc? a.id = none ∧ (s.mcStep 0).fab.mcAcks = []) ∧
          (s.allCover v = false → s.mcStep 0 = s)))) ∧
    (∀ (a : Acc) (th : Thread), s.accs = [a] → a.st = .frozen → a.job = none → a.set = [a.t.tid] → thr s a.t = some th →
      (s.remoteOf a).isSome = true → (∀ x, a.op ≠ .ctr x) →
      th.st = .ready →
      exec (.evStreamResume a.t.g.grid a.t.g.team a.t.g.gid a.stream) s =
        .next { s with accs := [{ a with st := .sent }] } ∧
      ∃ t u r, exec (.evStreamAbort a.t.g.grid a.t.g.team a.t.g.gid a.stream) s = .next t ∧ t.accs = [] ∧
        thr t a.t = some u ∧ u.defd = th.defd ++ [r] ∧ r.rcd.code = 0x14) ∧
    ∀ (x y : Acc) (tree dev fn fn' g g' st st' sq sq' fa n : Nat) (v v' : List Byte), s.acc? x.id = some x → s.acc? y.id = some y →
      x.id ≠ y.id → s.treeOf x = some tree → s.treeOf y = some tree →
      s.fab.out = [.request x.id dev fn g st sq fa 32 n v, .request y.id dev fn' g' st' sq' fa 32 n v'] →
      exec (.evSwitchCombine x.id y.id) s = .next { s with fab := { s.fab with
        out := [.request x.id dev fn g st sq fa 32 n (toLE n ((ofLE v + ofLE v') % 2 ^ (8 * n)))] } }

/-- Links, peers and functions (R415, R420 to R424): HEARTBEAT every 1 µs and LINK_SILENCE_TIMEOUT after 8 µs; a peer is lost
with DEATH_NOTICE, when its connections begin to close, and returns under a higher incarnation; allowances add up; a torn
down function is quenched, its grids are killed and, after two round trips, its exports are cleared; a function-level reset
closes the queues of its contexts; an export entry is written from its 128 bits. -/
def Obligations.PeersAndFunctions : Prop :=
  ∀ s : State,
    (∀ port, port < 18 →
      let last := Tab.getD s.fab.lastBeat 0 port
      (last + 1000 ≤ s.now → ∃ t, exec (.evHeartbeat port) s = .next t ∧ t.fab.out = s.fab.out ++ [.heartbeat port] ∧
        Tab.getD t.fab.lastBeat 0 port = s.now) ∧
      (s.now < last + 1000 → exec (.evHeartbeat port) s = .next s) ∧
      (last + 8000 ≤ s.now → ∃ t, exec (.evLinkSilenceTimeout port) s = .next t ∧
        Tab.find? t.fab.links port = some false) ∧
      (s.now < last + 8000 → exec (.evLinkSilenceTimeout port) s = .next s)) ∧
    (∀ dev,
      let p := Tab.getD s.fab.peers ⟨false, 0⟩ dev
      (s.accs = [] → ∃ t, exec (.evDeathNotice dev) s = .next t ∧ t.peerLost dev = true ∧
        ∀ k c, Tab.find? s.fab.conns k = some c → Tab.find? t.fab.conns k =
          some (if c.st = .opened ∧ c.peer = dev then { c with st := .closing } else c)) ∧
      ∀ n, (p.incarnation < n → ∃ t, exec (.evPeerReturn dev n) s = .next t ∧ Tab.find? t.fab.peers dev = some ⟨false, n⟩) ∧
        (n ≤ p.incarnation → exec (.evPeerReturn dev n) s = .next s) ∧
        ∃ t, exec (.evAllowanceReturn dev n) s = .next t ∧
          Tab.getD t.fab.allow 0 dev = Tab.getD s.fab.allow 0 dev + n) ∧
    (∀ fn p, s.partOfFn fn = some p → (∀ g ∈ s.cp.grids, g.2.id = g.1) →
      let since := Tab.getD s.fab.quenched 0 fn
      let killed := fun (t : State) => ∀ k x, Tab.find? t.cp.grids k = some x → x.part = p → x.killed = true
      (since = 0 → ∃ t, exec (.evFunctionTeardown fn) s = .next t ∧ Tab.getD t.fab.quenched 0 fn = s.now + 1 ∧ killed t ∧
        ∀ d < 65536, Tab.find? t.fab.allow (65536 * fn + d) = none) ∧
      (since ≠ 0 → exec (.evFunctionTeardown fn) s = .next s) ∧
      (since ≠ 0 → since + 2 * s.fab.rtt ≤ s.now + 1 → ∃ t, exec (.evTeardownRttExpiry fn) s = .next t ∧
        ∀ e < 1024, Tab.find? t.fab.exports (1024 * fn + e) = none) ∧
      (since = 0 ∨ s.now + 1 < since + 2 * s.fab.rtt → exec (.evTeardownRttExpiry fn) s = .next s) ∧
      ∃ t, exec (.evFunctionLevelReset fn) s = .next t ∧ killed t ∧
        ∀ k x c, Tab.find? s.cp.queues k = some x → s.ctx x.pasid = some c → c.part = p →
          Tab.find? t.cp.queues k = some { x with st := .closed }) ∧
    ∀ fn e val, fn < 16 → e < 1024 → ∃ t x, exec (.evExportTableWrite fn e val) s = .next t ∧
      Tab.find? t.fab.exports (1024 * fn + e) = some x ∧ x.v = val.testBit 0 ∧ x.tileKind = val.testBit 1 ∧
      x.rd = val.testBit 2 ∧ x.w = val.testBit 3 ∧ x.pasid = val / 2 ^ 20 % 2 ^ 20 ∧ x.pages = val / 2 ^ 40 % 2 ^ 24 ∧
      x.xbase = val / 2 ^ 64 % 2 ^ 64

/-- The network (R425, R426): a closed connection opens for one context, an open one begins to close, what is not done on it
failing with 0x15, and it is closed once nothing is left on it. A packet goes to the NPOST of its connection and tag, or is
discarded; a completed operation pushes its word to q2 (R259), a placement once its writes are performed at system scope
(R427). -/
def Obligations.Connections : Prop :=
  ∀ (s : State) (n : Nat),
    (∀ pasid peer, n < 4096 → (∀ c, Tab.find? s.fab.conns n = some c → c.st = .closed) →
      ∃ t, exec (.evConnectionOpen n pasid peer) s = .next t ∧ Tab.find? t.fab.conns n = some ⟨.opened, pasid, peer, []⟩) ∧
    (∀ c, Tab.find? s.fab.conns n = some c →
      (c.st = .opened → (∃ t, exec (.evConnectionClose n) s = .next t ∧
          Tab.find? t.fab.conns n = some { c with st := .closing } ∧
          t.fab.netOps = s.fab.netOps.map fun o => if o.conn = n ∧ o.fail = 0 then { o with fail := 0x15 } else o) ∧
        ∀ pasid peer, exec (.evConnectionOpen n pasid peer) s = .next s) ∧
      (c.st = .closing →
        ((∀ o ∈ s.fab.netOps, o.conn ≠ n) → ∃ t, exec (.evConnectionClosed n) s = .next t ∧
          Tab.find? t.fab.conns n = some { c with st := .closed }) ∧
        ((∃ o ∈ s.fab.netOps, o.conn = n) → exec (.evConnectionClosed n) s = .next s))) ∧
    (∀ port msg tag len off data,
      let i := Instr.evNetworkPacket ⟨port, n⟩ ⟨msg, tag⟩ len off data
      let drops := exec i s = .next { s with fab := { s.fab with
        dropped := s.fab.dropped + 1, out := s.fab.out ++ [.packetAck n msg off 0x0D]
        conns := Tab.adjust s.fab.conns n fun c => { c with gone := insNat msg c.gone } } }
      let known := ∃ c, Tab.find? s.fab.conns n = some c ∧ msg ∈ c.gone
      ((∀ o ∈ s.fab.netOps, o.conn ≠ n ∨ (o.matched ≠ some msg ∧ (o.tag ≠ tag ∨ known))) → drops) ∧
      ∀ o tm, s.fab.netOps = [o] → o.send = false → o.conn = n → o.tag = tag → o.fail = 0 → o.matched = none → ¬ known →
        s.fab.placing = [] → s.team? o.g.grid o.g.team = some tm → tm.st = .running →
        let o' : NetOp := { o with matched := some msg, len := len }
        let s1 : State := { s with fab := { s.fab with netOps := [o'], placing := [⟨o.n, port, off, data⟩] } }
        ((o.len < len ∨ len < off + data.length) → drops) ∧
        (len ≤ o.len → off + data.length ≤ len →
          (o.tile = true → ∃ t, exec i s = .next t ∧ t.fab.placing = [] ∧
            t.fab.netOps = [{ o' with flying := o.flying + 1 }] ∧
            t.arrivals = s.arrivals ++ [
              { ap := none, grid := tm.grid, team := tm.team, mc := tm.memberOf o.core, tile := o.addr % 256
                ph := o.addr / 2 ^ 8 % 16, off := off, swz := true, data := data, prod := .net o.n }]) ∧
          (∀ c z, o.tile = false → windowOf tm (o.addr + off) data.length = some (.scratch c z) →
            ∃ t tm', exec i s = .next t ∧ t.team? tm.grid tm.team = some tm' ∧ t.fab.placing = [] ∧
              t.fab.netOps = [{ o' with placed := o.placed + data.length }] ∧
              ∀ x, Mem.read (Tab.getD tm'.scratch [] c) x =
                if z ≤ x ∧ x < z + data.length then data.getD (x - z) 0#8 else Mem.read (Tab.getD tm.scratch [] c) x) ∧
          (∀ u v, o.tile = false → windowOf tm (o.addr + off) data.length = some .user →
            o.addr + off + data.length ≤ 2 ^ 57 →
            (s1.unitWrite ⟨[15, o.n, off], if port = 0 then 48 else 144, o.pasid, false⟩ (o.addr + off) data).1 = .done u v →
            ∃ t x, exec i s = .next t ∧ t.hbm = u.hbm ∧ t.pool = u.pool ∧ t.host = u.host ∧ t.fab.placing = [] ∧
              t.fab.netOps = [x] ∧ x.placed = o.placed + data.length ∧ x.stamps = o.stamps.join v))) ∧
    ∀ o rest tm g status, s.fab.netOps = o :: rest → o.n = n → s.group? o.g = some (tm, g) → tm.st = .running →
      o.flying = 0 →
      let ends := fun (w : Nat) => ∃ t g', exec (.evNetworkCompletion n status) s = .next t ∧ grp t o.g = some g' ∧
        g'.netOut = g.netOut - 1 ∧ t.fab.netOps = rest.filter (fun x => x.n != n) ∧ g'.q2 = g.q2 ++ [BitVec.ofNat 32 w]
      (o.send = true → ends ((if o.fail ≠ 0 then o.fail else status % 256) + 65536 * o.conn)) ∧
      (o.send = false → o.fail ≠ 0 → ends (o.fail + 256 + 65536 * o.conn)) ∧
      (o.send = false → o.fail = 0 → o.matched.isSome = true → o.len ≤ o.placed →
        let done := s.allCover o.stamps = true ∧
          ∀ e ∈ s.frames, e.2.loc = false → ∀ k ∈ e.2.dirty, e.2.page * 1024 + k ∉ o.stored
        (done → ends (256 + 65536 * o.conn)) ∧ (¬ done → exec (.evNetworkCompletion n status) s = .next s))

/-! ### Reliability, firmware, power and reset -/

/-- A channel's parity alert has one to three replays, and the next stops it until it is retrained (R436); an activation
alert with four owed refreshes begins a back-off, whose window ends after 1,000 ns (R439); the scrubber covers sectors and
is forced when it is behind by 1/64 (R437); the mailboxes of a stack carry REPAIR, RETRAIN, SCRUBSTAT, TELEM and RESET
(R444). -/
def Obligations.HbmChannels : Prop :=
  ∀ (s : State) (stack chan : Nat), stack < 8 → chan < 32 →
    let k := 32 * stack + chan
    let c := s.chan k
    let sc := s.scrub stack
    let mail := fun (s : State) (dir : Nat) => Tab.getD s.mg.mail [] (2 * stack + dir)
    let posts := fun (t : State) (dir : Nat) (m : MailMsg) => mail t dir = mail s dir ++ [m]
    (c.stopped = false → c.quiesced = false →
      (c.replays = 0 → ∃ t, exec (.evHbmParityAlert stack chan) s = .next t ∧
        t.chan k = { c with replays := 1, replayAt := s.now }) ∧
      (0 < c.replays → c.replays < 3 → s.now < c.replayAt + 350 → ∃ t, exec (.evHbmParityAlert stack chan) s = .next t ∧
        t.chan k = { c with replays := c.replays + 1, replayAt := s.now }) ∧
      (c.replays = 3 → s.now < c.replayAt + 350 → ∃ t, exec (.evHbmParityAlert stack chan) s = .next t ∧
        t.chan k = { c with stopped := true, replays := 0 }) ∧
      (∀ ok, exec (.evChannelRetrain stack chan ok) s = .next s) ∧
      ((mail s 1).length < 16 → ∀ ok, ∃ t, exec (.evRetrain stack chan ok) s = .next t ∧ (t.chan k).quiesced = true ∧
        posts t 1 (.retrain stack chan ok))) ∧
    ((c.stopped = true ∨ c.quiesced = true) →
      (∃ t, exec (.evChannelRetrain stack chan true) s = .next t ∧
        t.chan k = { c with stopped := false, quiesced := false, replays := 0 }) ∧
      (s.fatal = false → ∃ t, exec (.evChannelRetrain stack chan false) s = .next t ∧ t.fatal = true ∧ t.grants = [] ∧
        t.mg.pf0 = some 0x11) ∧
      ((mail s 0).length < 16 →
        (∀ row spare left, ∃ t, exec (.evRepair stack chan row spare left) s = .next t ∧
          t.mg.spares = s.mg.spares ++ [(stack, chan, row, spare)] ∧ posts t 0 (.repair stack chan row spare left)) ∧
        ∀ ok, ∃ t, exec (.evRetrain stack chan ok) s = .next t ∧ posts t 0 (.retrain stack chan ok))) ∧
    ((mail s 0).length < 16 →
      (∃ t, exec (.evScrubstat stack) s = .next t ∧
        posts t 0 (.scrubstat stack (sc.covered / 1024) sc.corrected sc.forced)) ∧
      ∀ temp rate power, ∃ t, exec (.evTelem stack temp rate power) s = .next t ∧ posts t 0 (.telem stack temp rate power)) ∧
    ((mail s 1).length < 16 → ∃ t, exec (.evReset stack chan) s = .next t ∧ t.chan k = { c with quiesced := true } ∧
      posts t 1 (.reset stack chan)) ∧
    (∀ owed, c.backoff = none →
      (owed < 4 → ∃ t, exec (.evActivationAlert stack chan owed) s = .next t ∧ t.chan k = c) ∧
      (4 ≤ owed → ∃ t, exec (.evActivationAlert stack chan owed) s = .next t ∧
        t.chan k = { c with backoff := some s.now, owed := 4, mitig := 2 })) ∧
    (∀ since, c.backoff = some since →
      (since + 1000 ≤ s.now → ∃ t, exec (.evBackoffWindowExpiry stack chan) s = .next t ∧
        t.chan k = { c with backoff := none, owed := 0, mitig := 0 }) ∧
      (s.now < since + 1000 → exec (.evBackoffWindowExpiry stack chan) s = .next s)) ∧
    (∀ err : Bool, sc.covered + 1 < 393216 * 1024 → ∃ t, exec (.evScrubStep stack chan err) s = .next t ∧ t.hbm = s.hbm ∧
      t.scrub stack = { sc with covered := sc.covered + 1, corrected := sc.corrected + if err then 1 else 0 }) ∧
    ∃ t, exec (.evScrubEscalatorCheck stack) s = .next t ∧
      let pass := s.mg.passHours * 3600000000000
      let all := 393216 * 1024
      let due := (s.now - sc.started) * all
      t.scrub stack = { sc with
        forced := decide (sc.covered * pass + all * pass / 64 < due) || (sc.forced && decide (sc.covered * pass < due)) }

/-- Errors (R438 to R443, R446). An uncorrectable error of a sector: a clean cached one is read again from the pool, a dirty
or device-local one is marked lost, one of a page table or outside every quota is fatal. An on-die error by its kind: counted,
dropped from the L1 or L2, the grid that holds the state killed, or fatal. A fatal error, such as a mailbox unanswered for
100 ms, stops issue, writes the dump and reports its cause, once. A counter is cleared. -/
def Obligations.Errors : Prop :=
  ∀ s : State,
    let fatal := fun (i : Instr) (cause : Nat) => s.fatal = false →
      ∃ t, exec i s = .next t ∧ t.fatal = true ∧ t.grants = [] ∧ t.mg.pf0 = some cause ∧
        Mem.readList t.host s.mg.dumpAt 4 = toLE 4 0x504D5544
    (∀ addr,
      let f := addr / 65536
      let sec := addr % 65536 / 64
      let inQuota := ∃ q ∈ s.parts, q.2.frame0 ≤ f ∧ f < q.2.frame0 + q.2.frames
      f < 3145728 →
      ((s.tableSector addr = true ∨ ¬ inQuota) → fatal (.evHbmUncorrectable addr) 0x02) ∧
      (∀ p, s.tableSector addr = false → inQuota → s.localOwner f = some p → ∃ t e, exec (.evHbmUncorrectable addr) s = .next t ∧
        Tab.find? t.frames f = some e ∧ sec ∈ e.lost ∧ t.hbm = s.hbm) ∧
      (∀ e, s.tableSector addr = false → inQuota → s.localOwner f = none → Tab.find? s.frames f = some e → e.st = .valid →
        (sec ∈ e.dirty → ∃ t u, exec (.evHbmUncorrectable addr) s = .next t ∧ Tab.find? t.frames f = some u ∧ sec ∈ u.lost) ∧
        (sec ∉ e.dirty → ∃ t, exec (.evHbmUncorrectable addr) s = .next t ∧ t.frames = s.frames ∧
          ∀ i < 64, Mem.read t.hbm (f * 65536 + 64 * sec + i) = Mem.read s.pool (e.page * 65536 + 64 * sec + i)))) ∧
    (∀ unit tm addr, unit < 192 →
      (let key := (unit / 48 * 256 + unit % 48) * 16 + 1
       ∀ g, ∃ t, exec (.evOndieEccError unit 0 g tm addr) s = .next t ∧
        Tab.getD t.mg.counters 0 key = min 0xFFFFFFFF (Tab.getD s.mg.counters 0 key + 1)) ∧
      (∀ g, ∃ t, exec (.evOndieEccError unit 1 g tm addr) s = .next t ∧ Tab.find? (t.core unit).l1 (addr / 64) = none) ∧
      (∀ g x, s.grid? g = some x → x.id = g → ∃ t y, exec (.evOndieEccError unit 3 g tm addr) s = .next t ∧
        t.grid? g = some y ∧ y.killed = true) ∧
      ∀ g, fatal (.evOndieEccError unit 4 g tm addr) 0x02) ∧
    (∀ die tm g addr, die < 4 → s.sectorOwed (addr / 64 * 64) = false →
      ∃ t, exec (.evOndieEccError (192 + 10 * die + addr / 512 % 80 / 8) 2 g tm addr) s = .next t ∧
        Tab.find? (t.die die).l2 (addr / 64) = none) ∧
    (∀ cause unit addr, fatal (.evFatalError cause unit addr) cause ∧
      (s.fatal = true → exec (.evFatalError cause unit addr) s = .next s)) ∧
    (∀ stack, stack < 8 →
      let late := Tab.getD s.mg.mail [] (2 * stack + 1) ≠ [] ∧ Tab.getD s.mg.mailAt 0 (2 * stack + 1) + 100000000 ≤ s.now
      (late → fatal (.evMailboxTimeout stack) 0x13) ∧ (¬ late → exec (.evMailboxTimeout stack) s = .next s)) ∧
    ∀ unit cls, ∃ t, exec (.evErrorCounterClear unit cls) s = .next t ∧
      ∀ k, Tab.getD t.mg.counters 0 k = if k = unit * 16 + cls then 0 else Tab.getD s.mg.counters 0 k

/-- Firmware, partitions, power and the registers (R437, R445, R447 to R450): an image whose signature holds starts its
component and its digest is recorded; an SPDM request is answered; a partition is made within bounds that no other has; an
island's frequency follows its request within 0.6 to 2.1 GHz, is lowered from 105 °C or at the power limit, and restored; and
the machine after a device reset is the machine right after reset, but for what is no part of the device. The register
numbers are the model's (assumption log 32). -/
def Obligations.FirmwareAndPower : Prop :=
  ∀ s : State,
    let digest := fun (comp : Nat) => Tab.getD s.mg.firm .fresh comp
    let clip := fun (f : Nat) => max 600 (min 2100 f)
    (∀ comp image, comp < 5 → (digest comp).recovery = true →
      (Config.signatureHolds image = true → ∃ t f, exec (.evFirmwareRecoveryDoorbell comp image) s = .next t ∧
        Tab.find? t.mg.firm comp = some f ∧ f.running = true ∧ f.digest = Config.sha384 image ∧ f.recovery = false ∧
        t.mg.measured = s.mg.measured ++ [Config.sha384 image]) ∧
      (Config.signatureHolds image = false → ∃ t f, exec (.evFirmwareRecoveryDoorbell comp image) s = .next t ∧
        Tab.find? t.mg.firm comp = some f ∧ f.running = false ∧ f.failures = (digest comp).failures + 1)) ∧
    (∀ n, ∃ t r, exec (.evSpdmRequest n) s = .next t ∧ t.fab.out = s.fab.out ++ [.spdm (r ++ Config.signResponse r)]) ∧
    (∀ p quads quad0 frame0 frames locals, 0 < quads → s.part p = none →
      s.boundsOk p (span quad0 quads) frame0 frames locals = true →
      ∃ t q, exec (.evPartitionChange p quads quad0 frame0 frames locals) s = .next t ∧ t.part p = some q ∧
        q.quads = span quad0 quads ∧ q.frame0 = frame0 ∧ q.frames = frames ∧ q.locals = locals ∧ q.fn = p) ∧
    (∀ k, k < 128 →
      let i := s.island k
      (∀ mhz, i.cap = 0 → ∃ t, exec (.evFrequencyRequest 0 k mhz) s = .next t ∧
        t.island k = { i with req := mhz % 65536 / 25 * 25, grant := clip (mhz % 65536 / 25 * 25) }) ∧
      (∀ p mhz, (∀ q, s.part p = some q → k / 2 ∉ q.quads) → exec (.evFrequencyRequest (p + 1) k mhz) s = .next s) ∧
      (∀ temp, 105 ≤ temp → temp < 115 → i.hot = false → ∃ t, exec (.evThermalThrottle k temp) s = .next t ∧
        (t.island k).hot = true ∧ (t.island k).cap = 2 ∧ 600 ≤ (t.island k).grant ∧
        (t.island k).grant ≤ max 600 (clip (if i.grant = 0 then i.req else i.grant) - 25)) ∧
      (∀ temp, temp < 100 → i.hot = true → ∃ t, exec (.evThermalThrottle k temp) s = .next t ∧
        t.island k = { i with hot := false, cap := 0, grant := clip i.req }) ∧
      (∀ temp, 115 ≤ temp → s.fatal = false → ∃ t, exec (.evThermalThrottle k temp) s = .next t ∧ t.fatal = true ∧
        t.mg.pf0 = some 0x12) ∧
      (∀ power temp, i.cap ≠ 0 → ∃ t, exec (.evTelemetryUpdate k power temp) s = .next t ∧
        t.island k = { i with power := min 65535 power, temp := min 255 temp }) ∧
      ∀ power, ∃ t, exec (.evPackagePowerLimit power) s = .next t ∧
        (2000 ≤ power → i.cap = 0 → (t.island k).cap = 1 ∧ 600 ≤ (t.island k).grant ∧
          (t.island k).grant ≤ max 600 (clip (if i.grant = 0 then i.req else i.grant) - 25)) ∧
        (power < 2000 → i.cap = 1 → t.island k = { i with cap := 0, grant := clip i.req }) ∧
        (power < 2000 → i.cap ≠ 1 → t.island k = i)) ∧
    exec .evDeviceReset s =
      .next { State.reset with
        pool := s.pool, host := s.host, agenda := s.agenda, free := s.free
        fab := { State.reset.fab with hostMap := s.fab.hostMap } } ∧
    (∀ hours, exec (.evRegisterWrite 0 2 0 hours) s =
      .next { s with mg := { s.mg with passHours := max 1 (min 168 hours) } }) ∧
    ∀ p pasid val c, s.ctx pasid = some c → c.part = p → ∃ t, exec (.evRegisterWrite (p + 1) 0 pasid val) s = .next t ∧
      t.ctx pasid = some { c with ttb := val }

/-! ### Handlers, the step, reset and the encoding -/

/-- A fault that the pager does not take enters its handler (R356, R359 to R361): the record goes into the thread's slot of
the record area, whose address fp and link give; the trap frame keeps what the handler overwrites, and the thread stands at
the header that the trap table names, with every other register as it was. Inside a handler, or without a valid entry for the
code and for code 0, the thread's grid is killed, and its partition's service core gets the record (R362). While the entry
cannot be read or the record written, the thread waits. -/
def Obligations.HandlerEntry : Prop :=
  ∀ (s : State) (t : TRef) (tm : Team) (g : Group) (th : Thread) (x : Ctx) (q : Part) (r : FRec) (k : TKind) (res : Resume),
    s.thread? t = some (tm, g, th) → s.ctx tm.pasid = some x → s.part x.part = some q → r.replay = false →
    r.grid = t.g.grid → th.st ≠ .exited → th.pinned = 0 →
    let unit : Agent := ⟨[1, t.g.grid, t.g.team, t.g.gid, t.tid], g.core, tm.pasid, false⟩
    let table := fun (c : Nat) => s.unitGet unit (x.trapTab + 8 * c) 8 ⟨true, false, false⟩
    let valid := fun (e : Nat) => e % 2 = 1 ∧ tm.kern.code ≤ e / 4 * 4 ∧ e / 4 * 4 - tm.kern.code < 2 ^ 32
    let slot := x.recArea + 64 * (2048 * g.core + 64 * (8 * g.part + g.slot) + t.tid)
    let u := s.takeFault t r k res
    let killed := ∃ th' q', thr u t = some th' ∧ th'.st = .exited ∧ u.part x.part = some q' ∧
      q'.killRecs = q.killRecs ++ [r]
    let waits := thr u t = some { th with st := .taking r k res }
    let enters := fun (bs : List Byte) =>
      (s.unitPut unit slot r.bytes = .wait → waits) ∧
      (∀ f, s.unitPut unit slot r.bytes = .fail f → killed) ∧
      ∀ s1 v, s.unitPut unit slot r.bytes = .done s1 v →
        let e := ofLE bs
        u.hbm = s1.hbm ∧ u.pool = s1.pool ∧ u.host = s1.host ∧
        (∃ th', thr u t = some th' ∧
          th' = { th with
            frame := ⟨res.pc, res.hdr, res.cend, th.code, th.intd || k == .interrupt, th.prio, res.inside, th.ri, th.link, th.fp,
              k, true⟩
            fp := BitVec.ofNat 32 slot, link := BitVec.ofNat 32 (slot / 2 ^ 32)
            pc := e / 4 * 4, hdr := e / 4 * 4, inside := false, intd := false, from? := none, st := .ready, ri := 0
            popped := none, fenceV := none, wrote := th.wrote.join v, prio := th'.prio }) ∧
        ∀ l, s.translate g.core tm.pasid slot ⟨false, true, false⟩ = .ok l → l.lease = 0 →
          let pa := l.pg * 65536 + slot % 65536
          let d := g.core / 48
          d < 4 → homeOf pa = d → slot % 64 = 0 →
          (∀ i < 64, (Tab.getD (s.die d).marks .zero (pa + i)).key.1 ≤ (s.die d).v.sum) →
          Mem.readList u.hbm pa 64 = r.bytes
    (th.frame.inh = true → killed) ∧
    (th.frame.inh = false →
      (∀ bs, table r.code = .done bs → valid (ofLE bs) → enters bs) ∧
      (∀ bs bs0, table r.code = .done bs → ¬ valid (ofLE bs) → table 0 = .done bs0 → valid (ofLE bs0) → enters bs0) ∧
      (∀ bs bs0, table r.code = .done bs → ¬ valid (ofLE bs) → table 0 = .done bs0 → ¬ valid (ofLE bs0) → killed) ∧
      (∀ f, table r.code = .fail f → killed) ∧ (table r.code = .wait → waits))

/-- A granted issue executes the instruction that stands at its threads' address (R89, R98, R100, R275): the words there, of
those that its clause's entry has read and checked, decode to i, and the step is exec of i, after which the machine is a
nanosecond on; the issue of a clause's last instruction whose header yields is noted (R93). Words that decode to none raise
Illegal Instruction (R100). -/
def Obligations.StepRuns : Prop :=
  ∀ (s : State) (c : Grant) (rest : List Grant) (tm : Team) (g : Group) (tid : Nat) (th : Thread),
    s.grants = c :: rest → s.group? c.g = some (tm, g) → tm.st = .running → c.set = [tid] →
    Tab.find? g.threads tid = some th → th.st = .ready → th.prio = c.prio → th.pc = c.pc →
    let ws := (th.code.drop ((th.pc - th.hdr) / 4)).take 3
    let b : State := { s with grants := rest, cur := c }
    (∀ i n, decodeWords ws = .ok (i, n) →
      (∀ t, exec i b = .next t → step s = .next { t.noteYield b i with now := (t.noteYield b i).now + 1 }) ∧
      (∀ t, exec i b = .next t → th.pc + 4 * n ≠ th.cend → t.noteYield b i = t)) ∧
    (∀ e, decodeWords ws = .error e → step s = .next { b.issueFault with now := b.issueFault.now + 1 })

/-- Reset (R3, R49, R299, R317, R343, R349, R415, R423, R437, R450): dtime and the vectors are zero, the memories have their canonical form, no team stands on a
core, no export is valid, every queue is CLOSED at its reset values, the first gridid is 1, a scrub pass takes 24 hours, and
the islands ask for 2,100 MHz. -/
def Obligations.ResetState : Prop :=
  let s := State.reset
  s.now = 0 ∧ s.teams = [] ∧ Safety.memoriesOk s = true ∧ (∀ d, (s.die d).v = .zero) ∧ (∀ c, (s.core c).clk = 0) ∧
  (∀ fn e, Tab.find? s.fab.exports (1024 * fn + e) = none) ∧ s.cp.gridNext = 1 ∧ s.mg.passHours = 24 ∧
  (∀ k, (s.island k).req = 2100) ∧
  (∀ k, let w := Tab.getD s.weirs .fresh k; w.dep = 65535 ∧ w.rate = 64) ∧
  ∀ q, let x := Tab.getD s.cp.queues .fresh q
    x.st = .closed ∧ x.base = 0 ∧ x.pasid = 0 ∧ x.maxd = 0 ∧ x.logsz = 4 ∧ x.quant = 32 ∧ x.age = 1000 ∧ x.swap = false ∧
    x.pri = 0

/-- Words of the spec's examples decode to the instructions that they stand for (R100, R101, R105, R109, R112). -/
def Obligations.DecodeWords : Prop :=
  decodeWords [0xB5000013] = .ok (.bar Pfx.none 0#1 1#1 3#4, 1) ∧
  decodeWords [0x1905_0406] = .ok (.bfe Pfx.none 5#8 4#8 6#8, 1) ∧
  decodeWords [0xA606_0803] = .ok (.red Pfx.none 6#8 8#8 0#4 0#1 3#3, 1) ∧
  decodeWords [0x7105_0100] = .ok (.rsq Pfx.none 5#8 1#8, 1) ∧
  decodeWords [0xC602_0001] = .ok (.mma Pfx.none 2#4 0#4 1#4, 1) ∧
  decodeWords [0xF000_0400, 0x0003_0102] =
    .ok (.iadd ⟨none, some { Mod.zero with satc := 1#2 }⟩ 3#8 1#8 2#8, 2)

/-- The encoder and the decoder agree (R100, R101, R105, R109): every instruction that the encoding has comes back from its
bytes, with every operand, whatever follows it; and words that decode are the encoding of what they decode to. -/
def Obligations.EncodeDecode : Prop :=
  ∀ i : Instr,
    (i.spec.isSome = true → ∃ bs, encode i = some bs ∧ ∀ tail, decode (bs ++ tail) = .ok (i, bs.length)) ∧
    ∀ (ws : List Nat) (n : Nat), (∀ w ∈ ws, w < 2 ^ 32) → decodeWords ws = .ok (i, n) → encodeWords i = some (ws.take n)

/-- Every step keeps the memories' canonical form: device, pool and host memory stay in rising addresses, with no entry that
an unlisted address reads as. The form is the model's. -/
def Obligations.StepKeepsMemories : Prop :=
  ∀ s t : State, Safety.memoriesOk s = true → step s = .next t → Safety.memoriesOk t = true

end Statements
end

