-- ==== Sys2Proof/Laws/Tab.lean ====
section
/-! SUPPORT. The laws of finite tables and of memory: what is read after a write, and the canonical form. -/

namespace Sys2Proof

namespace Tab

@[simp] theorem find?_nil {α : Type} (k : Nat) : Tab.find? ([] : Tab α) k = none := rfl

theorem find?_cons {α : Type} (p : Nat × α) (t : Tab α) (k : Nat) :
    Tab.find? (p :: t) k = if k = p.1 then some p.2 else Tab.find? t k := rfl

/-- A set entry is found. -/
@[simp] theorem find?_set_self {α : Type} (m : Tab α) (k : Nat) (v : α) : (m.set k v).find? k = some v := by
  induction m with
  | nil => simp [Tab.set, Tab.find?]
  | cons p t ih =>
    obtain ⟨k', v'⟩ := p
    simp only [Tab.set]
    split
    · simp [Tab.find?]
    · split
      · simp [Tab.find?]
      · rename_i h; simpa [Tab.find?, h] using ih

/-- Setting an entry leaves every other entry. -/
theorem find?_set_ne {α : Type} (m : Tab α) {j k : Nat} (v : α) (h : j ≠ k) : (m.set k v).find? j = m.find? j := by
  induction m with
  | nil => simp [Tab.set, Tab.find?, h]
  | cons p t ih =>
    obtain ⟨k', v'⟩ := p
    simp only [Tab.set]
    split
    · simp [Tab.find?, h]
    · split
      · rename_i h1 h2; subst h2; simp [Tab.find?, h]
      · simp only [Tab.find?]; split
        · rfl
        · exact ih

theorem find?_set {α : Type} (m : Tab α) (j k : Nat) (v : α) :
    (m.set k v).find? j = if j = k then some v else m.find? j := by
  split
  · rename_i h; subst h; simp
  · rename_i h; exact find?_set_ne m v h

/-- A removed entry is absent. -/
@[simp] theorem find?_del_self {α : Type} (m : Tab α) (k : Nat) : (m.del k).find? k = none := by
  induction m with
  | nil => rfl
  | cons p t ih =>
    obtain ⟨k', v'⟩ := p
    simp only [Tab.del]
    split
    · exact ih
    · rename_i h; simpa [Tab.find?, h] using ih

/-- Removing an entry leaves every other entry. -/
theorem find?_del_ne {α : Type} (m : Tab α) {j k : Nat} (h : j ≠ k) : (m.del k).find? j = m.find? j := by
  induction m with
  | nil => rfl
  | cons p t ih =>
    obtain ⟨k', v'⟩ := p
    simp only [Tab.del]
    split
    · rename_i h1; subst h1; simpa [Tab.find?, h] using ih
    · simp only [Tab.find?]; split
      · rfl
      · exact ih

theorem getD_set {α : Type} (m : Tab α) (d : α) (j k : Nat) (v : α) :
    (m.set k v).getD d j = if j = k then v else m.getD d j := by
  by_cases h : j = k <;> simp [Tab.getD, find?_set, h]

theorem getD_del {α : Type} (m : Tab α) (d : α) (j k : Nat) :
    (m.del k).getD d j = if j = k then d else m.getD d j := by
  by_cases h : j = k
  · subst h; simp [Tab.getD]
  · simp [Tab.getD, find?_del_ne m h, h]

/-- What reads after a put. -/
theorem getD_put {α : Type} [DecidableEq α] (m : Tab α) (d : α) (j k : Nat) (v : α) :
    (m.put d k v).getD d j = if j = k then v else m.getD d j := by
  by_cases hv : v = d
  · simp only [Tab.put, hv, if_true, getD_del]
  · simp only [Tab.put, hv, if_false, getD_set]

@[simp] theorem getD_put_self {α : Type} [DecidableEq α] (m : Tab α) (d : α) (k : Nat) (v : α) :
    (m.put d k v).getD d k = v := by simp [getD_put]

theorem getD_put_ne {α : Type} [DecidableEq α] (m : Tab α) (d : α) {j k : Nat} (v : α) (h : j ≠ k) :
    (m.put d k v).getD d j = m.getD d j := by simp [getD_put, h]

/-- A changed entry. -/
theorem find?_adjust {α : Type} (m : Tab α) (j k : Nat) (f : α → α) :
    (m.adjust k f).find? j = if j = k then (m.find? j).map f else m.find? j := by
  induction m with
  | nil => simp [Tab.adjust]
  | cons p t ih =>
    obtain ⟨i, v⟩ := p
    by_cases h : k = i
    · subst h
      by_cases e : j = k
      · simp [Tab.adjust, find?_cons, e]
      · simp [Tab.adjust, find?_cons, e]
    · by_cases e : j = i
      · subst e
        have : ¬ j = k := fun x => h x.symm
        simp [Tab.adjust, find?_cons, h, this]
      · simp [Tab.adjust, find?_cons, h, e, ih]

theorem sorted_adjust {α : Type} (m : Tab α) (k : Nat) (f : α → α) : (m.adjust k f).sorted = m.sorted := by
  induction m with
  | nil => rfl
  | cons p t ih =>
    obtain ⟨i, v⟩ := p
    by_cases h : k = i
    · cases t <;> simp [Tab.adjust, h, Tab.sorted]
    · cases t with
      | nil => simp [Tab.adjust, h, Tab.sorted]
      | cons q u =>
        obtain ⟨j, w⟩ := q
        simp only [Tab.adjust, if_neg h] at ih ⊢
        by_cases h2 : k = j
        · simp only [if_pos h2] at ih ⊢; simp_all [Tab.sorted]
        · simp only [if_neg h2] at ih ⊢; simp_all [Tab.sorted]

@[simp] theorem find?_adjust_self {α : Type} (m : Tab α) (k : Nat) (f : α → α) :
    (m.adjust k f).find? k = (m.find? k).map f := by simp [find?_adjust]

theorem find?_adjust_ne {α : Type} (m : Tab α) {j k : Nat} (f : α → α) (h : j ≠ k) :
    (m.adjust k f).find? j = m.find? j := by simp [find?_adjust, h]

/-- Every entry changed. -/
@[simp] theorem find?_mapV {α : Type} (m : Tab α) (f : α → α) (k : Nat) : (m.mapV f).find? k = (m.find? k).map f := by
  induction m with
  | nil => rfl
  | cons p t ih =>
    obtain ⟨k', v'⟩ := p
    simp only [Tab.mapV, List.map_cons, Tab.find?] at ih ⊢
    split
    · rfl
    · exact ih

/-! ### The canonical form -/

theorem sorted_cons {α : Type} (p : Nat × α) (t : Tab α) :
    Tab.sorted (p :: t) = true ↔ (∀ q ∈ t.head?, p.1 < q.1) ∧ Tab.sorted t = true := by
  obtain ⟨k, v⟩ := p
  cases t with
  | nil => simp [Tab.sorted]
  | cons q t => obtain ⟨k', v'⟩ := q; simp [Tab.sorted]

theorem head_set {α : Type} (m : Tab α) (k : Nat) (v : α) (q : Nat × α) (h : q ∈ (m.set k v).head?) :
    q.1 = k ∨ ∃ p ∈ m.head?, q.1 = p.1 := by
  cases m with
  | nil => simp [Tab.set] at h; simp [← h]
  | cons p t =>
    obtain ⟨k', v'⟩ := p
    simp only [Tab.set] at h
    split at h
    · simp at h; simp [← h]
    · split at h
      · simp at h; simp [← h]
      · simp at h; right; simp [← h]

/-- Setting an entry keeps the numbers rising. -/
theorem sorted_set {α : Type} (m : Tab α) (k : Nat) (v : α) (h : m.sorted = true) : (m.set k v).sorted = true := by
  induction m with
  | nil => simp [Tab.set, Tab.sorted]
  | cons p t ih =>
    obtain ⟨k', v'⟩ := p
    obtain ⟨h1, h2⟩ := (sorted_cons _ _).1 h
    simp only [Tab.set]
    split
    · rename_i hk; exact (sorted_cons _ _).2 ⟨by simpa using hk, h⟩
    · split
      · rename_i h3 h4; subst h4; exact (sorted_cons _ _).2 ⟨by simpa using h1, h2⟩
      · rename_i h3 h4
        refine (sorted_cons _ _).2 ⟨?_, ih h2⟩
        intro q hq
        rcases head_set t k v q hq with e | ⟨p, hp, e⟩
        · simp only [e]; omega
        · rw [e]; exact h1 p hp

theorem sorted_lt {α : Type} (p : Nat × α) (t : Tab α) (h : Tab.sorted (p :: t) = true) : ∀ q ∈ t, p.1 < q.1 := by
  induction t generalizing p with
  | nil => simp
  | cons r t ih =>
    obtain ⟨h1, h2⟩ := (sorted_cons _ _).1 h
    intro q hq
    have hr : p.1 < r.1 := h1 r (by simp)
    rcases List.mem_cons.1 hq with e | hq
    · simpa [e] using hr
    · exact Nat.lt_trans hr (ih r h2 q hq)

theorem mem_del {α : Type} (m : Tab α) (k : Nat) (q : Nat × α) (h : q ∈ m.del k) : q ∈ m := by
  induction m with
  | nil => exact h
  | cons p t ih =>
    obtain ⟨k', v'⟩ := p
    simp only [Tab.del] at h
    split at h
    · exact List.mem_cons_of_mem _ (ih h)
    · rcases List.mem_cons.1 h with e | h
      · simp [e]
      · exact List.mem_cons_of_mem _ (ih h)

/-- Removing an entry keeps the numbers rising. -/
theorem sorted_del {α : Type} (m : Tab α) (k : Nat) (h : m.sorted = true) : (m.del k).sorted = true := by
  induction m with
  | nil => exact h
  | cons p t ih =>
    obtain ⟨k', v'⟩ := p
    obtain ⟨h1, h2⟩ := (sorted_cons _ _).1 h
    simp only [Tab.del]
    split
    · exact ih h2
    · refine (sorted_cons _ _).2 ⟨?_, ih h2⟩
      intro q hq
      exact sorted_lt _ _ h q (mem_del t k q (List.mem_of_mem_head? hq))

theorem sorted_put {α : Type} [DecidableEq α] (m : Tab α) (d : α) (k : Nat) (v : α) (h : m.sorted = true) :
    (m.put d k v).sorted = true := by
  unfold Tab.put; split
  · exact sorted_del m k h
  · exact sorted_set m k v h

theorem mem_set {α : Type} (m : Tab α) (k : Nat) (v : α) (q : Nat × α) (h : q ∈ m.set k v) : q = (k, v) ∨ q ∈ m := by
  induction m with
  | nil => simpa [Tab.set] using h
  | cons p t ih =>
    obtain ⟨k', v'⟩ := p
    simp only [Tab.set] at h
    split at h
    · simpa using h
    · split at h
      · rcases List.mem_cons.1 h with e | h
        · exact .inl e
        · exact .inr (List.mem_cons_of_mem _ h)
      · rcases List.mem_cons.1 h with e | h
        · exact .inr (by simp [e])
        · rcases ih h with e | e
          · exact .inl e
          · exact .inr (List.mem_cons_of_mem _ e)

end Tab

namespace Mem

/-- A byte written is read; every other byte stands. -/
theorem read_write (m : Mem) (a x : Nat) (b : Byte) : Mem.read (Mem.write m a b) x = if x = a then b else Mem.read m x :=
  Tab.getD_put m 0#8 x a b

theorem wf_iff (m : Mem) : Mem.wf m = true ↔ Tab.sorted m = true ∧ ∀ p ∈ m, p.2 ≠ 0#8 := by
  simp [Mem.wf, List.all_eq_true]

/-- Writing a byte keeps the canonical form. -/
theorem wf_write (m : Mem) (a : Nat) (b : Byte) (h : Mem.wf m = true) : Mem.wf (Mem.write m a b) = true := by
  obtain ⟨h1, h2⟩ := (wf_iff m).1 h
  refine (wf_iff _).2 ⟨Tab.sorted_put m 0#8 a b h1, ?_⟩
  intro p hp
  unfold Mem.write Tab.put at hp
  split at hp
  · exact h2 p (Tab.mem_del m a p hp)
  · rename_i hb
    rcases Tab.mem_set m a b p hp with e | e
    · simpa [e] using hb
    · exact h2 p e

/-- Writing bytes keeps the canonical form. -/
theorem wf_writeList (m : Mem) (a : Nat) (l : List Byte) (h : Mem.wf m = true) : Mem.wf (Mem.writeList m a l) = true := by
  induction l generalizing m a with
  | nil => exact h
  | cons b t ih => exact ih _ _ (wf_write m a b h)

/-- Writing a number keeps the canonical form. -/
theorem wf_writeN (m : Mem) (a n x : Nat) (h : Mem.wf m = true) : Mem.wf (Mem.writeN m a n x) = true :=
  wf_writeList m a _ h

/-- A byte outside the bytes written stands. -/
theorem read_writeList_ne (m : Mem) (a : Nat) (l : List Byte) (x : Nat) (h : x < a ∨ a + l.length ≤ x) :
    Mem.read (Mem.writeList m a l) x = Mem.read m x := by
  induction l generalizing m a with
  | nil => rfl
  | cons b t ih =>
    have hx : x < a + 1 ∨ a + 1 + t.length ≤ x := by simp at h; omega
    have hne : x ≠ a := by simp at h; omega
    rw [show Mem.writeList m a (b :: t) = Mem.writeList (Mem.write m a b) (a + 1) t from rfl, ih _ _ hx, read_write]
    simp [hne]

/-- A byte of the bytes written is read. -/
theorem read_writeList (m : Mem) (a : Nat) (l : List Byte) (k : Nat) (h : k < l.length) :
    Mem.read (Mem.writeList m a l) (a + k) = l[k] := by
  induction l generalizing m a k with
  | nil => simp at h
  | cons b t ih =>
    rw [show Mem.writeList m a (b :: t) = Mem.writeList (Mem.write m a b) (a + 1) t from rfl]
    cases k with
    | zero =>
      rw [read_writeList_ne _ _ _ _ (by omega), read_write]; simp
    | succ k =>
      have := ih (Mem.write m a b) (a + 1) k (by simpa using h)
      simpa [Nat.add_assoc, Nat.add_comm 1 k] using this

/-- The bytes written are read. -/
theorem readList_writeList (m : Mem) (a : Nat) (l : List Byte) :
    Mem.readList (Mem.writeList m a l) a l.length = l := by
  have gen : ∀ (n k : Nat) (hk : k + n = l.length),
      Mem.readList (Mem.writeList m a l) (a + k) n = l.drop k := by
    intro n
    induction n with
    | zero => intro k hk; simp [Mem.readList, List.drop_eq_nil_of_le (by omega : l.length ≤ k)]
    | succ n ih =>
      intro k hk
      have hlt : k < l.length := by omega
      rw [List.drop_eq_getElem_cons hlt]
      simp only [Mem.readList]
      rw [read_writeList m a l k hlt, show a + k + 1 = a + (k + 1) from by omega, ih (k + 1) (by omega)]
  simpa using gen l.length 0 (by omega)

end Mem

end Sys2Proof
end

