-- ==== Sys2Proof/Laws/Ops.lean ====
section
/-! SUPPORT. What reads after each shared operation over teams, groups and threads. -/

namespace Sys2Proof.Claims

open Machine

/-- A team after a team has changed. -/
theorem team?_updTeam (s : State) (g t : Nat) (f : Team → Team) (hf : ∀ x, (f x).grid = x.grid ∧ (f x).team = x.team)
    (a b : Nat) :
    (s.updTeam g t f).team? a b = if a = g ∧ b = t then (s.team? a b).map f else s.team? a b := by
  unfold State.team? State.updTeam
  simp only
  induction s.teams with
  | nil => simp [changeFirst]
  | cons x l ih =>
    rw [changeFirst]
    by_cases hx : (x.grid == g && x.team == t) = true
    · rw [if_pos hx]
      simp only [Bool.and_eq_true, beq_iff_eq] at hx
      obtain ⟨h1, h2⟩ := hx
      subst h1; subst h2
      by_cases hk : a = x.grid ∧ b = x.team
      · obtain ⟨rfl, rfl⟩ := hk
        simp [hf]
      · rw [if_neg hk]
        have : (x.grid == a && x.team == b) = false := by
          rw [Bool.eq_false_iff]
          simp only [ne_eq, Bool.and_eq_true, beq_iff_eq]
          rintro ⟨rfl, rfl⟩
          exact hk ⟨rfl, rfl⟩
        simp only [List.find?_cons, (hf x).1, (hf x).2, this]
    · rw [if_neg hx]
      by_cases hk : (x.grid == a && x.team == b) = true
      · have : ¬ (a = g ∧ b = t) := by
          rintro ⟨rfl, rfl⟩
          exact hx hk
        simp only [List.find?_cons, hk, if_neg this]
      · simp only [Bool.not_eq_true] at hk
        simp only [List.find?_cons, hk]
        exact ih

/-- The group a reference names, after a group has changed. -/
theorem grp_updGroup (s : State) (r r' : GRef) (f : Group → Group) :
    grp (s.updGroup r f) r' = if r' = r then (grp s r').map f else grp s r' := by
  unfold grp State.group? State.updGroup
  rw [team?_updTeam _ _ _ _ (by intro x; exact ⟨rfl, rfl⟩)]
  by_cases h : r'.grid = r.grid ∧ r'.team = r.team
  · rw [if_pos h]
    cases hx : s.team? r'.grid r'.team with
    | none => simp
    | some x =>
      simp only [Option.map_some, Tab.find?_adjust]
      by_cases hg : r'.gid = r.gid
      · have : r' = r := by cases r; cases r'; simp_all
        simp only [this, if_true]
        cases Tab.find? x.groups r.gid <;> rfl
      · have : r' ≠ r := fun e => hg (by rw [e])
        simp only [hg, this, if_false]
        cases Tab.find? x.groups r'.gid <;> rfl
  · rw [if_neg h]
    have : r' ≠ r := fun e => h (by rw [e]; exact ⟨rfl, rfl⟩)
    simp only [this, if_false]

@[simp] theorem grp_updGroup_self (s : State) (r : GRef) (f : Group → Group) :
    grp (s.updGroup r f) r = (grp s r).map f := by simp [grp_updGroup]

theorem grp_updGroup_ne (s : State) {r r' : GRef} (f : Group → Group) (h : r' ≠ r) :
    grp (s.updGroup r f) r' = grp s r' := by simp [grp_updGroup, h]

/-- A team but its groups, after a group has changed. -/
@[simp] theorem bare_updGroup (s : State) (r : GRef) (f : Group → Group) (a b : Nat) :
    bare (s.updGroup r f) a b = bare s a b := by
  unfold bare State.updGroup
  rw [team?_updTeam _ _ _ _ (by intro x; exact ⟨rfl, rfl⟩)]
  split
  · cases s.team? a b <;> rfl
  · rfl

/-- What has changed only in one group stays so under a further change of it. -/
theorem OnlyGroup.upd {s t : State} {r : GRef} (h : OnlyGroup s t r) (f : Group → Group) :
    OnlyGroup s (t.updGroup r f) r := by
  obtain ⟨h1, h2, h3⟩ := h
  refine ⟨?_, ?_, ?_⟩
  · unfold State.updGroup State.updTeam
    rw [h1]
  · intro a b; rw [bare_updGroup]; exact h2 a b
  · intro r' hr; rw [grp_updGroup_ne _ _ hr]; exact h3 r' hr

theorem OnlyGroup.refl (s : State) (r : GRef) : OnlyGroup s s r := ⟨rfl, fun _ _ => rfl, fun _ _ => rfl⟩

theorem grp_of_group? {s : State} {r : GRef} {tm : Team} {g : Group} (h : s.group? r = some (tm, g)) :
    grp s r = some g := by simp [grp, h]

/-- A thread after a thread of the machine has changed. -/
theorem thr_updThread (s : State) (t t' : TRef) (f : Thread → Thread) :
    thr (s.updThread t f) t' = if t' = t then (thr s t').map f else thr s t' := by
  unfold thr State.updThread
  rw [grp_updGroup]
  by_cases h : t'.g = t.g
  · rw [if_pos h]
    cases hx : grp s t'.g with
    | none => simp
    | some x =>
      simp only [Option.map_some, Option.bind_some, Tab.find?_adjust]
      by_cases hg : t'.tid = t.tid
      · have : t' = t := by cases t; cases t'; simp_all
        simp [this]
      · have : t' ≠ t := fun e => hg (by rw [e])
        simp [hg, this]
  · rw [if_neg h]
    have : t' ≠ t := fun e => h (by rw [e])
    simp [this]

end Sys2Proof.Claims
end

