-- ==== Sys2Proof/Laws/Lane.lean ====
section
/-! SUPPORT. What an issue of a lane instruction does, once for the pipeline (R114 to R116). -/

namespace Sys2Proof.Claims

open Machine

/-! ### Writes to a thread -/

theorem lastOf_nil {α : Type} (n : Nat) : lastOf ([] : List (Nat × α)) n = none := rfl

theorem lastOf_append {α : Type} (l : List (Nat × α)) (p : Nat × α) (n : Nat) :
    lastOf (l ++ [p]) n = if p.1 = n then some p.2 else lastOf l n := by
  unfold lastOf
  rw [List.reverse_append]
  simp only [List.reverse_singleton, List.singleton_append, List.find?_cons]
  by_cases h : p.1 = n
  · simp [h]
  · simp [beq_eq_false_iff_ne.2 h, h]

theorem setRegs_append (t : Thread) (l : List (Nat × Word)) (p : Nat × Word) :
    t.setRegs (l ++ [p]) = (t.setRegs l).setReg p.1 p.2 := by simp [Thread.setRegs, List.foldl_append]

theorem setRegs_two (t : Thread) (a b : List (Nat × Word)) : (t.setRegs a).setRegs b = t.setRegs (a ++ b) := by
  simp [Thread.setRegs, List.foldl_append]

theorem setRegs_rest (t : Thread) (l : List (Nat × Word)) :
    t.setRegs l = { t with w := (t.setRegs l).w, we := (t.setRegs l).we } := by
  induction l using List.reverseRecOn with
  | nil => rfl
  | append_singleton l p ih => rw [setRegs_append, ih]; rfl

theorem reg_setRegs (t : Thread) (l : List (Nat × Word)) (n : Nat) :
    (t.setRegs l).reg n = (lastOf l n).getD (t.reg n) := by
  induction l using List.reverseRecOn with
  | nil => rfl
  | append_singleton l p ih =>
    rw [setRegs_append, lastOf_append]
    simp only [Thread.reg, Thread.setReg, Tab.getD_put] at ih ⊢
    by_cases h : p.1 = n
    · subst h; simp
    · rw [if_neg h, if_neg (Ne.symm h)]; exact ih

theorem mem_we_setRegs (t : Thread) (l : List (Nat × Word)) (n : Nat) :
    n ∈ (t.setRegs l).we ↔ n ∈ t.we ∧ ∀ p ∈ l, p.1 ≠ n := by
  induction l using List.reverseRecOn with
  | nil => simp [Thread.setRegs]
  | append_singleton l p ih =>
    rw [setRegs_append]
    simp only [Thread.setReg, delNat, List.mem_filter, ih, bne_iff_ne, ne_eq, List.mem_append, List.mem_singleton]
    constructor
    · rintro ⟨⟨h1, h2⟩, h3⟩
      exact ⟨h1, fun q hq => hq.elim (h2 q) fun e => by rw [e]; exact fun e => h3 e.symm⟩
    · rintro ⟨h1, h2⟩
      exact ⟨⟨h1, fun q hq => h2 q (.inl hq)⟩, fun e => h2 p (.inr rfl) e.symm⟩

/-- Predicates written in order. -/
def putPreds (t : Thread) (l : List (Nat × Bool)) : Thread := l.foldl (fun t p => t.setPred p.1 p.2) t

theorem putPreds_append (t : Thread) (l : List (Nat × Bool)) (p : Nat × Bool) :
    putPreds t (l ++ [p]) = (putPreds t l).setPred p.1 p.2 := by simp [putPreds, List.foldl_append]

theorem setPred_rest (t : Thread) (n : Nat) (b : Bool) : t.setPred n b = { t with p := (t.setPred n b).p } := by
  unfold Thread.setPred; split <;> rfl

theorem putPreds_rest (t : Thread) (l : List (Nat × Bool)) : putPreds t l = { t with p := (putPreds t l).p } := by
  induction l using List.reverseRecOn with
  | nil => rfl
  | append_singleton l p ih => rw [putPreds_append, setPred_rest, ih]

theorem testBit_putFld_one (x n m : Nat) (b : Bool) (h : n < 7) (hx : x < 128) (hm : m < 7) :
    (putFld x n n (ofB b)).testBit m = if m = n then b else x.testBit m := by
  cases b <;> interval_cases n <;> interval_cases m <;> revert x <;> decide

theorem pred_setPred (t : Thread) (n m : Nat) (b : Bool) (hm : m < 7) (hn : n < 8) :
    (t.setPred n b).pred m = if m = n then b else t.pred m := by
  unfold Thread.setPred Thread.pred
  have h7 : m ≠ 7 := by omega
  by_cases h : n = 7
  · subst h; simp [h7]
  · have hn' : n < 7 := by omega
    simp only [h, if_false, h7]
    have hx : t.p.toNat < 128 := t.p.isLt
    have hlt : putFld t.p.toNat n n (ofB b) < 128 := by
      have : t.p.toNat < 128 := hx
      generalize t.p.toNat = x at *
      unfold putFld ofB
      have h2 : x / 2 ^ (n + 1) * 2 ^ (n + 1) ≤ x := Nat.div_mul_le_self _ _
      cases b <;> interval_cases n <;> simp <;> omega
    simp only [BitVec.getLsbD_ofNat, hm, decide_true, Bool.true_and]
    rw [testBit_putFld_one _ _ _ _ hn' hx hm]
    rfl

theorem pred_putPreds (t : Thread) (l : List (Nat × Bool)) (hl : ∀ p ∈ l, p.1 < 8) (m : Nat) (hm : m < 7) :
    (putPreds t l).pred m = (lastOf l m).getD (t.pred m) := by
  induction l using List.reverseRecOn with
  | nil => rfl
  | append_singleton l p ih =>
    rw [putPreds_append, pred_setPred _ _ _ _ hm (hl p (by simp)), lastOf_append,
      ih (fun q hq => hl q (by simp [hq]))]
    by_cases h : p.1 = m
    · simp [h]
    · rw [if_neg (Ne.symm h), if_neg h]

/-! ### The threads of an issue -/

theorem mem_active {g : Group} {set : List Nat} {p : Nat × Thread} (h : p ∈ g.active set) :
    Tab.find? g.threads p.1 = some p.2 := by
  unfold Group.active at h
  have h := (List.mem_filter.1 h).1
  obtain ⟨n, -, hn⟩ := List.mem_filterMap.1 h
  cases hx : Tab.find? g.threads n with
  | none => simp [hx] at hn
  | some t => simp [hx] at hn; subst hn; exact hx

/-- What reads after entries have been set, each to what its number gives. -/
theorem find?_setAll {α : Type} (F : Nat → α) (l : List (Nat × α)) (hl : ∀ p ∈ l, p.2 = F p.1) (m : Tab α) (n : Nat) :
    Tab.find? (l.foldl (fun m p => Tab.set m p.1 p.2) m) n
      = if (∃ p ∈ l, p.1 = n) then some (F n) else Tab.find? m n := by
  induction l using List.reverseRecOn with
  | nil => simp
  | append_singleton l p ih =>
    rw [List.foldl_append]
    simp only [List.foldl_cons, List.foldl_nil, Tab.find?_set, ih (fun q hq => hl q (by simp [hq]))]
    by_cases h : n = p.1
    · subst h; simp [hl p (by simp)]
    · rw [if_neg h]
      congr 1
      simp only [List.mem_append, List.mem_singleton, eq_iff_iff]
      constructor
      · rintro ⟨q, hq, e⟩; exact ⟨q, .inl hq, e⟩
      · rintro ⟨q, hq | hq, e⟩
        · exact ⟨q, hq, e⟩
        · exact absurd e (by rw [hq]; exact Ne.symm h)

/-- Threads put back into a group, each after what its number gives. -/
theorem putThreads_find? (g : Group) (l : List (Nat × Thread)) (F : Nat → Thread) (hl : ∀ p ∈ l, p.2 = F p.1) (n : Nat) :
    Tab.find? (g.putThreads l).threads n = if (∃ p ∈ l, p.1 = n) then some (F n) else Tab.find? g.threads n :=
  find?_setAll F l hl g.threads n

theorem updGroup_front (s : State) (r : GRef) (F : Group → Group) (h : ∀ g, F g = { g with front := (F g).front }) :
    s.updGroup r F = s.updGroup r fun g => { g with front := (F g).front } := by
  congr 1; funext g; exact h g

theorem settle_rest (g : Group) : g.settle = { g with front := g.settle.front } := rfl

/-- The frontier apart, what follows an issue changes nothing of a group. -/
theorem finish_eq (s : State) (g0 : Group) (br : Option (Nat × Nat)) :
    ∃ f : Group → List FEntry, s.finish g0 br = s.updGroup s.cur.g fun g => { g with front := f g } :=
  ⟨_, updGroup_front s s.cur.g _ fun g => settle_rest _⟩

theorem cur_updGroup (s : State) (r : GRef) (f : Group → Group) : (s.updGroup r f).cur = s.cur := rfl

/-! ### The lane pipeline -/

theorem commit_res (t : Thread) (dst : List Nat) (out : LOut) (hp : ∀ p ∈ out.preds, p.1 < 8) :
    LaneRes t (t.commit dst out)
      ((match out.val with | some v => dst.zip (cutWords out.cnt v) | none => []) ++ out.more) out := by
  have key : t.commit dst out =
      (let v := putPreds (t.setRegs ((match out.val with
          | some v => dst.zip (cutWords out.cnt v) | none => []) ++ out.more)) out.preds
       { v with af := v.af ||| BitVec.ofNat 8 out.af, rs := match out.rs with | some r => r | none => v.rs }) := by
    rw [← setRegs_two]
    unfold Thread.commit putPreds
    cases out.val <;> rfl
  generalize ((match out.val with
    | some v => dst.zip (cutWords out.cnt v) | none => []) ++ out.more) = l at *
  have hr := setRegs_rest t l
  have hq := putPreds_rest (t.setRegs l) out.preds
  rw [key]
  refine ⟨?_, ?_, ?_, ?_⟩
  · rw [hq, hr]; cases out.rs <;> rfl
  · intro n
    rw [← reg_setRegs, hq]; rfl
  · intro n
    rw [← mem_we_setRegs, hq]
  · intro n hn
    show (putPreds _ _).pred n = _
    rw [pred_putPreds _ _ hp _ hn, hr]; rfl

/-- A thread that may run a lane instruction, or pass it by, leaves nothing to be applied. -/
theorem laneThread_ok (x : Dec) (sem : LaneSem) (tm : Team) (g : Group) (hp : Nat → Nat → Nat)
    (p : Nat × Thread) (h : LaneOk x sem tm g p) :
    (laneThread x sem tm.kern g hp p.1 p.2).2 = .none ∧
    (laneThread x sem tm.kern g hp p.1 p.2).1 = (match x.check tm.kern g p.2 with
      | .go o => ((p.2.commit (o.d.lanes x.sp.d.wr) (sem (x.linOf o g p.2 p.1))).advance x hp)
      | _ => p.2.advance x hp) := by
  unfold LaneOk at h
  unfold laneThread
  generalize hc : x.check tm.kern g p.2 = c at h ⊢
  rcases h with h | ⟨o, h, ha, hd, hf, hn⟩
  · subst h; exact ⟨rfl, rfl⟩
  · subst h
    have h1 : (sem (x.linOf o g p.2 p.1)).need.all (decide <| · < tm.kern.wregs) = true := by
      simp only [List.all_eq_true, decide_eq_true_eq]; exact fun n hn' => (hn n hn').1
    have h2 : (sem (x.linOf o g p.2 p.1)).need.any p.2.we.contains = false := by
      simp only [List.any_eq_false, List.contains_iff_mem]; exact fun n hn' => (hn n hn').2
    dsimp only
    cases hoa : o.a with
    | port q => exact absurd hoa (ha q)
    | _ =>
      simp only [hf, h1, h2, Bool.not_true, Bool.false_eq_true, if_false]
      cases hod : o.d with
      | port q => exact absurd hod (hd q)
      | _ => simp

theorem lanePass_ok (x : Dec) (sem : LaneSem) (tm : Team) (g : Group) (hp : Nat → Nat → Nat)
    (l : List (Nat × Thread)) (h : ∀ p ∈ l, LaneOk x sem tm g p) :
    lanePass x sem tm.kern g hp l = l.map fun p => (p.1, (match x.check tm.kern g p.2 with
      | .go o => ((p.2.commit (o.d.lanes x.sp.d.wr) (sem (x.linOf o g p.2 p.1))).advance x hp)
      | _ => p.2.advance x hp), LAct.none) := by
  refine List.map_congr_left fun p hp' => ?_
  have hh := laneThread_ok x sem tm g hp p (h p hp')
  exact Prod.ext rfl (Prod.ext hh.2 hh.1)

/-- Nothing is applied for a thread whose issue leaves nothing. -/
@[simp] theorem laneAct_none (s : State) (i : Instr) (r : GRef) (tid : Nat) : s.laneAct i r tid .none = s := by
  unfold State.laneAct State.actOf; split <;> rfl

/-- An issue of a lane instruction whose threads may all run (R114 to R116). -/
theorem lane_gives (i : Instr) (sem : LaneSem) (hx : ∀ s, exec i s = .next (s.runLane i sem))
    (hp8 : ∀ l, ∀ p ∈ (sem l).preds, p.1 < 8) : LaneGives i sem := by
  intro s tm g hg hok
  set x := decOf i with hxd
  let U : Nat → Thread := fun n => match Tab.find? g.threads n with
    | some t => (match x.check tm.kern g t with
      | .go o => ((t.commit (o.d.lanes x.sp.d.wr) (sem (x.linOf o g t n))).advance x (s.hp tm g))
      | _ => t.advance x (s.hp tm g))
    | none => Thread.fresh
  have hU : ∀ p ∈ g.active s.cur.set, U p.1 = (match x.check tm.kern g p.2 with
      | .go o => ((p.2.commit (o.d.lanes x.sp.d.wr) (sem (x.linOf o g p.2 p.1))).advance x (s.hp tm g))
      | _ => p.2.advance x (s.hp tm g)) := by
    intro p hp; simp only [U, mem_active hp]
  let l := (g.active s.cur.set).map fun p => (p.1, U p.1)
  have hrun : s.runLane i sem = (s.putThreads s.cur.g l).finish g none := by
    unfold State.runLane
    simp only [hg]
    rw [lanePass_ok x sem tm g (s.hp tm g) _ hok]
    rw [List.map_map]
    have e1 : (List.map ((fun p : Nat × Thread × LAct => (p.1, p.2.1)) ∘ fun p => (p.1, (match x.check tm.kern g p.2 with
      | .go o => ((p.2.commit (o.d.lanes x.sp.d.wr) (sem (x.linOf o g p.2 p.1))).advance x (s.hp tm g))
      | _ => p.2.advance x (s.hp tm g)), LAct.none)) (g.active s.cur.set)) = l := by
      apply List.map_congr_left
      intro p hp
      simp only [Function.comp, hU p hp]
    rw [e1]
    congr 1
    generalize s.putThreads s.cur.g l = s'
    rw [List.foldl_map]
    induction g.active s.cur.set with
    | nil => rfl
    | cons p t ih => simpa only [List.foldl_cons, laneAct_none] using ih
  have hl : ∀ p ∈ l, p.2 = U p.1 := by
    intro p hp
    obtain ⟨q, -, rfl⟩ := List.mem_map.1 hp
    rfl
  obtain ⟨f, hf⟩ := finish_eq (s.putThreads s.cur.g l) g none
  have hgrp := grp_of_group? hg
  refine ⟨_, { g.putThreads l with front := f (g.putThreads l) }, hx s, ?_, ?_, rfl, ?_, ?_⟩
  · rw [hrun, hf]
    exact ((OnlyGroup.refl s s.cur.g).upd _).upd _
  · rw [hrun, hf]
    show grp ((s.updGroup s.cur.g _).updGroup s.cur.g _) s.cur.g = _
    rw [grp_updGroup_self, grp_updGroup_self, hgrp]; rfl
  · intro n hn
    show Tab.find? (g.putThreads l).threads n = _
    rw [putThreads_find? g l U hl]
    rw [if_neg]
    rintro ⟨p, hp, e⟩
    simp only [l, List.mem_map] at hp
    obtain ⟨q, hq, rfl⟩ := hp
    exact hn q hq e
  · intro p hp
    have hfind : Tab.find? (g.putThreads l).threads p.1 = some (U p.1) := by
      rw [putThreads_find? g l U hl]
      rw [if_pos]
      exact ⟨(p.1, U p.1), by simp only [l, List.mem_map]; exact ⟨p, hp, rfl⟩, rfl⟩
    refine ⟨?_, ?_⟩
    · intro hs
      show Tab.find? (g.putThreads l).threads p.1 = _
      rw [hfind, hU p hp, hs]
    · intro o ho
      refine ⟨p.2.commit (o.d.lanes x.sp.d.wr) (sem (x.linOf o g p.2 p.1)), commit_res _ _ _ (hp8 _), ?_⟩
      show Tab.find? (g.putThreads l).threads p.1 = _
      rw [hfind, hU p hp, ho]

end Sys2Proof.Claims
end

