-- ==== Sys2Proof/Laws/Pipes.lean ====
section
/-! SUPPORT. What an issue of each other pipeline does, once for the pipeline. -/

namespace Sys2Proof.Claims

open Machine

/-! ### Thread by thread, and once -/

theorem active_one (g : Group) (tid : Nat) (t : Thread) (h : Tab.find? g.threads tid = some t) (hr : t.ri ≤ 64) :
    g.active [tid] = [(tid, t)] := by
  simp [Group.active, h, Nat.min_eq_right hr]

/-- An issue, in one thread whose checks pass, of an instruction that acts thread by thread. -/
theorem each_does {i : Instr} {s : State} {c : One} (sem : EachSem) (hx : exec i s = .next (s.runEach i sem))
    (h : Solo i s c) (hcur : (sem c s).cur = s.cur) : Does i s c (sem c) := by
  obtain ⟨h1, h2, h3, h4, h5, h6, h7, h8, h9, h10⟩ := h
  have hact := active_one c.g c.tid c.t h4 h8
  have ht : s.thread? ⟨s.cur.g, c.tid⟩ = some (c.tm, c.g, c.t) := by
    simp only [State.thread?, ← h1, h2, h4, Option.map_some]
  have hc : (⟨s.cur.g, c.tm, c.g, c.tid, c.t, decOf i, c.o⟩ : One) = c := by cases c; simp_all
  refine ⟨_, hx, ?_⟩
  have hrun : s.runEach i sem = (sem c s).finish c.g none := by
    unfold State.runEach
    simp only [← h1, h2, h3, hact, List.foldl_cons, List.foldl_nil]
    congr 1
    unfold State.eachOne
    rw [h1, ht]
    simp only [h5, h6, h7, bne_self_eq_false, Bool.or_self, Bool.false_eq_true, if_false]
    rw [← h9, h10]
    simp only [h9, hc]
  rw [hrun]
  obtain ⟨f, hf⟩ := finish_eq (sem c s) c.g none
  exact ⟨f, by rw [hf, hcur, h1]⟩

/-- An issue of an instruction that acts once, when the checks of the lowest thread of G pass. -/
theorem once_does {i : Instr} {s : State} {c : Once} (sem : OnceSem) (hx : exec i s = .next (s.runOnce i sem))
    (h : Whole i s c) (hcur : (sem c s).cur = s.cur) : DoesOnce i s c (sem c) := by
  obtain ⟨h1, h2, h3, h4, h5, h6, h7, h8⟩ := h
  refine ⟨_, hx, ?_⟩
  have hrun : s.runOnce i sem = (sem c s).finish c.g none := by
    unfold State.runOnce
    simp only [← h1, h2]
    rw [← h4, ← h3, ← h5]
    congr 1
    cases hg : c.gset with
    | nil => rw [hg] at h6; simp at h6
    | cons lo rest =>
      rw [hg] at h6
      have hlo : lo = (c.tid, c.t) := by simpa using h6
      have hany : ((lo :: rest).any fun p => c.x.dstEmpty c.o p.2 c.g) = false := by
        rw [List.any_eq_false]; intro p hp; rw [h8 p (by rw [hg]; exact hp)]; simp
      simp only [hlo] at hany ⊢
      simp only [h7, hany, Bool.false_eq_true, if_false]
      congr 1
      cases c; simp_all
  rw [hrun]
  obtain ⟨f, hf⟩ := finish_eq (sem c s) c.g none
  exact ⟨f, by rw [hf, hcur, h1]⟩

/-! ### The queued pipeline -/

theorem mem_insNat (k n : Nat) (l : List Nat) : n ∈ insNat k l ↔ n = k ∨ n ∈ l := by
  induction l with
  | nil => simp [insNat]
  | cons x t ih =>
    unfold insNat
    split
    · simp
    · split
      · rename_i h; subst h; simp
      · simp only [List.mem_cons, ih]; tauto

theorem mem_insNats (ks l : List Nat) (n : Nat) : n ∈ insNats ks l ↔ n ∈ ks ∨ n ∈ l := by
  unfold insNats
  induction ks using List.reverseRecOn with
  | nil => simp
  | append_singleton l p ih =>
    simp only [List.foldl_append, List.foldl_cons, List.foldl_nil, mem_insNat, ih, List.mem_append, List.mem_singleton]
    tauto

theorem markEmpty_we (t : Thread) (l : List Nat) (n : Nat) : n ∈ (t.markEmpty l).we ↔ n ∈ t.we ∨ n ∈ l := by
  unfold Thread.markEmpty; rw [mem_insNats]; tauto

/-- What an issue of a queued instruction makes of a thread before it passes on. -/
def sfuNew (x : Dec) (sem : LaneSem) (g : Group) (o : Opds) (n : Nat) (t : Thread) : Thread :=
  ({ t with rs := match (sem (x.linOf o g t n)).rs with | some r => r | none => t.rs } : Thread).markEmpty
    (o.d.lanes x.sp.d.wr)

theorem sfuThread_ok (x : Dec) (sem : LaneSem) (tm : Team) (g : Group) (hp : Nat → Nat → Nat) (p : Nat × Thread)
    (h : SfuOk x sem tm g p) (hrec : ∀ l, (sem l).recAdd = none) :
    sfuThread x sem tm.kern g hp p.1 p.2 = (match x.check tm.kern g p.2 with
      | .go o => ((sfuNew x sem g o p.1 p.2).advance x hp, .sfu ((o.d.lanes x.sp.d.wr).zip
          (cutWords (sem (x.linOf o g p.2 p.1)).cnt ((sem (x.linOf o g p.2 p.1)).val.getD 0))) none)
      | _ => (p.2.advance x hp, .none)) := by
  unfold SfuOk at h
  unfold sfuThread sfuNew
  generalize hc : x.check tm.kern g p.2 = c at h ⊢
  rcases h with h | ⟨o, h, hf⟩
  · subst h; rfl
  · subst h
    first | (simp only [hf, hrec]; done) | (simp only [hf, hrec]; rfl)

/-- An issue of a queued instruction while its queue has room and its operands make no fault (R161). -/
theorem sfu_gives (i : Instr) (sem : LaneSem) (hx : ∀ s, exec i s = .next (s.runSfu i fun _ _ => sem))
    (hrec : ∀ l, (sem l).recAdd = none) : SfuGives i sem := by
  intro s tm g hg hroom hok
  set x := decOf i with hxd
  let R : Nat → Thread → Thread × LAct := fun n t => match x.check tm.kern g t with
      | .go o => ((sfuNew x sem g o n t).advance x (s.hp tm g), .sfu ((o.d.lanes x.sp.d.wr).zip
          (cutWords (sem (x.linOf o g t n)).cnt ((sem (x.linOf o g t n)).val.getD 0))) none)
      | _ => (t.advance x (s.hp tm g), .none)
  have hR : ∀ p ∈ g.active s.cur.set, sfuThread x sem tm.kern g (s.hp tm g) p.1 p.2 = R p.1 p.2 :=
    fun p hp => sfuThread_ok x sem tm g _ p (hok p hp) hrec
  let U : Nat → Thread := fun n => match Tab.find? g.threads n with | some t => (R n t).1 | none => Thread.fresh
  have hU : ∀ p ∈ g.active s.cur.set, U p.1 = (R p.1 p.2).1 := by
    intro p hp; simp only [U, mem_active hp]
  let l := (g.active s.cur.set).map fun p => (p.1, U p.1)
  have hl : ∀ p ∈ l, p.2 = U p.1 := by
    intro p hp
    obtain ⟨q, -, rfl⟩ := List.mem_map.1 hp
    rfl
  let e := sfuEntry x sem tm g (g.active s.cur.set)
  let Q : Group → Group := fun g => if e.isEmpty then g else { g with sfq := g.sfq ++ [⟨g.sfNext, e⟩], sfNext := g.sfNext + 1 }
  have hrun : ∃ s', s.runSfu i (fun _ _ => sem) = s'.finish g none ∧ s'.cur = s.cur ∧ OnlyGroup s s' s.cur.g ∧
      grp s' s.cur.g = some (Q (g.putThreads l)) := by
    have e0 : (g.active s.cur.set).map (fun p => (p.1, sfuThread x sem tm.kern g (s.hp tm g) p.1 p.2))
        = (g.active s.cur.set).map fun p => (p.1, R p.1 p.2) :=
      List.map_congr_left fun p hp => by rw [hR p hp]
    have e1 : ((g.active s.cur.set).map fun p => (p.1, R p.1 p.2)).map (fun p : Nat × Thread × LAct => (p.1, p.2.1)) = l := by
      rw [List.map_map]
      apply List.map_congr_left
      intro p hp
      simp only [Function.comp, hU p hp]
    have e2 : (((g.active s.cur.set).map fun p => (p.1, R p.1 p.2)).filterMap fun p : Nat × Thread × LAct =>
        match p.2.2 with | .sfu l _ => some (p.1, l) | _ => none) = e := by
      rw [List.filterMap_map]
      apply List.filterMap_congr
      intro p hp
      simp only [Function.comp, R]
      cases hc : x.check tm.kern g p.2 <;> rfl
    have e3 : ∀ (s' : State), ((g.active s.cur.set).map fun p => (p.1, R p.1 p.2)).foldl (fun s (p : Nat × Thread × LAct) =>
        match p.2.2 with
        | .sfu _ (some (n, u, k)) => s.updCore g.core fun c => addCounts c n u k
        | _ => s) s' = s' := by
      intro s'
      rw [List.foldl_map]
      induction g.active s.cur.set with
      | nil => rfl
      | cons p t ih =>
        rw [List.foldl_cons]
        have : (match (p.1, R p.1 p.2).2.2 with
          | .sfu _ (some (n, u, k)) => s'.updCore g.core fun c => addCounts c n u k
          | _ => s') = s' := by
          simp only [R]
          cases hc : x.check tm.kern g p.2 <;> rfl
        rw [this]; exact ih
    have e4 : ∀ (s' : State), ((g.active s.cur.set).map fun p => (p.1, R p.1 p.2)).foldl (fun s1 (p : Nat × Thread × LAct) =>
        s1.laneAct i s.cur.g p.1 p.2.2) s' = s' := by
      intro s'
      rw [List.foldl_map]
      induction g.active s.cur.set with
      | nil => rfl
      | cons p t ih =>
        rw [List.foldl_cons]
        have : s'.laneAct i s.cur.g (p.1, R p.1 p.2).1 (p.1, R p.1 p.2).2.2 = s' := by
          simp only [R]
          cases hc : x.check tm.kern g p.2 <;> (unfold State.laneAct State.actOf; split <;> rfl)
        rw [this]; exact ih
    have hgrp := grp_of_group? hg
    refine ⟨if e.isEmpty then s.putThreads s.cur.g l else (s.putThreads s.cur.g l).updGroup s.cur.g fun g =>
      { g with sfq := g.sfq ++ [⟨g.sfNext, e⟩], sfNext := g.sfNext + 1 }, ?_, ?_, ?_, ?_⟩
    · unfold State.runSfu
      have hn : ¬ 32 ≤ g.sfq.length := by omega
      simp only [hg, hn, if_false, ← hxd, e0, e1]
      generalize hents : List.filterMap _ (List.map (fun p => (p.1, R p.1 p.2)) (g.active s.cur.set)) = ents
      have : ents = e := hents.symm.trans e2
      subst this
      refine congrArg (fun z => State.finish z g none) ?_
      exact (e4 _).trans (e3 _)
    · split <;> rfl
    · split
      · exact (OnlyGroup.refl s s.cur.g).upd _
      · exact ((OnlyGroup.refl s s.cur.g).upd _).upd _
    · show _ = some (if e.isEmpty then _ else _)
      split
      · show grp (s.updGroup s.cur.g _) s.cur.g = _
        rw [grp_updGroup_self, hgrp]; rfl
      · show grp ((s.updGroup s.cur.g _).updGroup s.cur.g _) s.cur.g = _
        rw [grp_updGroup_self, grp_updGroup_self, hgrp]; rfl
  obtain ⟨s', hrun, hcur, honly, hg'⟩ := hrun
  obtain ⟨f, hf⟩ := finish_eq s' g none
  have hQ : (Q (g.putThreads l)).threads = (g.putThreads l).threads := by simp only [Q]; split <;> rfl
  refine ⟨_, { Q (g.putThreads l) with front := f (Q (g.putThreads l)) }, hx s, ?_, ?_, ?_, ?_, ?_, ?_⟩
  · rw [hrun, hf, hcur]; exact honly.upd _
  · rw [hrun, hf, hcur, grp_updGroup_self, hg']; rfl
  · simp only [Q]; split <;> rfl
  · constructor
    · intro he
      have : e.isEmpty = false := by rw [List.isEmpty_eq_false_iff]; exact he
      simp only [Q, this]; exact ⟨rfl, rfl⟩
    · intro he
      have : e.isEmpty = true := by rw [List.isEmpty_iff]; exact he
      simp only [Q, this]; exact ⟨rfl, rfl⟩
  · intro n hn
    show Tab.find? (Q (g.putThreads l)).threads n = _
    rw [hQ, putThreads_find? g l U hl, if_neg]
    rintro ⟨p, hp, e⟩
    simp only [l, List.mem_map] at hp
    obtain ⟨q, hq, rfl⟩ := hp
    exact hn q hq e
  · intro p hp
    have hfind : Tab.find? (Q (g.putThreads l)).threads p.1 = some (U p.1) := by
      rw [hQ, putThreads_find? g l U hl, if_pos]
      exact ⟨(p.1, U p.1), by simp only [l, List.mem_map]; exact ⟨p, hp, rfl⟩, rfl⟩
    refine ⟨?_, ?_⟩
    · intro hs
      show Tab.find? (Q (g.putThreads l)).threads p.1 = _
      rw [hfind, hU p hp]; simp only [R, hs]
    · intro o ho
      refine ⟨sfuNew x sem g o p.1 p.2, ?_, fun n => markEmpty_we _ _ _, ?_⟩
      · unfold sfuNew Thread.markEmpty; cases (sem (x.linOf o g p.2 p.1)).rs <;> rfl
      show Tab.find? (Q (g.putThreads l)).threads p.1 = _
      rw [hfind, hU p hp]; simp only [R, ho]

/-! ### The uniform pipeline -/

theorem greg_setReg (g : Group) (n m : Nat) (v : Word) : (g.setReg n v).reg m = if m = n then v else g.reg m :=
  Tab.getD_put _ _ _ _ _

theorem mem_ge_setReg (g : Group) (n m : Nat) (v : Word) : m ∈ (g.setReg n v).ge ↔ m ∈ g.ge ∧ m ≠ n := by
  simp [Group.setReg, delNat]

theorem setPreds_one (preds : List (Nat × Nat × Bool)) (k : Nat) (t : Thread) :
    preds.foldl (fun t q => if q.1 = k then t.setPred q.2.1 q.2.2 else t) t
      = putPreds t (preds.filterMap fun q => if q.1 = k then some q.2 else none) := by
  induction preds generalizing t with
  | nil => rfl
  | cons q l ih =>
    simp only [List.foldl_cons, List.filterMap_cons]
    split
    · simp only [putPreds, List.foldl_cons] at ih ⊢; exact ih _
    · exact ih _

/-- An issue of a uniform instruction on g registers and immediates (R48, R130). -/
theorem unif_gives (i : Instr) (src : Group → Nat × Thread → Nat × Thread) (sem : UniSem)
    (hx : ∀ s, exec i s = .next (s.runUnif i src sem)) (hp8 : ∀ u, ∀ q ∈ (sem u).preds, q.2.1 < 8) :
    UnifGives i src sem := by
  intro s tm g lo rest o hg hact hcheck ha hd
  set x := decOf i with hxd
  let r := sem (x.uinOf o g { (src g lo).2 with ri := lo.2.ri } (lo :: rest))
  let N : Nat → Thread → Thread := fun n t =>
    putPreds t (r.preds.filterMap fun q => if q.1 = n then some q.2 else none)
  let l : List (Nat × Thread) := (setPreds r.preds (lo :: rest)).map fun p => (p.1, p.2.advance x (s.hp tm g))
  let G : Group → Group := fun g => match o.d, r.val with
        | .unif n, some v => g.setReg n (BitVec.ofNat 32 v)
        | _, _ => g
  have hgrp := grp_of_group? hg
  let U : Nat → Thread := fun n => match Tab.find? g.threads n with
    | some t => (N n t).advance x (s.hp tm g) | none => Thread.fresh
  have hmem : ∀ p ∈ lo :: rest, Tab.find? g.threads p.1 = some p.2 := by
    intro p hp; rw [← hact] at hp; exact mem_active hp
  have hl : ∀ p ∈ l, p.2 = U p.1 := by
    intro p hp
    obtain ⟨q, hq, rfl⟩ := List.mem_map.1 hp
    obtain ⟨q', hq', rfl⟩ := List.mem_map.1 hq
    simp only [U, hmem _ hq', N, setPreds_one]
  have hG : G g = { g with g := (G g).g, ge := (G g).ge } := by
    simp only [G]; split <;> rfl
  have hrun : ∃ s', s.runUnif i src sem = s'.finish g none ∧ s'.cur = s.cur ∧ OnlyGroup s s' s.cur.g ∧
      grp s' s.cur.g = some ((G g).putThreads l) := by
    unfold State.runUnif
    simp only [hg, hact, ← hxd, hcheck]
    refine ⟨_, rfl, ?_⟩
    unfold State.unifGo
    have key : ∀ s' : State, s' = (match o.d, r.val with
        | .unif n, some v => s.updGroup s.cur.g fun g => g.setReg n (BitVec.ofNat 32 v)
        | _, _ => s) → s'.cur = s.cur ∧ OnlyGroup s s' s.cur.g ∧ grp s' s.cur.g = some (G g) := by
      intro s' hs'
      subst hs'
      simp only [G]
      split
      · exact ⟨rfl, (OnlyGroup.refl s s.cur.g).upd _, by rw [grp_updGroup_self, hgrp]; rfl⟩
      · exact ⟨rfl, OnlyGroup.refl s s.cur.g, hgrp⟩
    have key2 : ∀ s' : State, (s'.cur = s.cur ∧ OnlyGroup s s' s.cur.g ∧ grp s' s.cur.g = some (G g)) →
        (s'.putThreads s.cur.g l).cur = s.cur ∧ OnlyGroup s (s'.putThreads s.cur.g l) s.cur.g ∧
          grp (s'.putThreads s.cur.g l) s.cur.g = some ((G g).putThreads l) := by
      rintro s' ⟨h1, h2, h3⟩
      exact ⟨h1, h2.upd _, by show grp (s'.updGroup s.cur.g _) s.cur.g = _; rw [grp_updGroup_self, h3]; rfl⟩
    cases hoa : o.a with
    | port q => exact absurd hoa (ha q)
    | _ =>
      cases hod : o.d with
      | port q => exact absurd hod (hd q)
      | _ =>
        simp only [hod] at key
        exact key2 _ (key _ rfl)
  obtain ⟨s', hrun, hcur, honly, hg'⟩ := hrun
  obtain ⟨f, hf⟩ := finish_eq s' g none
  have hfind : ∀ p ∈ lo :: rest, Tab.find? ((G g).putThreads l).threads p.1 = some (U p.1) := by
    intro p hp
    rw [putThreads_find? _ l U hl, if_pos]
    simp only [l, setPreds, List.map_map, List.mem_map]
    exact ⟨_, ⟨p, hp, rfl⟩, rfl⟩
  refine ⟨_, { (G g).putThreads l with front := f ((G g).putThreads l) }, hx s, ?_, ?_, ?_, ⟨?_, ?_, ?_⟩, ?_⟩
  · rw [hrun, hf, hcur]; exact honly.upd _
  · rw [hrun, hf, hcur, grp_updGroup_self, hg']; rfl
  · rw [hG]; rfl
  · intro n
    show (G g).reg n = _
    simp only [G]
    cases o.d <;> cases r.val <;> simp [greg_setReg, eq_comm]
  · intro n
    show n ∈ (G g).ge ↔ _
    simp only [G]
    cases o.d <;> cases r.val <;> simp [mem_ge_setReg, eq_comm]
  · intro p hp
    refine ⟨N p.1 p.2, putPreds_rest _ _, ?_, ?_⟩
    · intro n hn
      exact pred_putPreds _ _ (by
        intro q hq
        obtain ⟨q', hq', e⟩ := List.mem_filterMap.1 hq
        split at e
        · cases e; exact hp8 _ _ hq'
        · cases e) _ hn
    · show Tab.find? ((G g).putThreads l).threads p.1 = _
      rw [hfind p hp]; simp only [U, hmem p hp]
  · intro n hn
    show Tab.find? ((G g).putThreads l).threads n = _
    rw [putThreads_find? _ l U hl, if_neg]
    · simp only [G]; split <;> rfl
    · rintro ⟨p, hp, e⟩
      obtain ⟨q, hq, rfl⟩ := List.mem_map.1 hp
      obtain ⟨q', hq', rfl⟩ := List.mem_map.1 hq
      exact hn q' hq' e

/-! ### The cross-lane pipeline -/

theorem lastOf_cons {α : Type} (p : Nat × α) (l : List (Nat × α)) (n : Nat) :
    lastOf (p :: l) n = (lastOf l n).or (if p.1 = n then some p.2 else none) := by
  induction l using List.reverseRecOn with
  | nil => have := lastOf_append ([] : List (Nat × α)) p n; simpa [lastOf_nil] using this
  | append_singleton l q ih =>
    rw [← List.cons_append, lastOf_append, lastOf_append, ih]
    split
    · rfl
    · rfl

theorem gsetRegs_append (g : Group) (l : List (Nat × Word)) (p : Nat × Word) :
    g.setRegs (l ++ [p]) = (g.setRegs l).setReg p.1 p.2 := by simp [Group.setRegs, List.foldl_append]

theorem gsetRegs_rest (g : Group) (l : List (Nat × Word)) :
    g.setRegs l = { g with g := (g.setRegs l).g, ge := (g.setRegs l).ge } := by
  induction l using List.reverseRecOn with
  | nil => rfl
  | append_singleton l p ih => rw [gsetRegs_append, ih]; rfl

theorem greg_setRegs (g : Group) (l : List (Nat × Word)) (n : Nat) :
    (g.setRegs l).reg n = (lastOf l n).getD (g.reg n) := by
  induction l using List.reverseRecOn with
  | nil => rfl
  | append_singleton l p ih =>
    rw [gsetRegs_append, lastOf_append, greg_setReg, ih]
    by_cases h : p.1 = n
    · simp [h]
    · rw [if_neg h, if_neg (Ne.symm h)]

theorem mem_ge_setRegs (g : Group) (l : List (Nat × Word)) (n : Nat) :
    n ∈ (g.setRegs l).ge ↔ n ∈ g.ge ∧ ∀ p ∈ l, p.1 ≠ n := by
  induction l using List.reverseRecOn with
  | nil => simp [Group.setRegs]
  | append_singleton l p ih =>
    rw [gsetRegs_append, mem_ge_setReg, ih]
    simp only [List.mem_append, List.mem_singleton]
    constructor
    · rintro ⟨⟨h1, h2⟩, h3⟩
      exact ⟨h1, fun q hq => hq.elim (h2 q) fun e => by rw [e]; exact fun e => h3 e.symm⟩
    · rintro ⟨h1, h2⟩
      exact ⟨⟨h1, fun q hq => h2 q (.inl hq)⟩, fun e => h2 p (.inr rfl) e.symm⟩

theorem commit_nil (t : Thread) (dst : List Nat) : t.commit dst LOut.nil = t := by
  unfold Thread.commit LOut.nil
  simp [Thread.setRegs]

/-- What a cross-lane result gives a thread, as its commit writes it. -/
theorem cross_res (t : Thread) (dst : List Nat) (p6 : Option Bool) (l : LOut) (hp : ∀ p ∈ l.preds, p.1 < 8) :
    LaneRes t ((match p6 with | some b => t.setPred 6 b | none => t).commit dst l)
      ((match l.val with | some v => dst.zip (cutWords l.cnt v) | none => []) ++ l.more)
      { l with preds := (match p6 with | some b => [(6, b)] | none => []) ++ l.preds } := by
  cases p6 with
  | none => exact commit_res t dst l hp
  | some b =>
    have h := commit_res (t.setPred 6 b) dst l hp
    obtain ⟨h1, h2, h3, h4⟩ := h
    obtain ⟨v, hv⟩ : ∃ v, t.setPred 6 b = { t with p := v } := ⟨_, setPred_rest _ _ _⟩
    refine ⟨?_, ?_, ?_, ?_⟩
    · refine h1.trans ?_
      show _ = ({ t with
          w := ((t.setPred 6 b).commit dst l).w, we := ((t.setPred 6 b).commit dst l).we
          p := ((t.setPred 6 b).commit dst l).p, af := _, rs := _ } : Thread)
      rw [hv]
    · intro n; rw [show t.reg n = (t.setPred 6 b).reg n by rw [hv]; rfl]; exact h2 n
    · intro n; rw [show t.we = (t.setPred 6 b).we by rw [hv]]; exact h3 n
    · intro n hn
      rw [h4 n hn, pred_setPred _ _ _ _ hn (by omega)]
      show _ = (lastOf ((6, b) :: l.preds) n).getD (t.pred n)
      rw [lastOf_cons]
      by_cases h : n = 6
      · subst h; cases lastOf l.preds 6 <;> rfl
      · simp only [h, if_false, Ne.symm h]
        cases lastOf l.preds n <;> rfl

/-- An issue of a cross-lane instruction whose threads may all take part (R168). -/
theorem cross_gives (i : Instr) (sem : XSem) (hx : ∀ s, exec i s = .next (s.runCross i sem))
    (hp8 : ∀ u, ∀ q ∈ (sem u).lanes, ∀ p ∈ q.2.preds, p.1 < 8) : CrossGives i sem := by
  intro s tm g hg hok
  set x := decOf i with hxd
  set act := g.active s.cur.set with hact
  have hgrp := grp_of_group? hg
  let r := sem ⟨x.pf.m, members x tm g act⟩
  let U : Nat → Thread := fun n => match Tab.find? g.threads n with
    | some t => (match x.check tm.kern g t with
      | .go o => (((match r.p6 with | some b => t.setPred 6 b | none => t).commit (o.d.lanes x.sp.d.wr)
          (match (List.find? (fun q : Nat × LOut => q.1 == n) r.lanes).map (fun q : Nat × LOut => q.2) with
            | some l => l | none => LOut.nil)).advance x (s.hp tm g))
      | _ => t.advance x (s.hp tm g))
    | none => Thread.fresh
  have hfind0 : ∀ p ∈ act, Tab.find? g.threads p.1 = some p.2 := fun p hp => mem_active hp
  let l := act.map fun p => (p.1, U p.1)
  have hl : ∀ p ∈ l, p.2 = U p.1 := by
    intro p hp
    obtain ⟨q, -, rfl⟩ := List.mem_map.1 hp
    rfl
  let vs := act.map fun p => (⟨p.1, p.2, x.check tm.kern g p.2⟩ : XThread)
  have hcommit : ∀ p ∈ act, xCommit x (s.hp tm g) r ⟨p.1, p.2, x.check tm.kern g p.2⟩ = (U p.1, none) := by
    intro p hp
    have hc := hok p hp
    unfold CrossOk at hc
    simp only [U, hfind0 p hp]
    unfold xCommit
    generalize x.check tm.kern g p.2 = c at hc ⊢
    rcases hc with hc | ⟨o, hc, hd⟩
    · subst hc; rfl
    · subst hc
      dsimp only
      cases hod : o.d with
      | port q => exact absurd hod (hd q)
      | _ =>
        cases hlo : (List.find? (fun q : Nat × LOut => q.1 == p.1) r.lanes).map (fun q : Nat × LOut => q.2) with
        | some v => rfl
        | none => simp only [commit_nil] <;> rfl
  let W := gWrites x tm g act r
  have hrun : ∃ s', s.runCross i sem = s'.finish g none ∧ s'.cur = s.cur ∧ OnlyGroup s s' s.cur.g ∧
      grp s' s.cur.g = some ((g.putThreads l).setRegs W) := by
    have e1 : vs.any (fun p => p.v == .park) = false := by
      rw [List.any_eq_false]
      intro p hp
      obtain ⟨q, hq, rfl⟩ := List.mem_map.1 hp
      obtain h | ⟨o, h, -⟩ := hok q hq <;> simp [h]
    have e2 : (vs.filterMap fun p => match p.v with
          | .go o => if (x.memberMask g).testBit p.tid then some (p.tid, x.linOf o g p.t p.tid) else none
          | _ => none) = members x tm g act := by
      rw [List.filterMap_map]; rfl
    have e3 : (vs.map fun p => (p, xCommit x (s.hp tm g) r p))
        = act.map fun p => ((⟨p.1, p.2, x.check tm.kern g p.2⟩ : XThread), U p.1, none) := by
      rw [List.map_map]
      apply List.map_congr_left
      intro p hp
      simp only [Function.comp, hcommit p hp]
    have e4 : (act.map fun p => ((⟨p.1, p.2, x.check tm.kern g p.2⟩ : XThread), U p.1, (none : Option (Nat × LOut)))).map
        (fun p => (p.1.tid, p.2.1)) = l := by
      rw [List.map_map]; rfl
    have e5 : (vs.filterMap XThread.opds).head? = act.findSome? (fun p => match x.check tm.kern g p.2 with
        | .go o => some o | _ => none) := by
      rw [List.head?_filterMap, List.findSome?_map]; rfl
    have e6 : ∀ s' : State, (act.map fun p => ((⟨p.1, p.2, x.check tm.kern g p.2⟩ : XThread), U p.1,
        (none : Option (Nat × LOut)))).foldl (fun s1 p => match p.2.2 with
          | some (q, o) => s1.laneAct i s.cur.g p.1.tid (.push q o) | none => s1) s' = s' := by
      intro s'
      rw [List.foldl_map]
      induction act with
      | nil => rfl
      | cons p t ih => exact ih
    have e7 : ∀ s' : State, vs.foldl (fun s1 p => match p.v with
          | .fault c => s1.raise ⟨s.cur.g, p.tid⟩ c 0 0
          | .deferred n => s1.deliverDeferred ⟨s.cur.g, p.tid⟩ n
          | _ => s1) s' = s' := by
      have hv : ∀ p ∈ vs, p.v = .skip ∨ ∃ o, p.v = .go o := by
        intro p hp
        obtain ⟨q, hq, rfl⟩ := List.mem_map.1 hp
        obtain h | ⟨o, h, -⟩ := hok q hq
        · exact .inl h
        · exact .inr ⟨o, h⟩
      intro s'
      generalize vs = vs' at hv
      induction vs' with
      | nil => rfl
      | cons p t ih =>
        rw [List.foldl_cons]
        rcases hv p (by simp) with h | ⟨o, h⟩ <;> rw [h] <;> exact ih fun q hq => hv q (by simp [hq])
    let s1 := s.putThreads s.cur.g l
    let s2 := match r.g, vs.filterMap XThread.opds with
          | some v, o :: _ => s1.updGroup s.cur.g fun g => g.setRegs ((x.gDst o).zip (cutWords (x.gDst o).length v))
          | _, _ => s1
    have h1 : grp s1 s.cur.g = some (g.putThreads l) := by
      show grp (s.updGroup s.cur.g _) s.cur.g = _
      rw [grp_updGroup_self, hgrp]; rfl
    refine ⟨s2, ?_, ?_, ?_, ?_⟩
    · unfold State.runCross
      simp only [hg, ← hxd, ← hact]
      rw [if_neg (by rw [e1]; simp)]
      generalize hout : sem _ = out
      obtain rfl : out = r := hout.symm.trans (congrArg (fun m => sem ⟨x.pf.m, m⟩) e2)
      refine congrArg (fun z => State.finish z g none) ?_
      refine (e7 _).trans ?_
      rw [show List.map (fun p => (p, xCommit x (s.hp tm g) r p))
        (List.map (fun p => (⟨p.1, p.2, x.check tm.kern g p.2⟩ : XThread)) act) = _ from e3, e4]
      refine (e6 _).trans ?_
      rfl
    · simp only [s2]; split <;> rfl
    · have := (OnlyGroup.refl s s.cur.g).upd (fun g => g.putThreads l)
      simp only [s2]; split
      · exact this.upd _
      · exact this
    · simp only [s2, W, gWrites]
      generalize hfs : List.findSome? _ act = fs
      obtain rfl : fs = _ := hfs.symm.trans e5.symm
      cases hrg : r.g with
      | none => exact h1
      | some v =>
        cases vs.filterMap XThread.opds with
        | nil => exact h1
        | cons o t => simp only [grp_updGroup_self, h1]; rfl
  obtain ⟨s', hrun, hcur, honly, hg'⟩ := hrun
  obtain ⟨f, hf⟩ := finish_eq s' g none
  have hth : ((g.putThreads l).setRegs W).threads = (g.putThreads l).threads := by rw [gsetRegs_rest]
  have hfind : ∀ p ∈ act, Tab.find? ((g.putThreads l).setRegs W).threads p.1 = some (U p.1) := by
    intro p hp
    rw [hth, putThreads_find? _ l U hl, if_pos]
    exact ⟨_, List.mem_map.2 ⟨p, hp, rfl⟩, rfl⟩
  refine ⟨_, { (g.putThreads l).setRegs W with front := f ((g.putThreads l).setRegs W) }, hx s, ?_, ?_, ?_, ⟨?_, ?_, ?_⟩, ?_⟩
  · rw [hrun, hf, hcur]; exact honly.upd _
  · rw [hrun, hf, hcur, grp_updGroup_self, hg']; rfl
  · rw [gsetRegs_rest]; rfl
  · intro n
    show ((g.putThreads l).setRegs W).reg n = _
    rw [greg_setRegs]; rfl
  · intro n
    show n ∈ ((g.putThreads l).setRegs W).ge ↔ _
    rw [mem_ge_setRegs]; rfl
  · intro p hp
    refine ⟨?_, ?_⟩
    · intro hs
      show Tab.find? ((g.putThreads l).setRegs W).threads p.1 = _
      rw [hfind p hp]; simp only [U, hfind0 p hp, hs]
    · intro o ho
      refine ⟨_, cross_res p.2 (o.d.lanes x.sp.d.wr) r.p6 (match (List.find? (fun q : Nat × LOut => q.1 == p.1) r.lanes).map (fun q : Nat × LOut => q.2) with
            | some l => l | none => LOut.nil) ?_, ?_⟩
      · split
        · rename_i v hv
          cases hq : List.find? (fun q : Nat × LOut => q.1 == p.1) r.lanes with
          | none => rw [hq] at hv; cases hv
          | some q =>
            rw [hq] at hv; cases hv
            exact hp8 _ q (List.mem_of_find?_eq_some hq)
        · simp [LOut.nil]
      · show Tab.find? ((g.putThreads l).setRegs W).threads p.1 = _
        rw [hfind p hp]; simp only [U, hfind0 p hp, ho]
  · intro n hn
    show Tab.find? ((g.putThreads l).setRegs W).threads n = _
    rw [hth, putThreads_find? _ l U hl, if_neg]
    rintro ⟨p, hp, e⟩
    obtain ⟨q, hq, rfl⟩ := List.mem_map.1 hp
    exact hn q hq e

/-! ### The memory pipeline -/

theorem core_updCore (s : State) (c n : Nat) (f : Core → Core) :
    (s.updCore c f).core n = if n = c then f (s.core c) else s.core n := Tab.getD_put _ _ _ _ _

theorem tlb_trans {a b c : Core} (h1 : b = { a with tlb := b.tlb }) (h2 : c = { b with tlb := c.tlb }) :
    c = { a with tlb := c.tlb } := by
  rw [h2, h1]

theorem cacheLeaf_cores (s : State) (c p v : Nat) (l : Leaf) (n : Nat) :
    (s.cacheLeaf c p v l).core n = { s.core n with tlb := ((s.cacheLeaf c p v l).core n).tlb } := by
  unfold State.cacheLeaf
  rw [core_updCore]
  split
  · rename_i h; subst h; rfl
  · rfl

/-- What taking on one access does. -/
theorem addAcc_eq (s : State) (a : Acc) :
    s.addAcc a = { s with cores := (s.addAcc a).cores, accs := s.accs ++ [{ a with id := s.accNext }]
                          accNext := s.accNext + 1 } ∧
    ∀ n, (s.addAcc a).core n = { s.core n with tlb := ((s.addAcc a).core n).tlb } := by
  unfold State.addAcc
  cases a.leaf <;> cases a.leaf2 <;> refine ⟨rfl, fun n => ?_⟩
  · rfl
  · exact cacheLeaf_cores _ _ _ _ _ n
  · exact cacheLeaf_cores _ _ _ _ _ n
  · exact tlb_trans (cacheLeaf_cores _ _ _ _ _ n) (cacheLeaf_cores _ _ _ _ _ n)

theorem acc_frame {s u : State} {c1 : Tab Core} {x1 : List Acc} {y1 : Nat}
    (h : u = { s with cores := c1, accs := x1, accNext := y1 }) (c : Tab Core) (x : List Acc) (y : Nat) :
    ({ u with cores := c, accs := x, accNext := y } : State) = { s with cores := c, accs := x, accNext := y } := by
  rw [h]

/-- Taking on an access leaves every thread as it is. -/
theorem liveAt_addAcc (s : State) (a : Acc) (t : TRef) : (s.addAcc a).liveAt t = s.liveAt t := by
  have h : (s.addAcc a).teams = s.teams := by rw [(addAcc_eq s a).1]
  simp only [State.liveAt, State.thread?, State.group?, State.team?, h]

/-- What taking on some accesses of live threads does. -/
theorem addAccs (L : List (Nat × MAct)) (r : GRef) (hL : ∀ p ∈ L, p.2 = .none ∨ ∃ a, p.2 = .acc a) (s : State)
    (hlive : ∀ p ∈ L, s.liveAt ⟨r, p.1⟩ = true) :
    let t := L.foldl (fun s p => s.memAct r p.1 p.2) s
    let new := L.filterMap fun p => match p.2 with | .acc a => some a | _ => none
    t = { s with cores := t.cores, accs := s.accs ++ numbered s.accNext new, accNext := s.accNext + new.length } ∧
    ∀ n, t.core n = { s.core n with tlb := (t.core n).tlb } := by
  induction L generalizing s with
  | nil => exact ⟨by simp [numbered], fun n => rfl⟩
  | cons p l ih =>
    intro t new
    have ih' := ih (fun q hq => hL q (by simp [hq]))
    obtain ⟨tid, act⟩ := p
    rcases hL (tid, act) (by simp) with h | ⟨a, h⟩
    · simp only at h; subst h
      have e : s.memAct r tid .none = s := by unfold State.memAct State.memActOf; split <;> rfl
      have := ih' s (fun q hq => hlive q (by simp [hq]))
      simp only [t, new, List.foldl_cons, e]; exact this
    · simp only at h; subst h
      have e0 : s.memAct r tid (.acc a) = s.addAcc a := by
        unfold State.memAct State.memActOf; rw [if_pos (hlive (tid, .acc a) (by simp))]
      have h1 := ih' (s.addAcc a) (fun q hq => by rw [liveAt_addAcc]; exact hlive q (by simp [hq]))
      have h2 := addAcc_eq s a
      simp only at h1
      have e1 : (s.addAcc a).accs = s.accs ++ [{ a with id := s.accNext }] := by rw [h2.1]
      have e2 : (s.addAcc a).accNext = s.accNext + 1 := by rw [h2.1]
      rw [e1, e2] at h1
      simp only [t, List.foldl_cons, e0]
      refine ⟨?_, ?_⟩
      · refine h1.1.trans ?_
        have : new = a :: l.filterMap fun p => match p.2 with | .acc a => some a | _ => none := rfl
        rw [this]
        simp only [numbered, List.length_cons, List.append_assoc, List.singleton_append]
        rw [Nat.add_right_comm s.accNext 1]
        exact acc_frame h2.1 _ _ _
      · intro n
        exact tlb_trans (h2.2 n) (h1.2 n)

theorem finish_only {s s' : State} {r : GRef} {new : List Acc} (h : OnlyIssued s s' r new) (f : Group → Group) :
    OnlyIssued s (s'.updGroup r f) r new := by
  obtain ⟨h1, h2, h3, h4⟩ := h
  refine ⟨?_, h2, ?_, ?_⟩
  · unfold State.updGroup State.updTeam
    rw [h1]
  · intro a b; rw [bare_updGroup]; exact h3 a b
  · intro r' hr; rw [grp_updGroup_ne _ _ hr]; exact h4 r' hr

/-- The accesses taken on after a group has changed. -/
theorem only_of_group {s s1 t : State} {r : GRef} {new : List Acc} (h : OnlyGroup s s1 r)
    (ht : t = { s1 with cores := t.cores, accs := s1.accs ++ numbered s1.accNext new, accNext := s1.accNext + new.length })
    (hc : ∀ n, t.core n = { s1.core n with tlb := (t.core n).tlb }) :
    OnlyIssued s t r new ∧ ∀ r', grp t r' = grp s1 r' := by
  obtain ⟨h1, h2, h3⟩ := h
  have hteams : t.teams = s1.teams := by rw [ht]
  have hg : ∀ r', grp t r' = grp s1 r' := by
    intro r'; simp only [grp, State.group?, State.team?, hteams]
  have hb : ∀ a b, bare t a b = bare s1 a b := by
    intro a b; simp only [bare, State.team?, hteams]
  refine ⟨⟨?_, ?_, ?_, ?_⟩, hg⟩
  · refine ht.trans ?_
    rw [hteams]
    generalize s1.teams = T at h1 ⊢
    generalize t.cores = C
    rw [h1]
  · intro n
    rw [hc n]
    have : s1.core n = s.core n := by unfold State.core; rw [h1]
    rw [this]
  · intro a b; rw [hb, h2]
  · intro r' hr; rw [hg, h3 r' hr]

/-- What an issue of a memory instruction makes of a thread. -/
theorem memThread_ok (x : Dec) (sem : MemSem) (s : State) (tm : Team) (g : Group) (hp : Nat → Nat → Nat)
    (p : Nat × Thread) (h : MemOk x sem s tm g p) :
    memThread x sem s tm g hp p.1 p.2 = (match x.check tm.kern g p.2 with
      | .go o => ((p.2.markEmpty (o.d.lanes x.sp.d.wr)).advance x hp,
          (match s.planCheck g.core tm (sem (x.linOf o g p.2 p.1)) with
          | .ok (_, l, l2) => .acc ((sem (x.linOf o g p.2 p.1)).acc tm g [p.1] p.2
              (destOf o.d (sem (x.linOf o g p.2 p.1)).dst) l l2)
          | .error _ => .none))
      | _ => (p.2.advance x hp, .none)) := by
  unfold MemOk at h
  unfold memThread
  generalize hc : x.check tm.kern g p.2 = c at h ⊢
  rcases h with h | ⟨o, w, l, h, hpl, hw⟩
  · subst h; rfl
  · subst h
    obtain ⟨l1, l2⟩ := l
    simp only [hpl]

/-- A thread of a group, as the machine finds it. -/
theorem liveAt_of_grp {s : State} {r : GRef} {g : Group} {n : Nat} {t : Thread} (h : grp s r = some g)
    (hf : Tab.find? g.threads n = some t) (hl : t.live = true) : s.liveAt ⟨r, n⟩ = true := by
  unfold grp at h
  obtain ⟨⟨tm, g'⟩, h1, rfl⟩ := Option.map_eq_some_iff.1 h
  simp only [State.liveAt, State.thread?, h1, hf, Option.map_some, hl]

/-- Past the instruction a thread may run. -/
theorem advance_live (x : Dec) (hp : Nat → Nat → Nat) (t : Thread) : (t.advance x hp).live = true := by
  unfold Thread.advance; split
  · rfl
  · dsimp only; split <;> rfl

/-- No card is waited for where no thread issues one. -/
theorem passCards_none (x : Dec) (hp : Nat → Nat → Nat) (l : List (Nat × Thread × MAct))
    (h : ∀ p ∈ l, ∀ b, p.2.2 ≠ .card b) : passCards x hp l = l := by
  unfold passCards
  split
  · rfl
  · refine (List.map_congr_left fun p hp' => ?_).trans (List.map_id _)
    have := h p hp'
    obtain ⟨n, t, m⟩ := p
    cases m <;> first | rfl | exact absurd rfl (this _)

/-- An issue of a memory instruction whose threads may all run, while the table has room (R205, R206). -/
theorem mem_gives (i : Instr) (sem : MemSem) (hx : ∀ s, exec i s = .next (s.runMem i sem)) : MemGives i sem := by
  intro s tm g hg hroom hok
  set x := decOf i with hxd
  set act := g.active s.cur.set with hact
  let R : Nat → Thread → Thread × MAct := fun n t => match x.check tm.kern g t with
      | .go o => ((t.markEmpty (o.d.lanes x.sp.d.wr)).advance x (s.hp tm g),
          (match s.planCheck g.core tm (sem (x.linOf o g t n)) with
          | .ok (_, l, l2) => .acc ((sem (x.linOf o g t n)).acc tm g [n] t
              (destOf o.d (sem (x.linOf o g t n)).dst) l l2)
          | .error _ => .none))
      | _ => (t.advance x (s.hp tm g), .none)
  have hR : ∀ p ∈ act, memThread x sem s tm g (s.hp tm g) p.1 p.2 = R p.1 p.2 :=
    fun p hp => memThread_ok x sem s tm g _ p (hok p hp)
  let U : Nat → Thread := fun n => match Tab.find? g.threads n with | some t => (R n t).1 | none => Thread.fresh
  have hU : ∀ p ∈ act, U p.1 = (R p.1 p.2).1 := by
    intro p hp; simp only [U, mem_active hp]
  let l := act.map fun p => (p.1, U p.1)
  have hl : ∀ p ∈ l, p.2 = U p.1 := by
    intro p hp
    obtain ⟨q, -, rfl⟩ := List.mem_map.1 hp
    rfl
  let L := act.map fun p => (p.1, (R p.1 p.2).2)
  let new := newAccs x sem s tm g act
  have hL : ∀ p ∈ L, p.2 = .none ∨ ∃ a, p.2 = .acc a := by
    intro p hp
    obtain ⟨q, -, rfl⟩ := List.mem_map.1 hp
    simp only [R]
    cases x.check tm.kern g q.2 with
    | go o =>
      dsimp only
      cases s.planCheck g.core tm (sem (x.linOf o g q.2 q.1)) with
      | error m => exact .inl rfl
      | ok v => obtain ⟨_, l1, l2⟩ := v; exact .inr ⟨_, rfl⟩
    | _ => exact .inl rfl
  have hnew : (L.filterMap fun p => match p.2 with | .acc a => some a | _ => none) = new := by
    rw [List.filterMap_map]
    apply List.filterMap_congr
    intro p hp
    simp only [Function.comp, R]
    cases x.check tm.kern g p.2 with
    | go o =>
      dsimp only
      cases s.planCheck g.core tm (sem (x.linOf o g p.2 p.1)) with
      | error m => rfl
      | ok v => obtain ⟨_, l1, l2⟩ := v; rfl
    | _ => rfl
  have hgrp := grp_of_group? hg
  let s1 := s.putThreads s.cur.g l
  have h1 : grp s1 s.cur.g = some (g.putThreads l) := by
    show grp (s.updGroup s.cur.g _) s.cur.g = _
    rw [grp_updGroup_self, hgrp]; rfl
  let s2 := L.foldl (fun s' p => s'.memAct s.cur.g p.1 p.2) s1
  have hrun : s.runMem i sem = s2.finish g none := by
    unfold State.runMem
    simp only [hg, ← hxd, ← hact]
    rw [if_neg (by omega)]
    have e0 : act.map (fun p => (p.1, memThread x sem s tm g (s.hp tm g) p.1 p.2)) = act.map fun p => (p.1, R p.1 p.2) :=
      List.map_congr_left fun p hp => by rw [hR p hp]
    rw [e0, passCards_none _ _ _ (by
      intro p hp b
      obtain ⟨q, hq, rfl⟩ := List.mem_map.1 hp
      rcases hL (q.1, (R q.1 q.2).2) (List.mem_map.2 ⟨q, hq, rfl⟩) with h | ⟨a, h⟩ <;>
        simp only at h <;> rw [h] <;> intro h <;> cases h)]
    refine congrArg (fun z => State.finish z g none) ?_
    have e1 : (act.map fun p => (p.1, R p.1 p.2)).map (fun p : Nat × Thread × MAct => (p.1, p.2.1)) = l := by
      rw [List.map_map]
      apply List.map_congr_left
      intro p hp
      simp only [Function.comp, hU p hp]
    rw [e1]
    simp only [s2, L, List.foldl_map]; rfl
  have hlive : ∀ p ∈ L, s1.liveAt ⟨s.cur.g, p.1⟩ = true := by
    intro p hp
    obtain ⟨q, hq, rfl⟩ := List.mem_map.1 hp
    have hf : Tab.find? (g.putThreads l).threads q.1 = some (U q.1) := by
      rw [putThreads_find? _ l U hl, if_pos]
      exact ⟨_, List.mem_map.2 ⟨q, hq, rfl⟩, rfl⟩
    refine liveAt_of_grp h1 hf ?_
    rw [hU q hq]
    simp only [R]
    split <;> exact advance_live _ _ _
  have hfr := addAccs L s.cur.g hL s1 hlive
  simp only [hnew] at hfr
  have hcur : s2.cur = s.cur := by rw [show s2 = _ from hfr.1]; rfl
  obtain ⟨honly, hg2⟩ := only_of_group ((OnlyGroup.refl s s.cur.g).upd (fun g => g.putThreads l)) hfr.1 hfr.2
  obtain ⟨f, hf⟩ := finish_eq s2 g none
  have hfind : ∀ p ∈ act, Tab.find? (g.putThreads l).threads p.1 = some (U p.1) := by
    intro p hp
    rw [putThreads_find? _ l U hl, if_pos]
    exact ⟨_, List.mem_map.2 ⟨p, hp, rfl⟩, rfl⟩
  refine ⟨_, { g.putThreads l with front := f (g.putThreads l) }, hx s, ?_, ?_, rfl, ?_, ?_⟩
  · rw [hrun, hf, hcur]; exact finish_only honly _
  · rw [hrun, hf, hcur, grp_updGroup_self, show grp s2 s.cur.g = _ from (hg2 _).trans h1]; rfl
  · intro n hn
    show Tab.find? (g.putThreads l).threads n = _
    rw [putThreads_find? _ l U hl, if_neg]
    rintro ⟨p, hp, e⟩
    obtain ⟨q, hq, rfl⟩ := List.mem_map.1 hp
    exact hn q hq e
  · intro p hp
    refine ⟨?_, ?_⟩
    · intro hs
      show Tab.find? (g.putThreads l).threads p.1 = _
      rw [hfind p hp, hU p hp]; simp only [R, hs]
    · intro o ho
      refine ⟨p.2.markEmpty (o.d.lanes x.sp.d.wr), rfl, fun n => markEmpty_we _ _ _, ?_⟩
      show Tab.find? (g.putThreads l).threads p.1 = _
      rw [hfind p hp, hU p hp]; simp only [R, ho]

/-- An issue of a uniform memory instruction whose checks pass, while the table has room (R210). -/
theorem umem_gives (i : Instr) (sem : MemSem) (hx : ∀ s, exec i s = .next (s.runUMem i sem)) : UMemGives i sem := by
  intro s tm g lo rest o w l1 l2 hg hact hroom hcheck hplan
  set x := decOf i with hxd
  let pl := sem (x.linOf o g lo.2 lo.1)
  let a := pl.acc tm g ((lo :: rest).map fun (q : Nat × Thread) => q.1) lo.2 (destOf o.d pl.dst) l1 l2
  let G : Group → Group := fun g => g.markEmpty (o.d.unifs x.sp.d.wr)
  let l : List (Nat × Thread) := (lo :: rest).map fun p => (p.1, p.2.advance x (s.hp tm g))
  let U : Nat → Thread := fun n => match Tab.find? g.threads n with
    | some t => t.advance x (s.hp tm g) | none => Thread.fresh
  have hmem : ∀ p ∈ lo :: rest, Tab.find? g.threads p.1 = some p.2 := by
    intro p hp; rw [← hact] at hp; exact mem_active hp
  have hl : ∀ p ∈ l, p.2 = U p.1 := by
    intro p hp
    obtain ⟨q, hq, rfl⟩ := List.mem_map.1 hp
    simp only [U, hmem _ hq]
  have hgrp := grp_of_group? hg
  have hacc := addAcc_eq s a
  obtain ⟨honly, hg1⟩ := only_of_group (t := s.addAcc a) (new := [a]) (OnlyGroup.refl s s.cur.g) hacc.1 hacc.2
  have hg2 : grp (((s.addAcc a).updGroup s.cur.g G).putThreads s.cur.g l) s.cur.g = some ((G g).putThreads l) := by
    show grp (((s.addAcc a).updGroup s.cur.g G).updGroup s.cur.g _) s.cur.g = _
    rw [grp_updGroup_self, grp_updGroup_self, hg1, hgrp]; rfl
  have hrun : s.runUMem i sem = (((s.addAcc a).updGroup s.cur.g G).putThreads s.cur.g l).finish g none := by
    unfold State.runUMem
    simp only [hg, hact, ← hxd]
    rw [if_neg (by omega)]
    simp only [hcheck, hplan]
    refine congrArg (fun z => State.finish z g none) ?_
    rfl
  have hcur : (((s.addAcc a).updGroup s.cur.g G).putThreads s.cur.g l).cur = s.cur := by
    show (s.addAcc a).cur = _
    rw [hacc.1]
  obtain ⟨f, hf⟩ := finish_eq (((s.addAcc a).updGroup s.cur.g G).putThreads s.cur.g l) g none
  refine ⟨_, { (G g).putThreads l with front := f ((G g).putThreads l) }, hx s, ?_, ?_, rfl, ?_, ?_, ?_⟩
  · rw [hrun, hf, hcur]; exact finish_only (finish_only (finish_only honly _) _) _
  · rw [hrun, hf, hcur, grp_updGroup_self, hg2]; rfl
  · intro n
    show n ∈ (insNats _ g.ge) ↔ _
    rw [mem_insNats]; tauto
  · intro p hp
    show Tab.find? ((G g).putThreads l).threads p.1 = _
    rw [putThreads_find? _ l U hl, if_pos]
    · simp only [U, hmem p hp]
    · exact ⟨_, List.mem_map.2 ⟨p, hp, rfl⟩, rfl⟩
  · intro n hn
    show Tab.find? ((G g).putThreads l).threads n = _
    rw [putThreads_find? _ l U hl, if_neg]
    · rfl
    rintro ⟨p, hp, e⟩
    obtain ⟨q, hq, rfl⟩ := List.mem_map.1 hp
    exact hn q hq e

end Sys2Proof.Claims
end

