-- ==== Sys2Proof/Laws/Numbers.lean ====
section
/-! SUPPORT. The machine's number helpers and the statements' agree. -/

namespace Sys2Proof.Claims

open Machine

theorem sx_sval (n x : Nat) (h : 0 < n) : sx n x = sval n x := by
  unfold sx sval
  obtain ⟨k, rfl⟩ : ∃ k, n = k + 1 := ⟨n - 1, by omega⟩
  have hx : x % 2 ^ (k + 1) < 2 ^ (k + 1) := Nat.mod_lt _ (by positivity)
  have h2 : (2 : Nat) ^ (k + 1) = 2 * 2 ^ k := by ring
  simp only [BitVec.toInt_eq_toNat_cond, BitVec.toNat_ofNat, Nat.add_sub_cancel]
  generalize x % 2 ^ (k + 1) = y at *
  rw [h2] at *
  by_cases hc : y < 2 ^ k
  · rw [if_pos hc, if_pos (by omega)]
  · rw [if_neg hc, if_neg (by omega)]

theorem wrapI_wrapped (n : Nat) (z : Int) : wrapI n z = wrapped n z := by
  unfold wrapI wrapped
  rw [BitVec.toNat_ofInt]

theorem satc_one (m : Mod) : m.satc.toNat = 1 ↔ m.satc = 1#2 := by
  constructor
  · intro h; apply BitVec.eq_of_toNat_eq; rw [h]; rfl
  · intro h; rw [h]; rfl

theorem formI_intRes (m : Mod) (n : Nat) (z : Int) : formI n m.satc.toNat z = intRes m n z := by
  unfold formI intRes clampI
  rw [wrapI_wrapped]
  simp only [satc_one]
  push_cast
  rfl

/-- A lane instruction gives what its meaning answers, in any equal form. -/
theorem lane_via (i : Instr) (sem out : LaneSem) (hx : ∀ s, exec i s = .next (s.runLane i sem))
    (he : sem = out) (hp8 : ∀ l, ∀ p ∈ (sem l).preds, p.1 < 8) : LaneGives i out := he ▸ lane_gives i sem hx hp8

theorem words_preds (n v : Nat) : ∀ p ∈ (LOut.words n v).preds, p.1 < 8 := by simp [LOut.words, LOut.nil]

theorem pred_preds (p : BitVec 3) (b : Bool) : ∀ q ∈ (LOut.pred p.toNat b).preds, q.1 < 8 := by
  intro q hq
  simp only [LOut.pred, List.mem_singleton] at hq
  subst hq
  exact p.isLt

theorem linOf_lt (o : Opd) (offs : List Nat) (t : Thread) (g : Group) : o.value offs t g < 2 ^ (32 * offs.length) := by
  have hj : ∀ l : List Word, joinWords l < 2 ^ (32 * l.length) := by
    intro l
    induction l with
    | nil => simp [joinWords]
    | cons v t ih =>
      have := v.isLt
      simp only [joinWords, List.length_cons]
      have : 2 ^ (32 * (t.length + 1)) = 2 ^ 32 * 2 ^ (32 * t.length) := by rw [← pow_add]; congr 1; ring
      rw [this]
      omega
  unfold Opd.value
  split
  · exact (hj _).trans_eq (by rw [List.length_map])
  · exact (hj _).trans_eq (by rw [List.length_map])
  · unfold wrapI
    have h0 : (0 : Int) < ((2 ^ (32 * offs.length) : Nat) : Int) := by positivity
    have := Int.emod_lt_of_pos (sx 8 ‹_›) h0
    have := Int.emod_nonneg (sx 8 ‹_›) (ne_of_gt h0)
    omega
  · positivity

/-- Two results that agree on every value a thread may read give the same. -/
theorem LaneGives.congr {i : Instr} {f g : LaneSem} (h : LaneGives i f)
    (he : ∀ x : LIn, x.a < 2 ^ (32 * (decOf i).sp.a.rd.length) → x.d < 2 ^ (32 * (decOf i).sp.d.rd.length) →
      x.m = (decOf i).pf.m → f x = g x) : LaneGives i g := by
  have key : ∀ o g' t n, f ((decOf i).linOf o g' t n) = g ((decOf i).linOf o g' t n) := fun o g' t n =>
    he _ (linOf_lt _ _ _ _) (linOf_lt _ _ _ _) rfl
  intro s tm gr hg hok
  have hok' : ∀ p ∈ gr.active s.cur.set, LaneOk (decOf i) f tm gr p := by
    intro p hp
    have := hok p hp
    unfold LaneOk at this ⊢
    simpa only [key] using this
  have := h s tm gr hg hok'
  simpa only [key] using this

end Sys2Proof.Claims
end

