-- ==== Sys2Proof/Laws/Each.lean ====
section
/-! SUPPORT. What the shared operations of the instructions that act thread by thread do. -/

namespace Sys2Proof.Claims

open Machine

theorem adjust_adjust {α : Type} (m : Tab α) (k : Nat) (f g : α → α) :
    Tab.adjust (Tab.adjust m k f) k g = Tab.adjust m k (g ∘ f) := by
  induction m with
  | nil => rfl
  | cons p t ih => obtain ⟨i, v⟩ := p; by_cases h : k = i <;> simp [Tab.adjust, h, ih]

theorem changeFirst_twice {α : Type} (p : α → Bool) (f g : α → α) (hf : ∀ x, p (f x) = p x) (l : List α) :
    changeFirst p g (changeFirst p f l) = changeFirst p (g ∘ f) l := by
  induction l with
  | nil => rfl
  | cons x t ih =>
    by_cases h : p x = true
    · simp [changeFirst, h, hf]
    · simp [changeFirst, h, ih]

theorem changeFirst_congr {α : Type} (p : α → Bool) (f g : α → α) (l : List α)
    (h : ∀ x, List.find? p l = some x → f x = g x) : changeFirst p f l = changeFirst p g l := by
  induction l with
  | nil => rfl
  | cons x t ih =>
    by_cases hp : p x = true
    · have := h x (by simp [hp])
      simp [changeFirst, hp, this]
    · have := ih (by intro y hy; exact h y (by rw [List.find?_cons]; simpa [hp] using hy))
      simp [changeFirst, hp, this]

theorem updTeam_updTeam (s : State) (a b : Nat) (f g : Team → Team) (hf : ∀ x, (f x).grid = x.grid ∧ (f x).team = x.team) :
    (s.updTeam a b f).updTeam a b g = s.updTeam a b (g ∘ f) := by
  exact congrArg (fun l => ({ s with teams := l } : State)) (changeFirst_twice _ f g (by intro x; simp [hf]) s.teams)

/-- Two changes that agree on the team there are one. -/
theorem updTeam_congr (s : State) (a b : Nat) (f g : Team → Team) (h : ∀ x, s.team? a b = some x → f x = g x) :
    s.updTeam a b f = s.updTeam a b g := by
  exact congrArg (fun l => ({ s with teams := l } : State)) (changeFirst_congr _ f g s.teams h)

/-- Two changes of one group are one. -/
theorem updGroup_updGroup (s : State) (r : GRef) (f g : Group → Group) :
    (s.updGroup r f).updGroup r g = s.updGroup r (g ∘ f) := by
  unfold State.updGroup
  rw [updTeam_updTeam _ _ _ _ _ (by intro x; exact ⟨rfl, rfl⟩)]
  congr 1
  funext x
  simp only [Function.comp_apply, adjust_adjust]

/-- Two changes of one thread are one. -/
theorem updThread_updThread (s : State) (t : TRef) (f g : Thread → Thread) :
    (s.updThread t f).updThread t g = s.updThread t (g ∘ f) := by
  unfold State.updThread
  rw [updGroup_updGroup]
  congr 1
  funext x
  simp only [Function.comp_apply, adjust_adjust]

/-- A team, group and thread after a thread of the machine has changed. -/
theorem thread?_updThread (s : State) (t : TRef) (f : Thread → Thread) (tm : Team) (g : Group) (th : Thread)
    (h : s.thread? t = some (tm, g, th)) :
    ∃ tm' g', (s.updThread t f).thread? t = some (tm', g', f th) ∧
      tm' = { tm with groups := tm'.groups } ∧ g' = { g with threads := g'.threads } := by
  unfold State.thread? State.group? at *
  have ht : (s.updThread t f).team? t.g.grid t.g.team
      = (s.team? t.g.grid t.g.team).map fun tm =>
        { tm with groups := Tab.adjust tm.groups t.g.gid fun g => { g with threads := Tab.adjust g.threads t.tid f } } := by
    unfold State.updThread State.updGroup
    rw [team?_updTeam _ _ _ _ (by intro x; exact ⟨rfl, rfl⟩), if_pos ⟨rfl, rfl⟩]
  rw [ht]
  cases hx : s.team? t.g.grid t.g.team with
  | none => rw [hx] at h; simp at h
  | some x =>
    rw [hx] at h
    simp only [Option.map_some] at h ⊢
    rw [Tab.find?_adjust_self]
    cases hg : Tab.find? x.groups t.g.gid with
    | none => rw [hg] at h; simp at h
    | some y =>
      rw [hg] at h
      simp only [Option.map_some] at h ⊢
      rw [Tab.find?_adjust_self]
      cases hh : Tab.find? y.threads t.tid with
      | none => rw [hh] at h; simp at h
      | some z =>
        rw [hh] at h
        simp only [Option.map_some, Option.some.injEq, Prod.mk.injEq] at h ⊢
        obtain ⟨rfl, rfl, rfl⟩ := h
        exact ⟨_, _, ⟨rfl, rfl, rfl⟩, rfl, rfl⟩

theorem adjust_congr {α : Type} (m : Tab α) (k : Nat) (f g : α → α) (h : ∀ v, Tab.find? m k = some v → f v = g v) :
    Tab.adjust m k f = Tab.adjust m k g := by
  induction m with
  | nil => rfl
  | cons p t ih =>
    obtain ⟨i, v⟩ := p
    by_cases e : k = i
    · simp [Tab.adjust, e, h v (by simp [Tab.find?_cons, e])]
    · have := ih (by intro x hx; exact h x (by rw [Tab.find?_cons]; simpa [e] using hx))
      simp [Tab.adjust, e, this]

/-- Two changes that agree on the thread there are one. -/
theorem updThread_congr {s : State} {t : TRef} {tm : Team} {g : Group} {th : Thread}
    (h : s.thread? t = some (tm, g, th)) (f f' : Thread → Thread) (hf : f th = f' th) :
    s.updThread t f = s.updThread t f' := by
  unfold State.thread? State.group? at h
  unfold State.updThread State.updGroup
  apply updTeam_congr
  intro x hx
  rw [hx] at h
  simp only at h
  congr 1
  apply adjust_congr
  intro y hy
  rw [hy] at h
  simp only [Option.map_some] at h
  congr 1
  apply adjust_congr
  intro z hz
  rw [hz] at h
  simp only [Option.map_some, Option.some.injEq, Prod.mk.injEq] at h
  rw [h.2.2, hf]

/-- An issue, in one thread whose checks pass, of a branch. -/
theorem branch_does {i : Instr} {s : State} {c : One} (sem : EachSem) (hx : exec i s = .next (s.runBranch i sem))
    (h : Solo i s c) (hcur : (sem c s).cur = s.cur) : Does i s c (sem c) := by
  obtain ⟨h1, h2, h3, h4, h5, h6, h7, h8, h9, h10⟩ := h
  have hact := active_one c.g c.tid c.t h4 h8
  have ht : s.thread? ⟨s.cur.g, c.tid⟩ = some (c.tm, c.g, c.t) := by
    simp only [State.thread?, ← h1, h2, h4, Option.map_some]
  have hc : (⟨s.cur.g, c.tm, c.g, c.tid, c.t, decOf i, c.o⟩ : One) = c := by cases c; simp_all
  refine ⟨_, hx, ?_⟩
  have hone : s.eachOne (decOf i) sem c.r c.t.ri c.tid = sem c s := by
    unfold State.eachOne
    rw [h1, ht]
    simp only [h5, h6, h7, bne_self_eq_false, Bool.or_self, Bool.false_eq_true, if_false]
    rw [← h9, h10]
    simp only [h9, hc]
  have hrun : s.runBranch i sem = (sem c s).finish c.g (sem c s).branchTaken := by
    unfold State.runBranch
    simp only [← h1, h2, h3, hact, List.foldl_cons, List.foldl_nil, hone]
  rw [hrun]
  obtain ⟨f, hf⟩ := finish_eq (sem c s) c.g (sem c s).branchTaken
  exact ⟨f, by rw [hf, hcur, h1]⟩

/-- The thread of an issue in one thread. -/
theorem solo_thread {i : Instr} {s : State} {c : One} (h : Solo i s c) : s.thread? c.ref = some (c.tm, c.g, c.t) := by
  simp only [State.thread?, One.ref, h.group, h.thread, Option.map_some]

/-- A change of the thread of c is its replacement. -/
theorem upd_puts {s : State} {c : One} (h : s.thread? c.ref = some (c.tm, c.g, c.t)) (f : Thread → Thread) :
    s.updThread c.ref f = puts c (f c.t) s := updThread_congr h f _ rfl

/-- A word of code does not depend on threads. -/
theorem codeWord_upd (s : State) (t : TRef) (f : Thread → Thread) (a b d : Nat) :
    (s.updThread t f).codeWord a b d = s.codeWord a b d := by rfl

/-- A header's priority does not depend on threads. -/
theorem headerPrio_upd (s : State) (t : TRef) (f : Thread → Thread) (a b d e : Nat) :
    (s.updThread t f).headerPrio a b d e = s.headerPrio a b d e := by
  unfold State.headerPrio; rw [codeWord_upd]

/-- A thread changed and moved to a header. -/
theorem goHeader_upd {s : State} {c : One} (h : s.thread? c.ref = some (c.tm, c.g, c.t)) (f : Thread → Thread) (pc : Nat)
    (fr : Option Nat) :
    (s.updThread c.ref f).goHeader c.ref pc fr
      = puts c ((f c.t).toHeader pc (s.headerPrio c.g.core c.tm.pasid pc (f c.t).prio) fr) s := by
  unfold State.goHeader
  obtain ⟨tm', g', h1, h2, h3⟩ := thread?_updThread s c.ref f _ _ _ h
  rw [h1]
  have hc : g'.core = c.g.core := by rw [h3]
  have hp : tm'.pasid = c.tm.pasid := by rw [h2]
  simp only [hc, hp, headerPrio_upd, updThread_updThread]
  rw [upd_puts h]
  rfl

/-- A thread changed and moved by a transfer. -/
theorem goTo_goes {s : State} {c : One} (h : s.thread? c.ref = some (c.tm, c.g, c.t)) (pc : Nat) (f : Thread → Thread)
    (hf : ∀ t, (f t).prio = t.prio) :
    c.goTo pc (s.updThread c.ref f) = puts c (arrives s c pc (f c.t)) s := by
  unfold One.goTo
  rw [updThread_updThread, goHeader_upd h]
  congr 1
  unfold arrives Thread.toHeader State.headerPrio
  simp only [Function.comp, hf]
  rfl

/-- What an issue leaves, in other words. -/
theorem Does.congr {i : Instr} {s : State} {c : One} {f g : State → State} (h : Does i s c f) (e : f s = g s) : Does i s c g := by
  obtain ⟨t, h1, h2⟩ := h
  exact ⟨t, h1, e ▸ h2⟩

end Sys2Proof.Claims
end

