-- ==== Sys2Proof/Laws/State.lean ====
section
/-! SUPPORT. What each update of the state leaves as it was: one lemma for each field and update, so that no proof unfolds a
record. -/

namespace Sys2Proof.Machine

/-! ### updTeam changes `teams` alone -/

@[simp] theorem State.updTeam_now (s : State) (g t : Nat) (f : Team → Team) : (s.updTeam g t f).now = s.now := rfl
@[simp] theorem State.updTeam_fatal (s : State) (g t : Nat) (f : Team → Team) : (s.updTeam g t f).fatal = s.fatal := rfl
@[simp] theorem State.updTeam_grants (s : State) (g t : Nat) (f : Team → Team) : (s.updTeam g t f).grants = s.grants := rfl
@[simp] theorem State.updTeam_cur (s : State) (g t : Nat) (f : Team → Team) : (s.updTeam g t f).cur = s.cur := rfl
@[simp] theorem State.updTeam_srcs (s : State) (g t : Nat) (f : Team → Team) : (s.updTeam g t f).srcs = s.srcs := rfl
@[simp] theorem State.updTeam_agenda (s : State) (g t : Nat) (f : Team → Team) : (s.updTeam g t f).agenda = s.agenda := rfl
@[simp] theorem State.updTeam_free (s : State) (g t : Nat) (f : Team → Team) : (s.updTeam g t f).free = s.free := rfl
@[simp] theorem State.updTeam_turn (s : State) (g t : Nat) (f : Team → Team) : (s.updTeam g t f).turn = s.turn := rfl
@[simp] theorem State.updTeam_accNext (s : State) (g t : Nat) (f : Team → Team) : (s.updTeam g t f).accNext = s.accNext := rfl
@[simp] theorem State.updTeam_hbm (s : State) (g t : Nat) (f : Team → Team) : (s.updTeam g t f).hbm = s.hbm := rfl
@[simp] theorem State.updTeam_pool (s : State) (g t : Nat) (f : Team → Team) : (s.updTeam g t f).pool = s.pool := rfl
@[simp] theorem State.updTeam_host (s : State) (g t : Nat) (f : Team → Team) : (s.updTeam g t f).host = s.host := rfl
@[simp] theorem State.updTeam_hmarks (s : State) (g t : Nat) (f : Team → Team) : (s.updTeam g t f).hmarks = s.hmarks := rfl
@[simp] theorem State.updTeam_dies (s : State) (g t : Nat) (f : Team → Team) : (s.updTeam g t f).dies = s.dies := rfl
@[simp] theorem State.updTeam_cores (s : State) (g t : Nat) (f : Team → Team) : (s.updTeam g t f).cores = s.cores := rfl
@[simp] theorem State.updTeam_accs (s : State) (g t : Nat) (f : Team → Team) : (s.updTeam g t f).accs = s.accs := rfl
@[simp] theorem State.updTeam_arrivals (s : State) (g t : Nat) (f : Team → Team) : (s.updTeam g t f).arrivals = s.arrivals := rfl
@[simp] theorem State.updTeam_cp (s : State) (g t : Nat) (f : Team → Team) : (s.updTeam g t f).cp = s.cp := rfl
@[simp] theorem State.updTeam_parts (s : State) (g t : Nat) (f : Team → Team) : (s.updTeam g t f).parts = s.parts := rfl
@[simp] theorem State.updTeam_leases (s : State) (g t : Nat) (f : Team → Team) : (s.updTeam g t f).leases = s.leases := rfl
@[simp] theorem State.updTeam_frames (s : State) (g t : Nat) (f : Team → Team) : (s.updTeam g t f).frames = s.frames := rfl
@[simp] theorem State.updTeam_decays (s : State) (g t : Nat) (f : Team → Team) : (s.updTeam g t f).decays = s.decays := rfl
@[simp] theorem State.updTeam_pageReqs (s : State) (g t : Nat) (f : Team → Team) : (s.updTeam g t f).pageReqs = s.pageReqs := rfl
@[simp] theorem State.updTeam_weirs (s : State) (g t : Nat) (f : Team → Team) : (s.updTeam g t f).weirs = s.weirs := rfl
@[simp] theorem State.updTeam_weirIdle (s : State) (g t : Nat) (f : Team → Team) : (s.updTeam g t f).weirIdle = s.weirIdle := rfl
@[simp] theorem State.updTeam_fab (s : State) (g t : Nat) (f : Team → Team) : (s.updTeam g t f).fab = s.fab := rfl
@[simp] theorem State.updTeam_mg (s : State) (g t : Nat) (f : Team → Team) : (s.updTeam g t f).mg = s.mg := rfl

/-! ### updGroup changes `teams` alone -/

@[simp] theorem State.updGroup_now (s : State) (r : GRef) (f : Group → Group) : (s.updGroup r f).now = s.now := rfl
@[simp] theorem State.updGroup_fatal (s : State) (r : GRef) (f : Group → Group) : (s.updGroup r f).fatal = s.fatal := rfl
@[simp] theorem State.updGroup_grants (s : State) (r : GRef) (f : Group → Group) : (s.updGroup r f).grants = s.grants := rfl
@[simp] theorem State.updGroup_cur (s : State) (r : GRef) (f : Group → Group) : (s.updGroup r f).cur = s.cur := rfl
@[simp] theorem State.updGroup_srcs (s : State) (r : GRef) (f : Group → Group) : (s.updGroup r f).srcs = s.srcs := rfl
@[simp] theorem State.updGroup_agenda (s : State) (r : GRef) (f : Group → Group) : (s.updGroup r f).agenda = s.agenda := rfl
@[simp] theorem State.updGroup_free (s : State) (r : GRef) (f : Group → Group) : (s.updGroup r f).free = s.free := rfl
@[simp] theorem State.updGroup_turn (s : State) (r : GRef) (f : Group → Group) : (s.updGroup r f).turn = s.turn := rfl
@[simp] theorem State.updGroup_accNext (s : State) (r : GRef) (f : Group → Group) : (s.updGroup r f).accNext = s.accNext := rfl
@[simp] theorem State.updGroup_hbm (s : State) (r : GRef) (f : Group → Group) : (s.updGroup r f).hbm = s.hbm := rfl
@[simp] theorem State.updGroup_pool (s : State) (r : GRef) (f : Group → Group) : (s.updGroup r f).pool = s.pool := rfl
@[simp] theorem State.updGroup_host (s : State) (r : GRef) (f : Group → Group) : (s.updGroup r f).host = s.host := rfl
@[simp] theorem State.updGroup_hmarks (s : State) (r : GRef) (f : Group → Group) : (s.updGroup r f).hmarks = s.hmarks := rfl
@[simp] theorem State.updGroup_dies (s : State) (r : GRef) (f : Group → Group) : (s.updGroup r f).dies = s.dies := rfl
@[simp] theorem State.updGroup_cores (s : State) (r : GRef) (f : Group → Group) : (s.updGroup r f).cores = s.cores := rfl
@[simp] theorem State.updGroup_accs (s : State) (r : GRef) (f : Group → Group) : (s.updGroup r f).accs = s.accs := rfl
@[simp] theorem State.updGroup_arrivals (s : State) (r : GRef) (f : Group → Group) : (s.updGroup r f).arrivals = s.arrivals := rfl
@[simp] theorem State.updGroup_cp (s : State) (r : GRef) (f : Group → Group) : (s.updGroup r f).cp = s.cp := rfl
@[simp] theorem State.updGroup_parts (s : State) (r : GRef) (f : Group → Group) : (s.updGroup r f).parts = s.parts := rfl
@[simp] theorem State.updGroup_leases (s : State) (r : GRef) (f : Group → Group) : (s.updGroup r f).leases = s.leases := rfl
@[simp] theorem State.updGroup_frames (s : State) (r : GRef) (f : Group → Group) : (s.updGroup r f).frames = s.frames := rfl
@[simp] theorem State.updGroup_decays (s : State) (r : GRef) (f : Group → Group) : (s.updGroup r f).decays = s.decays := rfl
@[simp] theorem State.updGroup_pageReqs (s : State) (r : GRef) (f : Group → Group) : (s.updGroup r f).pageReqs = s.pageReqs := rfl
@[simp] theorem State.updGroup_weirs (s : State) (r : GRef) (f : Group → Group) : (s.updGroup r f).weirs = s.weirs := rfl
@[simp] theorem State.updGroup_weirIdle (s : State) (r : GRef) (f : Group → Group) : (s.updGroup r f).weirIdle = s.weirIdle := rfl
@[simp] theorem State.updGroup_fab (s : State) (r : GRef) (f : Group → Group) : (s.updGroup r f).fab = s.fab := rfl
@[simp] theorem State.updGroup_mg (s : State) (r : GRef) (f : Group → Group) : (s.updGroup r f).mg = s.mg := rfl

/-! ### updThread changes `teams` alone -/

@[simp] theorem State.updThread_now (s : State) (t : TRef) (f : Thread → Thread) : (s.updThread t f).now = s.now := rfl
@[simp] theorem State.updThread_fatal (s : State) (t : TRef) (f : Thread → Thread) : (s.updThread t f).fatal = s.fatal := rfl
@[simp] theorem State.updThread_grants (s : State) (t : TRef) (f : Thread → Thread) : (s.updThread t f).grants = s.grants := rfl
@[simp] theorem State.updThread_cur (s : State) (t : TRef) (f : Thread → Thread) : (s.updThread t f).cur = s.cur := rfl
@[simp] theorem State.updThread_srcs (s : State) (t : TRef) (f : Thread → Thread) : (s.updThread t f).srcs = s.srcs := rfl
@[simp] theorem State.updThread_agenda (s : State) (t : TRef) (f : Thread → Thread) : (s.updThread t f).agenda = s.agenda := rfl
@[simp] theorem State.updThread_free (s : State) (t : TRef) (f : Thread → Thread) : (s.updThread t f).free = s.free := rfl
@[simp] theorem State.updThread_turn (s : State) (t : TRef) (f : Thread → Thread) : (s.updThread t f).turn = s.turn := rfl
@[simp] theorem State.updThread_accNext (s : State) (t : TRef) (f : Thread → Thread) : (s.updThread t f).accNext = s.accNext := rfl
@[simp] theorem State.updThread_hbm (s : State) (t : TRef) (f : Thread → Thread) : (s.updThread t f).hbm = s.hbm := rfl
@[simp] theorem State.updThread_pool (s : State) (t : TRef) (f : Thread → Thread) : (s.updThread t f).pool = s.pool := rfl
@[simp] theorem State.updThread_host (s : State) (t : TRef) (f : Thread → Thread) : (s.updThread t f).host = s.host := rfl
@[simp] theorem State.updThread_hmarks (s : State) (t : TRef) (f : Thread → Thread) : (s.updThread t f).hmarks = s.hmarks := rfl
@[simp] theorem State.updThread_dies (s : State) (t : TRef) (f : Thread → Thread) : (s.updThread t f).dies = s.dies := rfl
@[simp] theorem State.updThread_cores (s : State) (t : TRef) (f : Thread → Thread) : (s.updThread t f).cores = s.cores := rfl
@[simp] theorem State.updThread_accs (s : State) (t : TRef) (f : Thread → Thread) : (s.updThread t f).accs = s.accs := rfl
@[simp] theorem State.updThread_arrivals (s : State) (t : TRef) (f : Thread → Thread) : (s.updThread t f).arrivals = s.arrivals := rfl
@[simp] theorem State.updThread_cp (s : State) (t : TRef) (f : Thread → Thread) : (s.updThread t f).cp = s.cp := rfl
@[simp] theorem State.updThread_parts (s : State) (t : TRef) (f : Thread → Thread) : (s.updThread t f).parts = s.parts := rfl
@[simp] theorem State.updThread_leases (s : State) (t : TRef) (f : Thread → Thread) : (s.updThread t f).leases = s.leases := rfl
@[simp] theorem State.updThread_frames (s : State) (t : TRef) (f : Thread → Thread) : (s.updThread t f).frames = s.frames := rfl
@[simp] theorem State.updThread_decays (s : State) (t : TRef) (f : Thread → Thread) : (s.updThread t f).decays = s.decays := rfl
@[simp] theorem State.updThread_pageReqs (s : State) (t : TRef) (f : Thread → Thread) : (s.updThread t f).pageReqs = s.pageReqs := rfl
@[simp] theorem State.updThread_weirs (s : State) (t : TRef) (f : Thread → Thread) : (s.updThread t f).weirs = s.weirs := rfl
@[simp] theorem State.updThread_weirIdle (s : State) (t : TRef) (f : Thread → Thread) : (s.updThread t f).weirIdle = s.weirIdle := rfl
@[simp] theorem State.updThread_fab (s : State) (t : TRef) (f : Thread → Thread) : (s.updThread t f).fab = s.fab := rfl
@[simp] theorem State.updThread_mg (s : State) (t : TRef) (f : Thread → Thread) : (s.updThread t f).mg = s.mg := rfl

/-! ### putThreads changes `teams` alone -/

@[simp] theorem State.putThreads_now (s : State) (r : GRef) (l : List (Nat × Thread)) : (s.putThreads r l).now = s.now := rfl
@[simp] theorem State.putThreads_fatal (s : State) (r : GRef) (l : List (Nat × Thread)) : (s.putThreads r l).fatal = s.fatal := rfl
@[simp] theorem State.putThreads_grants (s : State) (r : GRef) (l : List (Nat × Thread)) : (s.putThreads r l).grants = s.grants := rfl
@[simp] theorem State.putThreads_cur (s : State) (r : GRef) (l : List (Nat × Thread)) : (s.putThreads r l).cur = s.cur := rfl
@[simp] theorem State.putThreads_srcs (s : State) (r : GRef) (l : List (Nat × Thread)) : (s.putThreads r l).srcs = s.srcs := rfl
@[simp] theorem State.putThreads_agenda (s : State) (r : GRef) (l : List (Nat × Thread)) : (s.putThreads r l).agenda = s.agenda := rfl
@[simp] theorem State.putThreads_free (s : State) (r : GRef) (l : List (Nat × Thread)) : (s.putThreads r l).free = s.free := rfl
@[simp] theorem State.putThreads_turn (s : State) (r : GRef) (l : List (Nat × Thread)) : (s.putThreads r l).turn = s.turn := rfl
@[simp] theorem State.putThreads_accNext (s : State) (r : GRef) (l : List (Nat × Thread)) : (s.putThreads r l).accNext = s.accNext := rfl
@[simp] theorem State.putThreads_hbm (s : State) (r : GRef) (l : List (Nat × Thread)) : (s.putThreads r l).hbm = s.hbm := rfl
@[simp] theorem State.putThreads_pool (s : State) (r : GRef) (l : List (Nat × Thread)) : (s.putThreads r l).pool = s.pool := rfl
@[simp] theorem State.putThreads_host (s : State) (r : GRef) (l : List (Nat × Thread)) : (s.putThreads r l).host = s.host := rfl
@[simp] theorem State.putThreads_hmarks (s : State) (r : GRef) (l : List (Nat × Thread)) : (s.putThreads r l).hmarks = s.hmarks := rfl
@[simp] theorem State.putThreads_dies (s : State) (r : GRef) (l : List (Nat × Thread)) : (s.putThreads r l).dies = s.dies := rfl
@[simp] theorem State.putThreads_cores (s : State) (r : GRef) (l : List (Nat × Thread)) : (s.putThreads r l).cores = s.cores := rfl
@[simp] theorem State.putThreads_accs (s : State) (r : GRef) (l : List (Nat × Thread)) : (s.putThreads r l).accs = s.accs := rfl
@[simp] theorem State.putThreads_arrivals (s : State) (r : GRef) (l : List (Nat × Thread)) : (s.putThreads r l).arrivals = s.arrivals := rfl
@[simp] theorem State.putThreads_cp (s : State) (r : GRef) (l : List (Nat × Thread)) : (s.putThreads r l).cp = s.cp := rfl
@[simp] theorem State.putThreads_parts (s : State) (r : GRef) (l : List (Nat × Thread)) : (s.putThreads r l).parts = s.parts := rfl
@[simp] theorem State.putThreads_leases (s : State) (r : GRef) (l : List (Nat × Thread)) : (s.putThreads r l).leases = s.leases := rfl
@[simp] theorem State.putThreads_frames (s : State) (r : GRef) (l : List (Nat × Thread)) : (s.putThreads r l).frames = s.frames := rfl
@[simp] theorem State.putThreads_decays (s : State) (r : GRef) (l : List (Nat × Thread)) : (s.putThreads r l).decays = s.decays := rfl
@[simp] theorem State.putThreads_pageReqs (s : State) (r : GRef) (l : List (Nat × Thread)) : (s.putThreads r l).pageReqs = s.pageReqs := rfl
@[simp] theorem State.putThreads_weirs (s : State) (r : GRef) (l : List (Nat × Thread)) : (s.putThreads r l).weirs = s.weirs := rfl
@[simp] theorem State.putThreads_weirIdle (s : State) (r : GRef) (l : List (Nat × Thread)) : (s.putThreads r l).weirIdle = s.weirIdle := rfl
@[simp] theorem State.putThreads_fab (s : State) (r : GRef) (l : List (Nat × Thread)) : (s.putThreads r l).fab = s.fab := rfl
@[simp] theorem State.putThreads_mg (s : State) (r : GRef) (l : List (Nat × Thread)) : (s.putThreads r l).mg = s.mg := rfl

/-! ### settle changes `teams` alone -/

@[simp] theorem State.settle_now (s : State) (r : GRef) : (s.settle r).now = s.now := rfl
@[simp] theorem State.settle_fatal (s : State) (r : GRef) : (s.settle r).fatal = s.fatal := rfl
@[simp] theorem State.settle_grants (s : State) (r : GRef) : (s.settle r).grants = s.grants := rfl
@[simp] theorem State.settle_cur (s : State) (r : GRef) : (s.settle r).cur = s.cur := rfl
@[simp] theorem State.settle_srcs (s : State) (r : GRef) : (s.settle r).srcs = s.srcs := rfl
@[simp] theorem State.settle_agenda (s : State) (r : GRef) : (s.settle r).agenda = s.agenda := rfl
@[simp] theorem State.settle_free (s : State) (r : GRef) : (s.settle r).free = s.free := rfl
@[simp] theorem State.settle_turn (s : State) (r : GRef) : (s.settle r).turn = s.turn := rfl
@[simp] theorem State.settle_accNext (s : State) (r : GRef) : (s.settle r).accNext = s.accNext := rfl
@[simp] theorem State.settle_hbm (s : State) (r : GRef) : (s.settle r).hbm = s.hbm := rfl
@[simp] theorem State.settle_pool (s : State) (r : GRef) : (s.settle r).pool = s.pool := rfl
@[simp] theorem State.settle_host (s : State) (r : GRef) : (s.settle r).host = s.host := rfl
@[simp] theorem State.settle_hmarks (s : State) (r : GRef) : (s.settle r).hmarks = s.hmarks := rfl
@[simp] theorem State.settle_dies (s : State) (r : GRef) : (s.settle r).dies = s.dies := rfl
@[simp] theorem State.settle_cores (s : State) (r : GRef) : (s.settle r).cores = s.cores := rfl
@[simp] theorem State.settle_accs (s : State) (r : GRef) : (s.settle r).accs = s.accs := rfl
@[simp] theorem State.settle_arrivals (s : State) (r : GRef) : (s.settle r).arrivals = s.arrivals := rfl
@[simp] theorem State.settle_cp (s : State) (r : GRef) : (s.settle r).cp = s.cp := rfl
@[simp] theorem State.settle_parts (s : State) (r : GRef) : (s.settle r).parts = s.parts := rfl
@[simp] theorem State.settle_leases (s : State) (r : GRef) : (s.settle r).leases = s.leases := rfl
@[simp] theorem State.settle_frames (s : State) (r : GRef) : (s.settle r).frames = s.frames := rfl
@[simp] theorem State.settle_decays (s : State) (r : GRef) : (s.settle r).decays = s.decays := rfl
@[simp] theorem State.settle_pageReqs (s : State) (r : GRef) : (s.settle r).pageReqs = s.pageReqs := rfl
@[simp] theorem State.settle_weirs (s : State) (r : GRef) : (s.settle r).weirs = s.weirs := rfl
@[simp] theorem State.settle_weirIdle (s : State) (r : GRef) : (s.settle r).weirIdle = s.weirIdle := rfl
@[simp] theorem State.settle_fab (s : State) (r : GRef) : (s.settle r).fab = s.fab := rfl
@[simp] theorem State.settle_mg (s : State) (r : GRef) : (s.settle r).mg = s.mg := rfl

/-! ### finish changes `teams` alone -/

@[simp] theorem State.finish_now (s : State) (g : Group) (b : Option (Nat × Nat)) : (s.finish g b).now = s.now := rfl
@[simp] theorem State.finish_fatal (s : State) (g : Group) (b : Option (Nat × Nat)) : (s.finish g b).fatal = s.fatal := rfl
@[simp] theorem State.finish_grants (s : State) (g : Group) (b : Option (Nat × Nat)) : (s.finish g b).grants = s.grants := rfl
@[simp] theorem State.finish_cur (s : State) (g : Group) (b : Option (Nat × Nat)) : (s.finish g b).cur = s.cur := rfl
@[simp] theorem State.finish_srcs (s : State) (g : Group) (b : Option (Nat × Nat)) : (s.finish g b).srcs = s.srcs := rfl
@[simp] theorem State.finish_agenda (s : State) (g : Group) (b : Option (Nat × Nat)) : (s.finish g b).agenda = s.agenda := rfl
@[simp] theorem State.finish_free (s : State) (g : Group) (b : Option (Nat × Nat)) : (s.finish g b).free = s.free := rfl
@[simp] theorem State.finish_turn (s : State) (g : Group) (b : Option (Nat × Nat)) : (s.finish g b).turn = s.turn := rfl
@[simp] theorem State.finish_accNext (s : State) (g : Group) (b : Option (Nat × Nat)) : (s.finish g b).accNext = s.accNext := rfl
@[simp] theorem State.finish_hbm (s : State) (g : Group) (b : Option (Nat × Nat)) : (s.finish g b).hbm = s.hbm := rfl
@[simp] theorem State.finish_pool (s : State) (g : Group) (b : Option (Nat × Nat)) : (s.finish g b).pool = s.pool := rfl
@[simp] theorem State.finish_host (s : State) (g : Group) (b : Option (Nat × Nat)) : (s.finish g b).host = s.host := rfl
@[simp] theorem State.finish_hmarks (s : State) (g : Group) (b : Option (Nat × Nat)) : (s.finish g b).hmarks = s.hmarks := rfl
@[simp] theorem State.finish_dies (s : State) (g : Group) (b : Option (Nat × Nat)) : (s.finish g b).dies = s.dies := rfl
@[simp] theorem State.finish_cores (s : State) (g : Group) (b : Option (Nat × Nat)) : (s.finish g b).cores = s.cores := rfl
@[simp] theorem State.finish_accs (s : State) (g : Group) (b : Option (Nat × Nat)) : (s.finish g b).accs = s.accs := rfl
@[simp] theorem State.finish_arrivals (s : State) (g : Group) (b : Option (Nat × Nat)) : (s.finish g b).arrivals = s.arrivals := rfl
@[simp] theorem State.finish_cp (s : State) (g : Group) (b : Option (Nat × Nat)) : (s.finish g b).cp = s.cp := rfl
@[simp] theorem State.finish_parts (s : State) (g : Group) (b : Option (Nat × Nat)) : (s.finish g b).parts = s.parts := rfl
@[simp] theorem State.finish_leases (s : State) (g : Group) (b : Option (Nat × Nat)) : (s.finish g b).leases = s.leases := rfl
@[simp] theorem State.finish_frames (s : State) (g : Group) (b : Option (Nat × Nat)) : (s.finish g b).frames = s.frames := rfl
@[simp] theorem State.finish_decays (s : State) (g : Group) (b : Option (Nat × Nat)) : (s.finish g b).decays = s.decays := rfl
@[simp] theorem State.finish_pageReqs (s : State) (g : Group) (b : Option (Nat × Nat)) : (s.finish g b).pageReqs = s.pageReqs := rfl
@[simp] theorem State.finish_weirs (s : State) (g : Group) (b : Option (Nat × Nat)) : (s.finish g b).weirs = s.weirs := rfl
@[simp] theorem State.finish_weirIdle (s : State) (g : Group) (b : Option (Nat × Nat)) : (s.finish g b).weirIdle = s.weirIdle := rfl
@[simp] theorem State.finish_fab (s : State) (g : Group) (b : Option (Nat × Nat)) : (s.finish g b).fab = s.fab := rfl
@[simp] theorem State.finish_mg (s : State) (g : Group) (b : Option (Nat × Nat)) : (s.finish g b).mg = s.mg := rfl

/-! ### updTile changes `teams` alone -/

@[simp] theorem State.updTile_now (s : State) (g t mc n : Nat) (f : Tile → Tile) : (s.updTile g t mc n f).now = s.now := rfl
@[simp] theorem State.updTile_fatal (s : State) (g t mc n : Nat) (f : Tile → Tile) : (s.updTile g t mc n f).fatal = s.fatal := rfl
@[simp] theorem State.updTile_grants (s : State) (g t mc n : Nat) (f : Tile → Tile) : (s.updTile g t mc n f).grants = s.grants := rfl
@[simp] theorem State.updTile_cur (s : State) (g t mc n : Nat) (f : Tile → Tile) : (s.updTile g t mc n f).cur = s.cur := rfl
@[simp] theorem State.updTile_srcs (s : State) (g t mc n : Nat) (f : Tile → Tile) : (s.updTile g t mc n f).srcs = s.srcs := rfl
@[simp] theorem State.updTile_agenda (s : State) (g t mc n : Nat) (f : Tile → Tile) : (s.updTile g t mc n f).agenda = s.agenda := rfl
@[simp] theorem State.updTile_free (s : State) (g t mc n : Nat) (f : Tile → Tile) : (s.updTile g t mc n f).free = s.free := rfl
@[simp] theorem State.updTile_turn (s : State) (g t mc n : Nat) (f : Tile → Tile) : (s.updTile g t mc n f).turn = s.turn := rfl
@[simp] theorem State.updTile_accNext (s : State) (g t mc n : Nat) (f : Tile → Tile) : (s.updTile g t mc n f).accNext = s.accNext := rfl
@[simp] theorem State.updTile_hbm (s : State) (g t mc n : Nat) (f : Tile → Tile) : (s.updTile g t mc n f).hbm = s.hbm := rfl
@[simp] theorem State.updTile_pool (s : State) (g t mc n : Nat) (f : Tile → Tile) : (s.updTile g t mc n f).pool = s.pool := rfl
@[simp] theorem State.updTile_host (s : State) (g t mc n : Nat) (f : Tile → Tile) : (s.updTile g t mc n f).host = s.host := rfl
@[simp] theorem State.updTile_hmarks (s : State) (g t mc n : Nat) (f : Tile → Tile) : (s.updTile g t mc n f).hmarks = s.hmarks := rfl
@[simp] theorem State.updTile_dies (s : State) (g t mc n : Nat) (f : Tile → Tile) : (s.updTile g t mc n f).dies = s.dies := rfl
@[simp] theorem State.updTile_cores (s : State) (g t mc n : Nat) (f : Tile → Tile) : (s.updTile g t mc n f).cores = s.cores := rfl
@[simp] theorem State.updTile_accs (s : State) (g t mc n : Nat) (f : Tile → Tile) : (s.updTile g t mc n f).accs = s.accs := rfl
@[simp] theorem State.updTile_arrivals (s : State) (g t mc n : Nat) (f : Tile → Tile) : (s.updTile g t mc n f).arrivals = s.arrivals := rfl
@[simp] theorem State.updTile_cp (s : State) (g t mc n : Nat) (f : Tile → Tile) : (s.updTile g t mc n f).cp = s.cp := rfl
@[simp] theorem State.updTile_parts (s : State) (g t mc n : Nat) (f : Tile → Tile) : (s.updTile g t mc n f).parts = s.parts := rfl
@[simp] theorem State.updTile_leases (s : State) (g t mc n : Nat) (f : Tile → Tile) : (s.updTile g t mc n f).leases = s.leases := rfl
@[simp] theorem State.updTile_frames (s : State) (g t mc n : Nat) (f : Tile → Tile) : (s.updTile g t mc n f).frames = s.frames := rfl
@[simp] theorem State.updTile_decays (s : State) (g t mc n : Nat) (f : Tile → Tile) : (s.updTile g t mc n f).decays = s.decays := rfl
@[simp] theorem State.updTile_pageReqs (s : State) (g t mc n : Nat) (f : Tile → Tile) : (s.updTile g t mc n f).pageReqs = s.pageReqs := rfl
@[simp] theorem State.updTile_weirs (s : State) (g t mc n : Nat) (f : Tile → Tile) : (s.updTile g t mc n f).weirs = s.weirs := rfl
@[simp] theorem State.updTile_weirIdle (s : State) (g t mc n : Nat) (f : Tile → Tile) : (s.updTile g t mc n f).weirIdle = s.weirIdle := rfl
@[simp] theorem State.updTile_fab (s : State) (g t mc n : Nat) (f : Tile → Tile) : (s.updTile g t mc n f).fab = s.fab := rfl
@[simp] theorem State.updTile_mg (s : State) (g t mc n : Nat) (f : Tile → Tile) : (s.updTile g t mc n f).mg = s.mg := rfl

/-! ### wakeRegs changes `teams` alone -/

@[simp] theorem State.wakeRegs_now (s : State) (r : GRef) : (s.wakeRegs r).now = s.now := rfl
@[simp] theorem State.wakeRegs_fatal (s : State) (r : GRef) : (s.wakeRegs r).fatal = s.fatal := rfl
@[simp] theorem State.wakeRegs_grants (s : State) (r : GRef) : (s.wakeRegs r).grants = s.grants := rfl
@[simp] theorem State.wakeRegs_cur (s : State) (r : GRef) : (s.wakeRegs r).cur = s.cur := rfl
@[simp] theorem State.wakeRegs_srcs (s : State) (r : GRef) : (s.wakeRegs r).srcs = s.srcs := rfl
@[simp] theorem State.wakeRegs_agenda (s : State) (r : GRef) : (s.wakeRegs r).agenda = s.agenda := rfl
@[simp] theorem State.wakeRegs_free (s : State) (r : GRef) : (s.wakeRegs r).free = s.free := rfl
@[simp] theorem State.wakeRegs_turn (s : State) (r : GRef) : (s.wakeRegs r).turn = s.turn := rfl
@[simp] theorem State.wakeRegs_accNext (s : State) (r : GRef) : (s.wakeRegs r).accNext = s.accNext := rfl
@[simp] theorem State.wakeRegs_hbm (s : State) (r : GRef) : (s.wakeRegs r).hbm = s.hbm := rfl
@[simp] theorem State.wakeRegs_pool (s : State) (r : GRef) : (s.wakeRegs r).pool = s.pool := rfl
@[simp] theorem State.wakeRegs_host (s : State) (r : GRef) : (s.wakeRegs r).host = s.host := rfl
@[simp] theorem State.wakeRegs_hmarks (s : State) (r : GRef) : (s.wakeRegs r).hmarks = s.hmarks := rfl
@[simp] theorem State.wakeRegs_dies (s : State) (r : GRef) : (s.wakeRegs r).dies = s.dies := rfl
@[simp] theorem State.wakeRegs_cores (s : State) (r : GRef) : (s.wakeRegs r).cores = s.cores := rfl
@[simp] theorem State.wakeRegs_accs (s : State) (r : GRef) : (s.wakeRegs r).accs = s.accs := rfl
@[simp] theorem State.wakeRegs_arrivals (s : State) (r : GRef) : (s.wakeRegs r).arrivals = s.arrivals := rfl
@[simp] theorem State.wakeRegs_cp (s : State) (r : GRef) : (s.wakeRegs r).cp = s.cp := rfl
@[simp] theorem State.wakeRegs_parts (s : State) (r : GRef) : (s.wakeRegs r).parts = s.parts := rfl
@[simp] theorem State.wakeRegs_leases (s : State) (r : GRef) : (s.wakeRegs r).leases = s.leases := rfl
@[simp] theorem State.wakeRegs_frames (s : State) (r : GRef) : (s.wakeRegs r).frames = s.frames := rfl
@[simp] theorem State.wakeRegs_decays (s : State) (r : GRef) : (s.wakeRegs r).decays = s.decays := rfl
@[simp] theorem State.wakeRegs_pageReqs (s : State) (r : GRef) : (s.wakeRegs r).pageReqs = s.pageReqs := rfl
@[simp] theorem State.wakeRegs_weirs (s : State) (r : GRef) : (s.wakeRegs r).weirs = s.weirs := rfl
@[simp] theorem State.wakeRegs_weirIdle (s : State) (r : GRef) : (s.wakeRegs r).weirIdle = s.weirIdle := rfl
@[simp] theorem State.wakeRegs_fab (s : State) (r : GRef) : (s.wakeRegs r).fab = s.fab := rfl
@[simp] theorem State.wakeRegs_mg (s : State) (r : GRef) : (s.wakeRegs r).mg = s.mg := rfl

/-! ### updCore changes `cores` alone -/

@[simp] theorem State.updCore_now (s : State) (c : Nat) (f : Core → Core) : (s.updCore c f).now = s.now := rfl
@[simp] theorem State.updCore_fatal (s : State) (c : Nat) (f : Core → Core) : (s.updCore c f).fatal = s.fatal := rfl
@[simp] theorem State.updCore_grants (s : State) (c : Nat) (f : Core → Core) : (s.updCore c f).grants = s.grants := rfl
@[simp] theorem State.updCore_cur (s : State) (c : Nat) (f : Core → Core) : (s.updCore c f).cur = s.cur := rfl
@[simp] theorem State.updCore_srcs (s : State) (c : Nat) (f : Core → Core) : (s.updCore c f).srcs = s.srcs := rfl
@[simp] theorem State.updCore_agenda (s : State) (c : Nat) (f : Core → Core) : (s.updCore c f).agenda = s.agenda := rfl
@[simp] theorem State.updCore_free (s : State) (c : Nat) (f : Core → Core) : (s.updCore c f).free = s.free := rfl
@[simp] theorem State.updCore_turn (s : State) (c : Nat) (f : Core → Core) : (s.updCore c f).turn = s.turn := rfl
@[simp] theorem State.updCore_accNext (s : State) (c : Nat) (f : Core → Core) : (s.updCore c f).accNext = s.accNext := rfl
@[simp] theorem State.updCore_hbm (s : State) (c : Nat) (f : Core → Core) : (s.updCore c f).hbm = s.hbm := rfl
@[simp] theorem State.updCore_pool (s : State) (c : Nat) (f : Core → Core) : (s.updCore c f).pool = s.pool := rfl
@[simp] theorem State.updCore_host (s : State) (c : Nat) (f : Core → Core) : (s.updCore c f).host = s.host := rfl
@[simp] theorem State.updCore_hmarks (s : State) (c : Nat) (f : Core → Core) : (s.updCore c f).hmarks = s.hmarks := rfl
@[simp] theorem State.updCore_dies (s : State) (c : Nat) (f : Core → Core) : (s.updCore c f).dies = s.dies := rfl
@[simp] theorem State.updCore_teams (s : State) (c : Nat) (f : Core → Core) : (s.updCore c f).teams = s.teams := rfl
@[simp] theorem State.updCore_accs (s : State) (c : Nat) (f : Core → Core) : (s.updCore c f).accs = s.accs := rfl
@[simp] theorem State.updCore_arrivals (s : State) (c : Nat) (f : Core → Core) : (s.updCore c f).arrivals = s.arrivals := rfl
@[simp] theorem State.updCore_cp (s : State) (c : Nat) (f : Core → Core) : (s.updCore c f).cp = s.cp := rfl
@[simp] theorem State.updCore_parts (s : State) (c : Nat) (f : Core → Core) : (s.updCore c f).parts = s.parts := rfl
@[simp] theorem State.updCore_leases (s : State) (c : Nat) (f : Core → Core) : (s.updCore c f).leases = s.leases := rfl
@[simp] theorem State.updCore_frames (s : State) (c : Nat) (f : Core → Core) : (s.updCore c f).frames = s.frames := rfl
@[simp] theorem State.updCore_decays (s : State) (c : Nat) (f : Core → Core) : (s.updCore c f).decays = s.decays := rfl
@[simp] theorem State.updCore_pageReqs (s : State) (c : Nat) (f : Core → Core) : (s.updCore c f).pageReqs = s.pageReqs := rfl
@[simp] theorem State.updCore_weirs (s : State) (c : Nat) (f : Core → Core) : (s.updCore c f).weirs = s.weirs := rfl
@[simp] theorem State.updCore_weirIdle (s : State) (c : Nat) (f : Core → Core) : (s.updCore c f).weirIdle = s.weirIdle := rfl
@[simp] theorem State.updCore_fab (s : State) (c : Nat) (f : Core → Core) : (s.updCore c f).fab = s.fab := rfl
@[simp] theorem State.updCore_mg (s : State) (c : Nat) (f : Core → Core) : (s.updCore c f).mg = s.mg := rfl

/-! ### updDie changes `dies` alone -/

@[simp] theorem State.updDie_now (s : State) (d : Nat) (f : Die → Die) : (s.updDie d f).now = s.now := rfl
@[simp] theorem State.updDie_fatal (s : State) (d : Nat) (f : Die → Die) : (s.updDie d f).fatal = s.fatal := rfl
@[simp] theorem State.updDie_grants (s : State) (d : Nat) (f : Die → Die) : (s.updDie d f).grants = s.grants := rfl
@[simp] theorem State.updDie_cur (s : State) (d : Nat) (f : Die → Die) : (s.updDie d f).cur = s.cur := rfl
@[simp] theorem State.updDie_srcs (s : State) (d : Nat) (f : Die → Die) : (s.updDie d f).srcs = s.srcs := rfl
@[simp] theorem State.updDie_agenda (s : State) (d : Nat) (f : Die → Die) : (s.updDie d f).agenda = s.agenda := rfl
@[simp] theorem State.updDie_free (s : State) (d : Nat) (f : Die → Die) : (s.updDie d f).free = s.free := rfl
@[simp] theorem State.updDie_turn (s : State) (d : Nat) (f : Die → Die) : (s.updDie d f).turn = s.turn := rfl
@[simp] theorem State.updDie_accNext (s : State) (d : Nat) (f : Die → Die) : (s.updDie d f).accNext = s.accNext := rfl
@[simp] theorem State.updDie_hbm (s : State) (d : Nat) (f : Die → Die) : (s.updDie d f).hbm = s.hbm := rfl
@[simp] theorem State.updDie_pool (s : State) (d : Nat) (f : Die → Die) : (s.updDie d f).pool = s.pool := rfl
@[simp] theorem State.updDie_host (s : State) (d : Nat) (f : Die → Die) : (s.updDie d f).host = s.host := rfl
@[simp] theorem State.updDie_hmarks (s : State) (d : Nat) (f : Die → Die) : (s.updDie d f).hmarks = s.hmarks := rfl
@[simp] theorem State.updDie_cores (s : State) (d : Nat) (f : Die → Die) : (s.updDie d f).cores = s.cores := rfl
@[simp] theorem State.updDie_teams (s : State) (d : Nat) (f : Die → Die) : (s.updDie d f).teams = s.teams := rfl
@[simp] theorem State.updDie_accs (s : State) (d : Nat) (f : Die → Die) : (s.updDie d f).accs = s.accs := rfl
@[simp] theorem State.updDie_arrivals (s : State) (d : Nat) (f : Die → Die) : (s.updDie d f).arrivals = s.arrivals := rfl
@[simp] theorem State.updDie_cp (s : State) (d : Nat) (f : Die → Die) : (s.updDie d f).cp = s.cp := rfl
@[simp] theorem State.updDie_parts (s : State) (d : Nat) (f : Die → Die) : (s.updDie d f).parts = s.parts := rfl
@[simp] theorem State.updDie_leases (s : State) (d : Nat) (f : Die → Die) : (s.updDie d f).leases = s.leases := rfl
@[simp] theorem State.updDie_frames (s : State) (d : Nat) (f : Die → Die) : (s.updDie d f).frames = s.frames := rfl
@[simp] theorem State.updDie_decays (s : State) (d : Nat) (f : Die → Die) : (s.updDie d f).decays = s.decays := rfl
@[simp] theorem State.updDie_pageReqs (s : State) (d : Nat) (f : Die → Die) : (s.updDie d f).pageReqs = s.pageReqs := rfl
@[simp] theorem State.updDie_weirs (s : State) (d : Nat) (f : Die → Die) : (s.updDie d f).weirs = s.weirs := rfl
@[simp] theorem State.updDie_weirIdle (s : State) (d : Nat) (f : Die → Die) : (s.updDie d f).weirIdle = s.weirIdle := rfl
@[simp] theorem State.updDie_fab (s : State) (d : Nat) (f : Die → Die) : (s.updDie d f).fab = s.fab := rfl
@[simp] theorem State.updDie_mg (s : State) (d : Nat) (f : Die → Die) : (s.updDie d f).mg = s.mg := rfl

/-! ### setAcc changes `accs` alone -/

@[simp] theorem State.setAcc_now (s : State) (a : Acc) : (s.setAcc a).now = s.now := rfl
@[simp] theorem State.setAcc_fatal (s : State) (a : Acc) : (s.setAcc a).fatal = s.fatal := rfl
@[simp] theorem State.setAcc_grants (s : State) (a : Acc) : (s.setAcc a).grants = s.grants := rfl
@[simp] theorem State.setAcc_cur (s : State) (a : Acc) : (s.setAcc a).cur = s.cur := rfl
@[simp] theorem State.setAcc_srcs (s : State) (a : Acc) : (s.setAcc a).srcs = s.srcs := rfl
@[simp] theorem State.setAcc_agenda (s : State) (a : Acc) : (s.setAcc a).agenda = s.agenda := rfl
@[simp] theorem State.setAcc_free (s : State) (a : Acc) : (s.setAcc a).free = s.free := rfl
@[simp] theorem State.setAcc_turn (s : State) (a : Acc) : (s.setAcc a).turn = s.turn := rfl
@[simp] theorem State.setAcc_accNext (s : State) (a : Acc) : (s.setAcc a).accNext = s.accNext := rfl
@[simp] theorem State.setAcc_hbm (s : State) (a : Acc) : (s.setAcc a).hbm = s.hbm := rfl
@[simp] theorem State.setAcc_pool (s : State) (a : Acc) : (s.setAcc a).pool = s.pool := rfl
@[simp] theorem State.setAcc_host (s : State) (a : Acc) : (s.setAcc a).host = s.host := rfl
@[simp] theorem State.setAcc_hmarks (s : State) (a : Acc) : (s.setAcc a).hmarks = s.hmarks := rfl
@[simp] theorem State.setAcc_dies (s : State) (a : Acc) : (s.setAcc a).dies = s.dies := rfl
@[simp] theorem State.setAcc_cores (s : State) (a : Acc) : (s.setAcc a).cores = s.cores := rfl
@[simp] theorem State.setAcc_teams (s : State) (a : Acc) : (s.setAcc a).teams = s.teams := rfl
@[simp] theorem State.setAcc_arrivals (s : State) (a : Acc) : (s.setAcc a).arrivals = s.arrivals := rfl
@[simp] theorem State.setAcc_cp (s : State) (a : Acc) : (s.setAcc a).cp = s.cp := rfl
@[simp] theorem State.setAcc_parts (s : State) (a : Acc) : (s.setAcc a).parts = s.parts := rfl
@[simp] theorem State.setAcc_leases (s : State) (a : Acc) : (s.setAcc a).leases = s.leases := rfl
@[simp] theorem State.setAcc_frames (s : State) (a : Acc) : (s.setAcc a).frames = s.frames := rfl
@[simp] theorem State.setAcc_decays (s : State) (a : Acc) : (s.setAcc a).decays = s.decays := rfl
@[simp] theorem State.setAcc_pageReqs (s : State) (a : Acc) : (s.setAcc a).pageReqs = s.pageReqs := rfl
@[simp] theorem State.setAcc_weirs (s : State) (a : Acc) : (s.setAcc a).weirs = s.weirs := rfl
@[simp] theorem State.setAcc_weirIdle (s : State) (a : Acc) : (s.setAcc a).weirIdle = s.weirIdle := rfl
@[simp] theorem State.setAcc_fab (s : State) (a : Acc) : (s.setAcc a).fab = s.fab := rfl
@[simp] theorem State.setAcc_mg (s : State) (a : Acc) : (s.setAcc a).mg = s.mg := rfl

/-! ### updGrid changes `cp` alone -/

@[simp] theorem State.updGrid_now (s : State) (g : Nat) (f : Grid → Grid) : (s.updGrid g f).now = s.now := rfl
@[simp] theorem State.updGrid_fatal (s : State) (g : Nat) (f : Grid → Grid) : (s.updGrid g f).fatal = s.fatal := rfl
@[simp] theorem State.updGrid_grants (s : State) (g : Nat) (f : Grid → Grid) : (s.updGrid g f).grants = s.grants := rfl
@[simp] theorem State.updGrid_cur (s : State) (g : Nat) (f : Grid → Grid) : (s.updGrid g f).cur = s.cur := rfl
@[simp] theorem State.updGrid_srcs (s : State) (g : Nat) (f : Grid → Grid) : (s.updGrid g f).srcs = s.srcs := rfl
@[simp] theorem State.updGrid_agenda (s : State) (g : Nat) (f : Grid → Grid) : (s.updGrid g f).agenda = s.agenda := rfl
@[simp] theorem State.updGrid_free (s : State) (g : Nat) (f : Grid → Grid) : (s.updGrid g f).free = s.free := rfl
@[simp] theorem State.updGrid_turn (s : State) (g : Nat) (f : Grid → Grid) : (s.updGrid g f).turn = s.turn := rfl
@[simp] theorem State.updGrid_accNext (s : State) (g : Nat) (f : Grid → Grid) : (s.updGrid g f).accNext = s.accNext := rfl
@[simp] theorem State.updGrid_hbm (s : State) (g : Nat) (f : Grid → Grid) : (s.updGrid g f).hbm = s.hbm := rfl
@[simp] theorem State.updGrid_pool (s : State) (g : Nat) (f : Grid → Grid) : (s.updGrid g f).pool = s.pool := rfl
@[simp] theorem State.updGrid_host (s : State) (g : Nat) (f : Grid → Grid) : (s.updGrid g f).host = s.host := rfl
@[simp] theorem State.updGrid_hmarks (s : State) (g : Nat) (f : Grid → Grid) : (s.updGrid g f).hmarks = s.hmarks := rfl
@[simp] theorem State.updGrid_dies (s : State) (g : Nat) (f : Grid → Grid) : (s.updGrid g f).dies = s.dies := rfl
@[simp] theorem State.updGrid_cores (s : State) (g : Nat) (f : Grid → Grid) : (s.updGrid g f).cores = s.cores := rfl
@[simp] theorem State.updGrid_teams (s : State) (g : Nat) (f : Grid → Grid) : (s.updGrid g f).teams = s.teams := rfl
@[simp] theorem State.updGrid_accs (s : State) (g : Nat) (f : Grid → Grid) : (s.updGrid g f).accs = s.accs := rfl
@[simp] theorem State.updGrid_arrivals (s : State) (g : Nat) (f : Grid → Grid) : (s.updGrid g f).arrivals = s.arrivals := rfl
@[simp] theorem State.updGrid_parts (s : State) (g : Nat) (f : Grid → Grid) : (s.updGrid g f).parts = s.parts := rfl
@[simp] theorem State.updGrid_leases (s : State) (g : Nat) (f : Grid → Grid) : (s.updGrid g f).leases = s.leases := rfl
@[simp] theorem State.updGrid_frames (s : State) (g : Nat) (f : Grid → Grid) : (s.updGrid g f).frames = s.frames := rfl
@[simp] theorem State.updGrid_decays (s : State) (g : Nat) (f : Grid → Grid) : (s.updGrid g f).decays = s.decays := rfl
@[simp] theorem State.updGrid_pageReqs (s : State) (g : Nat) (f : Grid → Grid) : (s.updGrid g f).pageReqs = s.pageReqs := rfl
@[simp] theorem State.updGrid_weirs (s : State) (g : Nat) (f : Grid → Grid) : (s.updGrid g f).weirs = s.weirs := rfl
@[simp] theorem State.updGrid_weirIdle (s : State) (g : Nat) (f : Grid → Grid) : (s.updGrid g f).weirIdle = s.weirIdle := rfl
@[simp] theorem State.updGrid_fab (s : State) (g : Nat) (f : Grid → Grid) : (s.updGrid g f).fab = s.fab := rfl
@[simp] theorem State.updGrid_mg (s : State) (g : Nat) (f : Grid → Grid) : (s.updGrid g f).mg = s.mg := rfl

/-! ### updQueue changes `cp` alone -/

@[simp] theorem State.updQueue_now (s : State) (q : Nat) (f : Queue → Queue) : (s.updQueue q f).now = s.now := rfl
@[simp] theorem State.updQueue_fatal (s : State) (q : Nat) (f : Queue → Queue) : (s.updQueue q f).fatal = s.fatal := rfl
@[simp] theorem State.updQueue_grants (s : State) (q : Nat) (f : Queue → Queue) : (s.updQueue q f).grants = s.grants := rfl
@[simp] theorem State.updQueue_cur (s : State) (q : Nat) (f : Queue → Queue) : (s.updQueue q f).cur = s.cur := rfl
@[simp] theorem State.updQueue_srcs (s : State) (q : Nat) (f : Queue → Queue) : (s.updQueue q f).srcs = s.srcs := rfl
@[simp] theorem State.updQueue_agenda (s : State) (q : Nat) (f : Queue → Queue) : (s.updQueue q f).agenda = s.agenda := rfl
@[simp] theorem State.updQueue_free (s : State) (q : Nat) (f : Queue → Queue) : (s.updQueue q f).free = s.free := rfl
@[simp] theorem State.updQueue_turn (s : State) (q : Nat) (f : Queue → Queue) : (s.updQueue q f).turn = s.turn := rfl
@[simp] theorem State.updQueue_accNext (s : State) (q : Nat) (f : Queue → Queue) : (s.updQueue q f).accNext = s.accNext := rfl
@[simp] theorem State.updQueue_hbm (s : State) (q : Nat) (f : Queue → Queue) : (s.updQueue q f).hbm = s.hbm := rfl
@[simp] theorem State.updQueue_pool (s : State) (q : Nat) (f : Queue → Queue) : (s.updQueue q f).pool = s.pool := rfl
@[simp] theorem State.updQueue_host (s : State) (q : Nat) (f : Queue → Queue) : (s.updQueue q f).host = s.host := rfl
@[simp] theorem State.updQueue_hmarks (s : State) (q : Nat) (f : Queue → Queue) : (s.updQueue q f).hmarks = s.hmarks := rfl
@[simp] theorem State.updQueue_dies (s : State) (q : Nat) (f : Queue → Queue) : (s.updQueue q f).dies = s.dies := rfl
@[simp] theorem State.updQueue_cores (s : State) (q : Nat) (f : Queue → Queue) : (s.updQueue q f).cores = s.cores := rfl
@[simp] theorem State.updQueue_teams (s : State) (q : Nat) (f : Queue → Queue) : (s.updQueue q f).teams = s.teams := rfl
@[simp] theorem State.updQueue_accs (s : State) (q : Nat) (f : Queue → Queue) : (s.updQueue q f).accs = s.accs := rfl
@[simp] theorem State.updQueue_arrivals (s : State) (q : Nat) (f : Queue → Queue) : (s.updQueue q f).arrivals = s.arrivals := rfl
@[simp] theorem State.updQueue_parts (s : State) (q : Nat) (f : Queue → Queue) : (s.updQueue q f).parts = s.parts := rfl
@[simp] theorem State.updQueue_leases (s : State) (q : Nat) (f : Queue → Queue) : (s.updQueue q f).leases = s.leases := rfl
@[simp] theorem State.updQueue_frames (s : State) (q : Nat) (f : Queue → Queue) : (s.updQueue q f).frames = s.frames := rfl
@[simp] theorem State.updQueue_decays (s : State) (q : Nat) (f : Queue → Queue) : (s.updQueue q f).decays = s.decays := rfl
@[simp] theorem State.updQueue_pageReqs (s : State) (q : Nat) (f : Queue → Queue) : (s.updQueue q f).pageReqs = s.pageReqs := rfl
@[simp] theorem State.updQueue_weirs (s : State) (q : Nat) (f : Queue → Queue) : (s.updQueue q f).weirs = s.weirs := rfl
@[simp] theorem State.updQueue_weirIdle (s : State) (q : Nat) (f : Queue → Queue) : (s.updQueue q f).weirIdle = s.weirIdle := rfl
@[simp] theorem State.updQueue_fab (s : State) (q : Nat) (f : Queue → Queue) : (s.updQueue q f).fab = s.fab := rfl
@[simp] theorem State.updQueue_mg (s : State) (q : Nat) (f : Queue → Queue) : (s.updQueue q f).mg = s.mg := rfl

/-! ### updPart changes `parts` alone -/

@[simp] theorem State.updPart_now (s : State) (p : Nat) (f : Part → Part) : (s.updPart p f).now = s.now := rfl
@[simp] theorem State.updPart_fatal (s : State) (p : Nat) (f : Part → Part) : (s.updPart p f).fatal = s.fatal := rfl
@[simp] theorem State.updPart_grants (s : State) (p : Nat) (f : Part → Part) : (s.updPart p f).grants = s.grants := rfl
@[simp] theorem State.updPart_cur (s : State) (p : Nat) (f : Part → Part) : (s.updPart p f).cur = s.cur := rfl
@[simp] theorem State.updPart_srcs (s : State) (p : Nat) (f : Part → Part) : (s.updPart p f).srcs = s.srcs := rfl
@[simp] theorem State.updPart_agenda (s : State) (p : Nat) (f : Part → Part) : (s.updPart p f).agenda = s.agenda := rfl
@[simp] theorem State.updPart_free (s : State) (p : Nat) (f : Part → Part) : (s.updPart p f).free = s.free := rfl
@[simp] theorem State.updPart_turn (s : State) (p : Nat) (f : Part → Part) : (s.updPart p f).turn = s.turn := rfl
@[simp] theorem State.updPart_accNext (s : State) (p : Nat) (f : Part → Part) : (s.updPart p f).accNext = s.accNext := rfl
@[simp] theorem State.updPart_hbm (s : State) (p : Nat) (f : Part → Part) : (s.updPart p f).hbm = s.hbm := rfl
@[simp] theorem State.updPart_pool (s : State) (p : Nat) (f : Part → Part) : (s.updPart p f).pool = s.pool := rfl
@[simp] theorem State.updPart_host (s : State) (p : Nat) (f : Part → Part) : (s.updPart p f).host = s.host := rfl
@[simp] theorem State.updPart_hmarks (s : State) (p : Nat) (f : Part → Part) : (s.updPart p f).hmarks = s.hmarks := rfl
@[simp] theorem State.updPart_dies (s : State) (p : Nat) (f : Part → Part) : (s.updPart p f).dies = s.dies := rfl
@[simp] theorem State.updPart_cores (s : State) (p : Nat) (f : Part → Part) : (s.updPart p f).cores = s.cores := rfl
@[simp] theorem State.updPart_teams (s : State) (p : Nat) (f : Part → Part) : (s.updPart p f).teams = s.teams := rfl
@[simp] theorem State.updPart_accs (s : State) (p : Nat) (f : Part → Part) : (s.updPart p f).accs = s.accs := rfl
@[simp] theorem State.updPart_arrivals (s : State) (p : Nat) (f : Part → Part) : (s.updPart p f).arrivals = s.arrivals := rfl
@[simp] theorem State.updPart_cp (s : State) (p : Nat) (f : Part → Part) : (s.updPart p f).cp = s.cp := rfl
@[simp] theorem State.updPart_leases (s : State) (p : Nat) (f : Part → Part) : (s.updPart p f).leases = s.leases := rfl
@[simp] theorem State.updPart_frames (s : State) (p : Nat) (f : Part → Part) : (s.updPart p f).frames = s.frames := rfl
@[simp] theorem State.updPart_decays (s : State) (p : Nat) (f : Part → Part) : (s.updPart p f).decays = s.decays := rfl
@[simp] theorem State.updPart_pageReqs (s : State) (p : Nat) (f : Part → Part) : (s.updPart p f).pageReqs = s.pageReqs := rfl
@[simp] theorem State.updPart_weirs (s : State) (p : Nat) (f : Part → Part) : (s.updPart p f).weirs = s.weirs := rfl
@[simp] theorem State.updPart_weirIdle (s : State) (p : Nat) (f : Part → Part) : (s.updPart p f).weirIdle = s.weirIdle := rfl
@[simp] theorem State.updPart_fab (s : State) (p : Nat) (f : Part → Part) : (s.updPart p f).fab = s.fab := rfl
@[simp] theorem State.updPart_mg (s : State) (p : Nat) (f : Part → Part) : (s.updPart p f).mg = s.mg := rfl

/-! ### setFrameSt changes `frames` alone -/

@[simp] theorem State.setFrameSt_now (s : State) (f : Nat) (st : FrameSt) : (s.setFrameSt f st).now = s.now := rfl
@[simp] theorem State.setFrameSt_fatal (s : State) (f : Nat) (st : FrameSt) : (s.setFrameSt f st).fatal = s.fatal := rfl
@[simp] theorem State.setFrameSt_grants (s : State) (f : Nat) (st : FrameSt) : (s.setFrameSt f st).grants = s.grants := rfl
@[simp] theorem State.setFrameSt_cur (s : State) (f : Nat) (st : FrameSt) : (s.setFrameSt f st).cur = s.cur := rfl
@[simp] theorem State.setFrameSt_srcs (s : State) (f : Nat) (st : FrameSt) : (s.setFrameSt f st).srcs = s.srcs := rfl
@[simp] theorem State.setFrameSt_agenda (s : State) (f : Nat) (st : FrameSt) : (s.setFrameSt f st).agenda = s.agenda := rfl
@[simp] theorem State.setFrameSt_free (s : State) (f : Nat) (st : FrameSt) : (s.setFrameSt f st).free = s.free := rfl
@[simp] theorem State.setFrameSt_turn (s : State) (f : Nat) (st : FrameSt) : (s.setFrameSt f st).turn = s.turn := rfl
@[simp] theorem State.setFrameSt_accNext (s : State) (f : Nat) (st : FrameSt) : (s.setFrameSt f st).accNext = s.accNext := rfl
@[simp] theorem State.setFrameSt_hbm (s : State) (f : Nat) (st : FrameSt) : (s.setFrameSt f st).hbm = s.hbm := rfl
@[simp] theorem State.setFrameSt_pool (s : State) (f : Nat) (st : FrameSt) : (s.setFrameSt f st).pool = s.pool := rfl
@[simp] theorem State.setFrameSt_host (s : State) (f : Nat) (st : FrameSt) : (s.setFrameSt f st).host = s.host := rfl
@[simp] theorem State.setFrameSt_hmarks (s : State) (f : Nat) (st : FrameSt) : (s.setFrameSt f st).hmarks = s.hmarks := rfl
@[simp] theorem State.setFrameSt_dies (s : State) (f : Nat) (st : FrameSt) : (s.setFrameSt f st).dies = s.dies := rfl
@[simp] theorem State.setFrameSt_cores (s : State) (f : Nat) (st : FrameSt) : (s.setFrameSt f st).cores = s.cores := rfl
@[simp] theorem State.setFrameSt_teams (s : State) (f : Nat) (st : FrameSt) : (s.setFrameSt f st).teams = s.teams := rfl
@[simp] theorem State.setFrameSt_accs (s : State) (f : Nat) (st : FrameSt) : (s.setFrameSt f st).accs = s.accs := rfl
@[simp] theorem State.setFrameSt_arrivals (s : State) (f : Nat) (st : FrameSt) : (s.setFrameSt f st).arrivals = s.arrivals := rfl
@[simp] theorem State.setFrameSt_cp (s : State) (f : Nat) (st : FrameSt) : (s.setFrameSt f st).cp = s.cp := rfl
@[simp] theorem State.setFrameSt_parts (s : State) (f : Nat) (st : FrameSt) : (s.setFrameSt f st).parts = s.parts := rfl
@[simp] theorem State.setFrameSt_leases (s : State) (f : Nat) (st : FrameSt) : (s.setFrameSt f st).leases = s.leases := rfl
@[simp] theorem State.setFrameSt_decays (s : State) (f : Nat) (st : FrameSt) : (s.setFrameSt f st).decays = s.decays := rfl
@[simp] theorem State.setFrameSt_pageReqs (s : State) (f : Nat) (st : FrameSt) : (s.setFrameSt f st).pageReqs = s.pageReqs := rfl
@[simp] theorem State.setFrameSt_weirs (s : State) (f : Nat) (st : FrameSt) : (s.setFrameSt f st).weirs = s.weirs := rfl
@[simp] theorem State.setFrameSt_weirIdle (s : State) (f : Nat) (st : FrameSt) : (s.setFrameSt f st).weirIdle = s.weirIdle := rfl
@[simp] theorem State.setFrameSt_fab (s : State) (f : Nat) (st : FrameSt) : (s.setFrameSt f st).fab = s.fab := rfl
@[simp] theorem State.setFrameSt_mg (s : State) (f : Nat) (st : FrameSt) : (s.setFrameSt f st).mg = s.mg := rfl

/-! ### updNet changes `fab` alone -/

@[simp] theorem State.updNet_now (s : State) (n : Nat) (f : NetOp → NetOp) : (s.updNet n f).now = s.now := rfl
@[simp] theorem State.updNet_fatal (s : State) (n : Nat) (f : NetOp → NetOp) : (s.updNet n f).fatal = s.fatal := rfl
@[simp] theorem State.updNet_grants (s : State) (n : Nat) (f : NetOp → NetOp) : (s.updNet n f).grants = s.grants := rfl
@[simp] theorem State.updNet_cur (s : State) (n : Nat) (f : NetOp → NetOp) : (s.updNet n f).cur = s.cur := rfl
@[simp] theorem State.updNet_srcs (s : State) (n : Nat) (f : NetOp → NetOp) : (s.updNet n f).srcs = s.srcs := rfl
@[simp] theorem State.updNet_agenda (s : State) (n : Nat) (f : NetOp → NetOp) : (s.updNet n f).agenda = s.agenda := rfl
@[simp] theorem State.updNet_free (s : State) (n : Nat) (f : NetOp → NetOp) : (s.updNet n f).free = s.free := rfl
@[simp] theorem State.updNet_turn (s : State) (n : Nat) (f : NetOp → NetOp) : (s.updNet n f).turn = s.turn := rfl
@[simp] theorem State.updNet_accNext (s : State) (n : Nat) (f : NetOp → NetOp) : (s.updNet n f).accNext = s.accNext := rfl
@[simp] theorem State.updNet_hbm (s : State) (n : Nat) (f : NetOp → NetOp) : (s.updNet n f).hbm = s.hbm := rfl
@[simp] theorem State.updNet_pool (s : State) (n : Nat) (f : NetOp → NetOp) : (s.updNet n f).pool = s.pool := rfl
@[simp] theorem State.updNet_host (s : State) (n : Nat) (f : NetOp → NetOp) : (s.updNet n f).host = s.host := rfl
@[simp] theorem State.updNet_hmarks (s : State) (n : Nat) (f : NetOp → NetOp) : (s.updNet n f).hmarks = s.hmarks := rfl
@[simp] theorem State.updNet_dies (s : State) (n : Nat) (f : NetOp → NetOp) : (s.updNet n f).dies = s.dies := rfl
@[simp] theorem State.updNet_cores (s : State) (n : Nat) (f : NetOp → NetOp) : (s.updNet n f).cores = s.cores := rfl
@[simp] theorem State.updNet_teams (s : State) (n : Nat) (f : NetOp → NetOp) : (s.updNet n f).teams = s.teams := rfl
@[simp] theorem State.updNet_accs (s : State) (n : Nat) (f : NetOp → NetOp) : (s.updNet n f).accs = s.accs := rfl
@[simp] theorem State.updNet_arrivals (s : State) (n : Nat) (f : NetOp → NetOp) : (s.updNet n f).arrivals = s.arrivals := rfl
@[simp] theorem State.updNet_cp (s : State) (n : Nat) (f : NetOp → NetOp) : (s.updNet n f).cp = s.cp := rfl
@[simp] theorem State.updNet_parts (s : State) (n : Nat) (f : NetOp → NetOp) : (s.updNet n f).parts = s.parts := rfl
@[simp] theorem State.updNet_leases (s : State) (n : Nat) (f : NetOp → NetOp) : (s.updNet n f).leases = s.leases := rfl
@[simp] theorem State.updNet_frames (s : State) (n : Nat) (f : NetOp → NetOp) : (s.updNet n f).frames = s.frames := rfl
@[simp] theorem State.updNet_decays (s : State) (n : Nat) (f : NetOp → NetOp) : (s.updNet n f).decays = s.decays := rfl
@[simp] theorem State.updNet_pageReqs (s : State) (n : Nat) (f : NetOp → NetOp) : (s.updNet n f).pageReqs = s.pageReqs := rfl
@[simp] theorem State.updNet_weirs (s : State) (n : Nat) (f : NetOp → NetOp) : (s.updNet n f).weirs = s.weirs := rfl
@[simp] theorem State.updNet_weirIdle (s : State) (n : Nat) (f : NetOp → NetOp) : (s.updNet n f).weirIdle = s.weirIdle := rfl
@[simp] theorem State.updNet_mg (s : State) (n : Nat) (f : NetOp → NetOp) : (s.updNet n f).mg = s.mg := rfl

/-! ### updChan changes `mg` alone -/

@[simp] theorem State.updChan_now (s : State) (k : Nat) (f : Chan → Chan) : (s.updChan k f).now = s.now := rfl
@[simp] theorem State.updChan_fatal (s : State) (k : Nat) (f : Chan → Chan) : (s.updChan k f).fatal = s.fatal := rfl
@[simp] theorem State.updChan_grants (s : State) (k : Nat) (f : Chan → Chan) : (s.updChan k f).grants = s.grants := rfl
@[simp] theorem State.updChan_cur (s : State) (k : Nat) (f : Chan → Chan) : (s.updChan k f).cur = s.cur := rfl
@[simp] theorem State.updChan_srcs (s : State) (k : Nat) (f : Chan → Chan) : (s.updChan k f).srcs = s.srcs := rfl
@[simp] theorem State.updChan_agenda (s : State) (k : Nat) (f : Chan → Chan) : (s.updChan k f).agenda = s.agenda := rfl
@[simp] theorem State.updChan_free (s : State) (k : Nat) (f : Chan → Chan) : (s.updChan k f).free = s.free := rfl
@[simp] theorem State.updChan_turn (s : State) (k : Nat) (f : Chan → Chan) : (s.updChan k f).turn = s.turn := rfl
@[simp] theorem State.updChan_accNext (s : State) (k : Nat) (f : Chan → Chan) : (s.updChan k f).accNext = s.accNext := rfl
@[simp] theorem State.updChan_hbm (s : State) (k : Nat) (f : Chan → Chan) : (s.updChan k f).hbm = s.hbm := rfl
@[simp] theorem State.updChan_pool (s : State) (k : Nat) (f : Chan → Chan) : (s.updChan k f).pool = s.pool := rfl
@[simp] theorem State.updChan_host (s : State) (k : Nat) (f : Chan → Chan) : (s.updChan k f).host = s.host := rfl
@[simp] theorem State.updChan_hmarks (s : State) (k : Nat) (f : Chan → Chan) : (s.updChan k f).hmarks = s.hmarks := rfl
@[simp] theorem State.updChan_dies (s : State) (k : Nat) (f : Chan → Chan) : (s.updChan k f).dies = s.dies := rfl
@[simp] theorem State.updChan_cores (s : State) (k : Nat) (f : Chan → Chan) : (s.updChan k f).cores = s.cores := rfl
@[simp] theorem State.updChan_teams (s : State) (k : Nat) (f : Chan → Chan) : (s.updChan k f).teams = s.teams := rfl
@[simp] theorem State.updChan_accs (s : State) (k : Nat) (f : Chan → Chan) : (s.updChan k f).accs = s.accs := rfl
@[simp] theorem State.updChan_arrivals (s : State) (k : Nat) (f : Chan → Chan) : (s.updChan k f).arrivals = s.arrivals := rfl
@[simp] theorem State.updChan_cp (s : State) (k : Nat) (f : Chan → Chan) : (s.updChan k f).cp = s.cp := rfl
@[simp] theorem State.updChan_parts (s : State) (k : Nat) (f : Chan → Chan) : (s.updChan k f).parts = s.parts := rfl
@[simp] theorem State.updChan_leases (s : State) (k : Nat) (f : Chan → Chan) : (s.updChan k f).leases = s.leases := rfl
@[simp] theorem State.updChan_frames (s : State) (k : Nat) (f : Chan → Chan) : (s.updChan k f).frames = s.frames := rfl
@[simp] theorem State.updChan_decays (s : State) (k : Nat) (f : Chan → Chan) : (s.updChan k f).decays = s.decays := rfl
@[simp] theorem State.updChan_pageReqs (s : State) (k : Nat) (f : Chan → Chan) : (s.updChan k f).pageReqs = s.pageReqs := rfl
@[simp] theorem State.updChan_weirs (s : State) (k : Nat) (f : Chan → Chan) : (s.updChan k f).weirs = s.weirs := rfl
@[simp] theorem State.updChan_weirIdle (s : State) (k : Nat) (f : Chan → Chan) : (s.updChan k f).weirIdle = s.weirIdle := rfl
@[simp] theorem State.updChan_fab (s : State) (k : Nat) (f : Chan → Chan) : (s.updChan k f).fab = s.fab := rfl

/-! ### updScrub changes `mg` alone -/

@[simp] theorem State.updScrub_now (s : State) (k : Nat) (f : Scrub → Scrub) : (s.updScrub k f).now = s.now := rfl
@[simp] theorem State.updScrub_fatal (s : State) (k : Nat) (f : Scrub → Scrub) : (s.updScrub k f).fatal = s.fatal := rfl
@[simp] theorem State.updScrub_grants (s : State) (k : Nat) (f : Scrub → Scrub) : (s.updScrub k f).grants = s.grants := rfl
@[simp] theorem State.updScrub_cur (s : State) (k : Nat) (f : Scrub → Scrub) : (s.updScrub k f).cur = s.cur := rfl
@[simp] theorem State.updScrub_srcs (s : State) (k : Nat) (f : Scrub → Scrub) : (s.updScrub k f).srcs = s.srcs := rfl
@[simp] theorem State.updScrub_agenda (s : State) (k : Nat) (f : Scrub → Scrub) : (s.updScrub k f).agenda = s.agenda := rfl
@[simp] theorem State.updScrub_free (s : State) (k : Nat) (f : Scrub → Scrub) : (s.updScrub k f).free = s.free := rfl
@[simp] theorem State.updScrub_turn (s : State) (k : Nat) (f : Scrub → Scrub) : (s.updScrub k f).turn = s.turn := rfl
@[simp] theorem State.updScrub_accNext (s : State) (k : Nat) (f : Scrub → Scrub) : (s.updScrub k f).accNext = s.accNext := rfl
@[simp] theorem State.updScrub_hbm (s : State) (k : Nat) (f : Scrub → Scrub) : (s.updScrub k f).hbm = s.hbm := rfl
@[simp] theorem State.updScrub_pool (s : State) (k : Nat) (f : Scrub → Scrub) : (s.updScrub k f).pool = s.pool := rfl
@[simp] theorem State.updScrub_host (s : State) (k : Nat) (f : Scrub → Scrub) : (s.updScrub k f).host = s.host := rfl
@[simp] theorem State.updScrub_hmarks (s : State) (k : Nat) (f : Scrub → Scrub) : (s.updScrub k f).hmarks = s.hmarks := rfl
@[simp] theorem State.updScrub_dies (s : State) (k : Nat) (f : Scrub → Scrub) : (s.updScrub k f).dies = s.dies := rfl
@[simp] theorem State.updScrub_cores (s : State) (k : Nat) (f : Scrub → Scrub) : (s.updScrub k f).cores = s.cores := rfl
@[simp] theorem State.updScrub_teams (s : State) (k : Nat) (f : Scrub → Scrub) : (s.updScrub k f).teams = s.teams := rfl
@[simp] theorem State.updScrub_accs (s : State) (k : Nat) (f : Scrub → Scrub) : (s.updScrub k f).accs = s.accs := rfl
@[simp] theorem State.updScrub_arrivals (s : State) (k : Nat) (f : Scrub → Scrub) : (s.updScrub k f).arrivals = s.arrivals := rfl
@[simp] theorem State.updScrub_cp (s : State) (k : Nat) (f : Scrub → Scrub) : (s.updScrub k f).cp = s.cp := rfl
@[simp] theorem State.updScrub_parts (s : State) (k : Nat) (f : Scrub → Scrub) : (s.updScrub k f).parts = s.parts := rfl
@[simp] theorem State.updScrub_leases (s : State) (k : Nat) (f : Scrub → Scrub) : (s.updScrub k f).leases = s.leases := rfl
@[simp] theorem State.updScrub_frames (s : State) (k : Nat) (f : Scrub → Scrub) : (s.updScrub k f).frames = s.frames := rfl
@[simp] theorem State.updScrub_decays (s : State) (k : Nat) (f : Scrub → Scrub) : (s.updScrub k f).decays = s.decays := rfl
@[simp] theorem State.updScrub_pageReqs (s : State) (k : Nat) (f : Scrub → Scrub) : (s.updScrub k f).pageReqs = s.pageReqs := rfl
@[simp] theorem State.updScrub_weirs (s : State) (k : Nat) (f : Scrub → Scrub) : (s.updScrub k f).weirs = s.weirs := rfl
@[simp] theorem State.updScrub_weirIdle (s : State) (k : Nat) (f : Scrub → Scrub) : (s.updScrub k f).weirIdle = s.weirIdle := rfl
@[simp] theorem State.updScrub_fab (s : State) (k : Nat) (f : Scrub → Scrub) : (s.updScrub k f).fab = s.fab := rfl

/-! ### updIsland changes `mg` alone -/

@[simp] theorem State.updIsland_now (s : State) (k : Nat) (f : Island → Island) : (s.updIsland k f).now = s.now := rfl
@[simp] theorem State.updIsland_fatal (s : State) (k : Nat) (f : Island → Island) : (s.updIsland k f).fatal = s.fatal := rfl
@[simp] theorem State.updIsland_grants (s : State) (k : Nat) (f : Island → Island) : (s.updIsland k f).grants = s.grants := rfl
@[simp] theorem State.updIsland_cur (s : State) (k : Nat) (f : Island → Island) : (s.updIsland k f).cur = s.cur := rfl
@[simp] theorem State.updIsland_srcs (s : State) (k : Nat) (f : Island → Island) : (s.updIsland k f).srcs = s.srcs := rfl
@[simp] theorem State.updIsland_agenda (s : State) (k : Nat) (f : Island → Island) : (s.updIsland k f).agenda = s.agenda := rfl
@[simp] theorem State.updIsland_free (s : State) (k : Nat) (f : Island → Island) : (s.updIsland k f).free = s.free := rfl
@[simp] theorem State.updIsland_turn (s : State) (k : Nat) (f : Island → Island) : (s.updIsland k f).turn = s.turn := rfl
@[simp] theorem State.updIsland_accNext (s : State) (k : Nat) (f : Island → Island) : (s.updIsland k f).accNext = s.accNext := rfl
@[simp] theorem State.updIsland_hbm (s : State) (k : Nat) (f : Island → Island) : (s.updIsland k f).hbm = s.hbm := rfl
@[simp] theorem State.updIsland_pool (s : State) (k : Nat) (f : Island → Island) : (s.updIsland k f).pool = s.pool := rfl
@[simp] theorem State.updIsland_host (s : State) (k : Nat) (f : Island → Island) : (s.updIsland k f).host = s.host := rfl
@[simp] theorem State.updIsland_hmarks (s : State) (k : Nat) (f : Island → Island) : (s.updIsland k f).hmarks = s.hmarks := rfl
@[simp] theorem State.updIsland_dies (s : State) (k : Nat) (f : Island → Island) : (s.updIsland k f).dies = s.dies := rfl
@[simp] theorem State.updIsland_cores (s : State) (k : Nat) (f : Island → Island) : (s.updIsland k f).cores = s.cores := rfl
@[simp] theorem State.updIsland_teams (s : State) (k : Nat) (f : Island → Island) : (s.updIsland k f).teams = s.teams := rfl
@[simp] theorem State.updIsland_accs (s : State) (k : Nat) (f : Island → Island) : (s.updIsland k f).accs = s.accs := rfl
@[simp] theorem State.updIsland_arrivals (s : State) (k : Nat) (f : Island → Island) : (s.updIsland k f).arrivals = s.arrivals := rfl
@[simp] theorem State.updIsland_cp (s : State) (k : Nat) (f : Island → Island) : (s.updIsland k f).cp = s.cp := rfl
@[simp] theorem State.updIsland_parts (s : State) (k : Nat) (f : Island → Island) : (s.updIsland k f).parts = s.parts := rfl
@[simp] theorem State.updIsland_leases (s : State) (k : Nat) (f : Island → Island) : (s.updIsland k f).leases = s.leases := rfl
@[simp] theorem State.updIsland_frames (s : State) (k : Nat) (f : Island → Island) : (s.updIsland k f).frames = s.frames := rfl
@[simp] theorem State.updIsland_decays (s : State) (k : Nat) (f : Island → Island) : (s.updIsland k f).decays = s.decays := rfl
@[simp] theorem State.updIsland_pageReqs (s : State) (k : Nat) (f : Island → Island) : (s.updIsland k f).pageReqs = s.pageReqs := rfl
@[simp] theorem State.updIsland_weirs (s : State) (k : Nat) (f : Island → Island) : (s.updIsland k f).weirs = s.weirs := rfl
@[simp] theorem State.updIsland_weirIdle (s : State) (k : Nat) (f : Island → Island) : (s.updIsland k f).weirIdle = s.weirIdle := rfl
@[simp] theorem State.updIsland_fab (s : State) (k : Nat) (f : Island → Island) : (s.updIsland k f).fab = s.fab := rfl

end Sys2Proof.Machine
end

