-- ==== Sys2Proof/Laws/Memory.lean ====
section
/-! SUPPORT. The operations that write a memory keep the memories' canonical form. -/

namespace Sys2Proof.Machine

open Safety

/-- The form is that of each memory. -/
theorem memoriesOk_iff (s : State) :
    memoriesOk s = true ↔ Mem.wf s.hbm = true ∧ Mem.wf s.pool = true ∧ Mem.wf s.host = true := by
  simp [memoriesOk, Bool.and_eq_true, and_assoc]

/-- A state with the same memories. -/
theorem memoriesOk_congr {s t : State} (h : memoriesOk s = true) (h1 : t.hbm = s.hbm) (h2 : t.pool = s.pool)
    (h3 : t.host = s.host) : memoriesOk t = true := by
  simpa only [memoriesOk, h1, h2, h3] using h

/-- Bytes written to host memory. -/
theorem memoriesOk_host {s : State} (h : memoriesOk s = true) (a : Nat) (l : List Byte) :
    memoriesOk { s with host := Mem.writeList s.host a l } = true := by
  rw [memoriesOk_iff] at h ⊢
  exact ⟨h.1, h.2.1, Mem.wf_writeList _ _ _ h.2.2⟩

/-- Bytes written to the pool. -/
theorem memoriesOk_pool {s : State} (h : memoriesOk s = true) (a : Nat) (l : List Byte) :
    memoriesOk { s with pool := Mem.writeList s.pool a l } = true := by
  rw [memoriesOk_iff] at h ⊢
  exact ⟨h.1, Mem.wf_writeList _ _ _ h.2.1, h.2.2⟩

/-- A memory keeps its form through a fold of changes that each keep it. -/
theorem memoriesOk_foldl {α : Type} (f : State → α → State) (hf : ∀ s a, memoriesOk s = true → memoriesOk (f s a) = true)
    (l : List α) : ∀ s : State, memoriesOk s = true → memoriesOk (l.foldl f s) = true := by
  induction l with
  | nil => intro s h; exact h
  | cons a t ih => intro s h; exact ih _ (hf s a h)

/-- A sector that takes its place in an L2. -/
theorem memoriesOk_holdL2 {s : State} (h : memoriesOk s = true) (d sec : Nat) (cs : List Copy) :
    memoriesOk (s.holdL2 d sec cs) = true := by
  unfold State.holdL2
  dsimp only
  split
  · exact memoriesOk_congr h rfl rfl rfl
  · split
    · exact h
    · exact memoriesOk_congr h rfl rfl rfl

/-- Sectors that fill an L2. -/
theorem memoriesOk_fillSectors {s : State} (h : memoriesOk s = true) (d pa n : Nat) :
    memoriesOk (s.fillSectors d pa n) = true := by
  refine memoriesOk_foldl _ (fun s k h => ?_) _ s h
  unfold State.fillSector
  split
  · exact h
  · exact memoriesOk_congr (memoriesOk_holdL2 h _ _ _) rfl rfl rfl

/-- Bytes written in a frame at its home. -/
theorem memoriesOk_writeHome (d : Nat) (m : Mark) (l : List Byte) :
    ∀ (s : State) (pa : Nat), memoriesOk s = true → memoriesOk (s.writeHome d m pa l) = true := by
  induction l with
  | nil => intro s pa h; exact h
  | cons b t ih =>
    intro s pa h
    refine ih _ _ ?_
    split
    · exact h
    · rw [memoriesOk_iff] at h ⊢
      exact ⟨Mem.wf_write _ _ _ h.1, h.2.1, h.2.2⟩

/-- One write applied at a die. -/
theorem memoriesOk_applyBytes {s : State} (h : memoriesOk s = true) (d : Nat) (m : Mark) (pa : Nat) (bs : List Byte) :
    memoriesOk (s.applyBytes d m pa bs) = true := by
  unfold State.applyBytes
  split
  · exact h
  · split
    · exact memoriesOk_writeHome d m bs s pa h
    · exact memoriesOk_congr h rfl rfl rfl

/-- A stamped write on its way. -/
theorem memoriesOk_sendStamped {s : State} (h : memoriesOk s = true) (o pa : Nat) (bs : List Byte) :
    memoriesOk (s.sendStamped o pa bs).1 = true := by
  unfold State.sendStamped
  refine memoriesOk_foldl (fun (s : State) d => s.updDie d fun die => { die with inbox := die.inbox ++ [_] })
    (fun _ _ h => ?_) _ _ ?_
  · exact memoriesOk_congr h rfl rfl rfl
  · exact memoriesOk_congr h rfl rfl rfl

/-- One write of an origin to device memory. -/
theorem memoriesOk_devWrite {s : State} (h : memoriesOk s = true) (o pa : Nat) (bs : List Byte) :
    memoriesOk (s.devWrite o pa bs).1 = true :=
  memoriesOk_congr (memoriesOk_applyBytes (memoriesOk_sendStamped (memoriesOk_fillSectors h _ _ _) _ _ _) _ _ _ _) rfl rfl rfl

/-- One write of an origin to host memory. -/
theorem memoriesOk_hostWrite {s : State} (h : memoriesOk s = true) (o a : Nat) (bs : List Byte) :
    memoriesOk (s.hostWrite o a bs).1 = true :=
  memoriesOk_congr (memoriesOk_host (memoriesOk_sendStamped h o (hostBase + a) []) a bs) rfl rfl rfl

/-- One write of an origin at an address. -/
theorem memoriesOk_writeAt {s : State} (h : memoriesOk s = true) (o pa : Nat) (bs : List Byte) :
    memoriesOk (s.writeAt o pa bs).1 = true := by
  have e : (s.writeAt o pa bs).1 = if hostBase ≤ pa then (s.hostWrite o (pa - hostBase) bs).1 else (s.devWrite o pa bs).1 := by
    unfold State.writeAt
    split <;> rfl
  rw [e]
  split
  · exact memoriesOk_hostWrite h _ _ _
  · exact memoriesOk_devWrite h _ _ _

/-- A core's L1 is no memory. -/
theorem memoriesOk_refreshL1 {s : State} (h : memoriesOk s = true) (c pa : Nat) (cs : List Copy) :
    memoriesOk (s.refreshL1 c pa cs) = true := memoriesOk_congr h rfl rfl rfl

/-- A stamped write that a die applies. -/
theorem memoriesOk_applyStamped {s : State} (h : memoriesOk s = true) (e o : Nat) :
    memoriesOk (s.applyStamped e o) = true := by
  unfold State.applyStamped
  split
  · exact h
  · rename_i n m _
    by_cases hc : canApply (s.die e).v m = true
    · rw [if_pos hc]
      refine memoriesOk_applyBytes ?_ _ _ _ _
      exact memoriesOk_congr h rfl rfl rfl
    · rw [if_neg hc]
      exact h

/-- What a unit of the device writes within a page. -/
theorem memoriesOk_unitPut {s t : State} {v : VClk} (h : memoriesOk s = true) {g : Agent} {va : Nat} {bs : List Byte}
    (e : s.unitPut g va bs = .done t v) : memoriesOk t = true := by
  unfold State.unitPut at e
  split at e
  · cases e
  · split at e
    · cases e
    · split at e <;> cases e
      exact h
    · split at e
      · cases e
      · dsimp only at e
        rename_i pa _
        by_cases hl : s.lostIn pa bs.length true = true
        · rw [if_pos hl] at e; cases e
        · rw [if_neg hl] at e
          split at e <;> split at e
          · obtain ⟨rfl, -⟩ := PutRes.done.inj e
            exact memoriesOk_writeAt h _ _ _
          · cases e
          · obtain ⟨rfl, -⟩ := PutRes.done.inj e
            exact memoriesOk_refreshL1 (memoriesOk_writeAt h _ _ _) _ _ _
          · cases e

/-- What a unit of the device writes in parts. -/
theorem memoriesOk_unitPutParts {g : Agent} (k : Nat) : ∀ {s t : State} {w v : VClk} {va : Nat} {bs : List Byte},
    memoriesOk s = true → State.unitPutParts g k va bs w s = .done t v → memoriesOk t = true := by
  induction k with
  | zero => intro s t w v va bs h e; cases e; exact h
  | succ k ih =>
    intro s t w v va bs h e
    unfold State.unitPutParts at e
    dsimp only at e
    split at e
    · cases e; exact h
    · split at e
      · rename_i hp
        exact ih (memoriesOk_unitPut h hp) e
      · rename_i hp
        exact absurd e (hp _ _)

/-- What a unit of the device writes. -/
theorem memoriesOk_unitPutLong {s t : State} {v : VClk} (h : memoriesOk s = true) {g : Agent} {va : Nat} {bs : List Byte}
    (e : s.unitPutLong g va bs = .done t v) : memoriesOk t = true := by
  unfold State.unitPutLong at e
  split at e
  · exact memoriesOk_unitPut h e
  · exact memoriesOk_unitPutParts _ h e

/-- A change of teams, cores, dies or the command processor alone. -/
theorem memoriesOk_updThread {s : State} (h : memoriesOk s = true) (t : TRef) (f : Thread → Thread) :
    memoriesOk (s.updThread t f) = true := memoriesOk_congr h rfl rfl rfl

theorem memoriesOk_updGroup {s : State} (h : memoriesOk s = true) (r : GRef) (f : Group → Group) :
    memoriesOk (s.updGroup r f) = true := memoriesOk_congr h rfl rfl rfl

theorem memoriesOk_updTeam {s : State} (h : memoriesOk s = true) (g t : Nat) (f : Team → Team) :
    memoriesOk (s.updTeam g t f) = true := memoriesOk_congr h rfl rfl rfl

theorem memoriesOk_updCore {s : State} (h : memoriesOk s = true) (c : Nat) (f : Core → Core) :
    memoriesOk (s.updCore c f) = true := memoriesOk_congr h rfl rfl rfl

/-- Reset lists nothing. -/
theorem memoriesOk_reset : memoriesOk State.reset = true := by rfl

end Sys2Proof.Machine
end

