-- ==== Sys2Proof/Laws/PerInstr.lean ====
section
/-! SUPPORT. Instruction by instruction: the base word lies in 32 bits and decodes to the instruction; a device step has no
word. -/

namespace Sys2Proof.Laws.Enc

/-- The base word of an instruction, when it has one, lies in 32 bits, is no prefix, and decodes to the instruction under its
prefixes (R100, R109). -/
def Statement (i : Instr) : Prop :=
  ∀ w, encodeBase i = some w → w < 2 ^ 32 ∧ w / 2 ^ 27 < 30 ∧ decodeBase w i.pfx = .ok i

theorem bits_eq {n w lo : Nat} {v : BitVec n} (h : w / 2 ^ lo % 2 ^ n = v.toNat) : bitsAt n w lo = v := by
  apply BitVec.eq_of_toNat_eq
  simpa [bitsAt] using h

theorem whenZero_ok {n : Nat} {i : Instr} (h : n = 0) : whenZero n i = .ok i := if_pos h

theorem row0 {w op : Nat} (pf : Pfx) (h : w / 2 ^ 24 % 256 = op) (h2 : op / 16 = 0x0) :
    decodeBase w pf = decodeRow0 op w pf := by unfold decodeBase; simp only [h, h2]

theorem row1 {w op : Nat} (pf : Pfx) (h : w / 2 ^ 24 % 256 = op) (h2 : op / 16 = 0x1) :
    decodeBase w pf = decodeRow1 op w pf := by unfold decodeBase; simp only [h, h2]

theorem row2 {w op : Nat} (pf : Pfx) (h : w / 2 ^ 24 % 256 = op) (h2 : op / 16 = 0x2) :
    decodeBase w pf = decodeRow2 op w pf := by unfold decodeBase; simp only [h, h2]

theorem row3 {w op : Nat} (pf : Pfx) (h : w / 2 ^ 24 % 256 = op) (h2 : op / 16 = 0x3) :
    decodeBase w pf = decodeRow3 op w pf := by unfold decodeBase; simp only [h, h2]

theorem row4 {w op : Nat} (pf : Pfx) (h : w / 2 ^ 24 % 256 = op) (h2 : op / 16 = 0x4) :
    decodeBase w pf = decodeRow4 op w pf := by unfold decodeBase; simp only [h, h2]

theorem row5 {w op : Nat} (pf : Pfx) (h : w / 2 ^ 24 % 256 = op) (h2 : op / 16 = 0x5) :
    decodeBase w pf = decodeRow5 op w pf := by unfold decodeBase; simp only [h, h2]

theorem row6 {w op : Nat} (pf : Pfx) (h : w / 2 ^ 24 % 256 = op) (h2 : op / 16 = 0x6) :
    decodeBase w pf = decodeRow6 op w pf := by unfold decodeBase; simp only [h, h2]

theorem row7 {w op : Nat} (pf : Pfx) (h : w / 2 ^ 24 % 256 = op) (h2 : op / 16 = 0x7) :
    decodeBase w pf = decodeRow7 op w pf := by unfold decodeBase; simp only [h, h2]

theorem row8 {w op : Nat} (pf : Pfx) (h : w / 2 ^ 24 % 256 = op) (h2 : op / 16 = 0x8) :
    decodeBase w pf = decodeRow8 op w pf := by unfold decodeBase; simp only [h, h2]

theorem row9 {w op : Nat} (pf : Pfx) (h : w / 2 ^ 24 % 256 = op) (h2 : op / 16 = 0x9) :
    decodeBase w pf = decodeRow9 op w pf := by unfold decodeBase; simp only [h, h2]

theorem rowA {w op : Nat} (pf : Pfx) (h : w / 2 ^ 24 % 256 = op) (h2 : op / 16 = 0xA) :
    decodeBase w pf = decodeRowA op w pf := by unfold decodeBase; simp only [h, h2]

theorem rowB {w op : Nat} (pf : Pfx) (h : w / 2 ^ 24 % 256 = op) (h2 : op / 16 = 0xB) :
    decodeBase w pf = decodeRowB op w pf := by unfold decodeBase; simp only [h, h2]

theorem rowC {w op : Nat} (pf : Pfx) (h : w / 2 ^ 24 % 256 = op) (h2 : op / 16 = 0xC) :
    decodeBase w pf = decodeRowC op w pf := by unfold decodeBase; simp only [h, h2]

theorem rowD {w op : Nat} (pf : Pfx) (h : w / 2 ^ 24 % 256 = op) (h2 : op / 16 = 0xD) :
    decodeBase w pf = decodeRowD op w pf := by unfold decodeBase; simp only [h, h2]

theorem rowE {w op : Nat} (pf : Pfx) (h : w / 2 ^ 24 % 256 = op) (h2 : op / 16 = 0xE) :
    decodeBase w pf = decodeRowE op w pf := by unfold decodeBase; simp only [h, h2]


theorem iadd (pf : Pfx) (d a b : BitVec 8) : Statement (.iadd pf d a b) := by
  intro w h
  have h : putF d 16 (putF a 8 (putF b 0 (0x0))) = w := Option.some.inj h
  unfold putF at h
  have l0 := d.isLt; have l1 := a.isLt; have l2 := b.isLt
  refine ⟨by omega, by omega, ?_⟩
  rw [row0 _ (show w / 2 ^ 24 % 256 = 0x0 by omega) rfl]
  show Except.ok (Instr.iadd pf (bitsAt 8 w 16) (bitsAt 8 w 8) (bitsAt 8 w 0)) = _
  rw [bits_eq (show w / 2 ^ 16 % 2 ^ 8 = d.toNat by omega), bits_eq (show w / 2 ^ 8 % 2 ^ 8 = a.toNat by omega), bits_eq (show w / 2 ^ 0 % 2 ^ 8 = b.toNat by omega)]
theorem isub (pf : Pfx) (d a b : BitVec 8) : Statement (.isub pf d a b) := by
  intro w h
  have h : putF d 16 (putF a 8 (putF b 0 (0x1000000))) = w := Option.some.inj h
  unfold putF at h
  have l0 := d.isLt; have l1 := a.isLt; have l2 := b.isLt
  refine ⟨by omega, by omega, ?_⟩
  rw [row0 _ (show w / 2 ^ 24 % 256 = 0x1 by omega) rfl]
  show Except.ok (Instr.isub pf (bitsAt 8 w 16) (bitsAt 8 w 8) (bitsAt 8 w 0)) = _
  rw [bits_eq (show w / 2 ^ 16 % 2 ^ 8 = d.toNat by omega), bits_eq (show w / 2 ^ 8 % 2 ^ 8 = a.toNat by omega), bits_eq (show w / 2 ^ 0 % 2 ^ 8 = b.toNat by omega)]
theorem imul (pf : Pfx) (d a b : BitVec 8) : Statement (.imul pf d a b) := by
  intro w h
  have h : putF d 16 (putF a 8 (putF b 0 (0x2000000))) = w := Option.some.inj h
  unfold putF at h
  have l0 := d.isLt; have l1 := a.isLt; have l2 := b.isLt
  refine ⟨by omega, by omega, ?_⟩
  rw [row0 _ (show w / 2 ^ 24 % 256 = 0x2 by omega) rfl]
  show Except.ok (Instr.imul pf (bitsAt 8 w 16) (bitsAt 8 w 8) (bitsAt 8 w 0)) = _
  rw [bits_eq (show w / 2 ^ 16 % 2 ^ 8 = d.toNat by omega), bits_eq (show w / 2 ^ 8 % 2 ^ 8 = a.toNat by omega), bits_eq (show w / 2 ^ 0 % 2 ^ 8 = b.toNat by omega)]
theorem imulh (pf : Pfx) (d a b : BitVec 8) : Statement (.imulh pf d a b) := by
  intro w h
  have h : putF d 16 (putF a 8 (putF b 0 (0x3000000))) = w := Option.some.inj h
  unfold putF at h
  have l0 := d.isLt; have l1 := a.isLt; have l2 := b.isLt
  refine ⟨by omega, by omega, ?_⟩
  rw [row0 _ (show w / 2 ^ 24 % 256 = 0x3 by omega) rfl]
  show Except.ok (Instr.imulh pf (bitsAt 8 w 16) (bitsAt 8 w 8) (bitsAt 8 w 0)) = _
  rw [bits_eq (show w / 2 ^ 16 % 2 ^ 8 = d.toNat by omega), bits_eq (show w / 2 ^ 8 % 2 ^ 8 = a.toNat by omega), bits_eq (show w / 2 ^ 0 % 2 ^ 8 = b.toNat by omega)]
theorem imulhHu (pf : Pfx) (d a b : BitVec 8) : Statement (.imulhHu pf d a b) := by
  intro w h
  have h : putF d 16 (putF a 8 (putF b 0 (0x4000000))) = w := Option.some.inj h
  unfold putF at h
  have l0 := d.isLt; have l1 := a.isLt; have l2 := b.isLt
  refine ⟨by omega, by omega, ?_⟩
  rw [row0 _ (show w / 2 ^ 24 % 256 = 0x4 by omega) rfl]
  show Except.ok (Instr.imulhHu pf (bitsAt 8 w 16) (bitsAt 8 w 8) (bitsAt 8 w 0)) = _
  rw [bits_eq (show w / 2 ^ 16 % 2 ^ 8 = d.toNat by omega), bits_eq (show w / 2 ^ 8 % 2 ^ 8 = a.toNat by omega), bits_eq (show w / 2 ^ 0 % 2 ^ 8 = b.toNat by omega)]
theorem imad (pf : Pfx) (d a b : BitVec 8) : Statement (.imad pf d a b) := by
  intro w h
  have h : putF d 16 (putF a 8 (putF b 0 (0x5000000))) = w := Option.some.inj h
  unfold putF at h
  have l0 := d.isLt; have l1 := a.isLt; have l2 := b.isLt
  refine ⟨by omega, by omega, ?_⟩
  rw [row0 _ (show w / 2 ^ 24 % 256 = 0x5 by omega) rfl]
  show Except.ok (Instr.imad pf (bitsAt 8 w 16) (bitsAt 8 w 8) (bitsAt 8 w 0)) = _
  rw [bits_eq (show w / 2 ^ 16 % 2 ^ 8 = d.toNat by omega), bits_eq (show w / 2 ^ 8 % 2 ^ 8 = a.toNat by omega), bits_eq (show w / 2 ^ 0 % 2 ^ 8 = b.toNat by omega)]
theorem add64 (pf : Pfx) (d a b : BitVec 8) : Statement (.add64 pf d a b) := by
  intro w h
  have h : putF d 16 (putF a 8 (putF b 0 (0x6000000))) = w := Option.some.inj h
  unfold putF at h
  have l0 := d.isLt; have l1 := a.isLt; have l2 := b.isLt
  refine ⟨by omega, by omega, ?_⟩
  rw [row0 _ (show w / 2 ^ 24 % 256 = 0x6 by omega) rfl]
  show Except.ok (Instr.add64 pf (bitsAt 8 w 16) (bitsAt 8 w 8) (bitsAt 8 w 0)) = _
  rw [bits_eq (show w / 2 ^ 16 % 2 ^ 8 = d.toNat by omega), bits_eq (show w / 2 ^ 8 % 2 ^ 8 = a.toNat by omega), bits_eq (show w / 2 ^ 0 % 2 ^ 8 = b.toNat by omega)]
theorem sub64 (pf : Pfx) (d a b : BitVec 8) : Statement (.sub64 pf d a b) := by
  intro w h
  have h : putF d 16 (putF a 8 (putF b 0 (0x7000000))) = w := Option.some.inj h
  unfold putF at h
  have l0 := d.isLt; have l1 := a.isLt; have l2 := b.isLt
  refine ⟨by omega, by omega, ?_⟩
  rw [row0 _ (show w / 2 ^ 24 % 256 = 0x7 by omega) rfl]
  show Except.ok (Instr.sub64 pf (bitsAt 8 w 16) (bitsAt 8 w 8) (bitsAt 8 w 0)) = _
  rw [bits_eq (show w / 2 ^ 16 % 2 ^ 8 = d.toNat by omega), bits_eq (show w / 2 ^ 8 % 2 ^ 8 = a.toNat by omega), bits_eq (show w / 2 ^ 0 % 2 ^ 8 = b.toNat by omega)]
theorem mul64 (pf : Pfx) (d a b : BitVec 8) : Statement (.mul64 pf d a b) := by
  intro w h
  have h : putF d 16 (putF a 8 (putF b 0 (0x8000000))) = w := Option.some.inj h
  unfold putF at h
  have l0 := d.isLt; have l1 := a.isLt; have l2 := b.isLt
  refine ⟨by omega, by omega, ?_⟩
  rw [row0 _ (show w / 2 ^ 24 % 256 = 0x8 by omega) rfl]
  show Except.ok (Instr.mul64 pf (bitsAt 8 w 16) (bitsAt 8 w 8) (bitsAt 8 w 0)) = _
  rw [bits_eq (show w / 2 ^ 16 % 2 ^ 8 = d.toNat by omega), bits_eq (show w / 2 ^ 8 % 2 ^ 8 = a.toNat by omega), bits_eq (show w / 2 ^ 0 % 2 ^ 8 = b.toNat by omega)]
theorem addc (pf : Pfx) (d a b : BitVec 8) : Statement (.addc pf d a b) := by
  intro w h
  have h : putF d 16 (putF a 8 (putF b 0 (0x9000000))) = w := Option.some.inj h
  unfold putF at h
  have l0 := d.isLt; have l1 := a.isLt; have l2 := b.isLt
  refine ⟨by omega, by omega, ?_⟩
  rw [row0 _ (show w / 2 ^ 24 % 256 = 0x9 by omega) rfl]
  show Except.ok (Instr.addc pf (bitsAt 8 w 16) (bitsAt 8 w 8) (bitsAt 8 w 0)) = _
  rw [bits_eq (show w / 2 ^ 16 % 2 ^ 8 = d.toNat by omega), bits_eq (show w / 2 ^ 8 % 2 ^ 8 = a.toNat by omega), bits_eq (show w / 2 ^ 0 % 2 ^ 8 = b.toNat by omega)]
theorem subb (pf : Pfx) (d a b : BitVec 8) : Statement (.subb pf d a b) := by
  intro w h
  have h : putF d 16 (putF a 8 (putF b 0 (0xA000000))) = w := Option.some.inj h
  unfold putF at h
  have l0 := d.isLt; have l1 := a.isLt; have l2 := b.isLt
  refine ⟨by omega, by omega, ?_⟩
  rw [row0 _ (show w / 2 ^ 24 % 256 = 0xA by omega) rfl]
  show Except.ok (Instr.subb pf (bitsAt 8 w 16) (bitsAt 8 w 8) (bitsAt 8 w 0)) = _
  rw [bits_eq (show w / 2 ^ 16 % 2 ^ 8 = d.toNat by omega), bits_eq (show w / 2 ^ 8 % 2 ^ 8 = a.toNat by omega), bits_eq (show w / 2 ^ 0 % 2 ^ 8 = b.toNat by omega)]
theorem imin (pf : Pfx) (d a b : BitVec 8) : Statement (.imin pf d a b) := by
  intro w h
  have h : putF d 16 (putF a 8 (putF b 0 (0xB000000))) = w := Option.some.inj h
  unfold putF at h
  have l0 := d.isLt; have l1 := a.isLt; have l2 := b.isLt
  refine ⟨by omega, by omega, ?_⟩
  rw [row0 _ (show w / 2 ^ 24 % 256 = 0xB by omega) rfl]
  show Except.ok (Instr.imin pf (bitsAt 8 w 16) (bitsAt 8 w 8) (bitsAt 8 w 0)) = _
  rw [bits_eq (show w / 2 ^ 16 % 2 ^ 8 = d.toNat by omega), bits_eq (show w / 2 ^ 8 % 2 ^ 8 = a.toNat by omega), bits_eq (show w / 2 ^ 0 % 2 ^ 8 = b.toNat by omega)]
theorem iminNu (pf : Pfx) (d a b : BitVec 8) : Statement (.iminNu pf d a b) := by
  intro w h
  have h : putF d 16 (putF a 8 (putF b 0 (0xC000000))) = w := Option.some.inj h
  unfold putF at h
  have l0 := d.isLt; have l1 := a.isLt; have l2 := b.isLt
  refine ⟨by omega, by omega, ?_⟩
  rw [row0 _ (show w / 2 ^ 24 % 256 = 0xC by omega) rfl]
  show Except.ok (Instr.iminNu pf (bitsAt 8 w 16) (bitsAt 8 w 8) (bitsAt 8 w 0)) = _
  rw [bits_eq (show w / 2 ^ 16 % 2 ^ 8 = d.toNat by omega), bits_eq (show w / 2 ^ 8 % 2 ^ 8 = a.toNat by omega), bits_eq (show w / 2 ^ 0 % 2 ^ 8 = b.toNat by omega)]
theorem imax (pf : Pfx) (d a b : BitVec 8) : Statement (.imax pf d a b) := by
  intro w h
  have h : putF d 16 (putF a 8 (putF b 0 (0xD000000))) = w := Option.some.inj h
  unfold putF at h
  have l0 := d.isLt; have l1 := a.isLt; have l2 := b.isLt
  refine ⟨by omega, by omega, ?_⟩
  rw [row0 _ (show w / 2 ^ 24 % 256 = 0xD by omega) rfl]
  show Except.ok (Instr.imax pf (bitsAt 8 w 16) (bitsAt 8 w 8) (bitsAt 8 w 0)) = _
  rw [bits_eq (show w / 2 ^ 16 % 2 ^ 8 = d.toNat by omega), bits_eq (show w / 2 ^ 8 % 2 ^ 8 = a.toNat by omega), bits_eq (show w / 2 ^ 0 % 2 ^ 8 = b.toNat by omega)]
theorem imaxNu (pf : Pfx) (d a b : BitVec 8) : Statement (.imaxNu pf d a b) := by
  intro w h
  have h : putF d 16 (putF a 8 (putF b 0 (0xE000000))) = w := Option.some.inj h
  unfold putF at h
  have l0 := d.isLt; have l1 := a.isLt; have l2 := b.isLt
  refine ⟨by omega, by omega, ?_⟩
  rw [row0 _ (show w / 2 ^ 24 % 256 = 0xE by omega) rfl]
  show Except.ok (Instr.imaxNu pf (bitsAt 8 w 16) (bitsAt 8 w 8) (bitsAt 8 w 0)) = _
  rw [bits_eq (show w / 2 ^ 16 % 2 ^ 8 = d.toNat by omega), bits_eq (show w / 2 ^ 8 % 2 ^ 8 = a.toNat by omega), bits_eq (show w / 2 ^ 0 % 2 ^ 8 = b.toNat by omega)]
theorem lea (pf : Pfx) (d a b : BitVec 8) : Statement (.lea pf d a b) := by
  intro w h
  have h : putF d 16 (putF a 8 (putF b 0 (0xF000000))) = w := Option.some.inj h
  unfold putF at h
  have l0 := d.isLt; have l1 := a.isLt; have l2 := b.isLt
  refine ⟨by omega, by omega, ?_⟩
  rw [row0 _ (show w / 2 ^ 24 % 256 = 0xF by omega) rfl]
  show Except.ok (Instr.lea pf (bitsAt 8 w 16) (bitsAt 8 w 8) (bitsAt 8 w 0)) = _
  rw [bits_eq (show w / 2 ^ 16 % 2 ^ 8 = d.toNat by omega), bits_eq (show w / 2 ^ 8 % 2 ^ 8 = a.toNat by omega), bits_eq (show w / 2 ^ 0 % 2 ^ 8 = b.toNat by omega)]
theorem and (pf : Pfx) (d a b : BitVec 8) : Statement (.and pf d a b) := by
  intro w h
  have h : putF d 16 (putF a 8 (putF b 0 (0x10000000))) = w := Option.some.inj h
  unfold putF at h
  have l0 := d.isLt; have l1 := a.isLt; have l2 := b.isLt
  refine ⟨by omega, by omega, ?_⟩
  rw [row1 _ (show w / 2 ^ 24 % 256 = 0x10 by omega) rfl]
  show Except.ok (Instr.and pf (bitsAt 8 w 16) (bitsAt 8 w 8) (bitsAt 8 w 0)) = _
  rw [bits_eq (show w / 2 ^ 16 % 2 ^ 8 = d.toNat by omega), bits_eq (show w / 2 ^ 8 % 2 ^ 8 = a.toNat by omega), bits_eq (show w / 2 ^ 0 % 2 ^ 8 = b.toNat by omega)]
theorem or (pf : Pfx) (d a b : BitVec 8) : Statement (.or pf d a b) := by
  intro w h
  have h : putF d 16 (putF a 8 (putF b 0 (0x11000000))) = w := Option.some.inj h
  unfold putF at h
  have l0 := d.isLt; have l1 := a.isLt; have l2 := b.isLt
  refine ⟨by omega, by omega, ?_⟩
  rw [row1 _ (show w / 2 ^ 24 % 256 = 0x11 by omega) rfl]
  show Except.ok (Instr.or pf (bitsAt 8 w 16) (bitsAt 8 w 8) (bitsAt 8 w 0)) = _
  rw [bits_eq (show w / 2 ^ 16 % 2 ^ 8 = d.toNat by omega), bits_eq (show w / 2 ^ 8 % 2 ^ 8 = a.toNat by omega), bits_eq (show w / 2 ^ 0 % 2 ^ 8 = b.toNat by omega)]
theorem xor (pf : Pfx) (d a b : BitVec 8) : Statement (.xor pf d a b) := by
  intro w h
  have h : putF d 16 (putF a 8 (putF b 0 (0x12000000))) = w := Option.some.inj h
  unfold putF at h
  have l0 := d.isLt; have l1 := a.isLt; have l2 := b.isLt
  refine ⟨by omega, by omega, ?_⟩
  rw [row1 _ (show w / 2 ^ 24 % 256 = 0x12 by omega) rfl]
  show Except.ok (Instr.xor pf (bitsAt 8 w 16) (bitsAt 8 w 8) (bitsAt 8 w 0)) = _
  rw [bits_eq (show w / 2 ^ 16 % 2 ^ 8 = d.toNat by omega), bits_eq (show w / 2 ^ 8 % 2 ^ 8 = a.toNat by omega), bits_eq (show w / 2 ^ 0 % 2 ^ 8 = b.toNat by omega)]
theorem andn (pf : Pfx) (d a b : BitVec 8) : Statement (.andn pf d a b) := by
  intro w h
  have h : putF d 16 (putF a 8 (putF b 0 (0x13000000))) = w := Option.some.inj h
  unfold putF at h
  have l0 := d.isLt; have l1 := a.isLt; have l2 := b.isLt
  refine ⟨by omega, by omega, ?_⟩
  rw [row1 _ (show w / 2 ^ 24 % 256 = 0x13 by omega) rfl]
  show Except.ok (Instr.andn pf (bitsAt 8 w 16) (bitsAt 8 w 8) (bitsAt 8 w 0)) = _
  rw [bits_eq (show w / 2 ^ 16 % 2 ^ 8 = d.toNat by omega), bits_eq (show w / 2 ^ 8 % 2 ^ 8 = a.toNat by omega), bits_eq (show w / 2 ^ 0 % 2 ^ 8 = b.toNat by omega)]
theorem shl (pf : Pfx) (d a b : BitVec 8) : Statement (.shl pf d a b) := by
  intro w h
  have h : putF d 16 (putF a 8 (putF b 0 (0x14000000))) = w := Option.some.inj h
  unfold putF at h
  have l0 := d.isLt; have l1 := a.isLt; have l2 := b.isLt
  refine ⟨by omega, by omega, ?_⟩
  rw [row1 _ (show w / 2 ^ 24 % 256 = 0x14 by omega) rfl]
  show Except.ok (Instr.shl pf (bitsAt 8 w 16) (bitsAt 8 w 8) (bitsAt 8 w 0)) = _
  rw [bits_eq (show w / 2 ^ 16 % 2 ^ 8 = d.toNat by omega), bits_eq (show w / 2 ^ 8 % 2 ^ 8 = a.toNat by omega), bits_eq (show w / 2 ^ 0 % 2 ^ 8 = b.toNat by omega)]
theorem shr (pf : Pfx) (d a b : BitVec 8) : Statement (.shr pf d a b) := by
  intro w h
  have h : putF d 16 (putF a 8 (putF b 0 (0x15000000))) = w := Option.some.inj h
  unfold putF at h
  have l0 := d.isLt; have l1 := a.isLt; have l2 := b.isLt
  refine ⟨by omega, by omega, ?_⟩
  rw [row1 _ (show w / 2 ^ 24 % 256 = 0x15 by omega) rfl]
  show Except.ok (Instr.shr pf (bitsAt 8 w 16) (bitsAt 8 w 8) (bitsAt 8 w 0)) = _
  rw [bits_eq (show w / 2 ^ 16 % 2 ^ 8 = d.toNat by omega), bits_eq (show w / 2 ^ 8 % 2 ^ 8 = a.toNat by omega), bits_eq (show w / 2 ^ 0 % 2 ^ 8 = b.toNat by omega)]
theorem sar (pf : Pfx) (d a b : BitVec 8) : Statement (.sar pf d a b) := by
  intro w h
  have h : putF d 16 (putF a 8 (putF b 0 (0x16000000))) = w := Option.some.inj h
  unfold putF at h
  have l0 := d.isLt; have l1 := a.isLt; have l2 := b.isLt
  refine ⟨by omega, by omega, ?_⟩
  rw [row1 _ (show w / 2 ^ 24 % 256 = 0x16 by omega) rfl]
  show Except.ok (Instr.sar pf (bitsAt 8 w 16) (bitsAt 8 w 8) (bitsAt 8 w 0)) = _
  rw [bits_eq (show w / 2 ^ 16 % 2 ^ 8 = d.toNat by omega), bits_eq (show w / 2 ^ 8 % 2 ^ 8 = a.toNat by omega), bits_eq (show w / 2 ^ 0 % 2 ^ 8 = b.toNat by omega)]
theorem rot (pf : Pfx) (d a b : BitVec 8) : Statement (.rot pf d a b) := by
  intro w h
  have h : putF d 16 (putF a 8 (putF b 0 (0x17000000))) = w := Option.some.inj h
  unfold putF at h
  have l0 := d.isLt; have l1 := a.isLt; have l2 := b.isLt
  refine ⟨by omega, by omega, ?_⟩
  rw [row1 _ (show w / 2 ^ 24 % 256 = 0x17 by omega) rfl]
  show Except.ok (Instr.rot pf (bitsAt 8 w 16) (bitsAt 8 w 8) (bitsAt 8 w 0)) = _
  rw [bits_eq (show w / 2 ^ 16 % 2 ^ 8 = d.toNat by omega), bits_eq (show w / 2 ^ 8 % 2 ^ 8 = a.toNat by omega), bits_eq (show w / 2 ^ 0 % 2 ^ 8 = b.toNat by omega)]
theorem funnel (pf : Pfx) (d a b : BitVec 8) : Statement (.funnel pf d a b) := by
  intro w h
  have h : putF d 16 (putF a 8 (putF b 0 (0x18000000))) = w := Option.some.inj h
  unfold putF at h
  have l0 := d.isLt; have l1 := a.isLt; have l2 := b.isLt
  refine ⟨by omega, by omega, ?_⟩
  rw [row1 _ (show w / 2 ^ 24 % 256 = 0x18 by omega) rfl]
  show Except.ok (Instr.funnel pf (bitsAt 8 w 16) (bitsAt 8 w 8) (bitsAt 8 w 0)) = _
  rw [bits_eq (show w / 2 ^ 16 % 2 ^ 8 = d.toNat by omega), bits_eq (show w / 2 ^ 8 % 2 ^ 8 = a.toNat by omega), bits_eq (show w / 2 ^ 0 % 2 ^ 8 = b.toNat by omega)]
theorem bfe (pf : Pfx) (d a b : BitVec 8) : Statement (.bfe pf d a b) := by
  intro w h
  have h : putF d 16 (putF a 8 (putF b 0 (0x19000000))) = w := Option.some.inj h
  unfold putF at h
  have l0 := d.isLt; have l1 := a.isLt; have l2 := b.isLt
  refine ⟨by omega, by omega, ?_⟩
  rw [row1 _ (show w / 2 ^ 24 % 256 = 0x19 by omega) rfl]
  show Except.ok (Instr.bfe pf (bitsAt 8 w 16) (bitsAt 8 w 8) (bitsAt 8 w 0)) = _
  rw [bits_eq (show w / 2 ^ 16 % 2 ^ 8 = d.toNat by omega), bits_eq (show w / 2 ^ 8 % 2 ^ 8 = a.toNat by omega), bits_eq (show w / 2 ^ 0 % 2 ^ 8 = b.toNat by omega)]
theorem bfi (pf : Pfx) (d a b : BitVec 8) : Statement (.bfi pf d a b) := by
  intro w h
  have h : putF d 16 (putF a 8 (putF b 0 (0x1A000000))) = w := Option.some.inj h
  unfold putF at h
  have l0 := d.isLt; have l1 := a.isLt; have l2 := b.isLt
  refine ⟨by omega, by omega, ?_⟩
  rw [row1 _ (show w / 2 ^ 24 % 256 = 0x1A by omega) rfl]
  show Except.ok (Instr.bfi pf (bitsAt 8 w 16) (bitsAt 8 w 8) (bitsAt 8 w 0)) = _
  rw [bits_eq (show w / 2 ^ 16 % 2 ^ 8 = d.toNat by omega), bits_eq (show w / 2 ^ 8 % 2 ^ 8 = a.toNat by omega), bits_eq (show w / 2 ^ 0 % 2 ^ 8 = b.toNat by omega)]
theorem popc (pf : Pfx) (d a : BitVec 8) : Statement (.popc pf d a) := by
  intro w h
  have h : putF d 16 (putF a 8 (0x1B000000)) = w := Option.some.inj h
  unfold putF at h
  have l0 := d.isLt; have l1 := a.isLt
  refine ⟨by omega, by omega, ?_⟩
  rw [row1 _ (show w / 2 ^ 24 % 256 = 0x1B by omega) rfl]
  show whenZero (fld w 7 0) (.popc pf (bitsAt 8 w 16) (bitsAt 8 w 8)) = _
  rw [bits_eq (show w / 2 ^ 16 % 2 ^ 8 = d.toNat by omega), bits_eq (show w / 2 ^ 8 % 2 ^ 8 = a.toNat by omega)]
  exact whenZero_ok (by unfold fld; omega)
theorem clz (pf : Pfx) (d a : BitVec 8) : Statement (.clz pf d a) := by
  intro w h
  have h : putF d 16 (putF a 8 (0x1C000000)) = w := Option.some.inj h
  unfold putF at h
  have l0 := d.isLt; have l1 := a.isLt
  refine ⟨by omega, by omega, ?_⟩
  rw [row1 _ (show w / 2 ^ 24 % 256 = 0x1C by omega) rfl]
  show whenZero (fld w 7 0) (.clz pf (bitsAt 8 w 16) (bitsAt 8 w 8)) = _
  rw [bits_eq (show w / 2 ^ 16 % 2 ^ 8 = d.toNat by omega), bits_eq (show w / 2 ^ 8 % 2 ^ 8 = a.toNat by omega)]
  exact whenZero_ok (by unfold fld; omega)
theorem ctz (pf : Pfx) (d a : BitVec 8) : Statement (.ctz pf d a) := by
  intro w h
  have h : putF d 16 (putF a 8 (0x1D000000)) = w := Option.some.inj h
  unfold putF at h
  have l0 := d.isLt; have l1 := a.isLt
  refine ⟨by omega, by omega, ?_⟩
  rw [row1 _ (show w / 2 ^ 24 % 256 = 0x1D by omega) rfl]
  show whenZero (fld w 7 0) (.ctz pf (bitsAt 8 w 16) (bitsAt 8 w 8)) = _
  rw [bits_eq (show w / 2 ^ 16 % 2 ^ 8 = d.toNat by omega), bits_eq (show w / 2 ^ 8 % 2 ^ 8 = a.toNat by omega)]
  exact whenZero_ok (by unfold fld; omega)
theorem brev (pf : Pfx) (d a : BitVec 8) : Statement (.brev pf d a) := by
  intro w h
  have h : putF d 16 (putF a 8 (0x1E000000)) = w := Option.some.inj h
  unfold putF at h
  have l0 := d.isLt; have l1 := a.isLt
  refine ⟨by omega, by omega, ?_⟩
  rw [row1 _ (show w / 2 ^ 24 % 256 = 0x1E by omega) rfl]
  show whenZero (fld w 7 0) (.brev pf (bitsAt 8 w 16) (bitsAt 8 w 8)) = _
  rw [bits_eq (show w / 2 ^ 16 % 2 ^ 8 = d.toNat by omega), bits_eq (show w / 2 ^ 8 % 2 ^ 8 = a.toNat by omega)]
  exact whenZero_ok (by unfold fld; omega)
theorem mov (pf : Pfx) (d a : BitVec 8) : Statement (.mov pf d a) := by
  intro w h
  have h : putF d 16 (putF a 8 (0x1F000000)) = w := Option.some.inj h
  unfold putF at h
  have l0 := d.isLt; have l1 := a.isLt
  refine ⟨by omega, by omega, ?_⟩
  rw [row1 _ (show w / 2 ^ 24 % 256 = 0x1F by omega) rfl]
  show whenZero (fld w 7 0) (.mov pf (bitsAt 8 w 16) (bitsAt 8 w 8)) = _
  rw [bits_eq (show w / 2 ^ 16 % 2 ^ 8 = d.toNat by omega), bits_eq (show w / 2 ^ 8 % 2 ^ 8 = a.toNat by omega)]
  exact whenZero_ok (by unfold fld; omega)
theorem sel (pf : Pfx) (d a b : BitVec 8) : Statement (.sel pf d a b) := by
  intro w h
  have h : putF d 16 (putF a 8 (putF b 0 (0x20000000))) = w := Option.some.inj h
  unfold putF at h
  have l0 := d.isLt; have l1 := a.isLt; have l2 := b.isLt
  refine ⟨by omega, by omega, ?_⟩
  rw [row2 _ (show w / 2 ^ 24 % 256 = 0x20 by omega) rfl]
  show Except.ok (Instr.sel pf (bitsAt 8 w 16) (bitsAt 8 w 8) (bitsAt 8 w 0)) = _
  rw [bits_eq (show w / 2 ^ 16 % 2 ^ 8 = d.toNat by omega), bits_eq (show w / 2 ^ 8 % 2 ^ 8 = a.toNat by omega), bits_eq (show w / 2 ^ 0 % 2 ^ 8 = b.toNat by omega)]
theorem isetp (pf : Pfx) (c : BitVec 5) (p : BitVec 3) (a b : BitVec 8) : Statement (.isetp pf c p a b) := by
  intro w h
  have h : putF c 19 (putF p 16 (putF a 8 (putF b 0 (0x21000000)))) = w := Option.some.inj h
  unfold putF at h
  have l0 := c.isLt; have l1 := p.isLt; have l2 := a.isLt; have l3 := b.isLt
  refine ⟨by omega, by omega, ?_⟩
  rw [row2 _ (show w / 2 ^ 24 % 256 = 0x21 by omega) rfl]
  show Except.ok (Instr.isetp pf (bitsAt 5 w 19) (bitsAt 3 w 16) (bitsAt 8 w 8) (bitsAt 8 w 0)) = _
  rw [bits_eq (show w / 2 ^ 19 % 2 ^ 5 = c.toNat by omega), bits_eq (show w / 2 ^ 16 % 2 ^ 3 = p.toNat by omega), bits_eq (show w / 2 ^ 8 % 2 ^ 8 = a.toNat by omega), bits_eq (show w / 2 ^ 0 % 2 ^ 8 = b.toNat by omega)]
theorem isetp64 (pf : Pfx) (c : BitVec 5) (p : BitVec 3) (a b : BitVec 8) : Statement (.isetp64 pf c p a b) := by
  intro w h
  have h : putF c 19 (putF p 16 (putF a 8 (putF b 0 (0x22000000)))) = w := Option.some.inj h
  unfold putF at h
  have l0 := c.isLt; have l1 := p.isLt; have l2 := a.isLt; have l3 := b.isLt
  refine ⟨by omega, by omega, ?_⟩
  rw [row2 _ (show w / 2 ^ 24 % 256 = 0x22 by omega) rfl]
  show Except.ok (Instr.isetp64 pf (bitsAt 5 w 19) (bitsAt 3 w 16) (bitsAt 8 w 8) (bitsAt 8 w 0)) = _
  rw [bits_eq (show w / 2 ^ 19 % 2 ^ 5 = c.toNat by omega), bits_eq (show w / 2 ^ 16 % 2 ^ 3 = p.toNat by omega), bits_eq (show w / 2 ^ 8 % 2 ^ 8 = a.toNat by omega), bits_eq (show w / 2 ^ 0 % 2 ^ 8 = b.toNat by omega)]
theorem psetp (pf : Pfx) (c : BitVec 5) (p x y : BitVec 3) : Statement (.psetp pf c p x y) := by
  intro w h
  have h : putF c 19 (putF p 16 (putF x 8 (putF y 0 (0x23000000)))) = w := Option.some.inj h
  unfold putF at h
  have l0 := c.isLt; have l1 := p.isLt; have l2 := x.isLt; have l3 := y.isLt
  refine ⟨by omega, by omega, ?_⟩
  rw [row2 _ (show w / 2 ^ 24 % 256 = 0x23 by omega) rfl]
  show whenZero (fld w 7 3 + fld w 15 11) (.psetp pf (bitsAt 5 w 19) (bitsAt 3 w 16) (bitsAt 3 w 8) (bitsAt 3 w 0)) = _
  rw [bits_eq (show w / 2 ^ 19 % 2 ^ 5 = c.toNat by omega), bits_eq (show w / 2 ^ 16 % 2 ^ 3 = p.toNat by omega), bits_eq (show w / 2 ^ 8 % 2 ^ 3 = x.toNat by omega), bits_eq (show w / 2 ^ 0 % 2 ^ 3 = y.toNat by omega)]
  exact whenZero_ok (by unfold fld; omega)
theorem movi (pf : Pfx) (d : BitVec 8) (i : BitVec 16) : Statement (.movi pf d i) := by
  intro w h
  have h : putF d 16 (putF i 0 (0x24000000)) = w := Option.some.inj h
  unfold putF at h
  have l0 := d.isLt; have l1 := i.isLt
  refine ⟨by omega, by omega, ?_⟩
  rw [row2 _ (show w / 2 ^ 24 % 256 = 0x24 by omega) rfl]
  show Except.ok (Instr.movi pf (bitsAt 8 w 16) (bitsAt 16 w 0)) = _
  rw [bits_eq (show w / 2 ^ 16 % 2 ^ 8 = d.toNat by omega), bits_eq (show w / 2 ^ 0 % 2 ^ 16 = i.toNat by omega)]
theorem movhi (pf : Pfx) (d : BitVec 8) (i : BitVec 16) : Statement (.movhi pf d i) := by
  intro w h
  have h : putF d 16 (putF i 0 (0x25000000)) = w := Option.some.inj h
  unfold putF at h
  have l0 := d.isLt; have l1 := i.isLt
  refine ⟨by omega, by omega, ?_⟩
  rw [row2 _ (show w / 2 ^ 24 % 256 = 0x25 by omega) rfl]
  show Except.ok (Instr.movhi pf (bitsAt 8 w 16) (bitsAt 16 w 0)) = _
  rw [bits_eq (show w / 2 ^ 16 % 2 ^ 8 = d.toNat by omega), bits_eq (show w / 2 ^ 0 % 2 ^ 16 = i.toNat by omega)]
theorem idot4 (pf : Pfx) (d a b : BitVec 8) : Statement (.idot4 pf d a b) := by
  intro w h
  have h : putF d 16 (putF a 8 (putF b 0 (0x26000000))) = w := Option.some.inj h
  unfold putF at h
  have l0 := d.isLt; have l1 := a.isLt; have l2 := b.isLt
  refine ⟨by omega, by omega, ?_⟩
  rw [row2 _ (show w / 2 ^ 24 % 256 = 0x26 by omega) rfl]
  show Except.ok (Instr.idot4 pf (bitsAt 8 w 16) (bitsAt 8 w 8) (bitsAt 8 w 0)) = _
  rw [bits_eq (show w / 2 ^ 16 % 2 ^ 8 = d.toNat by omega), bits_eq (show w / 2 ^ 8 % 2 ^ 8 = a.toNat by omega), bits_eq (show w / 2 ^ 0 % 2 ^ 8 = b.toNat by omega)]
theorem dmuls (pf : Pfx) (d a b : BitVec 8) : Statement (.dmuls pf d a b) := by
  intro w h
  have h : putF d 16 (putF a 8 (putF b 0 (0x27000000))) = w := Option.some.inj h
  unfold putF at h
  have l0 := d.isLt; have l1 := a.isLt; have l2 := b.isLt
  refine ⟨by omega, by omega, ?_⟩
  rw [row2 _ (show w / 2 ^ 24 % 256 = 0x27 by omega) rfl]
  show Except.ok (Instr.dmuls pf (bitsAt 8 w 16) (bitsAt 8 w 8) (bitsAt 8 w 0)) = _
  rw [bits_eq (show w / 2 ^ 16 % 2 ^ 8 = d.toNat by omega), bits_eq (show w / 2 ^ 8 % 2 ^ 8 = a.toNat by omega), bits_eq (show w / 2 ^ 0 % 2 ^ 8 = b.toNat by omega)]
theorem hash (pf : Pfx) (d a b : BitVec 8) : Statement (.hash pf d a b) := by
  intro w h
  have h : putF d 16 (putF a 8 (putF b 0 (0x28000000))) = w := Option.some.inj h
  unfold putF at h
  have l0 := d.isLt; have l1 := a.isLt; have l2 := b.isLt
  refine ⟨by omega, by omega, ?_⟩
  rw [row2 _ (show w / 2 ^ 24 % 256 = 0x28 by omega) rfl]
  show Except.ok (Instr.hash pf (bitsAt 8 w 16) (bitsAt 8 w 8) (bitsAt 8 w 0)) = _
  rw [bits_eq (show w / 2 ^ 16 % 2 ^ 8 = d.toNat by omega), bits_eq (show w / 2 ^ 8 % 2 ^ 8 = a.toNat by omega), bits_eq (show w / 2 ^ 0 % 2 ^ 8 = b.toNat by omega)]
theorem hcomb (pf : Pfx) (d a b : BitVec 8) : Statement (.hcomb pf d a b) := by
  intro w h
  have h : putF d 16 (putF a 8 (putF b 0 (0x29000000))) = w := Option.some.inj h
  unfold putF at h
  have l0 := d.isLt; have l1 := a.isLt; have l2 := b.isLt
  refine ⟨by omega, by omega, ?_⟩
  rw [row2 _ (show w / 2 ^ 24 % 256 = 0x29 by omega) rfl]
  show Except.ok (Instr.hcomb pf (bitsAt 8 w 16) (bitsAt 8 w 8) (bitsAt 8 w 0)) = _
  rw [bits_eq (show w / 2 ^ 16 % 2 ^ 8 = d.toNat by omega), bits_eq (show w / 2 ^ 8 % 2 ^ 8 = a.toNat by omega), bits_eq (show w / 2 ^ 0 % 2 ^ 8 = b.toNat by omega)]
theorem part (pf : Pfx) (d a b : BitVec 8) : Statement (.part pf d a b) := by
  intro w h
  have h : putF d 16 (putF a 8 (putF b 0 (0x2A000000))) = w := Option.some.inj h
  unfold putF at h
  have l0 := d.isLt; have l1 := a.isLt; have l2 := b.isLt
  refine ⟨by omega, by omega, ?_⟩
  rw [row2 _ (show w / 2 ^ 24 % 256 = 0x2A by omega) rfl]
  show Except.ok (Instr.part pf (bitsAt 8 w 16) (bitsAt 8 w 8) (bitsAt 8 w 0)) = _
  rw [bits_eq (show w / 2 ^ 16 % 2 ^ 8 = d.toNat by omega), bits_eq (show w / 2 ^ 8 % 2 ^ 8 = a.toNat by omega), bits_eq (show w / 2 ^ 0 % 2 ^ 8 = b.toNat by omega)]
theorem bloom (pf : Pfx) (d a b : BitVec 8) : Statement (.bloom pf d a b) := by
  intro w h
  have h : putF d 16 (putF a 8 (putF b 0 (0x2B000000))) = w := Option.some.inj h
  unfold putF at h
  have l0 := d.isLt; have l1 := a.isLt; have l2 := b.isLt
  refine ⟨by omega, by omega, ?_⟩
  rw [row2 _ (show w / 2 ^ 24 % 256 = 0x2B by omega) rfl]
  show Except.ok (Instr.bloom pf (bitsAt 8 w 16) (bitsAt 8 w 8) (bitsAt 8 w 0)) = _
  rw [bits_eq (show w / 2 ^ 16 % 2 ^ 8 = d.toNat by omega), bits_eq (show w / 2 ^ 8 % 2 ^ 8 = a.toNat by omega), bits_eq (show w / 2 ^ 0 % 2 ^ 8 = b.toNat by omega)]
theorem scmp (pf : Pfx) (d a b : BitVec 8) : Statement (.scmp pf d a b) := by
  intro w h
  have h : putF d 16 (putF a 8 (putF b 0 (0x2C000000))) = w := Option.some.inj h
  unfold putF at h
  have l0 := d.isLt; have l1 := a.isLt; have l2 := b.isLt
  refine ⟨by omega, by omega, ?_⟩
  rw [row2 _ (show w / 2 ^ 24 % 256 = 0x2C by omega) rfl]
  show Except.ok (Instr.scmp pf (bitsAt 8 w 16) (bitsAt 8 w 8) (bitsAt 8 w 0)) = _
  rw [bits_eq (show w / 2 ^ 16 % 2 ^ 8 = d.toNat by omega), bits_eq (show w / 2 ^ 8 % 2 ^ 8 = a.toNat by omega), bits_eq (show w / 2 ^ 0 % 2 ^ 8 = b.toNat by omega)]
theorem sfind (pf : Pfx) (d a b : BitVec 8) : Statement (.sfind pf d a b) := by
  intro w h
  have h : putF d 16 (putF a 8 (putF b 0 (0x2D000000))) = w := Option.some.inj h
  unfold putF at h
  have l0 := d.isLt; have l1 := a.isLt; have l2 := b.isLt
  refine ⟨by omega, by omega, ?_⟩
  rw [row2 _ (show w / 2 ^ 24 % 256 = 0x2D by omega) rfl]
  show Except.ok (Instr.sfind pf (bitsAt 8 w 16) (bitsAt 8 w 8) (bitsAt 8 w 0)) = _
  rw [bits_eq (show w / 2 ^ 16 % 2 ^ 8 = d.toNat by omega), bits_eq (show w / 2 ^ 8 % 2 ^ 8 = a.toNat by omega), bits_eq (show w / 2 ^ 0 % 2 ^ 8 = b.toNat by omega)]
theorem slen (pf : Pfx) (d a : BitVec 8) : Statement (.slen pf d a) := by
  intro w h
  have h : putF d 16 (putF a 8 (0x2E000000)) = w := Option.some.inj h
  unfold putF at h
  have l0 := d.isLt; have l1 := a.isLt
  refine ⟨by omega, by omega, ?_⟩
  rw [row2 _ (show w / 2 ^ 24 % 256 = 0x2E by omega) rfl]
  show whenZero (fld w 7 0) (.slen pf (bitsAt 8 w 16) (bitsAt 8 w 8)) = _
  rw [bits_eq (show w / 2 ^ 16 % 2 ^ 8 = d.toNat by omega), bits_eq (show w / 2 ^ 8 % 2 ^ 8 = a.toNat by omega)]
  exact whenZero_ok (by unfold fld; omega)
theorem shash (pf : Pfx) (d a b : BitVec 8) : Statement (.shash pf d a b) := by
  intro w h
  have h : putF d 16 (putF a 8 (putF b 0 (0x2F000000))) = w := Option.some.inj h
  unfold putF at h
  have l0 := d.isLt; have l1 := a.isLt; have l2 := b.isLt
  refine ⟨by omega, by omega, ?_⟩
  rw [row2 _ (show w / 2 ^ 24 % 256 = 0x2F by omega) rfl]
  show Except.ok (Instr.shash pf (bitsAt 8 w 16) (bitsAt 8 w 8) (bitsAt 8 w 0)) = _
  rw [bits_eq (show w / 2 ^ 16 % 2 ^ 8 = d.toNat by omega), bits_eq (show w / 2 ^ 8 % 2 ^ 8 = a.toNat by omega), bits_eq (show w / 2 ^ 0 % 2 ^ 8 = b.toNat by omega)]
theorem fadd (pf : Pfx) (d a b : BitVec 8) : Statement (.fadd pf d a b) := by
  intro w h
  have h : putF d 16 (putF a 8 (putF b 0 (0x30000000))) = w := Option.some.inj h
  unfold putF at h
  have l0 := d.isLt; have l1 := a.isLt; have l2 := b.isLt
  refine ⟨by omega, by omega, ?_⟩
  rw [row3 _ (show w / 2 ^ 24 % 256 = 0x30 by omega) rfl]
  show Except.ok (Instr.fadd pf (bitsAt 8 w 16) (bitsAt 8 w 8) (bitsAt 8 w 0)) = _
  rw [bits_eq (show w / 2 ^ 16 % 2 ^ 8 = d.toNat by omega), bits_eq (show w / 2 ^ 8 % 2 ^ 8 = a.toNat by omega), bits_eq (show w / 2 ^ 0 % 2 ^ 8 = b.toNat by omega)]
theorem fmul (pf : Pfx) (d a b : BitVec 8) : Statement (.fmul pf d a b) := by
  intro w h
  have h : putF d 16 (putF a 8 (putF b 0 (0x31000000))) = w := Option.some.inj h
  unfold putF at h
  have l0 := d.isLt; have l1 := a.isLt; have l2 := b.isLt
  refine ⟨by omega, by omega, ?_⟩
  rw [row3 _ (show w / 2 ^ 24 % 256 = 0x31 by omega) rfl]
  show Except.ok (Instr.fmul pf (bitsAt 8 w 16) (bitsAt 8 w 8) (bitsAt 8 w 0)) = _
  rw [bits_eq (show w / 2 ^ 16 % 2 ^ 8 = d.toNat by omega), bits_eq (show w / 2 ^ 8 % 2 ^ 8 = a.toNat by omega), bits_eq (show w / 2 ^ 0 % 2 ^ 8 = b.toNat by omega)]
theorem ffma (pf : Pfx) (d a b : BitVec 8) : Statement (.ffma pf d a b) := by
  intro w h
  have h : putF d 16 (putF a 8 (putF b 0 (0x32000000))) = w := Option.some.inj h
  unfold putF at h
  have l0 := d.isLt; have l1 := a.isLt; have l2 := b.isLt
  refine ⟨by omega, by omega, ?_⟩
  rw [row3 _ (show w / 2 ^ 24 % 256 = 0x32 by omega) rfl]
  show Except.ok (Instr.ffma pf (bitsAt 8 w 16) (bitsAt 8 w 8) (bitsAt 8 w 0)) = _
  rw [bits_eq (show w / 2 ^ 16 % 2 ^ 8 = d.toNat by omega), bits_eq (show w / 2 ^ 8 % 2 ^ 8 = a.toNat by omega), bits_eq (show w / 2 ^ 0 % 2 ^ 8 = b.toNat by omega)]
theorem fmin (pf : Pfx) (d a b : BitVec 8) : Statement (.fmin pf d a b) := by
  intro w h
  have h : putF d 16 (putF a 8 (putF b 0 (0x33000000))) = w := Option.some.inj h
  unfold putF at h
  have l0 := d.isLt; have l1 := a.isLt; have l2 := b.isLt
  refine ⟨by omega, by omega, ?_⟩
  rw [row3 _ (show w / 2 ^ 24 % 256 = 0x33 by omega) rfl]
  show Except.ok (Instr.fmin pf (bitsAt 8 w 16) (bitsAt 8 w 8) (bitsAt 8 w 0)) = _
  rw [bits_eq (show w / 2 ^ 16 % 2 ^ 8 = d.toNat by omega), bits_eq (show w / 2 ^ 8 % 2 ^ 8 = a.toNat by omega), bits_eq (show w / 2 ^ 0 % 2 ^ 8 = b.toNat by omega)]
theorem fmax (pf : Pfx) (d a b : BitVec 8) : Statement (.fmax pf d a b) := by
  intro w h
  have h : putF d 16 (putF a 8 (putF b 0 (0x34000000))) = w := Option.some.inj h
  unfold putF at h
  have l0 := d.isLt; have l1 := a.isLt; have l2 := b.isLt
  refine ⟨by omega, by omega, ?_⟩
  rw [row3 _ (show w / 2 ^ 24 % 256 = 0x34 by omega) rfl]
  show Except.ok (Instr.fmax pf (bitsAt 8 w 16) (bitsAt 8 w 8) (bitsAt 8 w 0)) = _
  rw [bits_eq (show w / 2 ^ 16 % 2 ^ 8 = d.toNat by omega), bits_eq (show w / 2 ^ 8 % 2 ^ 8 = a.toNat by omega), bits_eq (show w / 2 ^ 0 % 2 ^ 8 = b.toNat by omega)]
theorem fcmp (pf : Pfx) (c : BitVec 5) (p : BitVec 3) (a b : BitVec 8) : Statement (.fcmp pf c p a b) := by
  intro w h
  have h : putF c 19 (putF p 16 (putF a 8 (putF b 0 (0x35000000)))) = w := Option.some.inj h
  unfold putF at h
  have l0 := c.isLt; have l1 := p.isLt; have l2 := a.isLt; have l3 := b.isLt
  refine ⟨by omega, by omega, ?_⟩
  rw [row3 _ (show w / 2 ^ 24 % 256 = 0x35 by omega) rfl]
  show Except.ok (Instr.fcmp pf (bitsAt 5 w 19) (bitsAt 3 w 16) (bitsAt 8 w 8) (bitsAt 8 w 0)) = _
  rw [bits_eq (show w / 2 ^ 19 % 2 ^ 5 = c.toNat by omega), bits_eq (show w / 2 ^ 16 % 2 ^ 3 = p.toNat by omega), bits_eq (show w / 2 ^ 8 % 2 ^ 8 = a.toNat by omega), bits_eq (show w / 2 ^ 0 % 2 ^ 8 = b.toNat by omega)]
theorem fclass (pf : Pfx) (d a : BitVec 8) : Statement (.fclass pf d a) := by
  intro w h
  have h : putF d 16 (putF a 8 (0x36000000)) = w := Option.some.inj h
  unfold putF at h
  have l0 := d.isLt; have l1 := a.isLt
  refine ⟨by omega, by omega, ?_⟩
  rw [row3 _ (show w / 2 ^ 24 % 256 = 0x36 by omega) rfl]
  show whenZero (fld w 7 0) (.fclass pf (bitsAt 8 w 16) (bitsAt 8 w 8)) = _
  rw [bits_eq (show w / 2 ^ 16 % 2 ^ 8 = d.toNat by omega), bits_eq (show w / 2 ^ 8 % 2 ^ 8 = a.toNat by omega)]
  exact whenZero_ok (by unfold fld; omega)
theorem frnd (pf : Pfx) (d a : BitVec 8) : Statement (.frnd pf d a) := by
  intro w h
  have h : putF d 16 (putF a 8 (0x37000000)) = w := Option.some.inj h
  unfold putF at h
  have l0 := d.isLt; have l1 := a.isLt
  refine ⟨by omega, by omega, ?_⟩
  rw [row3 _ (show w / 2 ^ 24 % 256 = 0x37 by omega) rfl]
  show whenZero (fld w 7 0) (.frnd pf (bitsAt 8 w 16) (bitsAt 8 w 8)) = _
  rw [bits_eq (show w / 2 ^ 16 % 2 ^ 8 = d.toNat by omega), bits_eq (show w / 2 ^ 8 % 2 ^ 8 = a.toNat by omega)]
  exact whenZero_ok (by unfold fld; omega)
theorem hadd2 (pf : Pfx) (d a b : BitVec 8) : Statement (.hadd2 pf d a b) := by
  intro w h
  have h : putF d 16 (putF a 8 (putF b 0 (0x38000000))) = w := Option.some.inj h
  unfold putF at h
  have l0 := d.isLt; have l1 := a.isLt; have l2 := b.isLt
  refine ⟨by omega, by omega, ?_⟩
  rw [row3 _ (show w / 2 ^ 24 % 256 = 0x38 by omega) rfl]
  show Except.ok (Instr.hadd2 pf (bitsAt 8 w 16) (bitsAt 8 w 8) (bitsAt 8 w 0)) = _
  rw [bits_eq (show w / 2 ^ 16 % 2 ^ 8 = d.toNat by omega), bits_eq (show w / 2 ^ 8 % 2 ^ 8 = a.toNat by omega), bits_eq (show w / 2 ^ 0 % 2 ^ 8 = b.toNat by omega)]
theorem hmul2 (pf : Pfx) (d a b : BitVec 8) : Statement (.hmul2 pf d a b) := by
  intro w h
  have h : putF d 16 (putF a 8 (putF b 0 (0x39000000))) = w := Option.some.inj h
  unfold putF at h
  have l0 := d.isLt; have l1 := a.isLt; have l2 := b.isLt
  refine ⟨by omega, by omega, ?_⟩
  rw [row3 _ (show w / 2 ^ 24 % 256 = 0x39 by omega) rfl]
  show Except.ok (Instr.hmul2 pf (bitsAt 8 w 16) (bitsAt 8 w 8) (bitsAt 8 w 0)) = _
  rw [bits_eq (show w / 2 ^ 16 % 2 ^ 8 = d.toNat by omega), bits_eq (show w / 2 ^ 8 % 2 ^ 8 = a.toNat by omega), bits_eq (show w / 2 ^ 0 % 2 ^ 8 = b.toNat by omega)]
theorem hfma2 (pf : Pfx) (d a b : BitVec 8) : Statement (.hfma2 pf d a b) := by
  intro w h
  have h : putF d 16 (putF a 8 (putF b 0 (0x3A000000))) = w := Option.some.inj h
  unfold putF at h
  have l0 := d.isLt; have l1 := a.isLt; have l2 := b.isLt
  refine ⟨by omega, by omega, ?_⟩
  rw [row3 _ (show w / 2 ^ 24 % 256 = 0x3A by omega) rfl]
  show Except.ok (Instr.hfma2 pf (bitsAt 8 w 16) (bitsAt 8 w 8) (bitsAt 8 w 0)) = _
  rw [bits_eq (show w / 2 ^ 16 % 2 ^ 8 = d.toNat by omega), bits_eq (show w / 2 ^ 8 % 2 ^ 8 = a.toNat by omega), bits_eq (show w / 2 ^ 0 % 2 ^ 8 = b.toNat by omega)]
theorem bdot2 (pf : Pfx) (d a b : BitVec 8) : Statement (.bdot2 pf d a b) := by
  intro w h
  have h : putF d 16 (putF a 8 (putF b 0 (0x3B000000))) = w := Option.some.inj h
  unfold putF at h
  have l0 := d.isLt; have l1 := a.isLt; have l2 := b.isLt
  refine ⟨by omega, by omega, ?_⟩
  rw [row3 _ (show w / 2 ^ 24 % 256 = 0x3B by omega) rfl]
  show Except.ok (Instr.bdot2 pf (bitsAt 8 w 16) (bitsAt 8 w 8) (bitsAt 8 w 0)) = _
  rw [bits_eq (show w / 2 ^ 16 % 2 ^ 8 = d.toNat by omega), bits_eq (show w / 2 ^ 8 % 2 ^ 8 = a.toNat by omega), bits_eq (show w / 2 ^ 0 % 2 ^ 8 = b.toNat by omega)]
theorem dadd (pf : Pfx) (d a b : BitVec 8) : Statement (.dadd pf d a b) := by
  intro w h
  have h : putF d 16 (putF a 8 (putF b 0 (0x3C000000))) = w := Option.some.inj h
  unfold putF at h
  have l0 := d.isLt; have l1 := a.isLt; have l2 := b.isLt
  refine ⟨by omega, by omega, ?_⟩
  rw [row3 _ (show w / 2 ^ 24 % 256 = 0x3C by omega) rfl]
  show Except.ok (Instr.dadd pf (bitsAt 8 w 16) (bitsAt 8 w 8) (bitsAt 8 w 0)) = _
  rw [bits_eq (show w / 2 ^ 16 % 2 ^ 8 = d.toNat by omega), bits_eq (show w / 2 ^ 8 % 2 ^ 8 = a.toNat by omega), bits_eq (show w / 2 ^ 0 % 2 ^ 8 = b.toNat by omega)]
theorem dmul (pf : Pfx) (d a b : BitVec 8) : Statement (.dmul pf d a b) := by
  intro w h
  have h : putF d 16 (putF a 8 (putF b 0 (0x3D000000))) = w := Option.some.inj h
  unfold putF at h
  have l0 := d.isLt; have l1 := a.isLt; have l2 := b.isLt
  refine ⟨by omega, by omega, ?_⟩
  rw [row3 _ (show w / 2 ^ 24 % 256 = 0x3D by omega) rfl]
  show Except.ok (Instr.dmul pf (bitsAt 8 w 16) (bitsAt 8 w 8) (bitsAt 8 w 0)) = _
  rw [bits_eq (show w / 2 ^ 16 % 2 ^ 8 = d.toNat by omega), bits_eq (show w / 2 ^ 8 % 2 ^ 8 = a.toNat by omega), bits_eq (show w / 2 ^ 0 % 2 ^ 8 = b.toNat by omega)]
theorem dfma (pf : Pfx) (d a b : BitVec 8) : Statement (.dfma pf d a b) := by
  intro w h
  have h : putF d 16 (putF a 8 (putF b 0 (0x3E000000))) = w := Option.some.inj h
  unfold putF at h
  have l0 := d.isLt; have l1 := a.isLt; have l2 := b.isLt
  refine ⟨by omega, by omega, ?_⟩
  rw [row3 _ (show w / 2 ^ 24 % 256 = 0x3E by omega) rfl]
  show Except.ok (Instr.dfma pf (bitsAt 8 w 16) (bitsAt 8 w 8) (bitsAt 8 w 0)) = _
  rw [bits_eq (show w / 2 ^ 16 % 2 ^ 8 = d.toNat by omega), bits_eq (show w / 2 ^ 8 % 2 ^ 8 = a.toNat by omega), bits_eq (show w / 2 ^ 0 % 2 ^ 8 = b.toNat by omega)]
theorem dcmp (pf : Pfx) (c : BitVec 5) (p : BitVec 3) (a b : BitVec 8) : Statement (.dcmp pf c p a b) := by
  intro w h
  have h : putF c 19 (putF p 16 (putF a 8 (putF b 0 (0x3F000000)))) = w := Option.some.inj h
  unfold putF at h
  have l0 := c.isLt; have l1 := p.isLt; have l2 := a.isLt; have l3 := b.isLt
  refine ⟨by omega, by omega, ?_⟩
  rw [row3 _ (show w / 2 ^ 24 % 256 = 0x3F by omega) rfl]
  show Except.ok (Instr.dcmp pf (bitsAt 5 w 19) (bitsAt 3 w 16) (bitsAt 8 w 8) (bitsAt 8 w 0)) = _
  rw [bits_eq (show w / 2 ^ 19 % 2 ^ 5 = c.toNat by omega), bits_eq (show w / 2 ^ 16 % 2 ^ 3 = p.toNat by omega), bits_eq (show w / 2 ^ 8 % 2 ^ 8 = a.toNat by omega), bits_eq (show w / 2 ^ 0 % 2 ^ 8 = b.toNat by omega)]
theorem shfl (pf : Pfx) (d a : BitVec 8) (n f : BitVec 4) : Statement (.shfl pf d a n f) := by
  intro w h
  have h : putF d 16 (putF a 8 (putF n 4 (putF f 0 (0x40000000)))) = w := Option.some.inj h
  unfold putF at h
  have l0 := d.isLt; have l1 := a.isLt; have l2 := n.isLt; have l3 := f.isLt
  refine ⟨by omega, by omega, ?_⟩
  rw [row4 _ (show w / 2 ^ 24 % 256 = 0x40 by omega) rfl]
  show Except.ok (Instr.shfl pf (bitsAt 8 w 16) (bitsAt 8 w 8) (bitsAt 4 w 4) (bitsAt 4 w 0)) = _
  rw [bits_eq (show w / 2 ^ 16 % 2 ^ 8 = d.toNat by omega), bits_eq (show w / 2 ^ 8 % 2 ^ 8 = a.toNat by omega), bits_eq (show w / 2 ^ 4 % 2 ^ 4 = n.toNat by omega), bits_eq (show w / 2 ^ 0 % 2 ^ 4 = f.toNat by omega)]
theorem shflx (pf : Pfx) (d a : BitVec 8) (n f : BitVec 4) : Statement (.shflx pf d a n f) := by
  intro w h
  have h : putF d 16 (putF a 8 (putF n 4 (putF f 0 (0x41000000)))) = w := Option.some.inj h
  unfold putF at h
  have l0 := d.isLt; have l1 := a.isLt; have l2 := n.isLt; have l3 := f.isLt
  refine ⟨by omega, by omega, ?_⟩
  rw [row4 _ (show w / 2 ^ 24 % 256 = 0x41 by omega) rfl]
  show Except.ok (Instr.shflx pf (bitsAt 8 w 16) (bitsAt 8 w 8) (bitsAt 4 w 4) (bitsAt 4 w 0)) = _
  rw [bits_eq (show w / 2 ^ 16 % 2 ^ 8 = d.toNat by omega), bits_eq (show w / 2 ^ 8 % 2 ^ 8 = a.toNat by omega), bits_eq (show w / 2 ^ 4 % 2 ^ 4 = n.toNat by omega), bits_eq (show w / 2 ^ 0 % 2 ^ 4 = f.toNat by omega)]
theorem perm (pf : Pfx) (d a : BitVec 8) (n : BitVec 4) : Statement (.perm pf d a n) := by
  intro w h
  have h : putF d 16 (putF a 8 (putF n 4 (0x42000000))) = w := Option.some.inj h
  unfold putF at h
  have l0 := d.isLt; have l1 := a.isLt; have l2 := n.isLt
  refine ⟨by omega, by omega, ?_⟩
  rw [row4 _ (show w / 2 ^ 24 % 256 = 0x42 by omega) rfl]
  show whenZero (fld w 3 0) (.perm pf (bitsAt 8 w 16) (bitsAt 8 w 8) (bitsAt 4 w 4)) = _
  rw [bits_eq (show w / 2 ^ 16 % 2 ^ 8 = d.toNat by omega), bits_eq (show w / 2 ^ 8 % 2 ^ 8 = a.toNat by omega), bits_eq (show w / 2 ^ 4 % 2 ^ 4 = n.toNat by omega)]
  exact whenZero_ok (by unfold fld; omega)
theorem vote (pf : Pfx) (d a : BitVec 8) (n f : BitVec 4) : Statement (.vote pf d a n f) := by
  intro w h
  have h : putF d 16 (putF a 8 (putF n 4 (putF f 0 (0x43000000)))) = w := Option.some.inj h
  unfold putF at h
  have l0 := d.isLt; have l1 := a.isLt; have l2 := n.isLt; have l3 := f.isLt
  refine ⟨by omega, by omega, ?_⟩
  rw [row4 _ (show w / 2 ^ 24 % 256 = 0x43 by omega) rfl]
  show Except.ok (Instr.vote pf (bitsAt 8 w 16) (bitsAt 8 w 8) (bitsAt 4 w 4) (bitsAt 4 w 0)) = _
  rw [bits_eq (show w / 2 ^ 16 % 2 ^ 8 = d.toNat by omega), bits_eq (show w / 2 ^ 8 % 2 ^ 8 = a.toNat by omega), bits_eq (show w / 2 ^ 4 % 2 ^ 4 = n.toNat by omega), bits_eq (show w / 2 ^ 0 % 2 ^ 4 = f.toNat by omega)]
theorem matchL (pf : Pfx) (d a : BitVec 8) (n f : BitVec 4) : Statement (.matchL pf d a n f) := by
  intro w h
  have h : putF d 16 (putF a 8 (putF n 4 (putF f 0 (0x44000000)))) = w := Option.some.inj h
  unfold putF at h
  have l0 := d.isLt; have l1 := a.isLt; have l2 := n.isLt; have l3 := f.isLt
  refine ⟨by omega, by omega, ?_⟩
  rw [row4 _ (show w / 2 ^ 24 % 256 = 0x44 by omega) rfl]
  show Except.ok (Instr.matchL pf (bitsAt 8 w 16) (bitsAt 8 w 8) (bitsAt 4 w 4) (bitsAt 4 w 0)) = _
  rw [bits_eq (show w / 2 ^ 16 % 2 ^ 8 = d.toNat by omega), bits_eq (show w / 2 ^ 8 % 2 ^ 8 = a.toNat by omega), bits_eq (show w / 2 ^ 4 % 2 ^ 4 = n.toNat by omega), bits_eq (show w / 2 ^ 0 % 2 ^ 4 = f.toNat by omega)]
theorem reduce (pf : Pfx) (d a : BitVec 8) (n f : BitVec 4) : Statement (.reduce pf d a n f) := by
  intro w h
  have h : putF d 16 (putF a 8 (putF n 4 (putF f 0 (0x45000000)))) = w := Option.some.inj h
  unfold putF at h
  have l0 := d.isLt; have l1 := a.isLt; have l2 := n.isLt; have l3 := f.isLt
  refine ⟨by omega, by omega, ?_⟩
  rw [row4 _ (show w / 2 ^ 24 % 256 = 0x45 by omega) rfl]
  show Except.ok (Instr.reduce pf (bitsAt 8 w 16) (bitsAt 8 w 8) (bitsAt 4 w 4) (bitsAt 4 w 0)) = _
  rw [bits_eq (show w / 2 ^ 16 % 2 ^ 8 = d.toNat by omega), bits_eq (show w / 2 ^ 8 % 2 ^ 8 = a.toNat by omega), bits_eq (show w / 2 ^ 4 % 2 ^ 4 = n.toNat by omega), bits_eq (show w / 2 ^ 0 % 2 ^ 4 = f.toNat by omega)]
theorem reduceF (pf : Pfx) (d a : BitVec 8) (n f : BitVec 4) : Statement (.reduceF pf d a n f) := by
  intro w h
  have h : putF d 16 (putF a 8 (putF n 4 (putF f 0 (0x46000000)))) = w := Option.some.inj h
  unfold putF at h
  have l0 := d.isLt; have l1 := a.isLt; have l2 := n.isLt; have l3 := f.isLt
  refine ⟨by omega, by omega, ?_⟩
  rw [row4 _ (show w / 2 ^ 24 % 256 = 0x46 by omega) rfl]
  show Except.ok (Instr.reduceF pf (bitsAt 8 w 16) (bitsAt 8 w 8) (bitsAt 4 w 4) (bitsAt 4 w 0)) = _
  rw [bits_eq (show w / 2 ^ 16 % 2 ^ 8 = d.toNat by omega), bits_eq (show w / 2 ^ 8 % 2 ^ 8 = a.toNat by omega), bits_eq (show w / 2 ^ 4 % 2 ^ 4 = n.toNat by omega), bits_eq (show w / 2 ^ 0 % 2 ^ 4 = f.toNat by omega)]
theorem scan (pf : Pfx) (d a : BitVec 8) (n f : BitVec 4) : Statement (.scan pf d a n f) := by
  intro w h
  have h : putF d 16 (putF a 8 (putF n 4 (putF f 0 (0x47000000)))) = w := Option.some.inj h
  unfold putF at h
  have l0 := d.isLt; have l1 := a.isLt; have l2 := n.isLt; have l3 := f.isLt
  refine ⟨by omega, by omega, ?_⟩
  rw [row4 _ (show w / 2 ^ 24 % 256 = 0x47 by omega) rfl]
  show Except.ok (Instr.scan pf (bitsAt 8 w 16) (bitsAt 8 w 8) (bitsAt 4 w 4) (bitsAt 4 w 0)) = _
  rw [bits_eq (show w / 2 ^ 16 % 2 ^ 8 = d.toNat by omega), bits_eq (show w / 2 ^ 8 % 2 ^ 8 = a.toNat by omega), bits_eq (show w / 2 ^ 4 % 2 ^ 4 = n.toNat by omega), bits_eq (show w / 2 ^ 0 % 2 ^ 4 = f.toNat by omega)]
theorem scanF (pf : Pfx) (d a : BitVec 8) (n f : BitVec 4) : Statement (.scanF pf d a n f) := by
  intro w h
  have h : putF d 16 (putF a 8 (putF n 4 (putF f 0 (0x48000000)))) = w := Option.some.inj h
  unfold putF at h
  have l0 := d.isLt; have l1 := a.isLt; have l2 := n.isLt; have l3 := f.isLt
  refine ⟨by omega, by omega, ?_⟩
  rw [row4 _ (show w / 2 ^ 24 % 256 = 0x48 by omega) rfl]
  show Except.ok (Instr.scanF pf (bitsAt 8 w 16) (bitsAt 8 w 8) (bitsAt 4 w 4) (bitsAt 4 w 0)) = _
  rw [bits_eq (show w / 2 ^ 16 % 2 ^ 8 = d.toNat by omega), bits_eq (show w / 2 ^ 8 % 2 ^ 8 = a.toNat by omega), bits_eq (show w / 2 ^ 4 % 2 ^ 4 = n.toNat by omega), bits_eq (show w / 2 ^ 0 % 2 ^ 4 = f.toNat by omega)]
theorem popm (pf : Pfx) (d a : BitVec 8) (n f : BitVec 4) : Statement (.popm pf d a n f) := by
  intro w h
  have h : putF d 16 (putF a 8 (putF n 4 (putF f 0 (0x49000000)))) = w := Option.some.inj h
  unfold putF at h
  have l0 := d.isLt; have l1 := a.isLt; have l2 := n.isLt; have l3 := f.isLt
  refine ⟨by omega, by omega, ?_⟩
  rw [row4 _ (show w / 2 ^ 24 % 256 = 0x49 by omega) rfl]
  show Except.ok (Instr.popm pf (bitsAt 8 w 16) (bitsAt 8 w 8) (bitsAt 4 w 4) (bitsAt 4 w 0)) = _
  rw [bits_eq (show w / 2 ^ 16 % 2 ^ 8 = d.toNat by omega), bits_eq (show w / 2 ^ 8 % 2 ^ 8 = a.toNat by omega), bits_eq (show w / 2 ^ 4 % 2 ^ 4 = n.toNat by omega), bits_eq (show w / 2 ^ 0 % 2 ^ 4 = f.toNat by omega)]
theorem hdm16 (pf : Pfx) (d a : BitVec 8) (n : BitVec 4) : Statement (.hdm16 pf d a n) := by
  intro w h
  have h : putF d 16 (putF a 8 (putF n 4 (0x4A000000))) = w := Option.some.inj h
  unfold putF at h
  have l0 := d.isLt; have l1 := a.isLt; have l2 := n.isLt
  refine ⟨by omega, by omega, ?_⟩
  rw [row4 _ (show w / 2 ^ 24 % 256 = 0x4A by omega) rfl]
  show whenZero (fld w 3 0) (.hdm16 pf (bitsAt 8 w 16) (bitsAt 8 w 8) (bitsAt 4 w 4)) = _
  rw [bits_eq (show w / 2 ^ 16 % 2 ^ 8 = d.toNat by omega), bits_eq (show w / 2 ^ 8 % 2 ^ 8 = a.toNat by omega), bits_eq (show w / 2 ^ 4 % 2 ^ 4 = n.toNat by omega)]
  exact whenZero_ok (by unfold fld; omega)
theorem hdm32 (pf : Pfx) (d a : BitVec 8) (n : BitVec 4) : Statement (.hdm32 pf d a n) := by
  intro w h
  have h : putF d 16 (putF a 8 (putF n 4 (0x4B000000))) = w := Option.some.inj h
  unfold putF at h
  have l0 := d.isLt; have l1 := a.isLt; have l2 := n.isLt
  refine ⟨by omega, by omega, ?_⟩
  rw [row4 _ (show w / 2 ^ 24 % 256 = 0x4B by omega) rfl]
  show whenZero (fld w 3 0) (.hdm32 pf (bitsAt 8 w 16) (bitsAt 8 w 8) (bitsAt 4 w 4)) = _
  rw [bits_eq (show w / 2 ^ 16 % 2 ^ 8 = d.toNat by omega), bits_eq (show w / 2 ^ 8 % 2 ^ 8 = a.toNat by omega), bits_eq (show w / 2 ^ 4 % 2 ^ 4 = n.toNat by omega)]
  exact whenZero_ok (by unfold fld; omega)
theorem hadd2Bf16 (pf : Pfx) (d a b : BitVec 8) : Statement (.hadd2Bf16 pf d a b) := by
  intro w h
  have h : putF d 16 (putF a 8 (putF b 0 (0x4C000000))) = w := Option.some.inj h
  unfold putF at h
  have l0 := d.isLt; have l1 := a.isLt; have l2 := b.isLt
  refine ⟨by omega, by omega, ?_⟩
  rw [row4 _ (show w / 2 ^ 24 % 256 = 0x4C by omega) rfl]
  show Except.ok (Instr.hadd2Bf16 pf (bitsAt 8 w 16) (bitsAt 8 w 8) (bitsAt 8 w 0)) = _
  rw [bits_eq (show w / 2 ^ 16 % 2 ^ 8 = d.toNat by omega), bits_eq (show w / 2 ^ 8 % 2 ^ 8 = a.toNat by omega), bits_eq (show w / 2 ^ 0 % 2 ^ 8 = b.toNat by omega)]
theorem hmul2Bf16 (pf : Pfx) (d a b : BitVec 8) : Statement (.hmul2Bf16 pf d a b) := by
  intro w h
  have h : putF d 16 (putF a 8 (putF b 0 (0x4D000000))) = w := Option.some.inj h
  unfold putF at h
  have l0 := d.isLt; have l1 := a.isLt; have l2 := b.isLt
  refine ⟨by omega, by omega, ?_⟩
  rw [row4 _ (show w / 2 ^ 24 % 256 = 0x4D by omega) rfl]
  show Except.ok (Instr.hmul2Bf16 pf (bitsAt 8 w 16) (bitsAt 8 w 8) (bitsAt 8 w 0)) = _
  rw [bits_eq (show w / 2 ^ 16 % 2 ^ 8 = d.toNat by omega), bits_eq (show w / 2 ^ 8 % 2 ^ 8 = a.toNat by omega), bits_eq (show w / 2 ^ 0 % 2 ^ 8 = b.toNat by omega)]
theorem hfma2Bf16 (pf : Pfx) (d a b : BitVec 8) : Statement (.hfma2Bf16 pf d a b) := by
  intro w h
  have h : putF d 16 (putF a 8 (putF b 0 (0x4E000000))) = w := Option.some.inj h
  unfold putF at h
  have l0 := d.isLt; have l1 := a.isLt; have l2 := b.isLt
  refine ⟨by omega, by omega, ?_⟩
  rw [row4 _ (show w / 2 ^ 24 % 256 = 0x4E by omega) rfl]
  show Except.ok (Instr.hfma2Bf16 pf (bitsAt 8 w 16) (bitsAt 8 w 8) (bitsAt 8 w 0)) = _
  rw [bits_eq (show w / 2 ^ 16 % 2 ^ 8 = d.toNat by omega), bits_eq (show w / 2 ^ 8 % 2 ^ 8 = a.toNat by omega), bits_eq (show w / 2 ^ 0 % 2 ^ 8 = b.toNat by omega)]
theorem ckpack (pf : Pfx) (d a : BitVec 8) (q : BitVec 1) (n : BitVec 3) : Statement (.ckpack pf d a q n) := by
  intro w h
  have h : putF d 16 (putF a 8 (putF q 3 (putF n 0 (0x50000000)))) = w := Option.some.inj h
  unfold putF at h
  have l0 := d.isLt; have l1 := a.isLt; have l2 := q.isLt; have l3 := n.isLt
  refine ⟨by omega, by omega, ?_⟩
  rw [row5 _ (show w / 2 ^ 24 % 256 = 0x50 by omega) rfl]
  show whenZero (fld w 7 4) (.ckpack pf (bitsAt 8 w 16) (bitsAt 8 w 8) (bitsAt 1 w 3) (bitsAt 3 w 0)) = _
  rw [bits_eq (show w / 2 ^ 16 % 2 ^ 8 = d.toNat by omega), bits_eq (show w / 2 ^ 8 % 2 ^ 8 = a.toNat by omega), bits_eq (show w / 2 ^ 3 % 2 ^ 1 = q.toNat by omega), bits_eq (show w / 2 ^ 0 % 2 ^ 3 = n.toNat by omega)]
  exact whenZero_ok (by unfold fld; omega)
theorem ckunpk (pf : Pfx) (d a : BitVec 8) (q : BitVec 1) : Statement (.ckunpk pf d a q) := by
  intro w h
  have h : putF d 16 (putF a 8 (putF q 3 (0x51000000))) = w := Option.some.inj h
  unfold putF at h
  have l0 := d.isLt; have l1 := a.isLt; have l2 := q.isLt
  refine ⟨by omega, by omega, ?_⟩
  rw [row5 _ (show w / 2 ^ 24 % 256 = 0x51 by omega) rfl]
  show whenZero (fld w 2 0 + fld w 7 4) (.ckunpk pf (bitsAt 8 w 16) (bitsAt 8 w 8) (bitsAt 1 w 3)) = _
  rw [bits_eq (show w / 2 ^ 16 % 2 ^ 8 = d.toNat by omega), bits_eq (show w / 2 ^ 8 % 2 ^ 8 = a.toNat by omega), bits_eq (show w / 2 ^ 3 % 2 ^ 1 = q.toNat by omega)]
  exact whenZero_ok (by unfold fld; omega)
theorem ckadd (pf : Pfx) (d a b : BitVec 8) : Statement (.ckadd pf d a b) := by
  intro w h
  have h : putF d 16 (putF a 8 (putF b 0 (0x52000000))) = w := Option.some.inj h
  unfold putF at h
  have l0 := d.isLt; have l1 := a.isLt; have l2 := b.isLt
  refine ⟨by omega, by omega, ?_⟩
  rw [row5 _ (show w / 2 ^ 24 % 256 = 0x52 by omega) rfl]
  show Except.ok (Instr.ckadd pf (bitsAt 8 w 16) (bitsAt 8 w 8) (bitsAt 8 w 0)) = _
  rw [bits_eq (show w / 2 ^ 16 % 2 ^ 8 = d.toNat by omega), bits_eq (show w / 2 ^ 8 % 2 ^ 8 = a.toNat by omega), bits_eq (show w / 2 ^ 0 % 2 ^ 8 = b.toNat by omega)]
theorem cksub (pf : Pfx) (d a b : BitVec 8) : Statement (.cksub pf d a b) := by
  intro w h
  have h : putF d 16 (putF a 8 (putF b 0 (0x53000000))) = w := Option.some.inj h
  unfold putF at h
  have l0 := d.isLt; have l1 := a.isLt; have l2 := b.isLt
  refine ⟨by omega, by omega, ?_⟩
  rw [row5 _ (show w / 2 ^ 24 % 256 = 0x53 by omega) rfl]
  show Except.ok (Instr.cksub pf (bitsAt 8 w 16) (bitsAt 8 w 8) (bitsAt 8 w 0)) = _
  rw [bits_eq (show w / 2 ^ 16 % 2 ^ 8 = d.toNat by omega), bits_eq (show w / 2 ^ 8 % 2 ^ 8 = a.toNat by omega), bits_eq (show w / 2 ^ 0 % 2 ^ 8 = b.toNat by omega)]
theorem ckaxis (pf : Pfx) (d a : BitVec 8) (q : BitVec 1) (x : BitVec 3) : Statement (.ckaxis pf d a q x) := by
  intro w h
  have h : putF d 16 (putF a 8 (putF q 3 (putF x 0 (0x54000000)))) = w := Option.some.inj h
  unfold putF at h
  have l0 := d.isLt; have l1 := a.isLt; have l2 := q.isLt; have l3 := x.isLt
  refine ⟨by omega, by omega, ?_⟩
  rw [row5 _ (show w / 2 ^ 24 % 256 = 0x54 by omega) rfl]
  show whenZero (fld w 7 4) (.ckaxis pf (bitsAt 8 w 16) (bitsAt 8 w 8) (bitsAt 1 w 3) (bitsAt 3 w 0)) = _
  rw [bits_eq (show w / 2 ^ 16 % 2 ^ 8 = d.toNat by omega), bits_eq (show w / 2 ^ 8 % 2 ^ 8 = a.toNat by omega), bits_eq (show w / 2 ^ 3 % 2 ^ 1 = q.toNat by omega), bits_eq (show w / 2 ^ 0 % 2 ^ 3 = x.toNat by omega)]
  exact whenZero_ok (by unfold fld; omega)
theorem ckins (pf : Pfx) (d a : BitVec 8) (q : BitVec 1) (x : BitVec 3) : Statement (.ckins pf d a q x) := by
  intro w h
  have h : putF d 16 (putF a 8 (putF q 3 (putF x 0 (0x55000000)))) = w := Option.some.inj h
  unfold putF at h
  have l0 := d.isLt; have l1 := a.isLt; have l2 := q.isLt; have l3 := x.isLt
  refine ⟨by omega, by omega, ?_⟩
  rw [row5 _ (show w / 2 ^ 24 % 256 = 0x55 by omega) rfl]
  show whenZero (fld w 7 4) (.ckins pf (bitsAt 8 w 16) (bitsAt 8 w 8) (bitsAt 1 w 3) (bitsAt 3 w 0)) = _
  rw [bits_eq (show w / 2 ^ 16 % 2 ^ 8 = d.toNat by omega), bits_eq (show w / 2 ^ 8 % 2 ^ 8 = a.toNat by omega), bits_eq (show w / 2 ^ 3 % 2 ^ 1 = q.toNat by omega), bits_eq (show w / 2 ^ 0 % 2 ^ 3 = x.toNat by omega)]
  exact whenZero_ok (by unfold fld; omega)
theorem ckcmp (pf : Pfx) (c : BitVec 5) (p : BitVec 3) (a b : BitVec 8) : Statement (.ckcmp pf c p a b) := by
  intro w h
  have h : putF c 19 (putF p 16 (putF a 8 (putF b 0 (0x56000000)))) = w := Option.some.inj h
  unfold putF at h
  have l0 := c.isLt; have l1 := p.isLt; have l2 := a.isLt; have l3 := b.isLt
  refine ⟨by omega, by omega, ?_⟩
  rw [row5 _ (show w / 2 ^ 24 % 256 = 0x56 by omega) rfl]
  show Except.ok (Instr.ckcmp pf (bitsAt 5 w 19) (bitsAt 3 w 16) (bitsAt 8 w 8) (bitsAt 8 w 0)) = _
  rw [bits_eq (show w / 2 ^ 19 % 2 ^ 5 = c.toNat by omega), bits_eq (show w / 2 ^ 16 % 2 ^ 3 = p.toNat by omega), bits_eq (show w / 2 ^ 8 % 2 ^ 8 = a.toNat by omega), bits_eq (show w / 2 ^ 0 % 2 ^ 8 = b.toNat by omega)]
theorem ckbox (pf : Pfx) (c : BitVec 5) (p : BitVec 3) (a b : BitVec 8) : Statement (.ckbox pf c p a b) := by
  intro w h
  have h : putF c 19 (putF p 16 (putF a 8 (putF b 0 (0x57000000)))) = w := Option.some.inj h
  unfold putF at h
  have l0 := c.isLt; have l1 := p.isLt; have l2 := a.isLt; have l3 := b.isLt
  refine ⟨by omega, by omega, ?_⟩
  rw [row5 _ (show w / 2 ^ 24 % 256 = 0x57 by omega) rfl]
  show Except.ok (Instr.ckbox pf (bitsAt 5 w 19) (bitsAt 3 w 16) (bitsAt 8 w 8) (bitsAt 8 w 0)) = _
  rw [bits_eq (show w / 2 ^ 19 % 2 ^ 5 = c.toNat by omega), bits_eq (show w / 2 ^ 16 % 2 ^ 3 = p.toNat by omega), bits_eq (show w / 2 ^ 8 % 2 ^ 8 = a.toNat by omega), bits_eq (show w / 2 ^ 0 % 2 ^ 8 = b.toNat by omega)]
theorem cknext (pf : Pfx) (d a b : BitVec 8) : Statement (.cknext pf d a b) := by
  intro w h
  have h : putF d 16 (putF a 8 (putF b 0 (0x58000000))) = w := Option.some.inj h
  unfold putF at h
  have l0 := d.isLt; have l1 := a.isLt; have l2 := b.isLt
  refine ⟨by omega, by omega, ?_⟩
  rw [row5 _ (show w / 2 ^ 24 % 256 = 0x58 by omega) rfl]
  show Except.ok (Instr.cknext pf (bitsAt 8 w 16) (bitsAt 8 w 8) (bitsAt 8 w 0)) = _
  rw [bits_eq (show w / 2 ^ 16 % 2 ^ 8 = d.toNat by omega), bits_eq (show w / 2 ^ 8 % 2 ^ 8 = a.toNat by omega), bits_eq (show w / 2 ^ 0 % 2 ^ 8 = b.toNat by omega)]
theorem ckprev (pf : Pfx) (d a b : BitVec 8) : Statement (.ckprev pf d a b) := by
  intro w h
  have h : putF d 16 (putF a 8 (putF b 0 (0x59000000))) = w := Option.some.inj h
  unfold putF at h
  have l0 := d.isLt; have l1 := a.isLt; have l2 := b.isLt
  refine ⟨by omega, by omega, ?_⟩
  rw [row5 _ (show w / 2 ^ 24 % 256 = 0x59 by omega) rfl]
  show Except.ok (Instr.ckprev pf (bitsAt 8 w 16) (bitsAt 8 w 8) (bitsAt 8 w 0)) = _
  rw [bits_eq (show w / 2 ^ 16 % 2 ^ 8 = d.toNat by omega), bits_eq (show w / 2 ^ 8 % 2 ^ 8 = a.toNat by omega), bits_eq (show w / 2 ^ 0 % 2 ^ 8 = b.toNat by omega)]
theorem cksplit (pf : Pfx) (d : BitVec 8) : Statement (.cksplit pf d) := by
  intro w h
  have h : putF d 16 (0x5A000000) = w := Option.some.inj h
  unfold putF at h
  have l0 := d.isLt
  refine ⟨by omega, by omega, ?_⟩
  rw [row5 _ (show w / 2 ^ 24 % 256 = 0x5A by omega) rfl]
  show whenZero (fld w 15 0) (.cksplit pf (bitsAt 8 w 16)) = _
  rw [bits_eq (show w / 2 ^ 16 % 2 ^ 8 = d.toNat by omega)]
  exact whenZero_ok (by unfold fld; omega)
theorem ckrlist (pf : Pfx) (d a b : BitVec 8) : Statement (.ckrlist pf d a b) := by
  intro w h
  have h : putF d 16 (putF a 8 (putF b 0 (0x5B000000))) = w := Option.some.inj h
  unfold putF at h
  have l0 := d.isLt; have l1 := a.isLt; have l2 := b.isLt
  refine ⟨by omega, by omega, ?_⟩
  rw [row5 _ (show w / 2 ^ 24 % 256 = 0x5B by omega) rfl]
  show Except.ok (Instr.ckrlist pf (bitsAt 8 w 16) (bitsAt 8 w 8) (bitsAt 8 w 0)) = _
  rw [bits_eq (show w / 2 ^ 16 % 2 ^ 8 = d.toNat by omega), bits_eq (show w / 2 ^ 8 % 2 ^ 8 = a.toNat by omega), bits_eq (show w / 2 ^ 0 % 2 ^ 8 = b.toNat by omega)]
theorem cklvl (pf : Pfx) (d a : BitVec 8) (m : BitVec 2) (l : BitVec 6) : Statement (.cklvl pf d a m l) := by
  intro w h
  have h : putF d 16 (putF a 8 (putF m 6 (putF l 0 (0x5C000000)))) = w := Option.some.inj h
  unfold putF at h
  have l0 := d.isLt; have l1 := a.isLt; have l2 := m.isLt; have l3 := l.isLt
  refine ⟨by omega, by omega, ?_⟩
  rw [row5 _ (show w / 2 ^ 24 % 256 = 0x5C by omega) rfl]
  show Except.ok (Instr.cklvl pf (bitsAt 8 w 16) (bitsAt 8 w 8) (bitsAt 2 w 6) (bitsAt 6 w 0)) = _
  rw [bits_eq (show w / 2 ^ 16 % 2 ^ 8 = d.toNat by omega), bits_eq (show w / 2 ^ 8 % 2 ^ 8 = a.toNat by omega), bits_eq (show w / 2 ^ 6 % 2 ^ 2 = m.toNat by omega), bits_eq (show w / 2 ^ 0 % 2 ^ 6 = l.toNat by omega)]
theorem ckwide (pf : Pfx) (d a : BitVec 8) (q : BitVec 1) : Statement (.ckwide pf d a q) := by
  intro w h
  have h : putF d 16 (putF a 8 (putF q 0 (0x5D000000))) = w := Option.some.inj h
  unfold putF at h
  have l0 := d.isLt; have l1 := a.isLt; have l2 := q.isLt
  refine ⟨by omega, by omega, ?_⟩
  rw [row5 _ (show w / 2 ^ 24 % 256 = 0x5D by omega) rfl]
  show whenZero (fld w 7 1) (.ckwide pf (bitsAt 8 w 16) (bitsAt 8 w 8) (bitsAt 1 w 0)) = _
  rw [bits_eq (show w / 2 ^ 16 % 2 ^ 8 = d.toNat by omega), bits_eq (show w / 2 ^ 8 % 2 ^ 8 = a.toNat by omega), bits_eq (show w / 2 ^ 0 % 2 ^ 1 = q.toNat by omega)]
  exact whenZero_ok (by unfold fld; omega)
theorem uadd (pf : Pfx) (d a b : BitVec 8) : Statement (.uadd pf d a b) := by
  intro w h
  have h : putF d 16 (putF a 8 (putF b 0 (0x60000000))) = w := Option.some.inj h
  unfold putF at h
  have l0 := d.isLt; have l1 := a.isLt; have l2 := b.isLt
  refine ⟨by omega, by omega, ?_⟩
  rw [row6 _ (show w / 2 ^ 24 % 256 = 0x60 by omega) rfl]
  show Except.ok (Instr.uadd pf (bitsAt 8 w 16) (bitsAt 8 w 8) (bitsAt 8 w 0)) = _
  rw [bits_eq (show w / 2 ^ 16 % 2 ^ 8 = d.toNat by omega), bits_eq (show w / 2 ^ 8 % 2 ^ 8 = a.toNat by omega), bits_eq (show w / 2 ^ 0 % 2 ^ 8 = b.toNat by omega)]
theorem usub (pf : Pfx) (d a b : BitVec 8) : Statement (.usub pf d a b) := by
  intro w h
  have h : putF d 16 (putF a 8 (putF b 0 (0x61000000))) = w := Option.some.inj h
  unfold putF at h
  have l0 := d.isLt; have l1 := a.isLt; have l2 := b.isLt
  refine ⟨by omega, by omega, ?_⟩
  rw [row6 _ (show w / 2 ^ 24 % 256 = 0x61 by omega) rfl]
  show Except.ok (Instr.usub pf (bitsAt 8 w 16) (bitsAt 8 w 8) (bitsAt 8 w 0)) = _
  rw [bits_eq (show w / 2 ^ 16 % 2 ^ 8 = d.toNat by omega), bits_eq (show w / 2 ^ 8 % 2 ^ 8 = a.toNat by omega), bits_eq (show w / 2 ^ 0 % 2 ^ 8 = b.toNat by omega)]
theorem umul (pf : Pfx) (d a b : BitVec 8) : Statement (.umul pf d a b) := by
  intro w h
  have h : putF d 16 (putF a 8 (putF b 0 (0x62000000))) = w := Option.some.inj h
  unfold putF at h
  have l0 := d.isLt; have l1 := a.isLt; have l2 := b.isLt
  refine ⟨by omega, by omega, ?_⟩
  rw [row6 _ (show w / 2 ^ 24 % 256 = 0x62 by omega) rfl]
  show Except.ok (Instr.umul pf (bitsAt 8 w 16) (bitsAt 8 w 8) (bitsAt 8 w 0)) = _
  rw [bits_eq (show w / 2 ^ 16 % 2 ^ 8 = d.toNat by omega), bits_eq (show w / 2 ^ 8 % 2 ^ 8 = a.toNat by omega), bits_eq (show w / 2 ^ 0 % 2 ^ 8 = b.toNat by omega)]
theorem uand (pf : Pfx) (d a b : BitVec 8) : Statement (.uand pf d a b) := by
  intro w h
  have h : putF d 16 (putF a 8 (putF b 0 (0x63000000))) = w := Option.some.inj h
  unfold putF at h
  have l0 := d.isLt; have l1 := a.isLt; have l2 := b.isLt
  refine ⟨by omega, by omega, ?_⟩
  rw [row6 _ (show w / 2 ^ 24 % 256 = 0x63 by omega) rfl]
  show Except.ok (Instr.uand pf (bitsAt 8 w 16) (bitsAt 8 w 8) (bitsAt 8 w 0)) = _
  rw [bits_eq (show w / 2 ^ 16 % 2 ^ 8 = d.toNat by omega), bits_eq (show w / 2 ^ 8 % 2 ^ 8 = a.toNat by omega), bits_eq (show w / 2 ^ 0 % 2 ^ 8 = b.toNat by omega)]
theorem uor (pf : Pfx) (d a b : BitVec 8) : Statement (.uor pf d a b) := by
  intro w h
  have h : putF d 16 (putF a 8 (putF b 0 (0x64000000))) = w := Option.some.inj h
  unfold putF at h
  have l0 := d.isLt; have l1 := a.isLt; have l2 := b.isLt
  refine ⟨by omega, by omega, ?_⟩
  rw [row6 _ (show w / 2 ^ 24 % 256 = 0x64 by omega) rfl]
  show Except.ok (Instr.uor pf (bitsAt 8 w 16) (bitsAt 8 w 8) (bitsAt 8 w 0)) = _
  rw [bits_eq (show w / 2 ^ 16 % 2 ^ 8 = d.toNat by omega), bits_eq (show w / 2 ^ 8 % 2 ^ 8 = a.toNat by omega), bits_eq (show w / 2 ^ 0 % 2 ^ 8 = b.toNat by omega)]
theorem uxor (pf : Pfx) (d a b : BitVec 8) : Statement (.uxor pf d a b) := by
  intro w h
  have h : putF d 16 (putF a 8 (putF b 0 (0x65000000))) = w := Option.some.inj h
  unfold putF at h
  have l0 := d.isLt; have l1 := a.isLt; have l2 := b.isLt
  refine ⟨by omega, by omega, ?_⟩
  rw [row6 _ (show w / 2 ^ 24 % 256 = 0x65 by omega) rfl]
  show Except.ok (Instr.uxor pf (bitsAt 8 w 16) (bitsAt 8 w 8) (bitsAt 8 w 0)) = _
  rw [bits_eq (show w / 2 ^ 16 % 2 ^ 8 = d.toNat by omega), bits_eq (show w / 2 ^ 8 % 2 ^ 8 = a.toNat by omega), bits_eq (show w / 2 ^ 0 % 2 ^ 8 = b.toNat by omega)]
theorem ushl (pf : Pfx) (d a b : BitVec 8) : Statement (.ushl pf d a b) := by
  intro w h
  have h : putF d 16 (putF a 8 (putF b 0 (0x66000000))) = w := Option.some.inj h
  unfold putF at h
  have l0 := d.isLt; have l1 := a.isLt; have l2 := b.isLt
  refine ⟨by omega, by omega, ?_⟩
  rw [row6 _ (show w / 2 ^ 24 % 256 = 0x66 by omega) rfl]
  show Except.ok (Instr.ushl pf (bitsAt 8 w 16) (bitsAt 8 w 8) (bitsAt 8 w 0)) = _
  rw [bits_eq (show w / 2 ^ 16 % 2 ^ 8 = d.toNat by omega), bits_eq (show w / 2 ^ 8 % 2 ^ 8 = a.toNat by omega), bits_eq (show w / 2 ^ 0 % 2 ^ 8 = b.toNat by omega)]
theorem ushr (pf : Pfx) (d a b : BitVec 8) : Statement (.ushr pf d a b) := by
  intro w h
  have h : putF d 16 (putF a 8 (putF b 0 (0x67000000))) = w := Option.some.inj h
  unfold putF at h
  have l0 := d.isLt; have l1 := a.isLt; have l2 := b.isLt
  refine ⟨by omega, by omega, ?_⟩
  rw [row6 _ (show w / 2 ^ 24 % 256 = 0x67 by omega) rfl]
  show Except.ok (Instr.ushr pf (bitsAt 8 w 16) (bitsAt 8 w 8) (bitsAt 8 w 0)) = _
  rw [bits_eq (show w / 2 ^ 16 % 2 ^ 8 = d.toNat by omega), bits_eq (show w / 2 ^ 8 % 2 ^ 8 = a.toNat by omega), bits_eq (show w / 2 ^ 0 % 2 ^ 8 = b.toNat by omega)]
theorem usetp (pf : Pfx) (c : BitVec 5) (p : BitVec 3) (a b : BitVec 8) : Statement (.usetp pf c p a b) := by
  intro w h
  have h : putF c 19 (putF p 16 (putF a 8 (putF b 0 (0x68000000)))) = w := Option.some.inj h
  unfold putF at h
  have l0 := c.isLt; have l1 := p.isLt; have l2 := a.isLt; have l3 := b.isLt
  refine ⟨by omega, by omega, ?_⟩
  rw [row6 _ (show w / 2 ^ 24 % 256 = 0x68 by omega) rfl]
  show Except.ok (Instr.usetp pf (bitsAt 5 w 19) (bitsAt 3 w 16) (bitsAt 8 w 8) (bitsAt 8 w 0)) = _
  rw [bits_eq (show w / 2 ^ 19 % 2 ^ 5 = c.toNat by omega), bits_eq (show w / 2 ^ 16 % 2 ^ 3 = p.toNat by omega), bits_eq (show w / 2 ^ 8 % 2 ^ 8 = a.toNat by omega), bits_eq (show w / 2 ^ 0 % 2 ^ 8 = b.toNat by omega)]
theorem usel (pf : Pfx) (d a b : BitVec 8) : Statement (.usel pf d a b) := by
  intro w h
  have h : putF d 16 (putF a 8 (putF b 0 (0x69000000))) = w := Option.some.inj h
  unfold putF at h
  have l0 := d.isLt; have l1 := a.isLt; have l2 := b.isLt
  refine ⟨by omega, by omega, ?_⟩
  rw [row6 _ (show w / 2 ^ 24 % 256 = 0x69 by omega) rfl]
  show Except.ok (Instr.usel pf (bitsAt 8 w 16) (bitsAt 8 w 8) (bitsAt 8 w 0)) = _
  rw [bits_eq (show w / 2 ^ 16 % 2 ^ 8 = d.toNat by omega), bits_eq (show w / 2 ^ 8 % 2 ^ 8 = a.toNat by omega), bits_eq (show w / 2 ^ 0 % 2 ^ 8 = b.toNat by omega)]
theorem umov (pf : Pfx) (d a : BitVec 8) : Statement (.umov pf d a) := by
  intro w h
  have h : putF d 16 (putF a 8 (0x6A000000)) = w := Option.some.inj h
  unfold putF at h
  have l0 := d.isLt; have l1 := a.isLt
  refine ⟨by omega, by omega, ?_⟩
  rw [row6 _ (show w / 2 ^ 24 % 256 = 0x6A by omega) rfl]
  show whenZero (fld w 7 0) (.umov pf (bitsAt 8 w 16) (bitsAt 8 w 8)) = _
  rw [bits_eq (show w / 2 ^ 16 % 2 ^ 8 = d.toNat by omega), bits_eq (show w / 2 ^ 8 % 2 ^ 8 = a.toNat by omega)]
  exact whenZero_ok (by unfold fld; omega)
theorem umovi (pf : Pfx) (d : BitVec 8) (i : BitVec 16) : Statement (.umovi pf d i) := by
  intro w h
  have h : putF d 16 (putF i 0 (0x6B000000)) = w := Option.some.inj h
  unfold putF at h
  have l0 := d.isLt; have l1 := i.isLt
  refine ⟨by omega, by omega, ?_⟩
  rw [row6 _ (show w / 2 ^ 24 % 256 = 0x6B by omega) rfl]
  show Except.ok (Instr.umovi pf (bitsAt 8 w 16) (bitsAt 16 w 0)) = _
  rw [bits_eq (show w / 2 ^ 16 % 2 ^ 8 = d.toNat by omega), bits_eq (show w / 2 ^ 0 % 2 ^ 16 = i.toNat by omega)]
theorem umovhi (pf : Pfx) (d : BitVec 8) (i : BitVec 16) : Statement (.umovhi pf d i) := by
  intro w h
  have h : putF d 16 (putF i 0 (0x6C000000)) = w := Option.some.inj h
  unfold putF at h
  have l0 := d.isLt; have l1 := i.isLt
  refine ⟨by omega, by omega, ?_⟩
  rw [row6 _ (show w / 2 ^ 24 % 256 = 0x6C by omega) rfl]
  show Except.ok (Instr.umovhi pf (bitsAt 8 w 16) (bitsAt 16 w 0)) = _
  rw [bits_eq (show w / 2 ^ 16 % 2 ^ 8 = d.toNat by omega), bits_eq (show w / 2 ^ 0 % 2 ^ 16 = i.toNat by omega)]
theorem elect (pf : Pfx) (c : BitVec 5) (p : BitVec 3) (a : BitVec 8) : Statement (.elect pf c p a) := by
  intro w h
  have h : putF c 19 (putF p 16 (putF a 8 (0x6D000000))) = w := Option.some.inj h
  unfold putF at h
  have l0 := c.isLt; have l1 := p.isLt; have l2 := a.isLt
  refine ⟨by omega, by omega, ?_⟩
  rw [row6 _ (show w / 2 ^ 24 % 256 = 0x6D by omega) rfl]
  show whenZero (fld w 7 0) (.elect pf (bitsAt 5 w 19) (bitsAt 3 w 16) (bitsAt 8 w 8)) = _
  rw [bits_eq (show w / 2 ^ 19 % 2 ^ 5 = c.toNat by omega), bits_eq (show w / 2 ^ 16 % 2 ^ 3 = p.toNat by omega), bits_eq (show w / 2 ^ 8 % 2 ^ 8 = a.toNat by omega)]
  exact whenZero_ok (by unfold fld; omega)
theorem ubcast (pf : Pfx) (d a : BitVec 8) (f : BitVec 1) (l : BitVec 6) : Statement (.ubcast pf d a f l) := by
  intro w h
  have h : putF d 16 (putF a 8 (putF f 6 (putF l 0 (0x6E000000)))) = w := Option.some.inj h
  unfold putF at h
  have l0 := d.isLt; have l1 := a.isLt; have l2 := f.isLt; have l3 := l.isLt
  refine ⟨by omega, by omega, ?_⟩
  rw [row6 _ (show w / 2 ^ 24 % 256 = 0x6E by omega) rfl]
  show whenZero (fld w 7 7) (.ubcast pf (bitsAt 8 w 16) (bitsAt 8 w 8) (bitsAt 1 w 6) (bitsAt 6 w 0)) = _
  rw [bits_eq (show w / 2 ^ 16 % 2 ^ 8 = d.toNat by omega), bits_eq (show w / 2 ^ 8 % 2 ^ 8 = a.toNat by omega), bits_eq (show w / 2 ^ 6 % 2 ^ 1 = f.toNat by omega), bits_eq (show w / 2 ^ 0 % 2 ^ 6 = l.toNat by omega)]
  exact whenZero_ok (by unfold fld; omega)
theorem rcp (pf : Pfx) (d a : BitVec 8) : Statement (.rcp pf d a) := by
  intro w h
  have h : putF d 16 (putF a 8 (0x70000000)) = w := Option.some.inj h
  unfold putF at h
  have l0 := d.isLt; have l1 := a.isLt
  refine ⟨by omega, by omega, ?_⟩
  rw [row7 _ (show w / 2 ^ 24 % 256 = 0x70 by omega) rfl]
  show whenZero (fld w 7 0) (.rcp pf (bitsAt 8 w 16) (bitsAt 8 w 8)) = _
  rw [bits_eq (show w / 2 ^ 16 % 2 ^ 8 = d.toNat by omega), bits_eq (show w / 2 ^ 8 % 2 ^ 8 = a.toNat by omega)]
  exact whenZero_ok (by unfold fld; omega)
theorem rsq (pf : Pfx) (d a : BitVec 8) : Statement (.rsq pf d a) := by
  intro w h
  have h : putF d 16 (putF a 8 (0x71000000)) = w := Option.some.inj h
  unfold putF at h
  have l0 := d.isLt; have l1 := a.isLt
  refine ⟨by omega, by omega, ?_⟩
  rw [row7 _ (show w / 2 ^ 24 % 256 = 0x71 by omega) rfl]
  show whenZero (fld w 7 0) (.rsq pf (bitsAt 8 w 16) (bitsAt 8 w 8)) = _
  rw [bits_eq (show w / 2 ^ 16 % 2 ^ 8 = d.toNat by omega), bits_eq (show w / 2 ^ 8 % 2 ^ 8 = a.toNat by omega)]
  exact whenZero_ok (by unfold fld; omega)
theorem sqrt (pf : Pfx) (d a : BitVec 8) : Statement (.sqrt pf d a) := by
  intro w h
  have h : putF d 16 (putF a 8 (0x72000000)) = w := Option.some.inj h
  unfold putF at h
  have l0 := d.isLt; have l1 := a.isLt
  refine ⟨by omega, by omega, ?_⟩
  rw [row7 _ (show w / 2 ^ 24 % 256 = 0x72 by omega) rfl]
  show whenZero (fld w 7 0) (.sqrt pf (bitsAt 8 w 16) (bitsAt 8 w 8)) = _
  rw [bits_eq (show w / 2 ^ 16 % 2 ^ 8 = d.toNat by omega), bits_eq (show w / 2 ^ 8 % 2 ^ 8 = a.toNat by omega)]
  exact whenZero_ok (by unfold fld; omega)
theorem exp2 (pf : Pfx) (d a : BitVec 8) : Statement (.exp2 pf d a) := by
  intro w h
  have h : putF d 16 (putF a 8 (0x73000000)) = w := Option.some.inj h
  unfold putF at h
  have l0 := d.isLt; have l1 := a.isLt
  refine ⟨by omega, by omega, ?_⟩
  rw [row7 _ (show w / 2 ^ 24 % 256 = 0x73 by omega) rfl]
  show whenZero (fld w 7 0) (.exp2 pf (bitsAt 8 w 16) (bitsAt 8 w 8)) = _
  rw [bits_eq (show w / 2 ^ 16 % 2 ^ 8 = d.toNat by omega), bits_eq (show w / 2 ^ 8 % 2 ^ 8 = a.toNat by omega)]
  exact whenZero_ok (by unfold fld; omega)
theorem log2 (pf : Pfx) (d a : BitVec 8) : Statement (.log2 pf d a) := by
  intro w h
  have h : putF d 16 (putF a 8 (0x74000000)) = w := Option.some.inj h
  unfold putF at h
  have l0 := d.isLt; have l1 := a.isLt
  refine ⟨by omega, by omega, ?_⟩
  rw [row7 _ (show w / 2 ^ 24 % 256 = 0x74 by omega) rfl]
  show whenZero (fld w 7 0) (.log2 pf (bitsAt 8 w 16) (bitsAt 8 w 8)) = _
  rw [bits_eq (show w / 2 ^ 16 % 2 ^ 8 = d.toNat by omega), bits_eq (show w / 2 ^ 8 % 2 ^ 8 = a.toNat by omega)]
  exact whenZero_ok (by unfold fld; omega)
theorem sin (pf : Pfx) (d a : BitVec 8) : Statement (.sin pf d a) := by
  intro w h
  have h : putF d 16 (putF a 8 (0x75000000)) = w := Option.some.inj h
  unfold putF at h
  have l0 := d.isLt; have l1 := a.isLt
  refine ⟨by omega, by omega, ?_⟩
  rw [row7 _ (show w / 2 ^ 24 % 256 = 0x75 by omega) rfl]
  show whenZero (fld w 7 0) (.sin pf (bitsAt 8 w 16) (bitsAt 8 w 8)) = _
  rw [bits_eq (show w / 2 ^ 16 % 2 ^ 8 = d.toNat by omega), bits_eq (show w / 2 ^ 8 % 2 ^ 8 = a.toNat by omega)]
  exact whenZero_ok (by unfold fld; omega)
theorem cos (pf : Pfx) (d a : BitVec 8) : Statement (.cos pf d a) := by
  intro w h
  have h : putF d 16 (putF a 8 (0x76000000)) = w := Option.some.inj h
  unfold putF at h
  have l0 := d.isLt; have l1 := a.isLt
  refine ⟨by omega, by omega, ?_⟩
  rw [row7 _ (show w / 2 ^ 24 % 256 = 0x76 by omega) rfl]
  show whenZero (fld w 7 0) (.cos pf (bitsAt 8 w 16) (bitsAt 8 w 8)) = _
  rw [bits_eq (show w / 2 ^ 16 % 2 ^ 8 = d.toNat by omega), bits_eq (show w / 2 ^ 8 % 2 ^ 8 = a.toNat by omega)]
  exact whenZero_ok (by unfold fld; omega)
theorem tanh (pf : Pfx) (d a : BitVec 8) : Statement (.tanh pf d a) := by
  intro w h
  have h : putF d 16 (putF a 8 (0x77000000)) = w := Option.some.inj h
  unfold putF at h
  have l0 := d.isLt; have l1 := a.isLt
  refine ⟨by omega, by omega, ?_⟩
  rw [row7 _ (show w / 2 ^ 24 % 256 = 0x77 by omega) rfl]
  show whenZero (fld w 7 0) (.tanh pf (bitsAt 8 w 16) (bitsAt 8 w 8)) = _
  rw [bits_eq (show w / 2 ^ 16 % 2 ^ 8 = d.toNat by omega), bits_eq (show w / 2 ^ 8 % 2 ^ 8 = a.toNat by omega)]
  exact whenZero_ok (by unfold fld; omega)
theorem fdiv (pf : Pfx) (d a b : BitVec 8) : Statement (.fdiv pf d a b) := by
  intro w h
  have h : putF d 16 (putF a 8 (putF b 0 (0x78000000))) = w := Option.some.inj h
  unfold putF at h
  have l0 := d.isLt; have l1 := a.isLt; have l2 := b.isLt
  refine ⟨by omega, by omega, ?_⟩
  rw [row7 _ (show w / 2 ^ 24 % 256 = 0x78 by omega) rfl]
  show Except.ok (Instr.fdiv pf (bitsAt 8 w 16) (bitsAt 8 w 8) (bitsAt 8 w 0)) = _
  rw [bits_eq (show w / 2 ^ 16 % 2 ^ 8 = d.toNat by omega), bits_eq (show w / 2 ^ 8 % 2 ^ 8 = a.toNat by omega), bits_eq (show w / 2 ^ 0 % 2 ^ 8 = b.toNat by omega)]
theorem idiv (pf : Pfx) (d a b : BitVec 8) : Statement (.idiv pf d a b) := by
  intro w h
  have h : putF d 16 (putF a 8 (putF b 0 (0x79000000))) = w := Option.some.inj h
  unfold putF at h
  have l0 := d.isLt; have l1 := a.isLt; have l2 := b.isLt
  refine ⟨by omega, by omega, ?_⟩
  rw [row7 _ (show w / 2 ^ 24 % 256 = 0x79 by omega) rfl]
  show Except.ok (Instr.idiv pf (bitsAt 8 w 16) (bitsAt 8 w 8) (bitsAt 8 w 0)) = _
  rw [bits_eq (show w / 2 ^ 16 % 2 ^ 8 = d.toNat by omega), bits_eq (show w / 2 ^ 8 % 2 ^ 8 = a.toNat by omega), bits_eq (show w / 2 ^ 0 % 2 ^ 8 = b.toNat by omega)]
theorem idivNu (pf : Pfx) (d a b : BitVec 8) : Statement (.idivNu pf d a b) := by
  intro w h
  have h : putF d 16 (putF a 8 (putF b 0 (0x7A000000))) = w := Option.some.inj h
  unfold putF at h
  have l0 := d.isLt; have l1 := a.isLt; have l2 := b.isLt
  refine ⟨by omega, by omega, ?_⟩
  rw [row7 _ (show w / 2 ^ 24 % 256 = 0x7A by omega) rfl]
  show Except.ok (Instr.idivNu pf (bitsAt 8 w 16) (bitsAt 8 w 8) (bitsAt 8 w 0)) = _
  rw [bits_eq (show w / 2 ^ 16 % 2 ^ 8 = d.toNat by omega), bits_eq (show w / 2 ^ 8 % 2 ^ 8 = a.toNat by omega), bits_eq (show w / 2 ^ 0 % 2 ^ 8 = b.toNat by omega)]
theorem irem (pf : Pfx) (d a b : BitVec 8) : Statement (.irem pf d a b) := by
  intro w h
  have h : putF d 16 (putF a 8 (putF b 0 (0x7B000000))) = w := Option.some.inj h
  unfold putF at h
  have l0 := d.isLt; have l1 := a.isLt; have l2 := b.isLt
  refine ⟨by omega, by omega, ?_⟩
  rw [row7 _ (show w / 2 ^ 24 % 256 = 0x7B by omega) rfl]
  show Except.ok (Instr.irem pf (bitsAt 8 w 16) (bitsAt 8 w 8) (bitsAt 8 w 0)) = _
  rw [bits_eq (show w / 2 ^ 16 % 2 ^ 8 = d.toNat by omega), bits_eq (show w / 2 ^ 8 % 2 ^ 8 = a.toNat by omega), bits_eq (show w / 2 ^ 0 % 2 ^ 8 = b.toNat by omega)]
theorem iremNu (pf : Pfx) (d a b : BitVec 8) : Statement (.iremNu pf d a b) := by
  intro w h
  have h : putF d 16 (putF a 8 (putF b 0 (0x7C000000))) = w := Option.some.inj h
  unfold putF at h
  have l0 := d.isLt; have l1 := a.isLt; have l2 := b.isLt
  refine ⟨by omega, by omega, ?_⟩
  rw [row7 _ (show w / 2 ^ 24 % 256 = 0x7C by omega) rfl]
  show Except.ok (Instr.iremNu pf (bitsAt 8 w 16) (bitsAt 8 w 8) (bitsAt 8 w 0)) = _
  rw [bits_eq (show w / 2 ^ 16 % 2 ^ 8 = d.toNat by omega), bits_eq (show w / 2 ^ 8 % 2 ^ 8 = a.toNat by omega), bits_eq (show w / 2 ^ 0 % 2 ^ 8 = b.toNat by omega)]
theorem f2f (pf : Pfx) (d a : BitVec 8) (y x : BitVec 4) : Statement (.f2f pf d a y x) := by
  intro w h
  have h : putF d 16 (putF a 8 (putF y 4 (putF x 0 (0x80000000)))) = w := Option.some.inj h
  unfold putF at h
  have l0 := d.isLt; have l1 := a.isLt; have l2 := y.isLt; have l3 := x.isLt
  refine ⟨by omega, by omega, ?_⟩
  rw [row8 _ (show w / 2 ^ 24 % 256 = 0x80 by omega) rfl]
  show Except.ok (Instr.f2f pf (bitsAt 8 w 16) (bitsAt 8 w 8) (bitsAt 4 w 4) (bitsAt 4 w 0)) = _
  rw [bits_eq (show w / 2 ^ 16 % 2 ^ 8 = d.toNat by omega), bits_eq (show w / 2 ^ 8 % 2 ^ 8 = a.toNat by omega), bits_eq (show w / 2 ^ 4 % 2 ^ 4 = y.toNat by omega), bits_eq (show w / 2 ^ 0 % 2 ^ 4 = x.toNat by omega)]
theorem f2i (pf : Pfx) (d a : BitVec 8) (y x : BitVec 4) : Statement (.f2i pf d a y x) := by
  intro w h
  have h : putF d 16 (putF a 8 (putF y 4 (putF x 0 (0x81000000)))) = w := Option.some.inj h
  unfold putF at h
  have l0 := d.isLt; have l1 := a.isLt; have l2 := y.isLt; have l3 := x.isLt
  refine ⟨by omega, by omega, ?_⟩
  rw [row8 _ (show w / 2 ^ 24 % 256 = 0x81 by omega) rfl]
  show Except.ok (Instr.f2i pf (bitsAt 8 w 16) (bitsAt 8 w 8) (bitsAt 4 w 4) (bitsAt 4 w 0)) = _
  rw [bits_eq (show w / 2 ^ 16 % 2 ^ 8 = d.toNat by omega), bits_eq (show w / 2 ^ 8 % 2 ^ 8 = a.toNat by omega), bits_eq (show w / 2 ^ 4 % 2 ^ 4 = y.toNat by omega), bits_eq (show w / 2 ^ 0 % 2 ^ 4 = x.toNat by omega)]
theorem i2f (pf : Pfx) (d a : BitVec 8) (y x : BitVec 4) : Statement (.i2f pf d a y x) := by
  intro w h
  have h : putF d 16 (putF a 8 (putF y 4 (putF x 0 (0x82000000)))) = w := Option.some.inj h
  unfold putF at h
  have l0 := d.isLt; have l1 := a.isLt; have l2 := y.isLt; have l3 := x.isLt
  refine ⟨by omega, by omega, ?_⟩
  rw [row8 _ (show w / 2 ^ 24 % 256 = 0x82 by omega) rfl]
  show Except.ok (Instr.i2f pf (bitsAt 8 w 16) (bitsAt 8 w 8) (bitsAt 4 w 4) (bitsAt 4 w 0)) = _
  rw [bits_eq (show w / 2 ^ 16 % 2 ^ 8 = d.toNat by omega), bits_eq (show w / 2 ^ 8 % 2 ^ 8 = a.toNat by omega), bits_eq (show w / 2 ^ 4 % 2 ^ 4 = y.toNat by omega), bits_eq (show w / 2 ^ 0 % 2 ^ 4 = x.toNat by omega)]
theorem qscale (pf : Pfx) (d a b : BitVec 8) : Statement (.qscale pf d a b) := by
  intro w h
  have h : putF d 16 (putF a 8 (putF b 0 (0x83000000))) = w := Option.some.inj h
  unfold putF at h
  have l0 := d.isLt; have l1 := a.isLt; have l2 := b.isLt
  refine ⟨by omega, by omega, ?_⟩
  rw [row8 _ (show w / 2 ^ 24 % 256 = 0x83 by omega) rfl]
  show Except.ok (Instr.qscale pf (bitsAt 8 w 16) (bitsAt 8 w 8) (bitsAt 8 w 0)) = _
  rw [bits_eq (show w / 2 ^ 16 % 2 ^ 8 = d.toNat by omega), bits_eq (show w / 2 ^ 8 % 2 ^ 8 = a.toNat by omega), bits_eq (show w / 2 ^ 0 % 2 ^ 8 = b.toNat by omega)]
theorem qscaleAdapt (pf : Pfx) (d a b : BitVec 8) : Statement (.qscaleAdapt pf d a b) := by
  intro w h
  have h : putF d 16 (putF a 8 (putF b 0 (0x84000000))) = w := Option.some.inj h
  unfold putF at h
  have l0 := d.isLt; have l1 := a.isLt; have l2 := b.isLt
  refine ⟨by omega, by omega, ?_⟩
  rw [row8 _ (show w / 2 ^ 24 % 256 = 0x84 by omega) rfl]
  show Except.ok (Instr.qscaleAdapt pf (bitsAt 8 w 16) (bitsAt 8 w 8) (bitsAt 8 w 0)) = _
  rw [bits_eq (show w / 2 ^ 16 % 2 ^ 8 = d.toNat by omega), bits_eq (show w / 2 ^ 8 % 2 ^ 8 = a.toNat by omega), bits_eq (show w / 2 ^ 0 % 2 ^ 8 = b.toNat by omega)]
theorem qpack (pf : Pfx) (d a b : BitVec 8) : Statement (.qpack pf d a b) := by
  intro w h
  have h : putF d 16 (putF a 8 (putF b 0 (0x85000000))) = w := Option.some.inj h
  unfold putF at h
  have l0 := d.isLt; have l1 := a.isLt; have l2 := b.isLt
  refine ⟨by omega, by omega, ?_⟩
  rw [row8 _ (show w / 2 ^ 24 % 256 = 0x85 by omega) rfl]
  show Except.ok (Instr.qpack pf (bitsAt 8 w 16) (bitsAt 8 w 8) (bitsAt 8 w 0)) = _
  rw [bits_eq (show w / 2 ^ 16 % 2 ^ 8 = d.toNat by omega), bits_eq (show w / 2 ^ 8 % 2 ^ 8 = a.toNat by omega), bits_eq (show w / 2 ^ 0 % 2 ^ 8 = b.toNat by omega)]
theorem qunpk (pf : Pfx) (d a : BitVec 8) (e : BitVec 3) (f : BitVec 4) : Statement (.qunpk pf d a e f) := by
  intro w h
  have h : putF d 16 (putF a 8 (putF e 4 (putF f 0 (0x86000000)))) = w := Option.some.inj h
  unfold putF at h
  have l0 := d.isLt; have l1 := a.isLt; have l2 := e.isLt; have l3 := f.isLt
  refine ⟨by omega, by omega, ?_⟩
  rw [row8 _ (show w / 2 ^ 24 % 256 = 0x86 by omega) rfl]
  show whenZero (fld w 7 7) (.qunpk pf (bitsAt 8 w 16) (bitsAt 8 w 8) (bitsAt 3 w 4) (bitsAt 4 w 0)) = _
  rw [bits_eq (show w / 2 ^ 16 % 2 ^ 8 = d.toNat by omega), bits_eq (show w / 2 ^ 8 % 2 ^ 8 = a.toNat by omega), bits_eq (show w / 2 ^ 4 % 2 ^ 3 = e.toNat by omega), bits_eq (show w / 2 ^ 0 % 2 ^ 4 = f.toNat by omega)]
  exact whenZero_ok (by unfold fld; omega)
theorem ldZ8 (pf : Pfx) (d a b : BitVec 8) : Statement (.ldZ8 pf d a b) := by
  intro w h
  have h : putF d 16 (putF a 8 (putF b 0 (0x90000000))) = w := Option.some.inj h
  unfold putF at h
  have l0 := d.isLt; have l1 := a.isLt; have l2 := b.isLt
  refine ⟨by omega, by omega, ?_⟩
  rw [row9 _ (show w / 2 ^ 24 % 256 = 0x90 by omega) rfl]
  show Except.ok (Instr.ldZ8 pf (bitsAt 8 w 16) (bitsAt 8 w 8) (bitsAt 8 w 0)) = _
  rw [bits_eq (show w / 2 ^ 16 % 2 ^ 8 = d.toNat by omega), bits_eq (show w / 2 ^ 8 % 2 ^ 8 = a.toNat by omega), bits_eq (show w / 2 ^ 0 % 2 ^ 8 = b.toNat by omega)]
theorem ldS8 (pf : Pfx) (d a b : BitVec 8) : Statement (.ldS8 pf d a b) := by
  intro w h
  have h : putF d 16 (putF a 8 (putF b 0 (0x91000000))) = w := Option.some.inj h
  unfold putF at h
  have l0 := d.isLt; have l1 := a.isLt; have l2 := b.isLt
  refine ⟨by omega, by omega, ?_⟩
  rw [row9 _ (show w / 2 ^ 24 % 256 = 0x91 by omega) rfl]
  show Except.ok (Instr.ldS8 pf (bitsAt 8 w 16) (bitsAt 8 w 8) (bitsAt 8 w 0)) = _
  rw [bits_eq (show w / 2 ^ 16 % 2 ^ 8 = d.toNat by omega), bits_eq (show w / 2 ^ 8 % 2 ^ 8 = a.toNat by omega), bits_eq (show w / 2 ^ 0 % 2 ^ 8 = b.toNat by omega)]
theorem ldZ16 (pf : Pfx) (d a b : BitVec 8) : Statement (.ldZ16 pf d a b) := by
  intro w h
  have h : putF d 16 (putF a 8 (putF b 0 (0x92000000))) = w := Option.some.inj h
  unfold putF at h
  have l0 := d.isLt; have l1 := a.isLt; have l2 := b.isLt
  refine ⟨by omega, by omega, ?_⟩
  rw [row9 _ (show w / 2 ^ 24 % 256 = 0x92 by omega) rfl]
  show Except.ok (Instr.ldZ16 pf (bitsAt 8 w 16) (bitsAt 8 w 8) (bitsAt 8 w 0)) = _
  rw [bits_eq (show w / 2 ^ 16 % 2 ^ 8 = d.toNat by omega), bits_eq (show w / 2 ^ 8 % 2 ^ 8 = a.toNat by omega), bits_eq (show w / 2 ^ 0 % 2 ^ 8 = b.toNat by omega)]
theorem ldS16 (pf : Pfx) (d a b : BitVec 8) : Statement (.ldS16 pf d a b) := by
  intro w h
  have h : putF d 16 (putF a 8 (putF b 0 (0x93000000))) = w := Option.some.inj h
  unfold putF at h
  have l0 := d.isLt; have l1 := a.isLt; have l2 := b.isLt
  refine ⟨by omega, by omega, ?_⟩
  rw [row9 _ (show w / 2 ^ 24 % 256 = 0x93 by omega) rfl]
  show Except.ok (Instr.ldS16 pf (bitsAt 8 w 16) (bitsAt 8 w 8) (bitsAt 8 w 0)) = _
  rw [bits_eq (show w / 2 ^ 16 % 2 ^ 8 = d.toNat by omega), bits_eq (show w / 2 ^ 8 % 2 ^ 8 = a.toNat by omega), bits_eq (show w / 2 ^ 0 % 2 ^ 8 = b.toNat by omega)]
theorem ld (pf : Pfx) (d a b : BitVec 8) : Statement (.ld pf d a b) := by
  intro w h
  have h : putF d 16 (putF a 8 (putF b 0 (0x94000000))) = w := Option.some.inj h
  unfold putF at h
  have l0 := d.isLt; have l1 := a.isLt; have l2 := b.isLt
  refine ⟨by omega, by omega, ?_⟩
  rw [row9 _ (show w / 2 ^ 24 % 256 = 0x94 by omega) rfl]
  show Except.ok (Instr.ld pf (bitsAt 8 w 16) (bitsAt 8 w 8) (bitsAt 8 w 0)) = _
  rw [bits_eq (show w / 2 ^ 16 % 2 ^ 8 = d.toNat by omega), bits_eq (show w / 2 ^ 8 % 2 ^ 8 = a.toNat by omega), bits_eq (show w / 2 ^ 0 % 2 ^ 8 = b.toNat by omega)]
theorem ldB64 (pf : Pfx) (d a b : BitVec 8) : Statement (.ldB64 pf d a b) := by
  intro w h
  have h : putF d 16 (putF a 8 (putF b 0 (0x95000000))) = w := Option.some.inj h
  unfold putF at h
  have l0 := d.isLt; have l1 := a.isLt; have l2 := b.isLt
  refine ⟨by omega, by omega, ?_⟩
  rw [row9 _ (show w / 2 ^ 24 % 256 = 0x95 by omega) rfl]
  show Except.ok (Instr.ldB64 pf (bitsAt 8 w 16) (bitsAt 8 w 8) (bitsAt 8 w 0)) = _
  rw [bits_eq (show w / 2 ^ 16 % 2 ^ 8 = d.toNat by omega), bits_eq (show w / 2 ^ 8 % 2 ^ 8 = a.toNat by omega), bits_eq (show w / 2 ^ 0 % 2 ^ 8 = b.toNat by omega)]
theorem ldB128 (pf : Pfx) (d a b : BitVec 8) : Statement (.ldB128 pf d a b) := by
  intro w h
  have h : putF d 16 (putF a 8 (putF b 0 (0x96000000))) = w := Option.some.inj h
  unfold putF at h
  have l0 := d.isLt; have l1 := a.isLt; have l2 := b.isLt
  refine ⟨by omega, by omega, ?_⟩
  rw [row9 _ (show w / 2 ^ 24 % 256 = 0x96 by omega) rfl]
  show Except.ok (Instr.ldB128 pf (bitsAt 8 w 16) (bitsAt 8 w 8) (bitsAt 8 w 0)) = _
  rw [bits_eq (show w / 2 ^ 16 % 2 ^ 8 = d.toNat by omega), bits_eq (show w / 2 ^ 8 % 2 ^ 8 = a.toNat by omega), bits_eq (show w / 2 ^ 0 % 2 ^ 8 = b.toNat by omega)]
theorem ldC (pf : Pfx) (d a t : BitVec 8) : Statement (.ldC pf d a t) := by
  intro w h
  have h : putF d 16 (putF a 8 (putF t 0 (0x97000000))) = w := Option.some.inj h
  unfold putF at h
  have l0 := d.isLt; have l1 := a.isLt; have l2 := t.isLt
  refine ⟨by omega, by omega, ?_⟩
  rw [row9 _ (show w / 2 ^ 24 % 256 = 0x97 by omega) rfl]
  show Except.ok (Instr.ldC pf (bitsAt 8 w 16) (bitsAt 8 w 8) (bitsAt 8 w 0)) = _
  rw [bits_eq (show w / 2 ^ 16 % 2 ^ 8 = d.toNat by omega), bits_eq (show w / 2 ^ 8 % 2 ^ 8 = a.toNat by omega), bits_eq (show w / 2 ^ 0 % 2 ^ 8 = t.toNat by omega)]
theorem ldCB128 (pf : Pfx) (d a t : BitVec 8) : Statement (.ldCB128 pf d a t) := by
  intro w h
  have h : putF d 16 (putF a 8 (putF t 0 (0x98000000))) = w := Option.some.inj h
  unfold putF at h
  have l0 := d.isLt; have l1 := a.isLt; have l2 := t.isLt
  refine ⟨by omega, by omega, ?_⟩
  rw [row9 _ (show w / 2 ^ 24 % 256 = 0x98 by omega) rfl]
  show Except.ok (Instr.ldCB128 pf (bitsAt 8 w 16) (bitsAt 8 w 8) (bitsAt 8 w 0)) = _
  rw [bits_eq (show w / 2 ^ 16 % 2 ^ 8 = d.toNat by omega), bits_eq (show w / 2 ^ 8 % 2 ^ 8 = a.toNat by omega), bits_eq (show w / 2 ^ 0 % 2 ^ 8 = t.toNat by omega)]
theorem stB8 (pf : Pfx) (d a b : BitVec 8) : Statement (.stB8 pf d a b) := by
  intro w h
  have h : putF d 16 (putF a 8 (putF b 0 (0x99000000))) = w := Option.some.inj h
  unfold putF at h
  have l0 := d.isLt; have l1 := a.isLt; have l2 := b.isLt
  refine ⟨by omega, by omega, ?_⟩
  rw [row9 _ (show w / 2 ^ 24 % 256 = 0x99 by omega) rfl]
  show Except.ok (Instr.stB8 pf (bitsAt 8 w 16) (bitsAt 8 w 8) (bitsAt 8 w 0)) = _
  rw [bits_eq (show w / 2 ^ 16 % 2 ^ 8 = d.toNat by omega), bits_eq (show w / 2 ^ 8 % 2 ^ 8 = a.toNat by omega), bits_eq (show w / 2 ^ 0 % 2 ^ 8 = b.toNat by omega)]
theorem stB16 (pf : Pfx) (d a b : BitVec 8) : Statement (.stB16 pf d a b) := by
  intro w h
  have h : putF d 16 (putF a 8 (putF b 0 (0x9A000000))) = w := Option.some.inj h
  unfold putF at h
  have l0 := d.isLt; have l1 := a.isLt; have l2 := b.isLt
  refine ⟨by omega, by omega, ?_⟩
  rw [row9 _ (show w / 2 ^ 24 % 256 = 0x9A by omega) rfl]
  show Except.ok (Instr.stB16 pf (bitsAt 8 w 16) (bitsAt 8 w 8) (bitsAt 8 w 0)) = _
  rw [bits_eq (show w / 2 ^ 16 % 2 ^ 8 = d.toNat by omega), bits_eq (show w / 2 ^ 8 % 2 ^ 8 = a.toNat by omega), bits_eq (show w / 2 ^ 0 % 2 ^ 8 = b.toNat by omega)]
theorem st (pf : Pfx) (d a b : BitVec 8) : Statement (.st pf d a b) := by
  intro w h
  have h : putF d 16 (putF a 8 (putF b 0 (0x9B000000))) = w := Option.some.inj h
  unfold putF at h
  have l0 := d.isLt; have l1 := a.isLt; have l2 := b.isLt
  refine ⟨by omega, by omega, ?_⟩
  rw [row9 _ (show w / 2 ^ 24 % 256 = 0x9B by omega) rfl]
  show Except.ok (Instr.st pf (bitsAt 8 w 16) (bitsAt 8 w 8) (bitsAt 8 w 0)) = _
  rw [bits_eq (show w / 2 ^ 16 % 2 ^ 8 = d.toNat by omega), bits_eq (show w / 2 ^ 8 % 2 ^ 8 = a.toNat by omega), bits_eq (show w / 2 ^ 0 % 2 ^ 8 = b.toNat by omega)]
theorem stB64 (pf : Pfx) (d a b : BitVec 8) : Statement (.stB64 pf d a b) := by
  intro w h
  have h : putF d 16 (putF a 8 (putF b 0 (0x9C000000))) = w := Option.some.inj h
  unfold putF at h
  have l0 := d.isLt; have l1 := a.isLt; have l2 := b.isLt
  refine ⟨by omega, by omega, ?_⟩
  rw [row9 _ (show w / 2 ^ 24 % 256 = 0x9C by omega) rfl]
  show Except.ok (Instr.stB64 pf (bitsAt 8 w 16) (bitsAt 8 w 8) (bitsAt 8 w 0)) = _
  rw [bits_eq (show w / 2 ^ 16 % 2 ^ 8 = d.toNat by omega), bits_eq (show w / 2 ^ 8 % 2 ^ 8 = a.toNat by omega), bits_eq (show w / 2 ^ 0 % 2 ^ 8 = b.toNat by omega)]
theorem stB128 (pf : Pfx) (d a b : BitVec 8) : Statement (.stB128 pf d a b) := by
  intro w h
  have h : putF d 16 (putF a 8 (putF b 0 (0x9D000000))) = w := Option.some.inj h
  unfold putF at h
  have l0 := d.isLt; have l1 := a.isLt; have l2 := b.isLt
  refine ⟨by omega, by omega, ?_⟩
  rw [row9 _ (show w / 2 ^ 24 % 256 = 0x9D by omega) rfl]
  show Except.ok (Instr.stB128 pf (bitsAt 8 w 16) (bitsAt 8 w 8) (bitsAt 8 w 0)) = _
  rw [bits_eq (show w / 2 ^ 16 % 2 ^ 8 = d.toNat by omega), bits_eq (show w / 2 ^ 8 % 2 ^ 8 = a.toNat by omega), bits_eq (show w / 2 ^ 0 % 2 ^ 8 = b.toNat by omega)]
theorem lds (pf : Pfx) (d a : BitVec 8) (z : BitVec 2) (s : BitVec 3) : Statement (.lds pf d a z s) := by
  intro w h
  have h : putF d 16 (putF a 8 (putF z 3 (putF s 0 (0x9E000000)))) = w := Option.some.inj h
  unfold putF at h
  have l0 := d.isLt; have l1 := a.isLt; have l2 := z.isLt; have l3 := s.isLt
  refine ⟨by omega, by omega, ?_⟩
  rw [row9 _ (show w / 2 ^ 24 % 256 = 0x9E by omega) rfl]
  show whenZero (fld w 7 5) (.lds pf (bitsAt 8 w 16) (bitsAt 8 w 8) (bitsAt 2 w 3) (bitsAt 3 w 0)) = _
  rw [bits_eq (show w / 2 ^ 16 % 2 ^ 8 = d.toNat by omega), bits_eq (show w / 2 ^ 8 % 2 ^ 8 = a.toNat by omega), bits_eq (show w / 2 ^ 3 % 2 ^ 2 = z.toNat by omega), bits_eq (show w / 2 ^ 0 % 2 ^ 3 = s.toNat by omega)]
  exact whenZero_ok (by unfold fld; omega)
theorem sts (pf : Pfx) (d a : BitVec 8) (z : BitVec 2) (s : BitVec 3) : Statement (.sts pf d a z s) := by
  intro w h
  have h : putF d 16 (putF a 8 (putF z 3 (putF s 0 (0x9F000000)))) = w := Option.some.inj h
  unfold putF at h
  have l0 := d.isLt; have l1 := a.isLt; have l2 := z.isLt; have l3 := s.isLt
  refine ⟨by omega, by omega, ?_⟩
  rw [row9 _ (show w / 2 ^ 24 % 256 = 0x9F by omega) rfl]
  show whenZero (fld w 7 5) (.sts pf (bitsAt 8 w 16) (bitsAt 8 w 8) (bitsAt 2 w 3) (bitsAt 3 w 0)) = _
  rw [bits_eq (show w / 2 ^ 16 % 2 ^ 8 = d.toNat by omega), bits_eq (show w / 2 ^ 8 % 2 ^ 8 = a.toNat by omega), bits_eq (show w / 2 ^ 3 % 2 ^ 2 = z.toNat by omega), bits_eq (show w / 2 ^ 0 % 2 ^ 3 = s.toNat by omega)]
  exact whenZero_ok (by unfold fld; omega)
theorem uld (pf : Pfx) (d a b : BitVec 8) : Statement (.uld pf d a b) := by
  intro w h
  have h : putF d 16 (putF a 8 (putF b 0 (0xA0000000))) = w := Option.some.inj h
  unfold putF at h
  have l0 := d.isLt; have l1 := a.isLt; have l2 := b.isLt
  refine ⟨by omega, by omega, ?_⟩
  rw [rowA _ (show w / 2 ^ 24 % 256 = 0xA0 by omega) rfl]
  show Except.ok (Instr.uld pf (bitsAt 8 w 16) (bitsAt 8 w 8) (bitsAt 8 w 0)) = _
  rw [bits_eq (show w / 2 ^ 16 % 2 ^ 8 = d.toNat by omega), bits_eq (show w / 2 ^ 8 % 2 ^ 8 = a.toNat by omega), bits_eq (show w / 2 ^ 0 % 2 ^ 8 = b.toNat by omega)]
theorem uldB64 (pf : Pfx) (d a b : BitVec 8) : Statement (.uldB64 pf d a b) := by
  intro w h
  have h : putF d 16 (putF a 8 (putF b 0 (0xA1000000))) = w := Option.some.inj h
  unfold putF at h
  have l0 := d.isLt; have l1 := a.isLt; have l2 := b.isLt
  refine ⟨by omega, by omega, ?_⟩
  rw [rowA _ (show w / 2 ^ 24 % 256 = 0xA1 by omega) rfl]
  show Except.ok (Instr.uldB64 pf (bitsAt 8 w 16) (bitsAt 8 w 8) (bitsAt 8 w 0)) = _
  rw [bits_eq (show w / 2 ^ 16 % 2 ^ 8 = d.toNat by omega), bits_eq (show w / 2 ^ 8 % 2 ^ 8 = a.toNat by omega), bits_eq (show w / 2 ^ 0 % 2 ^ 8 = b.toNat by omega)]
theorem ust (pf : Pfx) (d a b : BitVec 8) : Statement (.ust pf d a b) := by
  intro w h
  have h : putF d 16 (putF a 8 (putF b 0 (0xA2000000))) = w := Option.some.inj h
  unfold putF at h
  have l0 := d.isLt; have l1 := a.isLt; have l2 := b.isLt
  refine ⟨by omega, by omega, ?_⟩
  rw [rowA _ (show w / 2 ^ 24 % 256 = 0xA2 by omega) rfl]
  show Except.ok (Instr.ust pf (bitsAt 8 w 16) (bitsAt 8 w 8) (bitsAt 8 w 0)) = _
  rw [bits_eq (show w / 2 ^ 16 % 2 ^ 8 = d.toNat by omega), bits_eq (show w / 2 ^ 8 % 2 ^ 8 = a.toNat by omega), bits_eq (show w / 2 ^ 0 % 2 ^ 8 = b.toNat by omega)]
theorem ustB64 (pf : Pfx) (d a b : BitVec 8) : Statement (.ustB64 pf d a b) := by
  intro w h
  have h : putF d 16 (putF a 8 (putF b 0 (0xA3000000))) = w := Option.some.inj h
  unfold putF at h
  have l0 := d.isLt; have l1 := a.isLt; have l2 := b.isLt
  refine ⟨by omega, by omega, ?_⟩
  rw [rowA _ (show w / 2 ^ 24 % 256 = 0xA3 by omega) rfl]
  show Except.ok (Instr.ustB64 pf (bitsAt 8 w 16) (bitsAt 8 w 8) (bitsAt 8 w 0)) = _
  rw [bits_eq (show w / 2 ^ 16 % 2 ^ 8 = d.toNat by omega), bits_eq (show w / 2 ^ 8 % 2 ^ 8 = a.toNat by omega), bits_eq (show w / 2 ^ 0 % 2 ^ 8 = b.toNat by omega)]
theorem atom (pf : Pfx) (d a : BitVec 8) (o : BitVec 4) (k : BitVec 1) (s : BitVec 3) : Statement (.atom pf d a o k s) := by
  intro w h
  have h : putF d 16 (putF a 8 (putF o 4 (putF k 3 (putF s 0 (0xA4000000))))) = w := Option.some.inj h
  unfold putF at h
  have l0 := d.isLt; have l1 := a.isLt; have l2 := o.isLt; have l3 := k.isLt; have l4 := s.isLt
  refine ⟨by omega, by omega, ?_⟩
  rw [rowA _ (show w / 2 ^ 24 % 256 = 0xA4 by omega) rfl]
  show Except.ok (Instr.atom pf (bitsAt 8 w 16) (bitsAt 8 w 8) (bitsAt 4 w 4) (bitsAt 1 w 3) (bitsAt 3 w 0)) = _
  rw [bits_eq (show w / 2 ^ 16 % 2 ^ 8 = d.toNat by omega), bits_eq (show w / 2 ^ 8 % 2 ^ 8 = a.toNat by omega), bits_eq (show w / 2 ^ 4 % 2 ^ 4 = o.toNat by omega), bits_eq (show w / 2 ^ 3 % 2 ^ 1 = k.toNat by omega), bits_eq (show w / 2 ^ 0 % 2 ^ 3 = s.toNat by omega)]
theorem cas (pf : Pfx) (d a : BitVec 8) (z : BitVec 2) (s : BitVec 3) : Statement (.cas pf d a z s) := by
  intro w h
  have h : putF d 16 (putF a 8 (putF z 3 (putF s 0 (0xA5000000)))) = w := Option.some.inj h
  unfold putF at h
  have l0 := d.isLt; have l1 := a.isLt; have l2 := z.isLt; have l3 := s.isLt
  refine ⟨by omega, by omega, ?_⟩
  rw [rowA _ (show w / 2 ^ 24 % 256 = 0xA5 by omega) rfl]
  show whenZero (fld w 7 5) (.cas pf (bitsAt 8 w 16) (bitsAt 8 w 8) (bitsAt 2 w 3) (bitsAt 3 w 0)) = _
  rw [bits_eq (show w / 2 ^ 16 % 2 ^ 8 = d.toNat by omega), bits_eq (show w / 2 ^ 8 % 2 ^ 8 = a.toNat by omega), bits_eq (show w / 2 ^ 3 % 2 ^ 2 = z.toNat by omega), bits_eq (show w / 2 ^ 0 % 2 ^ 3 = s.toNat by omega)]
  exact whenZero_ok (by unfold fld; omega)
theorem red (pf : Pfx) (d a : BitVec 8) (o : BitVec 4) (k : BitVec 1) (s : BitVec 3) : Statement (.red pf d a o k s) := by
  intro w h
  have h : putF d 16 (putF a 8 (putF o 4 (putF k 3 (putF s 0 (0xA6000000))))) = w := Option.some.inj h
  unfold putF at h
  have l0 := d.isLt; have l1 := a.isLt; have l2 := o.isLt; have l3 := k.isLt; have l4 := s.isLt
  refine ⟨by omega, by omega, ?_⟩
  rw [rowA _ (show w / 2 ^ 24 % 256 = 0xA6 by omega) rfl]
  show Except.ok (Instr.red pf (bitsAt 8 w 16) (bitsAt 8 w 8) (bitsAt 4 w 4) (bitsAt 1 w 3) (bitsAt 3 w 0)) = _
  rw [bits_eq (show w / 2 ^ 16 % 2 ^ 8 = d.toNat by omega), bits_eq (show w / 2 ^ 8 % 2 ^ 8 = a.toNat by omega), bits_eq (show w / 2 ^ 4 % 2 ^ 4 = o.toNat by omega), bits_eq (show w / 2 ^ 3 % 2 ^ 1 = k.toNat by omega), bits_eq (show w / 2 ^ 0 % 2 ^ 3 = s.toNat by omega)]
theorem fence (pf : Pfx) (k : BitVec 2) (s : BitVec 3) : Statement (.fence pf k s) := by
  intro w h
  have h : putF k 3 (putF s 0 (0xA7000000)) = w := Option.some.inj h
  unfold putF at h
  have l0 := k.isLt; have l1 := s.isLt
  refine ⟨by omega, by omega, ?_⟩
  rw [rowA _ (show w / 2 ^ 24 % 256 = 0xA7 by omega) rfl]
  show whenZero (fld w 23 5) (.fence pf (bitsAt 2 w 3) (bitsAt 3 w 0)) = _
  rw [bits_eq (show w / 2 ^ 3 % 2 ^ 2 = k.toNat by omega), bits_eq (show w / 2 ^ 0 % 2 ^ 3 = s.toNat by omega)]
  exact whenZero_ok (by unfold fld; omega)
theorem prefL1 (pf : Pfx) (a : BitVec 8) (r : BitVec 1) : Statement (.prefL1 pf a r) := by
  intro w h
  have h : putF a 8 (putF r 2 (0xA8000000)) = w := Option.some.inj h
  unfold putF at h
  have l0 := a.isLt; have l1 := r.isLt
  refine ⟨by omega, by omega, ?_⟩
  rw [rowA _ (show w / 2 ^ 24 % 256 = 0xA8 by omega) rfl]
  have k : w % 4 = 0 := by omega
  show decodePref w pf = _
  rw [show decodePref w pf = whenZero (fld w 7 3 + fld w 23 16) (.prefL1 pf (bitsAt 8 w 8) (bitsAt 1 w 2)) by unfold decodePref; rw [k]; rfl]
  rw [bits_eq (show w / 2 ^ 8 % 2 ^ 8 = a.toNat by omega), bits_eq (show w / 2 ^ 2 % 2 ^ 1 = r.toNat by omega)]
  exact whenZero_ok (by unfold fld; omega)
theorem prefL2 (pf : Pfx) (a : BitVec 8) (r : BitVec 1) : Statement (.prefL2 pf a r) := by
  intro w h
  have h : putF a 8 (putF r 2 (0xA8000001)) = w := Option.some.inj h
  unfold putF at h
  have l0 := a.isLt; have l1 := r.isLt
  refine ⟨by omega, by omega, ?_⟩
  rw [rowA _ (show w / 2 ^ 24 % 256 = 0xA8 by omega) rfl]
  have k : w % 4 = 1 := by omega
  show decodePref w pf = _
  rw [show decodePref w pf = whenZero (fld w 7 3 + fld w 23 16) (.prefL2 pf (bitsAt 8 w 8) (bitsAt 1 w 2)) by unfold decodePref; rw [k]; rfl]
  rw [bits_eq (show w / 2 ^ 8 % 2 ^ 8 = a.toNat by omega), bits_eq (show w / 2 ^ 2 % 2 ^ 1 = r.toNat by omega)]
  exact whenZero_ok (by unfold fld; omega)
theorem prefHbm (pf : Pfx) (a : BitVec 8) (r : BitVec 1) : Statement (.prefHbm pf a r) := by
  intro w h
  have h : putF a 8 (putF r 2 (0xA8000002)) = w := Option.some.inj h
  unfold putF at h
  have l0 := a.isLt; have l1 := r.isLt
  refine ⟨by omega, by omega, ?_⟩
  rw [rowA _ (show w / 2 ^ 24 % 256 = 0xA8 by omega) rfl]
  have k : w % 4 = 2 := by omega
  show decodePref w pf = _
  rw [show decodePref w pf = whenZero (fld w 7 3 + fld w 23 16) (.prefHbm pf (bitsAt 8 w 8) (bitsAt 1 w 2)) by unfold decodePref; rw [k]; rfl]
  rw [bits_eq (show w / 2 ^ 8 % 2 ^ 8 = a.toNat by omega), bits_eq (show w / 2 ^ 2 % 2 ^ 1 = r.toNat by omega)]
  exact whenZero_ok (by unfold fld; omega)
theorem prefTier (pf : Pfx) (d a : BitVec 8) (t r : BitVec 1) : Statement (.prefTier pf d a t r) := by
  intro w h
  have h : putF d 16 (putF a 8 (putF t 3 (putF r 2 (0xA8000003)))) = w := Option.some.inj h
  unfold putF at h
  have l0 := d.isLt; have l1 := a.isLt; have l2 := t.isLt; have l3 := r.isLt
  refine ⟨by omega, by omega, ?_⟩
  rw [rowA _ (show w / 2 ^ 24 % 256 = 0xA8 by omega) rfl]
  have k : w % 4 = 3 := by omega
  show decodePref w pf = _
  rw [show decodePref w pf = whenZero (fld w 7 4) (.prefTier pf (bitsAt 8 w 16) (bitsAt 8 w 8) (bitsAt 1 w 3) (bitsAt 1 w 2)) by unfold decodePref; rw [k]; rfl]
  rw [bits_eq (show w / 2 ^ 16 % 2 ^ 8 = d.toNat by omega), bits_eq (show w / 2 ^ 8 % 2 ^ 8 = a.toNat by omega), bits_eq (show w / 2 ^ 3 % 2 ^ 1 = t.toNat by omega), bits_eq (show w / 2 ^ 2 % 2 ^ 1 = r.toNat by omega)]
  exact whenZero_ok (by unfold fld; omega)
theorem residQ (pf : Pfx) (d a : BitVec 8) : Statement (.residQ pf d a) := by
  intro w h
  have h : putF d 16 (putF a 8 (0xA9000000)) = w := Option.some.inj h
  unfold putF at h
  have l0 := d.isLt; have l1 := a.isLt
  refine ⟨by omega, by omega, ?_⟩
  rw [rowA _ (show w / 2 ^ 24 % 256 = 0xA9 by omega) rfl]
  have k : w % 4 = 0 := by omega
  show decodeResid w pf = _
  rw [show decodeResid w pf = whenZero (fld w 7 2) (.residQ pf (bitsAt 8 w 16) (bitsAt 8 w 8)) by unfold decodeResid; rw [k]; rfl]
  rw [bits_eq (show w / 2 ^ 16 % 2 ^ 8 = d.toNat by omega), bits_eq (show w / 2 ^ 8 % 2 ^ 8 = a.toNat by omega)]
  exact whenZero_ok (by unfold fld; omega)
theorem residKeep (pf : Pfx) (a : BitVec 8) : Statement (.residKeep pf a) := by
  intro w h
  have h : putF a 8 (0xA9000001) = w := Option.some.inj h
  unfold putF at h
  have l0 := a.isLt
  refine ⟨by omega, by omega, ?_⟩
  rw [rowA _ (show w / 2 ^ 24 % 256 = 0xA9 by omega) rfl]
  have k : w % 4 = 1 := by omega
  show decodeResid w pf = _
  rw [show decodeResid w pf = whenZero (fld w 7 2 + fld w 23 16) (.residKeep pf (bitsAt 8 w 8)) by unfold decodeResid; rw [k]; rfl]
  rw [bits_eq (show w / 2 ^ 8 % 2 ^ 8 = a.toNat by omega)]
  exact whenZero_ok (by unfold fld; omega)
theorem residEvict (pf : Pfx) (a : BitVec 8) : Statement (.residEvict pf a) := by
  intro w h
  have h : putF a 8 (0xA9000002) = w := Option.some.inj h
  unfold putF at h
  have l0 := a.isLt
  refine ⟨by omega, by omega, ?_⟩
  rw [rowA _ (show w / 2 ^ 24 % 256 = 0xA9 by omega) rfl]
  have k : w % 4 = 2 := by omega
  show decodeResid w pf = _
  rw [show decodeResid w pf = whenZero (fld w 7 2 + fld w 23 16) (.residEvict pf (bitsAt 8 w 8)) by unfold decodeResid; rw [k]; rfl]
  rw [bits_eq (show w / 2 ^ 8 % 2 ^ 8 = a.toNat by omega)]
  exact whenZero_ok (by unfold fld; omega)
theorem sldx (pf : Pfx) (d a : BitVec 8) (u : BitVec 1) (n : BitVec 4) : Statement (.sldx pf d a u n) := by
  intro w h
  have h : putF d 16 (putF a 8 (putF u 4 (putF n 0 (0xAA000000)))) = w := Option.some.inj h
  unfold putF at h
  have l0 := d.isLt; have l1 := a.isLt; have l2 := u.isLt; have l3 := n.isLt
  refine ⟨by omega, by omega, ?_⟩
  rw [rowA _ (show w / 2 ^ 24 % 256 = 0xAA by omega) rfl]
  show whenZero (fld w 7 5) (.sldx pf (bitsAt 8 w 16) (bitsAt 8 w 8) (bitsAt 1 w 4) (bitsAt 4 w 0)) = _
  rw [bits_eq (show w / 2 ^ 16 % 2 ^ 8 = d.toNat by omega), bits_eq (show w / 2 ^ 8 % 2 ^ 8 = a.toNat by omega), bits_eq (show w / 2 ^ 4 % 2 ^ 1 = u.toNat by omega), bits_eq (show w / 2 ^ 0 % 2 ^ 4 = n.toNat by omega)]
  exact whenZero_ok (by unfold fld; omega)
theorem sstx (pf : Pfx) (d a : BitVec 8) (u : BitVec 1) (n : BitVec 4) : Statement (.sstx pf d a u n) := by
  intro w h
  have h : putF d 16 (putF a 8 (putF u 4 (putF n 0 (0xAB000000)))) = w := Option.some.inj h
  unfold putF at h
  have l0 := d.isLt; have l1 := a.isLt; have l2 := u.isLt; have l3 := n.isLt
  refine ⟨by omega, by omega, ?_⟩
  rw [rowA _ (show w / 2 ^ 24 % 256 = 0xAB by omega) rfl]
  show whenZero (fld w 7 5) (.sstx pf (bitsAt 8 w 16) (bitsAt 8 w 8) (bitsAt 1 w 4) (bitsAt 4 w 0)) = _
  rw [bits_eq (show w / 2 ^ 16 % 2 ^ 8 = d.toNat by omega), bits_eq (show w / 2 ^ 8 % 2 ^ 8 = a.toNat by omega), bits_eq (show w / 2 ^ 4 % 2 ^ 1 = u.toNat by omega), bits_eq (show w / 2 ^ 0 % 2 ^ 4 = n.toNat by omega)]
  exact whenZero_ok (by unfold fld; omega)
theorem tdef (pf : Pfx) (t a : BitVec 8) : Statement (.tdef pf t a) := by
  intro w h
  have h : putF t 16 (putF a 8 (0xB0000000)) = w := Option.some.inj h
  unfold putF at h
  have l0 := t.isLt; have l1 := a.isLt
  refine ⟨by omega, by omega, ?_⟩
  rw [rowB _ (show w / 2 ^ 24 % 256 = 0xB0 by omega) rfl]
  show whenZero (fld w 7 0) (.tdef pf (bitsAt 8 w 16) (bitsAt 8 w 8)) = _
  rw [bits_eq (show w / 2 ^ 16 % 2 ^ 8 = t.toNat by omega), bits_eq (show w / 2 ^ 8 % 2 ^ 8 = a.toNat by omega)]
  exact whenZero_ok (by unfold fld; omega)
theorem tarm (pf : Pfx) (t a b : BitVec 8) : Statement (.tarm pf t a b) := by
  intro w h
  have h : putF t 16 (putF a 8 (putF b 0 (0xB1000000))) = w := Option.some.inj h
  unfold putF at h
  have l0 := t.isLt; have l1 := a.isLt; have l2 := b.isLt
  refine ⟨by omega, by omega, ?_⟩
  rw [rowB _ (show w / 2 ^ 24 % 256 = 0xB1 by omega) rfl]
  show Except.ok (Instr.tarm pf (bitsAt 8 w 16) (bitsAt 8 w 8) (bitsAt 8 w 0)) = _
  rw [bits_eq (show w / 2 ^ 16 % 2 ^ 8 = t.toNat by omega), bits_eq (show w / 2 ^ 8 % 2 ^ 8 = a.toNat by omega), bits_eq (show w / 2 ^ 0 % 2 ^ 8 = b.toNat by omega)]
theorem twait (pf : Pfx) (t a : BitVec 8) : Statement (.twait pf t a) := by
  intro w h
  have h : putF t 16 (putF a 8 (0xB2000000)) = w := Option.some.inj h
  unfold putF at h
  have l0 := t.isLt; have l1 := a.isLt
  refine ⟨by omega, by omega, ?_⟩
  rw [rowB _ (show w / 2 ^ 24 % 256 = 0xB2 by omega) rfl]
  show whenZero (fld w 7 0) (.twait pf (bitsAt 8 w 16) (bitsAt 8 w 8)) = _
  rw [bits_eq (show w / 2 ^ 16 % 2 ^ 8 = t.toNat by omega), bits_eq (show w / 2 ^ 8 % 2 ^ 8 = a.toNat by omega)]
  exact whenZero_ok (by unfold fld; omega)
theorem tcons (pf : Pfx) (t : BitVec 8) : Statement (.tcons pf t) := by
  intro w h
  have h : putF t 16 (0xB3000000) = w := Option.some.inj h
  unfold putF at h
  have l0 := t.isLt
  refine ⟨by omega, by omega, ?_⟩
  rw [rowB _ (show w / 2 ^ 24 % 256 = 0xB3 by omega) rfl]
  show whenZero (fld w 15 0) (.tcons pf (bitsAt 8 w 16)) = _
  rw [bits_eq (show w / 2 ^ 16 % 2 ^ 8 = t.toNat by omega)]
  exact whenZero_ok (by unfold fld; omega)
theorem tstat (pf : Pfx) (d t : BitVec 8) : Statement (.tstat pf d t) := by
  intro w h
  have h : putF d 16 (putF t 8 (0xB4000000)) = w := Option.some.inj h
  unfold putF at h
  have l0 := d.isLt; have l1 := t.isLt
  refine ⟨by omega, by omega, ?_⟩
  rw [rowB _ (show w / 2 ^ 24 % 256 = 0xB4 by omega) rfl]
  show whenZero (fld w 7 0) (.tstat pf (bitsAt 8 w 16) (bitsAt 8 w 8)) = _
  rw [bits_eq (show w / 2 ^ 16 % 2 ^ 8 = d.toNat by omega), bits_eq (show w / 2 ^ 8 % 2 ^ 8 = t.toNat by omega)]
  exact whenZero_ok (by unfold fld; omega)
theorem bar (pf : Pfx) (u v : BitVec 1) (k : BitVec 4) : Statement (.bar pf u v k) := by
  intro w h
  have h : putF u 5 (putF v 4 (putF k 0 (0xB5000000))) = w := Option.some.inj h
  unfold putF at h
  have l0 := u.isLt; have l1 := v.isLt; have l2 := k.isLt
  refine ⟨by omega, by omega, ?_⟩
  rw [rowB _ (show w / 2 ^ 24 % 256 = 0xB5 by omega) rfl]
  show whenZero (fld w 23 6) (.bar pf (bitsAt 1 w 5) (bitsAt 1 w 4) (bitsAt 4 w 0)) = _
  rw [bits_eq (show w / 2 ^ 5 % 2 ^ 1 = u.toNat by omega), bits_eq (show w / 2 ^ 4 % 2 ^ 1 = v.toNat by omega), bits_eq (show w / 2 ^ 0 % 2 ^ 4 = k.toNat by omega)]
  exact whenZero_ok (by unfold fld; omega)
theorem tbinit (pf : Pfx) (d a : BitVec 8) : Statement (.tbinit pf d a) := by
  intro w h
  have h : putF d 16 (putF a 8 (0xB6000000)) = w := Option.some.inj h
  unfold putF at h
  have l0 := d.isLt; have l1 := a.isLt
  refine ⟨by omega, by omega, ?_⟩
  rw [rowB _ (show w / 2 ^ 24 % 256 = 0xB6 by omega) rfl]
  show whenZero (fld w 7 0) (.tbinit pf (bitsAt 8 w 16) (bitsAt 8 w 8)) = _
  rw [bits_eq (show w / 2 ^ 16 % 2 ^ 8 = d.toNat by omega), bits_eq (show w / 2 ^ 8 % 2 ^ 8 = a.toNat by omega)]
  exact whenZero_ok (by unfold fld; omega)
theorem tbexp (pf : Pfx) (d a : BitVec 8) : Statement (.tbexp pf d a) := by
  intro w h
  have h : putF d 16 (putF a 8 (0xB7000000)) = w := Option.some.inj h
  unfold putF at h
  have l0 := d.isLt; have l1 := a.isLt
  refine ⟨by omega, by omega, ?_⟩
  rw [rowB _ (show w / 2 ^ 24 % 256 = 0xB7 by omega) rfl]
  show whenZero (fld w 7 0) (.tbexp pf (bitsAt 8 w 16) (bitsAt 8 w 8)) = _
  rw [bits_eq (show w / 2 ^ 16 % 2 ^ 8 = d.toNat by omega), bits_eq (show w / 2 ^ 8 % 2 ^ 8 = a.toNat by omega)]
  exact whenZero_ok (by unfold fld; omega)
theorem tbarr (pf : Pfx) (d a : BitVec 8) : Statement (.tbarr pf d a) := by
  intro w h
  have h : putF d 16 (putF a 8 (0xB8000000)) = w := Option.some.inj h
  unfold putF at h
  have l0 := d.isLt; have l1 := a.isLt
  refine ⟨by omega, by omega, ?_⟩
  rw [rowB _ (show w / 2 ^ 24 % 256 = 0xB8 by omega) rfl]
  show whenZero (fld w 7 0) (.tbarr pf (bitsAt 8 w 16) (bitsAt 8 w 8)) = _
  rw [bits_eq (show w / 2 ^ 16 % 2 ^ 8 = d.toNat by omega), bits_eq (show w / 2 ^ 8 % 2 ^ 8 = a.toNat by omega)]
  exact whenZero_ok (by unfold fld; omega)
theorem tbwait (pf : Pfx) (d a : BitVec 8) (p : BitVec 3) : Statement (.tbwait pf d a p) := by
  intro w h
  have h : putF d 16 (putF a 8 (putF p 0 (0xB9000000))) = w := Option.some.inj h
  unfold putF at h
  have l0 := d.isLt; have l1 := a.isLt; have l2 := p.isLt
  refine ⟨by omega, by omega, ?_⟩
  rw [rowB _ (show w / 2 ^ 24 % 256 = 0xB9 by omega) rfl]
  show whenZero (fld w 7 3) (.tbwait pf (bitsAt 8 w 16) (bitsAt 8 w 8) (bitsAt 3 w 0)) = _
  rw [bits_eq (show w / 2 ^ 16 % 2 ^ 8 = d.toNat by omega), bits_eq (show w / 2 ^ 8 % 2 ^ 8 = a.toNat by omega), bits_eq (show w / 2 ^ 0 % 2 ^ 3 = p.toNat by omega)]
  exact whenZero_ok (by unfold fld; omega)
theorem ctrwait (pf : Pfx) (d a : BitVec 8) (s : BitVec 3) : Statement (.ctrwait pf d a s) := by
  intro w h
  have h : putF d 16 (putF a 8 (putF s 0 (0xBA000000))) = w := Option.some.inj h
  unfold putF at h
  have l0 := d.isLt; have l1 := a.isLt; have l2 := s.isLt
  refine ⟨by omega, by omega, ?_⟩
  rw [rowB _ (show w / 2 ^ 24 % 256 = 0xBA by omega) rfl]
  show whenZero (fld w 7 3) (.ctrwait pf (bitsAt 8 w 16) (bitsAt 8 w 8) (bitsAt 3 w 0)) = _
  rw [bits_eq (show w / 2 ^ 16 % 2 ^ 8 = d.toNat by omega), bits_eq (show w / 2 ^ 8 % 2 ^ 8 = a.toNat by omega), bits_eq (show w / 2 ^ 0 % 2 ^ 3 = s.toNat by omega)]
  exact whenZero_ok (by unfold fld; omega)
theorem ctrwaitYield (pf : Pfx) (d a : BitVec 8) (s : BitVec 3) : Statement (.ctrwaitYield pf d a s) := by
  intro w h
  have h : putF d 16 (putF a 8 (putF s 0 (0xBB000000))) = w := Option.some.inj h
  unfold putF at h
  have l0 := d.isLt; have l1 := a.isLt; have l2 := s.isLt
  refine ⟨by omega, by omega, ?_⟩
  rw [rowB _ (show w / 2 ^ 24 % 256 = 0xBB by omega) rfl]
  show whenZero (fld w 7 3) (.ctrwaitYield pf (bitsAt 8 w 16) (bitsAt 8 w 8) (bitsAt 3 w 0)) = _
  rw [bits_eq (show w / 2 ^ 16 % 2 ^ 8 = d.toNat by omega), bits_eq (show w / 2 ^ 8 % 2 ^ 8 = a.toNat by omega), bits_eq (show w / 2 ^ 0 % 2 ^ 3 = s.toNat by omega)]
  exact whenZero_ok (by unfold fld; omega)
theorem mres (pf : Pfx) (r : BitVec 4) (a : BitVec 8) : Statement (.mres pf r a) := by
  intro w h
  have h : putF r 16 (putF a 8 (0xC0000000)) = w := Option.some.inj h
  unfold putF at h
  have l0 := r.isLt; have l1 := a.isLt
  refine ⟨by omega, by omega, ?_⟩
  rw [rowC _ (show w / 2 ^ 24 % 256 = 0xC0 by omega) rfl]
  show whenZero (fld w 7 0 + fld w 23 20) (.mres pf (bitsAt 4 w 16) (bitsAt 8 w 8)) = _
  rw [bits_eq (show w / 2 ^ 16 % 2 ^ 4 = r.toNat by omega), bits_eq (show w / 2 ^ 8 % 2 ^ 8 = a.toNat by omega)]
  exact whenZero_ok (by unfold fld; omega)
theorem mrel (pf : Pfx) (r : BitVec 4) (a : BitVec 8) : Statement (.mrel pf r a) := by
  intro w h
  have h : putF r 16 (putF a 8 (0xC1000000)) = w := Option.some.inj h
  unfold putF at h
  have l0 := r.isLt; have l1 := a.isLt
  refine ⟨by omega, by omega, ?_⟩
  rw [rowC _ (show w / 2 ^ 24 % 256 = 0xC1 by omega) rfl]
  show whenZero (fld w 7 0 + fld w 23 20) (.mrel pf (bitsAt 4 w 16) (bitsAt 8 w 8)) = _
  rw [bits_eq (show w / 2 ^ 16 % 2 ^ 4 = r.toNat by omega), bits_eq (show w / 2 ^ 8 % 2 ^ 8 = a.toNat by omega)]
  exact whenZero_ok (by unfold fld; omega)
theorem mldt (pf : Pfx) (r : BitVec 4) (t b : BitVec 8) : Statement (.mldt pf r t b) := by
  intro w h
  have h : putF r 16 (putF t 8 (putF b 0 (0xC2000000))) = w := Option.some.inj h
  unfold putF at h
  have l0 := r.isLt; have l1 := t.isLt; have l2 := b.isLt
  refine ⟨by omega, by omega, ?_⟩
  rw [rowC _ (show w / 2 ^ 24 % 256 = 0xC2 by omega) rfl]
  show whenZero (fld w 23 20) (.mldt pf (bitsAt 4 w 16) (bitsAt 8 w 8) (bitsAt 8 w 0)) = _
  rw [bits_eq (show w / 2 ^ 16 % 2 ^ 4 = r.toNat by omega), bits_eq (show w / 2 ^ 8 % 2 ^ 8 = t.toNat by omega), bits_eq (show w / 2 ^ 0 % 2 ^ 8 = b.toNat by omega)]
  exact whenZero_ok (by unfold fld; omega)
theorem mldtC (pf : Pfx) (r : BitVec 4) (t b : BitVec 8) : Statement (.mldtC pf r t b) := by
  intro w h
  have h : putF r 16 (putF t 8 (putF b 0 (0xC3000000))) = w := Option.some.inj h
  unfold putF at h
  have l0 := r.isLt; have l1 := t.isLt; have l2 := b.isLt
  refine ⟨by omega, by omega, ?_⟩
  rw [rowC _ (show w / 2 ^ 24 % 256 = 0xC3 by omega) rfl]
  show whenZero (fld w 23 20) (.mldtC pf (bitsAt 4 w 16) (bitsAt 8 w 8) (bitsAt 8 w 0)) = _
  rw [bits_eq (show w / 2 ^ 16 % 2 ^ 4 = r.toNat by omega), bits_eq (show w / 2 ^ 8 % 2 ^ 8 = t.toNat by omega), bits_eq (show w / 2 ^ 0 % 2 ^ 8 = b.toNat by omega)]
  exact whenZero_ok (by unfold fld; omega)
theorem mldg (pf : Pfx) (r : BitVec 4) (a b : BitVec 8) : Statement (.mldg pf r a b) := by
  intro w h
  have h : putF r 16 (putF a 8 (putF b 0 (0xC4000000))) = w := Option.some.inj h
  unfold putF at h
  have l0 := r.isLt; have l1 := a.isLt; have l2 := b.isLt
  refine ⟨by omega, by omega, ?_⟩
  rw [rowC _ (show w / 2 ^ 24 % 256 = 0xC4 by omega) rfl]
  show whenZero (fld w 23 20) (.mldg pf (bitsAt 4 w 16) (bitsAt 8 w 8) (bitsAt 8 w 0)) = _
  rw [bits_eq (show w / 2 ^ 16 % 2 ^ 4 = r.toNat by omega), bits_eq (show w / 2 ^ 8 % 2 ^ 8 = a.toNat by omega), bits_eq (show w / 2 ^ 0 % 2 ^ 8 = b.toNat by omega)]
  exact whenZero_ok (by unfold fld; omega)
theorem mzero (pf : Pfx) (r : BitVec 4) : Statement (.mzero pf r) := by
  intro w h
  have h : putF r 16 (0xC5000000) = w := Option.some.inj h
  unfold putF at h
  have l0 := r.isLt
  refine ⟨by omega, by omega, ?_⟩
  rw [rowC _ (show w / 2 ^ 24 % 256 = 0xC5 by omega) rfl]
  show whenZero (fld w 15 0 + fld w 23 20) (.mzero pf (bitsAt 4 w 16)) = _
  rw [bits_eq (show w / 2 ^ 16 % 2 ^ 4 = r.toNat by omega)]
  exact whenZero_ok (by unfold fld; omega)
theorem mma (pf : Pfx) (c a b : BitVec 4) : Statement (.mma pf c a b) := by
  intro w h
  have h : putF c 16 (putF a 8 (putF b 0 (0xC6000000))) = w := Option.some.inj h
  unfold putF at h
  have l0 := c.isLt; have l1 := a.isLt; have l2 := b.isLt
  refine ⟨by omega, by omega, ?_⟩
  rw [rowC _ (show w / 2 ^ 24 % 256 = 0xC6 by omega) rfl]
  show whenZero (fld w 7 4 + fld w 15 12 + fld w 23 20) (.mma pf (bitsAt 4 w 16) (bitsAt 4 w 8) (bitsAt 4 w 0)) = _
  rw [bits_eq (show w / 2 ^ 16 % 2 ^ 4 = c.toNat by omega), bits_eq (show w / 2 ^ 8 % 2 ^ 4 = a.toNat by omega), bits_eq (show w / 2 ^ 0 % 2 ^ 4 = b.toNat by omega)]
  exact whenZero_ok (by unfold fld; omega)
theorem mmap (pf : Pfx) (c a b : BitVec 4) : Statement (.mmap pf c a b) := by
  intro w h
  have h : putF c 16 (putF a 8 (putF b 0 (0xC7000000))) = w := Option.some.inj h
  unfold putF at h
  have l0 := c.isLt; have l1 := a.isLt; have l2 := b.isLt
  refine ⟨by omega, by omega, ?_⟩
  rw [rowC _ (show w / 2 ^ 24 % 256 = 0xC7 by omega) rfl]
  show whenZero (fld w 7 4 + fld w 15 12 + fld w 23 20) (.mmap pf (bitsAt 4 w 16) (bitsAt 4 w 8) (bitsAt 4 w 0)) = _
  rw [bits_eq (show w / 2 ^ 16 % 2 ^ 4 = c.toNat by omega), bits_eq (show w / 2 ^ 8 % 2 ^ 4 = a.toNat by omega), bits_eq (show w / 2 ^ 0 % 2 ^ 4 = b.toNat by omega)]
  exact whenZero_ok (by unfold fld; omega)
theorem mstt (pf : Pfx) (t : BitVec 8) (a : BitVec 4) (b : BitVec 8) : Statement (.mstt pf t a b) := by
  intro w h
  have h : putF t 16 (putF a 8 (putF b 0 (0xC8000000))) = w := Option.some.inj h
  unfold putF at h
  have l0 := t.isLt; have l1 := a.isLt; have l2 := b.isLt
  refine ⟨by omega, by omega, ?_⟩
  rw [rowC _ (show w / 2 ^ 24 % 256 = 0xC8 by omega) rfl]
  show whenZero (fld w 15 12) (.mstt pf (bitsAt 8 w 16) (bitsAt 4 w 8) (bitsAt 8 w 0)) = _
  rw [bits_eq (show w / 2 ^ 16 % 2 ^ 8 = t.toNat by omega), bits_eq (show w / 2 ^ 8 % 2 ^ 4 = a.toNat by omega), bits_eq (show w / 2 ^ 0 % 2 ^ 8 = b.toNat by omega)]
  exact whenZero_ok (by unfold fld; omega)
theorem launch (pf : Pfx) (d a : BitVec 8) : Statement (.launch pf d a) := by
  intro w h
  have h : putF d 16 (putF a 8 (0xC9000000)) = w := Option.some.inj h
  unfold putF at h
  have l0 := d.isLt; have l1 := a.isLt
  refine ⟨by omega, by omega, ?_⟩
  rw [rowC _ (show w / 2 ^ 24 % 256 = 0xC9 by omega) rfl]
  show whenZero (fld w 7 0) (.launch pf (bitsAt 8 w 16) (bitsAt 8 w 8)) = _
  rw [bits_eq (show w / 2 ^ 16 % 2 ^ 8 = d.toNat by omega), bits_eq (show w / 2 ^ 8 % 2 ^ 8 = a.toNat by omega)]
  exact whenZero_ok (by unfold fld; omega)
theorem nsend (pf : Pfx) (d : BitVec 8) : Statement (.nsend pf d) := by
  intro w h
  have h : putF d 16 (0xCA000000) = w := Option.some.inj h
  unfold putF at h
  have l0 := d.isLt
  refine ⟨by omega, by omega, ?_⟩
  rw [rowC _ (show w / 2 ^ 24 % 256 = 0xCA by omega) rfl]
  show whenZero (fld w 15 0) (.nsend pf (bitsAt 8 w 16)) = _
  rw [bits_eq (show w / 2 ^ 16 % 2 ^ 8 = d.toNat by omega)]
  exact whenZero_ok (by unfold fld; omega)
theorem npost (pf : Pfx) (d : BitVec 8) : Statement (.npost pf d) := by
  intro w h
  have h : putF d 16 (0xCB000000) = w := Option.some.inj h
  unfold putF at h
  have l0 := d.isLt
  refine ⟨by omega, by omega, ?_⟩
  rw [rowC _ (show w / 2 ^ 24 % 256 = 0xCB by omega) rfl]
  show whenZero (fld w 15 0) (.npost pf (bitsAt 8 w 16)) = _
  rw [bits_eq (show w / 2 ^ 16 % 2 ^ 8 = d.toNat by omega)]
  exact whenZero_ok (by unfold fld; omega)
theorem bra (pf : Pfx) (o : BitVec 16) : Statement (.bra pf o) := by
  intro w h
  have h : putF o 0 (0xD0000000) = w := Option.some.inj h
  unfold putF at h
  have l0 := o.isLt
  refine ⟨by omega, by omega, ?_⟩
  rw [rowD _ (show w / 2 ^ 24 % 256 = 0xD0 by omega) rfl]
  show whenZero (fld w 23 16) (.bra pf (bitsAt 16 w 0)) = _
  rw [bits_eq (show w / 2 ^ 0 % 2 ^ 16 = o.toNat by omega)]
  exact whenZero_ok (by unfold fld; omega)
theorem brau (pf : Pfx) (g : BitVec 8) (o : BitVec 16) : Statement (.brau pf g o) := by
  intro w h
  have h : putF g 16 (putF o 0 (0xD1000000)) = w := Option.some.inj h
  unfold putF at h
  have l0 := g.isLt; have l1 := o.isLt
  refine ⟨by omega, by omega, ?_⟩
  rw [rowD _ (show w / 2 ^ 24 % 256 = 0xD1 by omega) rfl]
  show Except.ok (Instr.brau pf (bitsAt 8 w 16) (bitsAt 16 w 0)) = _
  rw [bits_eq (show w / 2 ^ 16 % 2 ^ 8 = g.toNat by omega), bits_eq (show w / 2 ^ 0 % 2 ^ 16 = o.toNat by omega)]
theorem brx (pf : Pfx) (a : BitVec 8) : Statement (.brx pf a) := by
  intro w h
  have h : putF a 8 (0xD2000000) = w := Option.some.inj h
  unfold putF at h
  have l0 := a.isLt
  refine ⟨by omega, by omega, ?_⟩
  rw [rowD _ (show w / 2 ^ 24 % 256 = 0xD2 by omega) rfl]
  show whenZero (fld w 7 0 + fld w 23 16) (.brx pf (bitsAt 8 w 8)) = _
  rw [bits_eq (show w / 2 ^ 8 % 2 ^ 8 = a.toNat by omega)]
  exact whenZero_ok (by unfold fld; omega)
theorem call (pf : Pfx) (o : BitVec 16) : Statement (.call pf o) := by
  intro w h
  have h : putF o 0 (0xD3000000) = w := Option.some.inj h
  unfold putF at h
  have l0 := o.isLt
  refine ⟨by omega, by omega, ?_⟩
  rw [rowD _ (show w / 2 ^ 24 % 256 = 0xD3 by omega) rfl]
  show whenZero (fld w 23 16) (.call pf (bitsAt 16 w 0)) = _
  rw [bits_eq (show w / 2 ^ 0 % 2 ^ 16 = o.toNat by omega)]
  exact whenZero_ok (by unfold fld; omega)
theorem callx (pf : Pfx) (a : BitVec 8) : Statement (.callx pf a) := by
  intro w h
  have h : putF a 8 (0xD4000000) = w := Option.some.inj h
  unfold putF at h
  have l0 := a.isLt
  refine ⟨by omega, by omega, ?_⟩
  rw [rowD _ (show w / 2 ^ 24 % 256 = 0xD4 by omega) rfl]
  show whenZero (fld w 7 0 + fld w 23 16) (.callx pf (bitsAt 8 w 8)) = _
  rw [bits_eq (show w / 2 ^ 8 % 2 ^ 8 = a.toNat by omega)]
  exact whenZero_ok (by unfold fld; omega)
theorem ret (pf : Pfx) : Statement (.ret pf) := by
  intro w h
  have h : 0xD5000000 = w := Option.some.inj h
  refine ⟨by omega, by omega, ?_⟩
  rw [rowD _ (show w / 2 ^ 24 % 256 = 0xD5 by omega) rfl]
  show whenZero (fld w 23 0) (.ret pf) = _
  exact whenZero_ok (by unfold fld; omega)
theorem csw (pf : Pfx) (a : BitVec 8) : Statement (.csw pf a) := by
  intro w h
  have h : putF a 8 (0xD6000000) = w := Option.some.inj h
  unfold putF at h
  have l0 := a.isLt
  refine ⟨by omega, by omega, ?_⟩
  rw [rowD _ (show w / 2 ^ 24 % 256 = 0xD6 by omega) rfl]
  show whenZero (fld w 7 0 + fld w 23 16) (.csw pf (bitsAt 8 w 8)) = _
  rw [bits_eq (show w / 2 ^ 8 % 2 ^ 8 = a.toNat by omega)]
  exact whenZero_ok (by unfold fld; omega)
theorem rejoin (pf : Pfx) (k : BitVec 8) (n : BitVec 4) : Statement (.rejoin pf k n) := by
  intro w h
  have h : putF k 16 (putF n 4 (0xD7000000)) = w := Option.some.inj h
  unfold putF at h
  have l0 := k.isLt; have l1 := n.isLt
  refine ⟨by omega, by omega, ?_⟩
  rw [rowD _ (show w / 2 ^ 24 % 256 = 0xD7 by omega) rfl]
  show whenZero (fld w 3 0 + fld w 15 8) (.rejoin pf (bitsAt 8 w 16) (bitsAt 4 w 4)) = _
  rw [bits_eq (show w / 2 ^ 16 % 2 ^ 8 = k.toNat by omega), bits_eq (show w / 2 ^ 4 % 2 ^ 4 = n.toNat by omega)]
  exact whenZero_ok (by unfold fld; omega)
theorem exit (pf : Pfx) : Statement (.exit pf) := by
  intro w h
  have h : 0xD8000000 = w := Option.some.inj h
  refine ⟨by omega, by omega, ?_⟩
  rw [rowD _ (show w / 2 ^ 24 % 256 = 0xD8 by omega) rfl]
  show whenZero (fld w 23 0) (.exit pf) = _
  exact whenZero_ok (by unfold fld; omega)
theorem yield (pf : Pfx) : Statement (.yield pf) := by
  intro w h
  have h : 0xD9000000 = w := Option.some.inj h
  refine ⟨by omega, by omega, ?_⟩
  rw [rowD _ (show w / 2 ^ 24 % 256 = 0xD9 by omega) rfl]
  show whenZero (fld w 23 0) (.yield pf) = _
  exact whenZero_ok (by unfold fld; omega)
theorem nop (pf : Pfx) : Statement (.nop pf) := by
  intro w h
  have h : 0xDA000000 = w := Option.some.inj h
  refine ⟨by omega, by omega, ?_⟩
  rw [rowD _ (show w / 2 ^ 24 % 256 = 0xDA by omega) rfl]
  show whenZero (fld w 23 0) (.nop pf) = _
  exact whenZero_ok (by unfold fld; omega)
theorem sread (pf : Pfx) (d s : BitVec 8) : Statement (.sread pf d s) := by
  intro w h
  have h : putF d 16 (putF s 0 (0xDB000000)) = w := Option.some.inj h
  unfold putF at h
  have l0 := d.isLt; have l1 := s.isLt
  refine ⟨by omega, by omega, ?_⟩
  rw [rowD _ (show w / 2 ^ 24 % 256 = 0xDB by omega) rfl]
  show whenZero (fld w 15 8) (.sread pf (bitsAt 8 w 16) (bitsAt 8 w 0)) = _
  rw [bits_eq (show w / 2 ^ 16 % 2 ^ 8 = d.toNat by omega), bits_eq (show w / 2 ^ 0 % 2 ^ 8 = s.toNat by omega)]
  exact whenZero_ok (by unfold fld; omega)
theorem sreadW (pf : Pfx) (s a : BitVec 8) : Statement (.sreadW pf s a) := by
  intro w h
  have h : putF s 16 (putF a 8 (0xDC000000)) = w := Option.some.inj h
  unfold putF at h
  have l0 := s.isLt; have l1 := a.isLt
  refine ⟨by omega, by omega, ?_⟩
  rw [rowD _ (show w / 2 ^ 24 % 256 = 0xDC by omega) rfl]
  show whenZero (fld w 7 0) (.sreadW pf (bitsAt 8 w 16) (bitsAt 8 w 8)) = _
  rw [bits_eq (show w / 2 ^ 16 % 2 ^ 8 = s.toNat by omega), bits_eq (show w / 2 ^ 8 % 2 ^ 8 = a.toNat by omega)]
  exact whenZero_ok (by unfold fld; omega)
theorem trap (pf : Pfx) (c : BitVec 16) : Statement (.trap pf c) := by
  intro w h
  have h : putF c 0 (0xE0000000) = w := Option.some.inj h
  unfold putF at h
  have l0 := c.isLt
  refine ⟨by omega, by omega, ?_⟩
  rw [rowE _ (show w / 2 ^ 24 % 256 = 0xE0 by omega) rfl]
  show whenZero (fld w 23 16) (.trap pf (bitsAt 16 w 0)) = _
  rw [bits_eq (show w / 2 ^ 0 % 2 ^ 16 = c.toNat by omega)]
  exact whenZero_ok (by unfold fld; omega)
theorem syscall (pf : Pfx) (c : BitVec 16) : Statement (.syscall pf c) := by
  intro w h
  have h : putF c 0 (0xE1000000) = w := Option.some.inj h
  unfold putF at h
  have l0 := c.isLt
  refine ⟨by omega, by omega, ?_⟩
  rw [rowE _ (show w / 2 ^ 24 % 256 = 0xE1 by omega) rfl]
  show whenZero (fld w 23 16) (.syscall pf (bitsAt 16 w 0)) = _
  rw [bits_eq (show w / 2 ^ 0 % 2 ^ 16 = c.toNat by omega)]
  exact whenZero_ok (by unfold fld; omega)
theorem ulien (pf : Pfx) (m : BitVec 5) : Statement (.ulien pf m) := by
  intro w h
  have h : putF m 0 (0xE2000000) = w := Option.some.inj h
  unfold putF at h
  have l0 := m.isLt
  refine ⟨by omega, by omega, ?_⟩
  rw [rowE _ (show w / 2 ^ 24 % 256 = 0xE2 by omega) rfl]
  show whenZero (fld w 23 5) (.ulien pf (bitsAt 5 w 0)) = _
  rw [bits_eq (show w / 2 ^ 0 % 2 ^ 5 = m.toNat by omega)]
  exact whenZero_ok (by unfold fld; omega)
theorem ulidis (pf : Pfx) (m : BitVec 5) : Statement (.ulidis pf m) := by
  intro w h
  have h : putF m 0 (0xE3000000) = w := Option.some.inj h
  unfold putF at h
  have l0 := m.isLt
  refine ⟨by omega, by omega, ?_⟩
  rw [rowE _ (show w / 2 ^ 24 % 256 = 0xE3 by omega) rfl]
  show whenZero (fld w 23 5) (.ulidis pf (bitsAt 5 w 0)) = _
  rw [bits_eq (show w / 2 ^ 0 % 2 ^ 5 = m.toNat by omega)]
  exact whenZero_ok (by unfold fld; omega)
theorem uliret (pf : Pfx) : Statement (.uliret pf) := by
  intro w h
  have h : 0xE4000000 = w := Option.some.inj h
  refine ⟨by omega, by omega, ?_⟩
  rw [rowE _ (show w / 2 ^ 24 % 256 = 0xE4 by omega) rfl]
  show whenZero (fld w 23 0) (.uliret pf) = _
  exact whenZero_ok (by unfold fld; omega)
theorem brkpt (pf : Pfx) (c : BitVec 16) : Statement (.brkpt pf c) := by
  intro w h
  have h : putF c 0 (0xE5000000) = w := Option.some.inj h
  unfold putF at h
  have l0 := c.isLt
  refine ⟨by omega, by omega, ?_⟩
  rw [rowE _ (show w / 2 ^ 24 % 256 = 0xE5 by omega) rfl]
  show whenZero (fld w 23 16) (.brkpt pf (bitsAt 16 w 0)) = _
  rw [bits_eq (show w / 2 ^ 0 % 2 ^ 16 = c.toNat by omega)]
  exact whenZero_ok (by unfold fld; omega)
theorem event (pf : Pfx) (c : BitVec 16) : Statement (.event pf c) := by
  intro w h
  have h : putF c 0 (0xE6000000) = w := Option.some.inj h
  unfold putF at h
  have l0 := c.isLt
  refine ⟨by omega, by omega, ?_⟩
  rw [rowE _ (show w / 2 ^ 24 % 256 = 0xE6 by omega) rfl]
  show whenZero (fld w 23 16) (.event pf (bitsAt 16 w 0)) = _
  rw [bits_eq (show w / 2 ^ 0 % 2 ^ 16 = c.toNat by omega)]
  exact whenZero_ok (by unfold fld; omega)
theorem evClauseEntry (g t i pc : Nat) : Statement (.evClauseEntry g t i pc) := by intro w h; cases h
theorem evWaitselMet (g t i tid : Nat) : Statement (.evWaitselMet g t i tid) := by intro w h; cases h
theorem evIssueArbitration (core part : Nat) : Statement (.evIssueArbitration core part) := by intro w h; cases h
theorem evEntryAged (g t i pc prio : Nat) : Statement (.evEntryAged g t i pc prio) := by intro w h; cases h
theorem evDemotionTimerExpiry (g t i pc prio : Nat) : Statement (.evDemotionTimerExpiry g t i pc prio) := by intro w h; cases h
theorem evProducerValueArrives (acc : Nat) (fresh : Bool) : Statement (.evProducerValueArrives acc fresh) := by intro w h; cases h
theorem evQueuePopServed (g t i q : Nat) : Statement (.evQueuePopServed g t i q) := by intro w h; cases h
theorem evQueueSpaceFreed (g t q : Nat) : Statement (.evQueueSpaceFreed g t q) := by intro w h; cases h
theorem evSfuCompletion (g t i n : Nat) : Statement (.evSfuCompletion g t i n) := by intro w h; cases h
theorem evStoreRetires (acc : Nat) : Statement (.evStoreRetires acc) := by intro w h; cases h
theorem evCtrwaitPoll (g t i tid : Nat) : Statement (.evCtrwaitPoll g t i tid) := by intro w h; cases h
theorem evTileArrival (n : Nat) : Statement (.evTileArrival n) := by intro w h; cases h
theorem evTileDrainComplete (g t c tile : Nat) : Statement (.evTileDrainComplete g t c tile) := by intro w h; cases h
theorem evHoldStoreExpiry (n : Nat) : Statement (.evHoldStoreExpiry n) := by intro w h; cases h
theorem evWeirWindow (die slice : Nat) : Statement (.evWeirWindow die slice) := by intro w h; cases h
theorem evWeirServe (die slice pasid : Nat) : Statement (.evWeirServe die slice pasid) := by intro w h; cases h
theorem evJobCardAccept (core chan : Nat) : Statement (.evJobCardAccept core chan) := by intro w h; cases h
theorem evJobStart (core job : Nat) : Statement (.evJobStart core job) := by intro w h; cases h
theorem evJobSector (core job : Nat) : Statement (.evJobSector core job) := by intro w h; cases h
theorem evJobComplete (core job : Nat) : Statement (.evJobComplete core job) := by intro w h; cases h
theorem evMatrixOpComplete (core : Nat) : Statement (.evMatrixOpComplete core) := by intro w h; cases h
theorem evMldgFillComplete (core n : Nat) : Statement (.evMldgFillComplete core n) := by intro w h; cases h
theorem evPendingLaunchTake (g t : Nat) : Statement (.evPendingLaunchTake g t) := by intro w h; cases h
theorem evSpawnWrite (fn ctx size off : Nat) (data : List Byte) : Statement (.evSpawnWrite fn ctx size off data) := by intro w h; cases h
theorem evTeamSelect : Statement (.evTeamSelect) := by intro w h; cases h
theorem evQueueAged (q : Nat) : Statement (.evQueueAged q) := by intro w h; cases h
theorem evTeamRetire (g t : Nat) : Statement (.evTeamRetire g t) := by intro w h; cases h
theorem evContinuationSwapOut (g t : Nat) : Statement (.evContinuationSwapOut g t) := by intro w h; cases h
theorem evContinuationPoll (g t : Nat) : Statement (.evContinuationPoll g t) := by intro w h; cases h
theorem evApertureUnbind (ap : Nat) : Statement (.evApertureUnbind ap) := by intro w h; cases h
theorem evQueueDescriptorWrite (q desc : Nat) : Statement (.evQueueDescriptorWrite q desc) := by intro w h; cases h
theorem evQueueDestroy (q : Nat) : Statement (.evQueueDestroy q) := by intro w h; cases h
theorem evQueueRingUnmapped (q : Nat) : Statement (.evQueueRingUnmapped q) := by intro w h; cases h
theorem evContextCreate (pasid part fn slot ttb ptroot trapTab recArea image mcrep : Nat) : Statement (.evContextCreate pasid part fn slot ttb ptroot trapTab recArea image mcrep) := by intro w h; cases h
theorem evSyscallReply (n g8 g9 : Nat) : Statement (.evSyscallReply n g8 g9) := by intro w h; cases h
theorem evFaultToPager (part : Nat) : Statement (.evFaultToPager part) := by intro w h; cases h
theorem evInterruptSourceEvent (g t i source : Nat) : Statement (.evInterruptSourceEvent g t i source) := by intro w h; cases h
theorem evDoorbell (fn ctx size off val : Nat) : Statement (.evDoorbell fn ctx size off val) := by intro w h; cases h
theorem evPreemptRequest (g t deadline allow who : Nat) : Statement (.evPreemptRequest g t deadline allow who) := by intro w h; cases h
theorem evDrainDeadline (g t : Nat) : Statement (.evDrainDeadline g t) := by intro w h; cases h
theorem evDiscard (g t : Nat) : Statement (.evDiscard g t) := by intro w h; cases h
theorem evSave (g t : Nat) : Statement (.evSave g t) := by intro w h; cases h
theorem evRestore (g t : Nat) : Statement (.evRestore g t) := by intro w h; cases h
theorem evTranslationWalk (core pasid va : Nat) : Statement (.evTranslationWalk core pasid va) := by intro w h; cases h
theorem evPageIn (n : Nat) : Statement (.evPageIn n) := by intro w h; cases h
theorem evPageSectorArrives (frame : Nat) : Statement (.evPageSectorArrives frame) := by intro w h; cases h
theorem evWritebackComplete (frame : Nat) : Statement (.evWritebackComplete frame) := by intro w h; cases h
theorem evInvalidateComplete (frame : Nat) : Statement (.evInvalidateComplete frame) := by intro w h; cases h
theorem evDecayTick : Statement (.evDecayTick) := by intro w h; cases h
theorem evLeaseExpiry (part id : Nat) : Statement (.evLeaseExpiry part id) := by intro w h; cases h
theorem evLeaseCheckFault (acc : Nat) : Statement (.evLeaseCheckFault acc) := by intro w h; cases h
theorem evReplay (part tag fid : Nat) : Statement (.evReplay part tag fid) := by intro w h; cases h
theorem evDecline (part tag fid : Nat) : Statement (.evDecline part tag fid) := by intro w h; cases h
theorem evLeaseSet (part tag rec : Nat) : Statement (.evLeaseSet part tag rec) := by intro w h; cases h
theorem evLeaseDrop (part tag id : Nat) : Statement (.evLeaseDrop part tag id) := by intro w h; cases h
theorem evInval (part tag pasid va pages : Nat) : Statement (.evInval part tag pasid va pages) := by intro w h; cases h
theorem evRevoke (part tag id deadline : Nat) : Statement (.evRevoke part tag id deadline) := by intro w h; cases h
theorem evUnknownPagerCommand (part tag op : Nat) : Statement (.evUnknownPagerCommand part tag op) := by intro w h; cases h
theorem evRevokeWritebackDone (part id : Nat) : Statement (.evRevokeWritebackDone part id) := by intro w h; cases h
theorem evPoolNodeLost (node : Nat) : Statement (.evPoolNodeLost node) := by intro w h; cases h
theorem evPoolRequestTimeout (node : Nat) : Statement (.evPoolRequestTimeout node) := by intro w h; cases h
theorem evPoolReadPoison (frame : Nat) : Statement (.evPoolReadPoison frame) := by intro w h; cases h
theorem evWritebackFailure (frame : Nat) : Statement (.evWritebackFailure frame) := by intro w h; cases h
theorem evBackInvalidationSnoop (port page : Nat) : Statement (.evBackInvalidationSnoop port page) := by intro w h; cases h
theorem evStampedWriteApply (die origin : Nat) : Statement (.evStampedWriteApply die origin) := by intro w h; cases h
theorem evHostSnoop (line : Nat) : Statement (.evHostSnoop line) := by intro w h; cases h
theorem evBar2Access (fn : AtPort) (off op : Nat) (data : List Byte) : Statement (.evBar2Access fn off op data) := by intro w h; cases h
theorem evShecelRequest (src : FromPeer) (fn : Nat) (place : StreamPlace) (faddr op size : Nat) (data : List Byte) :
    Statement (.evShecelRequest src fn place faddr op size data) := by intro w h; cases h
theorem evStreamResume (g t i stream : Nat) : Statement (.evStreamResume g t i stream) := by intro w h; cases h
theorem evStreamAbort (g t i stream : Nat) : Statement (.evStreamAbort g t i stream) := by intro w h; cases h
theorem evShecelReply (acc reason : Nat) (data : List Byte) : Statement (.evShecelReply acc reason data) := by intro w h; cases h
theorem evMulticastAck (acc expd pos : Nat) (neg : List Byte) : Statement (.evMulticastAck acc expd pos neg) := by intro w h; cases h
theorem evSwitchCombine (a b : Nat) : Statement (.evSwitchCombine a b) := by intro w h; cases h
theorem evHeartbeat (port : Nat) : Statement (.evHeartbeat port) := by intro w h; cases h
theorem evLinkSilenceTimeout (port : Nat) : Statement (.evLinkSilenceTimeout port) := by intro w h; cases h
theorem evDeathNotice (dev : Nat) : Statement (.evDeathNotice dev) := by intro w h; cases h
theorem evPeerReturn (dev incarnation : Nat) : Statement (.evPeerReturn dev incarnation) := by intro w h; cases h
theorem evAllowanceReturn (dev n : Nat) : Statement (.evAllowanceReturn dev n) := by intro w h; cases h
theorem evFunctionTeardown (fn : Nat) : Statement (.evFunctionTeardown fn) := by intro w h; cases h
theorem evTeardownRttExpiry (fn : Nat) : Statement (.evTeardownRttExpiry fn) := by intro w h; cases h
theorem evFunctionLevelReset (fn : Nat) : Statement (.evFunctionLevelReset fn) := by intro w h; cases h
theorem evExportTableWrite (fn e val : Nat) : Statement (.evExportTableWrite fn e val) := by intro w h; cases h
theorem evConnectionOpen (conn pasid peer : Nat) : Statement (.evConnectionOpen conn pasid peer) := by intro w h; cases h
theorem evConnectionClose (conn : Nat) : Statement (.evConnectionClose conn) := by intro w h; cases h
theorem evConnectionClosed (conn : Nat) : Statement (.evConnectionClosed conn) := by intro w h; cases h
theorem evNetworkPacket (conn : AtPort) (msg : MsgTag) (len off : Nat) (data : List Byte) :
    Statement (.evNetworkPacket conn msg len off data) := by intro w h; cases h
theorem evNetworkCompletion (n status : Nat) : Statement (.evNetworkCompletion n status) := by intro w h; cases h
theorem evHbmParityAlert (stack chan : Nat) : Statement (.evHbmParityAlert stack chan) := by intro w h; cases h
theorem evChannelRetrain (stack chan : Nat) (ok : Bool) : Statement (.evChannelRetrain stack chan ok) := by intro w h; cases h
theorem evScrubStep (stack chan : Nat) (err : Bool) : Statement (.evScrubStep stack chan err) := by intro w h; cases h
theorem evScrubEscalatorCheck (stack : Nat) : Statement (.evScrubEscalatorCheck stack) := by intro w h; cases h
theorem evHbmUncorrectable (addr : Nat) : Statement (.evHbmUncorrectable addr) := by intro w h; cases h
theorem evActivationAlert (stack chan owed : Nat) : Statement (.evActivationAlert stack chan owed) := by intro w h; cases h
theorem evBackoffWindowExpiry (stack chan : Nat) : Statement (.evBackoffWindowExpiry stack chan) := by intro w h; cases h
theorem evOndieEccError (core kind g t addr : Nat) : Statement (.evOndieEccError core kind g t addr) := by intro w h; cases h
theorem evErrorCounterClear (unit cls : Nat) : Statement (.evErrorCounterClear unit cls) := by intro w h; cases h
theorem evRepair (stack chan row spare left : Nat) : Statement (.evRepair stack chan row spare left) := by intro w h; cases h
theorem evRetrain (stack chan : Nat) (ok : Bool) : Statement (.evRetrain stack chan ok) := by intro w h; cases h
theorem evScrubstat (stack : Nat) : Statement (.evScrubstat stack) := by intro w h; cases h
theorem evTelem (stack temp rate power : Nat) : Statement (.evTelem stack temp rate power) := by intro w h; cases h
theorem evReset (stack chan : Nat) : Statement (.evReset stack chan) := by intro w h; cases h
theorem evMailboxTimeout (stack : Nat) : Statement (.evMailboxTimeout stack) := by intro w h; cases h
theorem evFatalError (cause unit addr : Nat) : Statement (.evFatalError cause unit addr) := by intro w h; cases h
theorem evFirmwareRecoveryDoorbell (comp : Nat) (image : List Byte) : Statement (.evFirmwareRecoveryDoorbell comp image) := by intro w h; cases h
theorem evSpdmRequest (n : Nat) : Statement (.evSpdmRequest n) := by intro w h; cases h
theorem evPartitionChange (part quads quad0 frame0 frames locals : Nat) : Statement (.evPartitionChange part quads quad0 frame0 frames locals) := by intro w h; cases h
theorem evFrequencyRequest (who island mhz : Nat) : Statement (.evFrequencyRequest who island mhz) := by intro w h; cases h
theorem evThermalThrottle (island temp : Nat) : Statement (.evThermalThrottle island temp) := by intro w h; cases h
theorem evTelemetryUpdate (island power temp : Nat) : Statement (.evTelemetryUpdate island power temp) := by intro w h; cases h
theorem evDeviceReset : Statement (.evDeviceReset) := by intro w h; cases h
theorem evRegisterWrite (who reg idx val : Nat) : Statement (.evRegisterWrite who reg idx val) := by intro w h; cases h
theorem evPoolWritebackAck (frame sector : Nat) : Statement (.evPoolWritebackAck frame sector) := by intro w h; cases h
theorem evPackagePowerLimit (power : Nat) : Statement (.evPackagePowerLimit power) := by intro w h; cases h

end Sys2Proof.Laws.Enc
end

