-- ==== Sys2Proof/Tests/Slice0.lean ====
section
/-! SUPPORT. Tests: words of the spec's encodings, ill-formed terms that the checks refuse, single steps on small states
with results taken from the spec, and a state that meets the hypotheses of each statement. -/

namespace Sys2Proof.Tests.Slice0

set_option maxRecDepth 100000

open Machine Claims

/-- A MOD prefix alone. -/
def md (m : Mod) : Pfx := ⟨none, some m⟩

/-- A thread inside a clause of one instruction, with lane registers. -/
def th (w : List (Nat × Word)) : Thread := { bootThread [0xA1C00000, 0xDA000000] 0 with w := w }

/-- The group of the tests. -/
def gr (ts : Tab Thread) : Group := { bootGroup [] with threads := ts }

/-- The team of the tests. -/
def tm (ts : Tab Thread) : Team := { bootTeam [] with groups := [(0, gr ts)] }

/-- A machine that executes an instruction in some threads. -/
def mach (ts : Tab Thread) : State :=
  { State.reset.bootWith [] 1 with
    grants := [], cur := ⟨⟨1, 0, 0⟩, 0, bootHdr + 4, ts.map (·.1)⟩, teams := [tm ts] }

/-- The state after an instruction. -/
def next (i : Instr) (s : State) : State := match exec i s with | .next t => t | _ => s

/-- A thread after an instruction. -/
def thOf (s : State) (tid : Nat) : Thread := (thr s ⟨⟨1, 0, 0⟩, tid⟩).getD (th [])

/-- A register of thread 0 after an instruction it executes alone. -/
def run (i : Instr) (w : List (Nat × Word)) (n : Nat) : Word := (thOf (next i (mach [(0, th w)])) 0).reg n

/-- Row 0x0_ of the opcode map: the spec's examples where it gives one, else D, A and B or their parts numbered from 1. -/
theorem test_decode_row_0 :
    decodeWords [0xF000_0400, 0x0003_0102] = .ok (.iadd (md { Mod.zero with satc := 1 }) 3 1 2, 2) ∧
    decodeWords [0x0101_0203] = .ok (.isub Pfx.none 1 2 3, 1) ∧
    decodeWords [0x0201_0203] = .ok (.imul Pfx.none 1 2 3, 1) ∧
    decodeWords [0x0301_0203] = .ok (.imulh Pfx.none 1 2 3, 1) ∧
    decodeWords [0x0401_0203] = .ok (.imulhHu Pfx.none 1 2 3, 1) ∧
    decodeWords [0x0501_0203] = .ok (.imad Pfx.none 1 2 3, 1) ∧
    decodeWords [0xF003_0000, 0x060A_02FF] = .ok (.add64 (md { Mod.zero with fb := 3 }) 10 2 255, 2) ∧
    decodeWords [0x0701_0203] = .ok (.sub64 Pfx.none 1 2 3, 1) ∧
    decodeWords [0x0801_0203] = .ok (.mul64 Pfx.none 1 2 3, 1) ∧
    decodeWords [0x0901_0203] = .ok (.addc Pfx.none 1 2 3, 1) ∧
    decodeWords [0x0A01_0203] = .ok (.subb Pfx.none 1 2 3, 1) ∧
    decodeWords [0x0B01_0203] = .ok (.imin Pfx.none 1 2 3, 1) ∧
    decodeWords [0x0C01_0203] = .ok (.iminNu Pfx.none 1 2 3, 1) ∧
    decodeWords [0x0D01_0203] = .ok (.imax Pfx.none 1 2 3, 1) ∧
    decodeWords [0x0E01_0203] = .ok (.imaxNu Pfx.none 1 2 3, 1) ∧
    decodeWords [0xF008_0080, 0x0F0A_2801] = .ok (.lea (md { Mod.zero with fa := 2, scl := 2 }) 10 40 1, 2) := by
  refine ⟨?_, ?_, ?_, ?_, ?_, ?_, ?_, ?_, ?_, ?_, ?_, ?_, ?_, ?_, ?_, ?_⟩ <;> rfl

/-- Row 0x1_ of the opcode map: the spec's examples where it gives one, else D, A and B or their parts numbered from 1. -/
theorem test_decode_row_1 :
    decodeWords [0x1001_0203] = .ok (.and Pfx.none 1 2 3, 1) ∧
    decodeWords [0x1101_0203] = .ok (.or Pfx.none 1 2 3, 1) ∧
    decodeWords [0x1201_0203] = .ok (.xor Pfx.none 1 2 3, 1) ∧
    decodeWords [0x1301_0203] = .ok (.andn Pfx.none 1 2 3, 1) ∧
    decodeWords [0x1401_0203] = .ok (.shl Pfx.none 1 2 3, 1) ∧
    decodeWords [0x1501_0203] = .ok (.shr Pfx.none 1 2 3, 1) ∧
    decodeWords [0x1601_0203] = .ok (.sar Pfx.none 1 2 3, 1) ∧
    decodeWords [0x1701_0203] = .ok (.rot Pfx.none 1 2 3, 1) ∧
    decodeWords [0x1801_0203] = .ok (.funnel Pfx.none 1 2 3, 1) ∧
    decodeWords [0x1905_0406] = .ok (.bfe Pfx.none 5 4 6, 1) ∧
    decodeWords [0x1A01_0203] = .ok (.bfi Pfx.none 1 2 3, 1) ∧
    decodeWords [0x1B01_0200] = .ok (.popc Pfx.none 1 2, 1) ∧
    decodeWords [0x1C01_0200] = .ok (.clz Pfx.none 1 2, 1) ∧
    decodeWords [0x1D01_0200] = .ok (.ctz Pfx.none 1 2, 1) ∧
    decodeWords [0x1E01_0200] = .ok (.brev Pfx.none 1 2, 1) ∧
    decodeWords [0x1F01_0200] = .ok (.mov Pfx.none 1 2, 1) := by
  refine ⟨?_, ?_, ?_, ?_, ?_, ?_, ?_, ?_, ?_, ?_, ?_, ?_, ?_, ?_, ?_, ?_⟩ <;> rfl

/-- Row 0x2_ of the opcode map: the spec's examples where it gives one, else D, A and B or their parts numbered from 1. -/
theorem test_decode_row_2 :
    decodeWords [0x2001_0203] = .ok (.sel Pfx.none 1 2 3, 1) ∧
    decodeWords [0x210A_0304] = .ok (.isetp Pfx.none 1 2 3 4, 1) ∧
    decodeWords [0x220A_0304] = .ok (.isetp64 Pfx.none 1 2 3 4, 1) ∧
    decodeWords [0x2319_0203] = .ok (.psetp Pfx.none 3 1 2 3, 1) ∧
    decodeWords [0x2401_0002] = .ok (.movi Pfx.none 1 2, 1) ∧
    decodeWords [0x2501_0002] = .ok (.movhi Pfx.none 1 2, 1) ∧
    decodeWords [0x2601_0203] = .ok (.idot4 Pfx.none 1 2 3, 1) ∧
    decodeWords [0xF000_0028, 0x270C_0002] = .ok (.dmuls (md { Mod.zero with rnd := 5 }) 12 0 2, 2) ∧
    decodeWords [0xF003_0000, 0x2802_0100] = .ok (.hash (md { Mod.zero with fb := 3 }) 2 1 0, 2) ∧
    decodeWords [0x2901_0203] = .ok (.hcomb Pfx.none 1 2 3, 1) ∧
    decodeWords [0x2A01_0203] = .ok (.part Pfx.none 1 2 3, 1) ∧
    decodeWords [0x2B01_0203] = .ok (.bloom Pfx.none 1 2 3, 1) ∧
    decodeWords [0x2C01_0203] = .ok (.scmp Pfx.none 1 2 3, 1) ∧
    decodeWords [0x2D01_0203] = .ok (.sfind Pfx.none 1 2 3, 1) ∧
    decodeWords [0x2E01_0200] = .ok (.slen Pfx.none 1 2, 1) ∧
    decodeWords [0x2F01_0203] = .ok (.shash Pfx.none 1 2 3, 1) := by
  refine ⟨?_, ?_, ?_, ?_, ?_, ?_, ?_, ?_, ?_, ?_, ?_, ?_, ?_, ?_, ?_, ?_⟩ <;> rfl

/-- Row 0x3_ of the opcode map: the spec's examples where it gives one, else D, A and B or their parts numbered from 1. -/
theorem test_decode_row_3 :
    decodeWords [0xF000_4010, 0x3002_0304] = .ok (.fadd (md { Mod.zero with negb := true, rnd := 2 }) 2 3 4, 2) ∧
    decodeWords [0x3101_0203] = .ok (.fmul Pfx.none 1 2 3, 1) ∧
    decodeWords [0xF000_0400, 0x3203_0405] = .ok (.ffma (md { Mod.zero with satc := 1 }) 3 4 5, 2) ∧
    decodeWords [0x3301_0203] = .ok (.fmin Pfx.none 1 2 3, 1) ∧
    decodeWords [0x3401_0203] = .ok (.fmax Pfx.none 1 2 3, 1) ∧
    decodeWords [0x3512_0102] = .ok (.fcmp Pfx.none 2 2 1 2, 1) ∧
    decodeWords [0x3601_0200] = .ok (.fclass Pfx.none 1 2, 1) ∧
    decodeWords [0x3701_0200] = .ok (.frnd Pfx.none 1 2, 1) ∧
    decodeWords [0x3801_0203] = .ok (.hadd2 Pfx.none 1 2 3, 1) ∧
    decodeWords [0x3901_0203] = .ok (.hmul2 Pfx.none 1 2 3, 1) ∧
    decodeWords [0x3A01_0203] = .ok (.hfma2 Pfx.none 1 2 3, 1) ∧
    decodeWords [0x3B01_0203] = .ok (.bdot2 Pfx.none 1 2 3, 1) ∧
    decodeWords [0x3C01_0203] = .ok (.dadd Pfx.none 1 2 3, 1) ∧
    decodeWords [0x3D01_0203] = .ok (.dmul Pfx.none 1 2 3, 1) ∧
    decodeWords [0x3E01_0203] = .ok (.dfma Pfx.none 1 2 3, 1) ∧
    decodeWords [0x3F0A_0304] = .ok (.dcmp Pfx.none 1 2 3 4, 1) := by
  refine ⟨?_, ?_, ?_, ?_, ?_, ?_, ?_, ?_, ?_, ?_, ?_, ?_, ?_, ?_, ?_, ?_⟩ <;> rfl

/-- Row 0x4_ of the opcode map: the spec's examples where it gives one, else D, A and B or their parts numbered from 1. -/
theorem test_decode_row_4 :
    decodeWords [0x4005_0324] = .ok (.shfl Pfx.none 5 3 2 4, 1) ∧
    decodeWords [0x4101_0234] = .ok (.shflx Pfx.none 1 2 3 4, 1) ∧
    decodeWords [0x4201_0230] = .ok (.perm Pfx.none 1 2 3, 1) ∧
    decodeWords [0xF020_0000, 0x430A_0320] = .ok (.vote (md { Mod.zero with fd := 2 }) 10 3 2 0, 2) ∧
    decodeWords [0x4406_0322] = .ok (.matchL Pfx.none 6 3 2 2, 1) ∧
    decodeWords [0xF020_0000, 0x4508_0125] = .ok (.reduce (md { Mod.zero with fd := 2 }) 8 1 2 5, 2) ∧
    decodeWords [0x4601_0234] = .ok (.reduceF Pfx.none 1 2 3 4, 1) ∧
    decodeWords [0x4701_0234] = .ok (.scan Pfx.none 1 2 3 4, 1) ∧
    decodeWords [0x4801_0234] = .ok (.scanF Pfx.none 1 2 3 4, 1) ∧
    decodeWords [0x4901_0234] = .ok (.popm Pfx.none 1 2 3 4, 1) ∧
    decodeWords [0x4A05_0320] = .ok (.hdm16 Pfx.none 5 3 2, 1) ∧
    decodeWords [0x4B01_0230] = .ok (.hdm32 Pfx.none 1 2 3, 1) ∧
    decodeWords [0x4C01_0203] = .ok (.hadd2Bf16 Pfx.none 1 2 3, 1) ∧
    decodeWords [0x4D01_0203] = .ok (.hmul2Bf16 Pfx.none 1 2 3, 1) ∧
    decodeWords [0x4E01_0203] = .ok (.hfma2Bf16 Pfx.none 1 2 3, 1) := by
  refine ⟨?_, ?_, ?_, ?_, ?_, ?_, ?_, ?_, ?_, ?_, ?_, ?_, ?_, ?_, ?_⟩ <;> rfl

/-- Row 0x5_ of the opcode map: the spec's examples where it gives one, else D, A and B or their parts numbered from 1. -/
theorem test_decode_row_5 :
    decodeWords [0x500A_0401] = .ok (.ckpack Pfx.none 10 4 0 1, 1) ∧
    decodeWords [0x5104_0A00] = .ok (.ckunpk Pfx.none 4 10 0, 1) ∧
    decodeWords [0xF003_0000, 0x520C_0A01] = .ok (.ckadd (md { Mod.zero with fb := 3 }) 12 10 1, 2) ∧
    decodeWords [0xF000_0400, 0x530C_0A0E] = .ok (.cksub (md { Mod.zero with satc := 1 }) 12 10 14, 2) ∧
    decodeWords [0x5406_0A01] = .ok (.ckaxis Pfx.none 6 10 0 1, 1) ∧
    decodeWords [0x550A_0700] = .ok (.ckins Pfx.none 10 7 0 0, 1) ∧
    decodeWords [0x5611_0A0C] = .ok (.ckcmp Pfx.none 2 1 10 12, 1) ∧
    decodeWords [0x5702_0C10] = .ok (.ckbox Pfx.none 0 2 12 16, 1) ∧
    decodeWords [0xF003_0000, 0x5814_1000] = .ok (.cknext (md { Mod.zero with fb := 3 }) 20 16 0, 2) ∧
    decodeWords [0x5901_0203] = .ok (.ckprev Pfx.none 1 2 3, 1) ∧
    decodeWords [0x5A10_0000] = .ok (.cksplit Pfx.none 16, 1) ∧
    decodeWords [0xF003_0000, 0x5B18_1001] = .ok (.ckrlist (md { Mod.zero with fb := 3 }) 24 16 1, 2) ∧
    decodeWords [0x5C0C_0A02] = .ok (.cklvl Pfx.none 12 10 0 2, 1) ∧
    decodeWords [0x5D10_0A00] = .ok (.ckwide Pfx.none 16 10 0, 1) := by
  refine ⟨?_, ?_, ?_, ?_, ?_, ?_, ?_, ?_, ?_, ?_, ?_, ?_, ?_, ?_⟩ <;> rfl

/-- Row 0x6_ of the opcode map: the spec's examples where it gives one, else D, A and B or their parts numbered from 1. -/
theorem test_decode_row_6 :
    decodeWords [0xF003_0000, 0x6004_0401] = .ok (.uadd (md { Mod.zero with fb := 3 }) 4 4 1, 2) ∧
    decodeWords [0x6101_0203] = .ok (.usub Pfx.none 1 2 3, 1) ∧
    decodeWords [0x6201_0203] = .ok (.umul Pfx.none 1 2 3, 1) ∧
    decodeWords [0x6301_0203] = .ok (.uand Pfx.none 1 2 3, 1) ∧
    decodeWords [0x6401_0203] = .ok (.uor Pfx.none 1 2 3, 1) ∧
    decodeWords [0x6501_0203] = .ok (.uxor Pfx.none 1 2 3, 1) ∧
    decodeWords [0x6601_0203] = .ok (.ushl Pfx.none 1 2 3, 1) ∧
    decodeWords [0x6701_0203] = .ok (.ushr Pfx.none 1 2 3, 1) ∧
    decodeWords [0x680A_0304] = .ok (.usetp Pfx.none 1 2 3 4, 1) ∧
    decodeWords [0x6901_0203] = .ok (.usel Pfx.none 1 2 3, 1) ∧
    decodeWords [0x6A01_0200] = .ok (.umov Pfx.none 1 2, 1) ∧
    decodeWords [0x6B01_0002] = .ok (.umovi Pfx.none 1 2, 1) ∧
    decodeWords [0x6C01_0002] = .ok (.umovhi Pfx.none 1 2, 1) ∧
    decodeWords [0x6D11_1400] = .ok (.elect Pfx.none 2 1 20, 1) ∧
    decodeWords [0x6E0C_0311] = .ok (.ubcast Pfx.none 12 3 0 17, 1) := by
  refine ⟨?_, ?_, ?_, ?_, ?_, ?_, ?_, ?_, ?_, ?_, ?_, ?_, ?_, ?_, ?_⟩ <;> rfl

/-- Row 0x7_ of the opcode map: the spec's examples where it gives one, else D, A and B or their parts numbered from 1. -/
theorem test_decode_row_7 :
    decodeWords [0x7001_0200] = .ok (.rcp Pfx.none 1 2, 1) ∧
    decodeWords [0x7105_0100] = .ok (.rsq Pfx.none 5 1, 1) ∧
    decodeWords [0x7201_0200] = .ok (.sqrt Pfx.none 1 2, 1) ∧
    decodeWords [0x7301_0200] = .ok (.exp2 Pfx.none 1 2, 1) ∧
    decodeWords [0x7401_0200] = .ok (.log2 Pfx.none 1 2, 1) ∧
    decodeWords [0x7501_0200] = .ok (.sin Pfx.none 1 2, 1) ∧
    decodeWords [0x7601_0200] = .ok (.cos Pfx.none 1 2, 1) ∧
    decodeWords [0x7701_0200] = .ok (.tanh Pfx.none 1 2, 1) ∧
    decodeWords [0x7801_0203] = .ok (.fdiv Pfx.none 1 2 3, 1) ∧
    decodeWords [0x7901_0203] = .ok (.idiv Pfx.none 1 2 3, 1) ∧
    decodeWords [0x7A01_0203] = .ok (.idivNu Pfx.none 1 2 3, 1) ∧
    decodeWords [0xF003_0000, 0x7B04_01FD] = .ok (.irem (md { Mod.zero with fb := 3 }) 4 1 253, 2) ∧
    decodeWords [0x7C01_0203] = .ok (.iremNu Pfx.none 1 2 3, 1) := by
  refine ⟨?_, ?_, ?_, ?_, ?_, ?_, ?_, ?_, ?_, ?_, ?_, ?_, ?_⟩ <;> rfl

/-- Row 0x8_ of the opcode map: the spec's examples where it gives one, else D, A and B or their parts numbered from 1. -/
theorem test_decode_row_8 :
    decodeWords [0xF000_0030, 0x8005_0670] = .ok (.f2f (md { Mod.zero with rnd := 6 }) 5 6 7 0, 2) ∧
    decodeWords [0x8101_0234] = .ok (.f2i Pfx.none 1 2 3 4, 1) ∧
    decodeWords [0x8201_0234] = .ok (.i2f Pfx.none 1 2 3 4, 1) ∧
    decodeWords [0x8301_0203] = .ok (.qscale Pfx.none 1 2 3, 1) ∧
    decodeWords [0x8401_0203] = .ok (.qscaleAdapt Pfx.none 1 2 3, 1) ∧
    decodeWords [0x850C_040A] = .ok (.qpack Pfx.none 12 4 10, 1) ∧
    decodeWords [0x8603_0C07] = .ok (.qunpk Pfx.none 3 12 0 7, 1) := by
  refine ⟨?_, ?_, ?_, ?_, ?_, ?_, ?_⟩ <;> rfl

/-- Row 0x9_ of the opcode map: the spec's examples where it gives one, else D, A and B or their parts numbered from 1. -/
theorem test_decode_row_9 :
    decodeWords [0x9001_0203] = .ok (.ldZ8 Pfx.none 1 2 3, 1) ∧
    decodeWords [0x9101_0203] = .ok (.ldS8 Pfx.none 1 2 3, 1) ∧
    decodeWords [0x9201_0203] = .ok (.ldZ16 Pfx.none 1 2 3, 1) ∧
    decodeWords [0xF003_0000, 0x9303_08FE] = .ok (.ldS16 (md { Mod.zero with fb := 3 }) 3 8 254, 2) ∧
    decodeWords [0xF008_1000, 0x9406_2802] = .ok (.ld (md { Mod.zero with fa := 2, absb := true }) 6 40 2, 2) ∧
    decodeWords [0x9501_0203] = .ok (.ldB64 Pfx.none 1 2 3, 1) ∧
    decodeWords [0x9601_0203] = .ok (.ldB128 Pfx.none 1 2 3, 1) ∧
    decodeWords [0x9705_0803] = .ok (.ldC Pfx.none 5 8 3, 1) ∧
    decodeWords [0x9801_0203] = .ok (.ldCB128 Pfx.none 1 2 3, 1) ∧
    decodeWords [0x9901_0203] = .ok (.stB8 Pfx.none 1 2 3, 1) ∧
    decodeWords [0x9A01_0203] = .ok (.stB16 Pfx.none 1 2 3, 1) ∧
    decodeWords [0x9B01_0203] = .ok (.st Pfx.none 1 2 3, 1) ∧
    decodeWords [0x9C04_0802] = .ok (.stB64 Pfx.none 4 8 2, 1) ∧
    decodeWords [0xF003_0000, 0x9D04_0800] = .ok (.stB128 (md { Mod.zero with fb := 3 }) 4 8 0, 2) ∧
    decodeWords [0xF000_0400, 0x9E06_0803] = .ok (.lds (md { Mod.zero with satc := 1 }) 6 8 0 3, 2) ∧
    decodeWords [0xF000_0800, 0x9F06_0804] = .ok (.sts (md { Mod.zero with satc := 2 }) 6 8 0 4, 2) := by
  refine ⟨?_, ?_, ?_, ?_, ?_, ?_, ?_, ?_, ?_, ?_, ?_, ?_, ?_, ?_, ?_, ?_⟩ <;> rfl

/-- Row 0xA_ of the opcode map: the spec's examples where it gives one, else D, A and B or their parts numbered from 1. -/
theorem test_decode_row_a :
    decodeWords [0xA001_0203] = .ok (.uld Pfx.none 1 2 3, 1) ∧
    decodeWords [0xA101_0203] = .ok (.uldB64 Pfx.none 1 2 3, 1) ∧
    decodeWords [0xA201_0203] = .ok (.ust Pfx.none 1 2 3, 1) ∧
    decodeWords [0xF003_0000, 0xA30A_2810] = .ok (.ustB64 (md { Mod.zero with fb := 3 }) 10 40 16, 2) ∧
    decodeWords [0xA406_0803] = .ok (.atom Pfx.none 6 8 0 0 3, 1) ∧
    decodeWords [0xA504_080B] = .ok (.cas Pfx.none 4 8 1 3, 1) ∧
    decodeWords [0xA606_0803] = .ok (.red Pfx.none 6 8 0 0 3, 1) ∧
    decodeWords [0xA700_000B] = .ok (.fence Pfx.none 1 3, 1) ∧
    decodeWords [0xA800_0100] = .ok (.prefL1 Pfx.none 1 0, 1) ∧
    decodeWords [0xA800_0101] = .ok (.prefL2 Pfx.none 1 0, 1) ∧
    decodeWords [0xA800_0102] = .ok (.prefHbm Pfx.none 1 0, 1) ∧
    decodeWords [0xA80C_080B] = .ok (.prefTier Pfx.none 12 8 1 0, 1) ∧
    decodeWords [0xA90D_0800] = .ok (.residQ Pfx.none 13 8, 1) ∧
    decodeWords [0xA900_0101] = .ok (.residKeep Pfx.none 1, 1) ∧
    decodeWords [0xA900_0102] = .ok (.residEvict Pfx.none 1, 1) ∧
    decodeWords [0xAA04_081F] = .ok (.sldx Pfx.none 4 8 1 15, 1) ∧
    decodeWords [0xAB01_0214] = .ok (.sstx Pfx.none 1 2 1 4, 1) := by
  refine ⟨?_, ?_, ?_, ?_, ?_, ?_, ?_, ?_, ?_, ?_, ?_, ?_, ?_, ?_, ?_, ?_, ?_⟩ <;> rfl

/-- Row 0xB_ of the opcode map: the spec's examples where it gives one, else D, A and B or their parts numbered from 1. -/
theorem test_decode_row_b :
    decodeWords [0xB003_1400] = .ok (.tdef Pfx.none 3 20, 1) ∧
    decodeWords [0xF003_0000, 0xB103_1601] = .ok (.tarm (md { Mod.zero with fb := 3 }) 3 22 1, 2) ∧
    decodeWords [0xB203_1800] = .ok (.twait Pfx.none 3 24, 1) ∧
    decodeWords [0xB303_0000] = .ok (.tcons Pfx.none 3, 1) ∧
    decodeWords [0xB41A_0300] = .ok (.tstat Pfx.none 26 3, 1) ∧
    decodeWords [0xB500_0000] = .ok (.bar Pfx.none 0 0 0, 1) ∧
    decodeWords [0xB604_0800] = .ok (.tbinit Pfx.none 4 8, 1) ∧
    decodeWords [0xB701_0200] = .ok (.tbexp Pfx.none 1 2, 1) ∧
    decodeWords [0xB801_0200] = .ok (.tbarr Pfx.none 1 2, 1) ∧
    decodeWords [0xB906_0802] = .ok (.tbwait Pfx.none 6 8 2, 1) ∧
    decodeWords [0xF008_0000, 0xBA0A_2804] = .ok (.ctrwait (md { Mod.zero with fa := 2 }) 10 40 4, 2) ∧
    decodeWords [0xBB01_0203] = .ok (.ctrwaitYield Pfx.none 1 2 3, 1) := by
  refine ⟨?_, ?_, ?_, ?_, ?_, ?_, ?_, ?_, ?_, ?_, ?_, ?_⟩ <;> rfl

/-- Row 0xC_ of the opcode map: the spec's examples where it gives one, else D, A and B or their parts numbered from 1. -/
theorem test_decode_row_c :
    decodeWords [0xC000_1400] = .ok (.mres Pfx.none 0 20, 1) ∧
    decodeWords [0xC100_1E00] = .ok (.mrel Pfx.none 0 30, 1) ∧
    decodeWords [0xC201_0203] = .ok (.mldt Pfx.none 1 2 3, 1) ∧
    decodeWords [0xC300_001A] = .ok (.mldtC Pfx.none 0 0 26, 1) ∧
    decodeWords [0xC401_081A] = .ok (.mldg Pfx.none 1 8 26, 1) ∧
    decodeWords [0xC502_0000] = .ok (.mzero Pfx.none 2, 1) ∧
    decodeWords [0xC602_0001] = .ok (.mma Pfx.none 2 0 1, 1) ∧
    decodeWords [0xC702_0001] = .ok (.mmap Pfx.none 2 0 1, 1) ∧
    decodeWords [0xC802_021E] = .ok (.mstt Pfx.none 2 2 30, 1) ∧
    decodeWords [0xC910_2800] = .ok (.launch Pfx.none 16 40, 1) ∧
    decodeWords [0xCA0C_0000] = .ok (.nsend Pfx.none 12, 1) ∧
    decodeWords [0xCB01_0000] = .ok (.npost Pfx.none 1, 1) := by
  refine ⟨?_, ?_, ?_, ?_, ?_, ?_, ?_, ?_, ?_, ?_, ?_, ?_⟩ <;> rfl

/-- Row 0xD_ of the opcode map: the spec's examples where it gives one, else D, A and B or their parts numbered from 1. -/
theorem test_decode_row_d :
    decodeWords [0xD000_0001] = .ok (.bra Pfx.none 1, 1) ∧
    decodeWords [0xD101_0002] = .ok (.brau Pfx.none 1 2, 1) ∧
    decodeWords [0xD200_0100] = .ok (.brx Pfx.none 1, 1) ∧
    decodeWords [0xD300_0001] = .ok (.call Pfx.none 1, 1) ∧
    decodeWords [0xD400_0100] = .ok (.callx Pfx.none 1, 1) ∧
    decodeWords [0xD500_0000] = .ok (.ret Pfx.none, 1) ∧
    decodeWords [0xD600_0100] = .ok (.csw Pfx.none 1, 1) ∧
    decodeWords [0xD701_0030] = .ok (.rejoin Pfx.none 1 3, 1) ∧
    decodeWords [0xD800_0000] = .ok (.exit Pfx.none, 1) ∧
    decodeWords [0xD900_0000] = .ok (.yield Pfx.none, 1) ∧
    decodeWords [0xDA00_0000] = .ok (.nop Pfx.none, 1) ∧
    decodeWords [0xDB02_0006] = .ok (.sread Pfx.none 2 6, 1) ∧
    decodeWords [0xDC11_0200] = .ok (.sreadW Pfx.none 17 2, 1) := by
  refine ⟨?_, ?_, ?_, ?_, ?_, ?_, ?_, ?_, ?_, ?_, ?_, ?_, ?_⟩ <;> rfl

/-- Row 0xE_ of the opcode map: the spec's examples where it gives one, else D, A and B or their parts numbered from 1. -/
theorem test_decode_row_e :
    decodeWords [0xE000_0001] = .ok (.trap Pfx.none 1, 1) ∧
    decodeWords [0xE100_0001] = .ok (.syscall Pfx.none 1, 1) ∧
    decodeWords [0xE200_0001] = .ok (.ulien Pfx.none 1, 1) ∧
    decodeWords [0xE300_0001] = .ok (.ulidis Pfx.none 1, 1) ∧
    decodeWords [0xE400_0000] = .ok (.uliret Pfx.none, 1) ∧
    decodeWords [0xE500_0001] = .ok (.brkpt Pfx.none 1, 1) ∧
    decodeWords [0xE600_0001] = .ok (.event Pfx.none 1, 1) := by
  refine ⟨?_, ?_, ?_, ?_, ?_, ?_, ?_⟩ <;> rfl

/-! ### Ill-formed terms, one for each check of the encoding -/

/-- A mode, function or field value that the instruction does not have (R110): ISETP's condition 10. -/
theorem test_bad_function : (Instr.isetp Pfx.none 10 1 2 3).wf = false := by rfl
/-- A guard on an instruction without one: a uniform instruction (R104, R113). -/
theorem test_bad_guard : (Instr.uadd (md { Mod.zero with gen := true }) 1 2 3).wf = false := by rfl
/-- GNEG without GEN on such an instruction (R104). -/
theorem test_bad_guard_bits : (Instr.uadd (md { Mod.zero with gneg := true }) 1 2 3).wf = false := by rfl
/-- GEN on SEL, whose GP selects (R123). -/
theorem test_bad_sel : (Instr.sel (md { Mod.zero with gen := true }) 1 2 3).wf = false := by rfl
/-- FD = 10 on a lane destination (R102). -/
theorem test_bad_fd : (Instr.iadd (md { Mod.zero with fd := 2 }) 1 2 3).wf = false := by rfl
/-- FA = 11, a port, on a 64-bit operand (R102, R129). -/
theorem test_bad_fa : (Instr.add64 (md { Mod.zero with fa := 3 }) 2 8 4).wf = false := by rfl
/-- An immediate B of BFE (R120). -/
theorem test_bad_fb : (Instr.bfe (md { Mod.zero with fb := 3 }) 1 2 3).wf = false := by rfl
/-- A push to q0, and a pop of the reserved q3 (R57). -/
theorem test_bad_ports :
    (Instr.iadd (md { Mod.zero with fd := 3 }) 0 2 3).wf = false ∧ (Instr.iadd (md { Mod.zero with fa := 3 }) 1 3 2).wf = false ∧
    (Instr.iadd (md { Mod.zero with fd := 3, fa := 3 }) 8 8 2).wf = false := by decide
/-- Signs on an integer instruction (R64). -/
theorem test_bad_signs :
    (Instr.iadd (md { Mod.zero with nega := true }) 1 2 3).wf = false ∧ (Instr.iadd (md { Mod.zero with negb := true }) 1 2 3).wf = false ∧
    (Instr.iadd (md { Mod.zero with absa := true }) 1 2 3).wf = false ∧
    (Instr.iadd (md { Mod.zero with absb := true }) 1 2 3).wf = false := by decide
/-- NEGB with an immediate offset (R207). -/
theorem test_bad_offset : (Instr.ld (md { Mod.zero with fb := 3, negb := true }) 1 2 3).wf = false := by rfl
/-- SATC 10 on an integer instruction (R64), SCL on one that does not honour it, RND 111 (R76). -/
theorem test_bad_arith :
    (Instr.iadd (md { Mod.zero with satc := 2 }) 1 2 3).wf = false ∧ (Instr.iadd (md { Mod.zero with scl := 1 }) 1 2 3).wf = false ∧
    (Instr.fadd (md { Mod.zero with rnd := 7 }) 1 2 3).wf = false ∧ (Instr.fadd (md { Mod.zero with rnd := 6 }) 1 2 3).wf = false := by
  decide
/-- REUSE on a queued instruction (R104). -/
theorem test_bad_reuse : (Instr.rcp (md { Mod.zero with reuse := true }) 1 2).wf = false := by rfl
/-- FETA on a pop and FETB on an immediate (R103, R104). -/
theorem test_bad_fet :
    (Instr.iadd (md { Mod.zero with fa := 3, feta := true }) 1 8 3).wf = false ∧
    (Instr.iadd (md { Mod.zero with fb := 3, fetb := true }) 1 2 3).wf = false := by decide

/-- A REP prefix alone. -/
def rp (f : Rep → Rep) : Pfx := ⟨some (f ⟨1, false, false, false, 0, false, false, false, 0, 0, 0⟩), none⟩

/-- REP on an instruction of class 5 and on BAR; stepping a field that names no register; X on a uniform field; K without X
(R106). -/
theorem test_bad_rep :
    (Instr.nop (rp id)).wf = false ∧ (Instr.bar (rp id) 0 0 1).wf = false ∧
    (Instr.mov (rp fun r => { r with sb := true }) 1 2).wf = false ∧
    (Instr.uadd (rp fun r => { r with xd := true }) 1 2 3).wf = false ∧
    (Instr.iadd (rp fun r => { r with ka := 1 }) 1 2 3).wf = false := by decide
/-- Well-formed ones beside them. -/
theorem test_good :
    (Instr.iadd (rp fun r => { r with sd := true, sa := true, sb := true, xa := true, ka := 1 }) 1 2 3).wf = true ∧
    (Instr.iadd (md { Mod.zero with fd := 3 }) 8 2 3).wf = true ∧ (Instr.add64 Pfx.none 2 4 6).wf = true ∧
    (Instr.fadd (md { Mod.zero with negb := true, rnd := 2 }) 2 3 4).wf = true := by decide

/-- Words that decode to nothing: an Illegal cell, a prefix without its base word, MOD before REP, reserved bits of REP, and
a part that the form leaves zero (R100, R105, R110). -/
theorem test_decode_refuses :
    decodeWords [0x4F01_0203] = .error .illegalCell ∧ decodeWords [0xF000_0400] = .error .tooShort ∧
    decodeWords [0xF000_0400, 0xF800_0000] = .error .malformed ∧ decodeWords [0xF800_0001, 0x0003_0102] = .error .repReserved ∧
    decodeWords [0xDA00_0001] = .error .reservedField := by decide

/-! ### Single steps, with the spec's own results -/

/-- R120. -/
theorem test_bfe : run (.bfe Pfx.none 5 4 6) [(4, 0xAB0), (6, 0x804)] 5 = 0xAB := by rfl
theorem test_bfe_sign : run (.bfe Pfx.none 5 4 6) [(4, 0xAB0), (6, 0x8804)] 5 = 0xFFFFFFAB := by rfl
/-- R64: the greatest value stays under SATC 01 and wraps without it. -/
theorem test_iadd_sat : run (.iadd (md { Mod.zero with satc := 1 }) 3 1 2) [(1, 0x7FFFFFFF), (2, 1)] 3 = 0x7FFFFFFF := by rfl
theorem test_iadd_wrap : run (.iadd Pfx.none 1 1 2) [(1, 0x7FFFFFFF), (2, 1)] 1 = 0x80000000 := by rfl
/-- R119: an immediate count of −1. -/
theorem test_shl_minus_one : run (.shl (md { Mod.zero with fb := 3 }) 3 1 255) [(1, 5)] 3 = 0 := by rfl
theorem test_sar_minus_one : run (.sar (md { Mod.zero with fb := 3 }) 3 1 255) [(1, 0x80000000)] 3 = 0xFFFFFFFF := by rfl
/-- R121: the carry out lands in the next register. -/
theorem test_addc_carry : run (.addc Pfx.none 4 1 2) [(1, 0xFFFFFFFF), (2, 1)] 5 = 1 := by rfl
/-- R128: 30,862.5 rounds away from zero. -/
theorem test_dmuls : run (.dmuls (md { Mod.zero with rnd := 5 }) 12 0 2) [(0, 12345), (2, 250), (12, 2)] 12 = 30863 := by rfl
/-- R183 to R185. -/
theorem test_hash_zero : run (.hash (md { Mod.zero with fb := 3 }) 2 1 0) [] 2 = 0 := by rfl
theorem test_part : run (.part Pfx.none 3 1 2) [(1, 0x80000000), (2, 10)] 3 = 5 := by rfl
theorem test_bloom : run (.bloom Pfx.none 3 1 2) [(1, 0x00123456), (2, 3)] 3 = 0x00402004 := by rfl
/-- R180: "apple" and "apply" part at position 4. -/
theorem test_scmp : run (.scmp Pfx.none 12 0 4) [(0, 0x6C707061), (1, 0x65), (4, 0x6C707061), (5, 0x79)] 12 = 0x104 := by rfl
/-- R182: the check value of CRC-32C. -/
theorem test_shash : run (.shash Pfx.none 8 0 4)
    [(0, 0x34333231), (1, 0x38373635), (2, 0x39), (4, 0xFFFFFFFF)] 8 = 0x1CF96D7C := by rfl
/-- R189, R192, R199, R200, with the key ck(2, 5, 3). -/
theorem test_ckpack : run (.ckpack Pfx.none 10 4 0 1) [(4, 5), (5, 3)] 10 = 0x1B ∧
    run (.ckpack Pfx.none 10 4 0 1) [(4, 5), (5, 3)] 11 = 0x20000000 := by decide
theorem test_ckins : run (.ckins Pfx.none 10 7 0 0) [(7, 6), (10, 0x1B), (11, 0x20000000)] 10 = 0x1E := by rfl
theorem test_cklvl_par : run (.cklvl Pfx.none 12 10 0 2) [(10, 0x1B), (11, 0x20000000)] 12 = 0x10 := by rfl
theorem test_cklvl_last : run (.cklvl Pfx.none 12 10 1 2) [(10, 0x1B), (11, 0x20000000)] 12 = 0x1F := by rfl
theorem test_ckwide : run (.ckwide Pfx.none 16 10 0) [(10, 0x1B), (11, 0x20000000)] 16 = 0x1B ∧
    run (.ckwide Pfx.none 16 10 0) [(10, 0x1B), (11, 0x20000000)] 19 = 0x20000000 := by decide

/-- The box Q of the spec's examples in w16 to w19, with further registers. -/
def boxQ (w : List (Nat × Word)) : List (Nat × Word) :=
  [(16, 1), (17, 0x20000000), (18, 7), (19, 0x20000000), (21, 0x20000000)] ++ w

/-- R195, R196. -/
theorem test_cknext : run (.cknext (md { Mod.zero with fb := 3 }) 20 16 0) (boxQ [(20, 2)]) 20 = 3 := by rfl
theorem test_ckprev : run (.ckprev (md { Mod.zero with fb := 3 }) 20 16 0) (boxQ [(20, 2)]) 20 = 1 := by rfl
theorem test_cksplit : run (.cksplit Pfx.none 16) (boxQ []) 18 = 3 ∧ run (.cksplit Pfx.none 16) (boxQ []) 20 = 4 ∧
    run (.cksplit Pfx.none 16) (boxQ []) 22 = 7 := by decide
/-- R193: (5, 3) comes before (6, 3). -/
theorem test_ckcmp : (thOf (next (.ckcmp Pfx.none 2 1 10 12)
    (mach [(0, th [(10, 0x1B), (11, 0x20000000), (12, 0x1E), (13, 0x20000000)])])) 0).pred 1 = true := by rfl

/-- What thread 0's entry in the special-function queue holds after an instruction. -/
def queued (i : Instr) (t : Thread) : List (Nat × Word) :=
  match grp (next i (mach [(0, t)])) ⟨1, 0, 0⟩ with
  | some g => (match g.sfq with | [e] => e.res.flatMap (·.2) | _ => [])
  | none => []

/-- R162: 1/√4. -/
theorem test_rsq : queued (.rsq Pfx.none 5 1) (th [(1, 0x40800000)]) = [(5, 0x3F000000)] := by rfl
/-- R163: the remainder of −7 by −3. -/
theorem test_irem : queued (.irem (md { Mod.zero with fb := 3 }) 4 1 253) (th [(1, 0xFFFFFFF9)]) = [(4, 0xFFFFFFFF)] := by rfl
theorem test_idiv_corner : queued (.idiv (md { Mod.zero with satc := 1 }) 4 1 2) (th [(1, 0x80000000), (2, 0xFFFFFFFF)])
    = [(4, 0x7FFFFFFF)] := by rfl
/-- R78, R158: a stochastic rounding of 1.01 into T8. -/
theorem test_f2f_rs : queued (.f2f (md { Mod.zero with rnd := 6 }) 5 6 7 0) { th [(6, 0x3F8147AE)] with rs := 1 } = [(5, 0x41)] ∧
    (thOf (next (.f2f (md { Mod.zero with rnd := 6 }) 5 6 7 0) (mach [(0, { th [(6, 0x3F8147AE)] with rs := 1 })])) 0).rs
      = 0x00042021 := by decide
/-- R164, R167. -/
theorem test_qscale : queued (.qscale (md { Mod.zero with fb := 3 }) 9 4 7) (th [(4, 0x3F400000)]) = [(9, 0x7D)] := by rfl
theorem test_qunpk : queued (.qunpk Pfx.none 3 12 0 7) (th [(12, 0x70), (13, 0x7D)]) = [(3, 0x3F400000)] := by rfl

/-- Threads 0 to 3 with w3 = 7, 9, 7, 7 and all members. -/
def four : State :=
  let s := mach ((span 0 4).map fun n => (n, { th [(3, if n = 1 then 9 else 7), (5, 1)] with rs := 1 }))
  s.updGroup ⟨1, 0, 0⟩ fun g => { g with g := [(4, 0xFFFFFFFF), (5, 0xFFFFFFFF), (9, 6)] }

/-- R172. -/
theorem test_match_lead : (thOf (next (.matchL Pfx.none 6 3 2 2) four) 2).reg 7 = 1 ∧
    (thOf (next (.matchL Pfx.none 6 3 2 2) four) 1).reg 6 = 1 := by decide
/-- R169: rotation by rank. -/
theorem test_shfl_rot : (thOf (next (.shfl Pfx.none 5 3 2 3) four) 0).reg 5 = 9 ∧
    (thOf (next (.shfl Pfx.none 5 3 2 3) four) 3).reg 5 = 7 := by decide
/-- R171: every member holds a value that is not 0. -/
theorem test_vote_cnt : ((grp (next (.vote (md { Mod.zero with fd := 2 }) 10 3 2 1) four) ⟨1, 0, 0⟩).map fun g =>
    (g.reg 10, g.reg 11)) = some (4, 4) := by rfl
/-- R174: no member, the identity of the signed maximum, and p6. -/
theorem test_reduce_none :
    let s := next (.reduce (md { Mod.zero with fd := 2 }) 8 3 1 5) four
    (grp s ⟨1, 0, 0⟩).map (·.reg 8) = some 0x80000000 ∧ (thOf s 0).pred 6 = false := by decide
/-- R132: rank 6 modulo 4 is 2. -/
theorem test_elect_rank :
    let s := next (.elect Pfx.none 3 2 9) four
    (thOf s 2).pred 2 = true ∧ (thOf s 0).pred 2 = false ∧ (thOf s 3).pred 2 = false := by decide

/-- R138: a CALL that stands alone at offset 4 of its code leaves the next header's offset, 8, in link. -/
theorem test_call : let t := thOf (next (.call Pfx.none 0x40) (mach [(0, th [])])) 0
    t.pc = bootHdr + 0x100 ∧ t.link = 8 ∧ t.inside = false := by decide
/-- R140: CSW leaves the next header's offset and the old frame pointer in its pair. -/
theorem test_csw : let t := thOf (next (.csw Pfx.none 10) (mach [(0, { th [(10, 0x400), (11, 0x1000)] with fp := 3 })])) 0
    t.pc = bootHdr + 0x400 ∧ t.fp = 0x1000 ∧ t.reg 10 = 8 ∧ t.reg 11 = 3 := by decide
/-- R52: a write of 0 to rs. -/
theorem test_sread_w_rs : (thOf (next (.sreadW Pfx.none 12 2) (mach [(0, th [])])) 0).rs = 0x6D2B79F5 := by rfl
/-- R46: a thread whose guard is false writes nothing and goes on. -/
theorem test_guard : let t := thOf (next (.movi (md { Mod.zero with gen := true, gp := 1 }) 2 9) (mach [(0, th [])])) 0
    t.reg 2 = 0 ∧ t.pc = bootHdr + 12 := by decide
/-- R55: an empty source parks the thread. -/
theorem test_park : (thOf (next (.mov Pfx.none 1 2) (mach [(0, { th [] with we := [2] })])) 0).st = .parked .reg := by rfl
/-- R114, R359: a register beyond the allocation raises 0x03; without a handler the thread's grid is killed. -/
theorem test_unallocated :
    let s := mach [(0, th [])]
    (thOf (next (.mov (md { Mod.zero with fa := 1 }) 1 200) { s with teams := s.teams.map fun t =>
      { t with kern := { t.kern with wregs := 64 } } }) 0).st = .exited := by rfl
/-- R208: a load asks for its bytes at base plus offset and empties its register. -/
theorem test_ld : let s := next (.ld (md { Mod.zero with fb := 3 }) 6 8 16) (mach [(0, th [(8, 0x1000)])])
    s.accs.map (fun a => (a.va, a.size, a.kind)) = [(0x1010, 4, 1)] ∧ (thOf s 0).we = [6] := by decide
/-- R204: a misaligned one faults. -/
theorem test_ld_misaligned : (thOf (next (.ld Pfx.none 6 8 2) (mach [(0, th [(8, 0x1001)])])) 0).st = .exited := by rfl
/-- R361: TRAP without a handler kills the grid, whose record is the service core's. -/
theorem test_trap : let s := next (.trap Pfx.none 7) (mach [(0, th [])])
    (thOf s 0).st = .exited ∧ (s.part 0).map (fun q => q.killRecs.map fun r => (r.code, r.va)) = some [(0x16, 7)] := by decide
/-- R233: the only group's only live thread completes the barrier and goes on with its acquire. -/
theorem test_bar : (thOf (next (.bar Pfx.none 0 0 3) (mach [(0, th [])])) 0).arrived = [] := by rfl

/-! ### States that meet the hypotheses of the statements

Each theorem `wit_<Name>` meets the hypotheses of the statement of that name, those of each of its clauses. -/

/-- Is an operand no port? -/
def noPort (o : Opd) : Bool := match o with | .port _ => false | _ => true

theorem noPort_ne {o : Opd} (h : noPort o = true) (q : Nat) : o ≠ .port q := by
  rintro rfl; cases h

/-- The hypotheses of `LaneGives`, with a thread in the issue. -/
def LaneHyp (i : Instr) (out : LIn → LOut) (s : State) : Prop :=
  ∃ tm g, s.group? s.cur.g = some (tm, g) ∧ g.active s.cur.set ≠ [] ∧ ∀ p ∈ g.active s.cur.set, LaneOk (decOf i) out tm g p

/-- They hold. -/
def laneB (i : Instr) (out : LIn → LOut) (s : State) : Bool :=
  match s.group? s.cur.g with
  | none => false
  | some (tm, g) => decide (g.active s.cur.set ≠ []) && (g.active s.cur.set).all fun p =>
    match (decOf i).check tm.kern g p.2 with
    | .skip => true
    | .go o =>
      let r := out ((decOf i).linOf o g p.2 p.1)
      noPort o.a && noPort o.d && r.fault.isNone && r.need.all fun n => decide (n < tm.kern.wregs ∧ n ∉ p.2.we)
    | _ => false

theorem lane_hyp {i : Instr} {out : LIn → LOut} {s : State} (h : laneB i out s = true) : LaneHyp i out s := by
  unfold laneB at h
  split at h
  · cases h
  · next tm g hg =>
    simp only [Bool.and_eq_true, decide_eq_true_eq, List.all_eq_true] at h
    refine ⟨tm, g, hg, h.1, fun p hp => ?_⟩
    have := h.2 p hp
    split at this
    · next e => exact .inl e
    · next o e =>
      simp only [Bool.and_eq_true, List.all_eq_true, decide_eq_true_eq, Option.isNone_iff_eq_none] at this
      exact .inr ⟨o, e, noPort_ne this.1.1.1, noPort_ne this.1.1.2, this.1.2, this.2⟩
    · cases this

/-- The hypotheses of `SfuGives`. -/
def SfuHyp (i : Instr) (out : LIn → LOut) (s : State) : Prop :=
  ∃ tm g, s.group? s.cur.g = some (tm, g) ∧ g.sfq.length < 32 ∧ g.active s.cur.set ≠ [] ∧
    ∀ p ∈ g.active s.cur.set, SfuOk (decOf i) out tm g p

/-- They hold. -/
def sfuB (i : Instr) (out : LIn → LOut) (s : State) : Bool :=
  match s.group? s.cur.g with
  | none => false
  | some (tm, g) => decide (g.sfq.length < 32) && decide (g.active s.cur.set ≠ []) && (g.active s.cur.set).all fun p =>
    match (decOf i).check tm.kern g p.2 with
    | .skip => true
    | .go o => (out ((decOf i).linOf o g p.2 p.1)).fault.isNone
    | _ => false

theorem sfu_hyp {i : Instr} {out : LIn → LOut} {s : State} (h : sfuB i out s = true) : SfuHyp i out s := by
  unfold sfuB at h
  split at h
  · cases h
  · next tm g hg =>
    simp only [Bool.and_eq_true, decide_eq_true_eq, List.all_eq_true] at h
    refine ⟨tm, g, hg, h.1.1, h.1.2, fun p hp => ?_⟩
    have := h.2 p hp
    split at this
    · next e => exact .inl e
    · next o e => exact .inr ⟨o, e, by simpa using this⟩
    · cases this

/-- The hypotheses of `UnifGives` for a source of lane operands. -/
def UnifHyp (i : Instr) (src : Group → Nat × Thread → Nat × Thread) (s : State) : Prop :=
  ∃ tm g lo rest o, s.group? s.cur.g = some (tm, g) ∧ g.active s.cur.set = lo :: rest ∧
    (decOf i).checkUnif tm.kern g { (src g lo).2 with ri := lo.2.ri } = .go o ∧ (∀ q, o.a ≠ .port q) ∧ ∀ q, o.d ≠ .port q

/-- They hold. -/
def unifB (i : Instr) (src : Group → Nat × Thread → Nat × Thread) (s : State) : Bool :=
  match s.group? s.cur.g with
  | none => false
  | some (tm, g) => match g.active s.cur.set with
    | [] => false
    | lo :: _ => match (decOf i).checkUnif tm.kern g { (src g lo).2 with ri := lo.2.ri } with
      | .go o => noPort o.a && noPort o.d
      | _ => false

theorem unif_hyp {i : Instr} {src : Group → Nat × Thread → Nat × Thread} {s : State} (h : unifB i src s = true) :
    UnifHyp i src s := by
  unfold unifB at h
  split at h
  · cases h
  · next tm g hg =>
    split at h
    · cases h
    · next lo rest hl =>
      split at h
      · next o e =>
        rw [Bool.and_eq_true] at h
        exact ⟨tm, g, lo, rest, o, hg, hl, e, noPort_ne h.1, noPort_ne h.2⟩
      · cases h

/-- The hypotheses of `CrossGives`. -/
def CrossHyp (i : Instr) (s : State) : Prop :=
  ∃ tm g, s.group? s.cur.g = some (tm, g) ∧ g.active s.cur.set ≠ [] ∧
    ∀ p ∈ g.active s.cur.set, CrossOk (decOf i) tm g p

/-- They hold. -/
def crossB (i : Instr) (s : State) : Bool :=
  match s.group? s.cur.g with
  | none => false
  | some (tm, g) => decide (g.active s.cur.set ≠ []) && (g.active s.cur.set).all fun p =>
    match (decOf i).check tm.kern g p.2 with
    | .skip => true
    | .go o => noPort o.d
    | _ => false

theorem cross_hyp {i : Instr} {s : State} (h : crossB i s = true) : CrossHyp i s := by
  unfold crossB at h
  split at h
  · cases h
  · next tm g hg =>
    simp only [Bool.and_eq_true, decide_eq_true_eq, List.all_eq_true] at h
    refine ⟨tm, g, hg, h.1, fun p hp => ?_⟩
    have := h.2 p hp
    split at this
    · next e => exact .inl e
    · next o e => exact .inr ⟨o, e, noPort_ne this⟩
    · cases this

/-- The hypotheses of `MemGives`. -/
def MemHyp (i : Instr) (plan : LIn → Plan) (s : State) : Prop :=
  ∃ tm g, s.group? s.cur.g = some (tm, g) ∧ s.otUsed g.core + (decOf i).takers (g.active s.cur.set) ≤ 1024 ∧
    g.active s.cur.set ≠ [] ∧ ∀ p ∈ g.active s.cur.set, MemOk (decOf i) plan s tm g p

/-- They hold. -/
def memB (i : Instr) (plan : LIn → Plan) (s : State) : Bool :=
  match s.group? s.cur.g with
  | none => false
  | some (tm, g) => decide (s.otUsed g.core + (decOf i).takers (g.active s.cur.set) ≤ 1024) &&
    decide (g.active s.cur.set ≠ []) && (g.active s.cur.set).all fun p =>
      match (decOf i).check tm.kern g p.2 with
      | .skip => true
      | .go o => (match s.planCheck g.core tm (plan ((decOf i).linOf o g p.2 p.1)) with
        | .ok (w, _) => decide (w ≠ .card)
        | .error _ => false)
      | _ => false

theorem mem_hyp {i : Instr} {plan : LIn → Plan} {s : State} (h : memB i plan s = true) : MemHyp i plan s := by
  unfold memB at h
  split at h
  · cases h
  · next tm g hg =>
    simp only [Bool.and_eq_true, decide_eq_true_eq, List.all_eq_true] at h
    refine ⟨tm, g, hg, h.1.1, h.1.2, fun p hp => ?_⟩
    have := h.2 p hp
    split at this
    · next e => exact .inl e
    · next o e =>
      split at this
      · next w l e' => exact .inr ⟨o, w, l, e, e', by simpa using this⟩
      · cases this
    · cases this

/-- The hypotheses of `UMemGives`. -/
def UMemHyp (i : Instr) (plan : LIn → Plan) (s : State) : Prop :=
  ∃ tm g lo rest o w l l2, s.group? s.cur.g = some (tm, g) ∧ g.active s.cur.set = lo :: rest ∧
    s.otUsed g.core + 1 ≤ 1024 ∧ (decOf i).checkUnif tm.kern g lo.2 = .go o ∧
    s.planCheck g.core tm (plan ((decOf i).linOf o g lo.2 lo.1)) = .ok (w, l, l2)

/-- They hold. -/
def umemB (i : Instr) (plan : LIn → Plan) (s : State) : Bool :=
  match s.group? s.cur.g with
  | none => false
  | some (tm, g) => decide (s.otUsed g.core + 1 ≤ 1024) && match g.active s.cur.set with
    | [] => false
    | lo :: _ => match (decOf i).checkUnif tm.kern g lo.2 with
      | .go o => (match s.planCheck g.core tm (plan ((decOf i).linOf o g lo.2 lo.1)) with | .ok _ => true | .error _ => false)
      | _ => false

theorem umem_hyp {i : Instr} {plan : LIn → Plan} {s : State} (h : umemB i plan s = true) : UMemHyp i plan s := by
  unfold umemB at h
  split at h
  · cases h
  · next tm g hg =>
    simp only [Bool.and_eq_true, decide_eq_true_eq] at h
    obtain ⟨h1, h2⟩ := h
    split at h2
    · cases h2
    · next lo rest hl =>
      split at h2
      · next o e =>
        split at h2
        · next v e' => exact ⟨tm, g, lo, rest, o, v.1, v.2.1, v.2.2, hg, hl, h1, e, e'⟩
        · cases h2
      · cases h2

/-- Threads 0 and 1 of a group, whose lane registers hold 1 to 12 each from register 4 on, with uniform registers. -/
def pair2 : State :=
  let s := mach ((span 0 2).map fun n => (n, th ((span 4 12).map fun k => (k, BitVec.ofNat 32 (k - 3)))))
  s.updGroup ⟨1, 0, 0⟩ fun g => { g with g := [(4, 3), (6, 5)] }

/-- Any result of some registers. -/
def w1 (n : Nat) : LIn → LOut := fun x => .words n x.a

/-- One instruction of each shape in the lane statements; the second thread of CKRLIST's group has its registers too. -/
theorem wit_IntegerArithmetic : (∀ i ∈ [Instr.iadd Pfx.none 3 4 5, .isub Pfx.none 3 4 5, .imul Pfx.none 3 4 5,
      .imulh Pfx.none 3 4 5, .imulhHu Pfx.none 3 4 5, .imad Pfx.none 4 4 5, .imin Pfx.none 3 4 5, .iminNu Pfx.none 3 4 5,
      .imax Pfx.none 3 4 5, .imaxNu Pfx.none 3 4 5], LaneHyp i (w1 1) pair2) ∧
    ∀ i ∈ [Instr.add64 Pfx.none 2 4 6, .sub64 Pfx.none 2 4 6, .mul64 Pfx.none 2 4 6, .addc Pfx.none 4 6 7, .subb Pfx.none 4 6 7,
      .lea Pfx.none 4 6 7], LaneHyp i (w1 2) pair2 := by
  constructor <;> intro i h <;> refine lane_hyp ?_ <;> revert i <;> decide

theorem wit_LogicShiftsAndMoves : (∀ i ∈ [Instr.and Pfx.none 3 4 5, .or Pfx.none 3 4 5, .xor Pfx.none 3 4 5, .andn Pfx.none 3 4 5,
      .shl Pfx.none 3 4 5, .shr Pfx.none 3 4 5, .sar Pfx.none 3 4 5, .rot Pfx.none 3 4 5, .funnel Pfx.none 4 4 5, .bfe Pfx.none 3 4 5,
      .bfi Pfx.none 4 4 5, .popc Pfx.none 3 4, .clz Pfx.none 3 4, .ctz Pfx.none 3 4, .brev Pfx.none 3 4, .mov Pfx.none 3 4,
      .sel Pfx.none 3 4 5, .movi Pfx.none 3 9, .movhi Pfx.none 4 9], LaneHyp i (w1 1) pair2) ∧
    ∀ i ∈ [Instr.isetp Pfx.none 0 7 4 5, .isetp64 Pfx.none 9 0 4 6, .psetp Pfx.none 6 1 2 3],
      LaneHyp i (fun _ => .pred 0 true) pair2 := by
  constructor <;> intro i h <;> refine lane_hyp ?_ <;> revert i <;> decide

theorem wit_ProductsHashesAndStrings : (∀ i ∈ [Instr.idot4 Pfx.none 4 4 5, .hash Pfx.none 3 4 5, .hcomb Pfx.none 3 4 5,
      .bloom Pfx.none 3 4 5, .scmp Pfx.none 3 4 8, .sfind Pfx.none 3 4 8, .slen Pfx.none 3 4, .shash Pfx.none 3 4 8],
      LaneHyp i (w1 1) pair2) ∧ LaneHyp (.dmuls Pfx.none 4 6 8) (w1 4) pair2 := by
  refine ⟨fun i h => lane_hyp ?_, lane_hyp (by decide)⟩
  revert i; decide

theorem wit_PartitionIndex : LaneHyp (.part Pfx.none 3 4 5) (w1 1) pair2 := lane_hyp (by decide)

theorem wit_FloatArithmetic : (∀ i ∈ [Instr.fadd Pfx.none 3 4 5, .fmul Pfx.none 3 4 5, .ffma Pfx.none 4 4 5, .fmin Pfx.none 3 4 5,
      .fmax Pfx.none 3 4 5, .fclass Pfx.none 3 4, .frnd Pfx.none 3 4, .hadd2 Pfx.none 3 4 5, .hadd2Bf16 Pfx.none 3 4 5,
      .hmul2 Pfx.none 3 4 5, .hmul2Bf16 Pfx.none 3 4 5, .hfma2 Pfx.none 4 4 5, .hfma2Bf16 Pfx.none 4 4 5, .bdot2 Pfx.none 4 4 5],
      LaneHyp i (w1 1) pair2) ∧
    (∀ i ∈ [Instr.dadd Pfx.none 2 4 6, .dmul Pfx.none 2 4 6, .dfma Pfx.none 4 4 6], LaneHyp i (w1 2) pair2) ∧
    ∀ i ∈ [Instr.fcmp Pfx.none 13 0 4 5, .dcmp Pfx.none 13 6 4 6], LaneHyp i (fun _ => .pred 0 true) pair2 := by
  refine ⟨?_, ?_, ?_⟩ <;> intro i h <;> refine lane_hyp ?_ <;> revert i <;> decide

/-- Axis values of three axes that just fit, and keys of both sizes. -/
theorem wit_CurveKeyCodecs : (let v := [2 ^ 20 - 1, 0, 1]; v.length = 3 ∧ ∀ x ∈ v, x < 2 ^ (61 / 3)) ∧
    (∀ i ∈ [Instr.ckpack Pfx.none 4 6 0 1, .ckadd Pfx.none 4 6 8, .cksub Pfx.none 4 6 8, .ckins Pfx.none 4 6 0 0],
      LaneHyp i (w1 2) pair2) ∧
    ∀ i ∈ [Instr.ckpack Pfx.none 4 4 1 1, .ckins Pfx.none 4 8 1 7, .ckwide Pfx.none 4 8 0, .ckwide Pfx.none 4 8 1],
      LaneHyp i (w1 4) pair2 := by
  refine ⟨by decide, ?_, ?_⟩ <;> intro i h <;> refine lane_hyp ?_ <;> revert i <;> decide

theorem wit_CurveKeysAndBoxes : (∀ i ∈ [Instr.ckaxis Pfx.none 4 6 0 0, .ckcmp Pfx.none 6 0 4 6, .ckbox Pfx.none 2 1 4 8,
      .cklvl Pfx.none 4 6 1 2, .cknext (md { Mod.zero with fb := 3 }) 4 8 1, .ckprev (md { Mod.zero with fb := 3 }) 4 8 0,
      .cksplit Pfx.none 8], LaneHyp i (w1 2) pair2) ∧
    LaneHyp (.ckunpk Pfx.none 4 6 0) (fun x => { LOut.nil with need := [x.dreg, x.dreg + 1] }) pair2 ∧
    LaneHyp (.ckrlist (md { Mod.zero with fb := 3 }) 20 8 8)
      (fun x => { LOut.nil with need := (List.range 36).map (x.dreg + ·) }) pair2 := by
  refine ⟨fun i h => lane_hyp ?_, lane_hyp (by decide), lane_hyp (by decide)⟩
  revert i; decide

theorem wit_FunctionsAndDivision : ∀ i ∈ [Instr.rcp Pfx.none 3 4, .rsq Pfx.none 3 4, .sqrt Pfx.none 3 4, .exp2 Pfx.none 3 4,
    .log2 Pfx.none 3 4, .sin Pfx.none 3 4, .cos Pfx.none 3 4, .tanh Pfx.none 3 4, .fdiv Pfx.none 3 4 5, .idiv Pfx.none 3 4 5,
    .idivNu Pfx.none 3 4 5, .irem Pfx.none 3 4 5, .iremNu Pfx.none 3 4 5],
    SfuHyp i (fun x => if x.b = 0 ∧ i.fields.2.2 ≠ 0 then { LOut.nil with fault := some 0x11 } else .words 1 x.a) pair2 := by
  intro i h; refine sfu_hyp ?_; revert i; decide

theorem wit_ConversionsAndQuantisation : ∀ i ∈ [Instr.f2f Pfx.none 3 4 1 0, .f2i Pfx.none 3 4 0 0, .i2f Pfx.none 3 4 0 0,
    .qscale (md { Mod.zero with fb := 3 }) 3 4 7, .qscaleAdapt Pfx.none 4 4 5, .qunpk Pfx.none 3 4 0 7], SfuHyp i (w1 1) pair2 := by
  intro i h; refine sfu_hyp ?_; revert i; decide

theorem wit_UniformArithmetic : ∀ i ∈ [Instr.uadd Pfx.none 3 4 6, .usub Pfx.none 3 4 6, .umul Pfx.none 3 4 6, .uand Pfx.none 3 4 6,
    .uor Pfx.none 3 4 6, .uxor Pfx.none 3 4 6, .ushl Pfx.none 3 4 6, .ushr Pfx.none 3 4 6, .usetp Pfx.none 0 7 4 6,
    .usel Pfx.none 3 4 6, .umov Pfx.none 3 4, .umovi Pfx.none 3 7, .umovhi Pfx.none 4 7], UnifHyp i own pair2 := by
  intro i h; refine unif_hyp ?_; revert i; decide

theorem wit_ShufflesAndVotes : (∀ i ∈ [Instr.elect Pfx.none 0 1 0, .elect Pfx.none 3 7 4], UnifHyp i own pair2) ∧
    UnifHyp (.ubcast Pfx.none 3 4 0 1) (fun g lo => ((Tab.find? g.threads 1).map fun t => (1, t)).getD lo) pair2 ∧
    UnifHyp (.ubcast Pfx.none 3 4 1 0) (fun _ lo => lo) pair2 ∧
    ∀ i ∈ [Instr.shfl Pfx.none 5 4 2 0, .shflx Pfx.none 4 6 2 4, .perm Pfx.none 5 4 2, .vote (md { Mod.zero with fd := 2 }) 10 4 2 3,
      .matchL Pfx.none 6 4 2 2, .popm Pfx.none 6 4 2 1], CrossHyp i pair2 := by
  refine ⟨fun i h => unif_hyp ?_, unif_hyp (by decide), unif_hyp (by decide), fun i h => cross_hyp ?_⟩
  · revert i; decide
  · revert i; decide

theorem wit_ReductionsAndHadamard : ∀ i ∈ [Instr.reduce (md { Mod.zero with fd := 2 }) 8 4 2 0,
    .reduceF (md { Mod.zero with fd := 2 }) 8 4 2 2, .scan Pfx.none 8 4 2 8, .scanF Pfx.none 8 4 2 0, .hdm16 Pfx.none 8 4 2,
    .hdm32 Pfx.none 8 4 2], CrossHyp i pair2 := by
  intro i h; refine cross_hyp ?_; revert i; decide

/-- The one thread of an issue whose checks pass. -/
def soloOf? (i : Instr) (s : State) : Option One :=
  match s.group? s.cur.g, s.cur.set with
  | some (tm, g), [tid] => match Tab.find? g.threads tid with
    | some t => match (decOf i).check tm.kern g t with
      | .go o => if t.st = .ready ∧ t.prio = s.cur.prio ∧ t.pc = s.cur.pc ∧ t.ri ≤ 64 then
          some ⟨s.cur.g, tm, g, tid, t, decOf i, o⟩ else none
      | _ => none
    | none => none
  | _, _ => none

theorem solo_of {i : Instr} {s : State} {c : One} (h : soloOf? i s = some c) : Solo i s c := by
  unfold soloOf? at h
  split at h
  · next tm g tid hg hs =>
    split at h
    · next t ht =>
      split at h
      · next o ho =>
        split at h
        · next hc =>
          obtain rfl := Option.some.inj h
          exact ⟨rfl, hg, hs, ht, hc.1, hc.2.1, hc.2.2.1, hc.2.2.2, rfl, ho⟩
        · cases h
      · cases h
    · cases h
  · cases h

/-- Some thread executes i alone in s, its checks passed, and P holds of it. -/
def SoloIs (i : Instr) (s : State) (P : One → Prop) : Prop := ∃ c, Solo i s c ∧ P c

theorem solo_hyp {i : Instr} {s : State} {P : One → Prop} [DecidablePred P]
    (h : (match soloOf? i s with | some c => decide (P c) | none => false) = true) : SoloIs i s P := by
  split at h
  · next c hc => exact ⟨c, solo_of hc, of_decide_eq_true h⟩
  · cases h

/-- The issue set of an instruction that acts once, its checks passed. -/
def wholeOf? (i : Instr) (s : State) : Option Once :=
  match s.group? s.cur.g with
  | some (tm, g) =>
    let set := g.active s.cur.set
    match List.filter (fun p => !(decOf i).legal p.2 || (decOf i).guard p.2) set with
    | [] => none
    | lo :: gs => match (decOf i).check tm.kern g lo.2 with
      | .go o => if ∀ p ∈ lo :: gs, (decOf i).dstEmpty o p.2 g = false then
          some ⟨s.cur.g, tm, g, set, lo :: gs, lo.1, lo.2, decOf i, o⟩ else none
      | _ => none
  | none => none

theorem whole_of {i : Instr} {s : State} {c : Once} (h : wholeOf? i s = some c) : Whole i s c := by
  unfold wholeOf? at h
  split at h
  · next tm g hg =>
    dsimp only at h
    split at h
    · cases h
    · next lo gs hs =>
      split at h
      · next o ho =>
        split at h
        · next hd =>
          obtain rfl := Option.some.inj h
          exact ⟨rfl, hg, rfl, rfl, hs.symm, rfl, ho, hd⟩
        · cases h
      · cases h
  · cases h

/-- Some issue set executes i in s, its checks passed, and P holds of it. -/
def WholeIs (i : Instr) (s : State) (P : Once → Prop) : Prop := ∃ c, Whole i s c ∧ P c

theorem whole_hyp {i : Instr} {s : State} {P : Once → Prop} [DecidablePred P]
    (h : (match wholeOf? i s with | some c => decide (P c) | none => false) = true) : WholeIs i s P := by
  split at h
  · next c hc => exact ⟨c, whole_of hc, of_decide_eq_true h⟩
  · cases h

/-- A machine with one thread, whose team is changed. -/
def rig (f : Team → Team) (t : Thread) : State := let s := mach [(0, t)]; { s with teams := s.teams.map f }

/-- A scratchpad part of 64 KiB and four tiles on one core. -/
def scr (t : Team) : Team := { t with kern := { t.kern with scratch := 65536, tiles := 4 } }

/-- A thread whose registers 4 to 11 hold the words given. -/
def t8 (l : List Word) : Thread := th ((span 4 8).zip l)

/-- The pair of words of an address in the scratchpad window of the own core. -/
def sp (off : Nat) : List Word := [BitVec.ofNat 32 off, 0xFE000000]

/-- A division by 0. -/
theorem wit_FunctionsAndDivision_zero : ∀ i ∈ [Instr.idiv Pfx.none 12 4 5, .idivNu Pfx.none 12 4 5, .irem Pfx.none 12 4 5,
    .iremNu Pfx.none 12 4 5], SoloIs i (rig id (t8 [7, 0])) (fun c => c.vals.b = 0 ∧ c.g.sfq.length < 32) := by
  intro i h; refine solo_hyp ?_; revert i; decide

/-- The functions, and the divisions by a number that is not 0. -/
theorem wit_ConversionsAndQuantisation_completes :
    (∀ i ∈ [Instr.rcp Pfx.none 12 4, .rsq Pfx.none 12 4, .sqrt Pfx.none 12 4, .exp2 Pfx.none 12 4, .log2 Pfx.none 12 4,
      .sin Pfx.none 12 4, .cos Pfx.none 12 4, .tanh Pfx.none 12 4, .fdiv Pfx.none 12 4 5],
      SoloIs i (rig id (t8 [7, 2])) (fun c => c.g.sfq.length < 32)) ∧
    ∀ i ∈ [Instr.idiv Pfx.none 12 4 5, .idivNu Pfx.none 12 4 5, .irem Pfx.none 12 4 5, .iremNu Pfx.none 12 4 5],
      SoloIs i (rig id (t8 [7, 2])) (fun c => c.vals.b ≠ 0 ∧ c.g.sfq.length < 32) := by
  constructor <;> intro i h <;> refine solo_hyp ?_ <;> revert i <;> decide

theorem wit_CrossLaneQuantisation :
    (0 < 3 ∧ (maxFinite 7 : Rat) * 2 ^ ((0 : Int) - 1) < 3 * 2 ^ (0 : Int) ∧ (3 : Rat) * 2 ^ (0 : Int) ≤ maxFinite 7 * 2 ^ (0 : Int)) ∧
    SoloIs (.qpack Pfx.none 12 4 8) (rig id (t8 [1, 2, 3, 4, 0x47F])) (fun c =>
      4 ≤ c.vals.b / 2 ^ 8 % 16 ∧ c.vals.b / 2 ^ 8 % 16 ≤ 7 ∧ c.vals.b.testBit 16 = false ∧ c.g.sfq.length < 32) ∧
    SoloIs (.qpack Pfx.none 12 4 8) ((rig id (t8 [1, 2, 3, 4, 0x1177F])).updCore 0 fun k =>
        { k with recs := [(1, ⟨1, 0, 0, 0, 1, 0, 0, 0, 0⟩)] }) (fun c =>
      c.vals.b / 2 ^ 8 % 16 = 7 ∧ c.vals.b.testBit 16 = true ∧ c.vals.b / 2 ^ 12 % 16 = 1 ∧ c.tm.grid = 1 ∧ c.tm.team = 0) := by
  refine ⟨?_, solo_hyp (by decide), solo_hyp (by decide)⟩
  norm_num [maxFinite]

/-- The state of a thread that pops from q8, that pushes to it, and that meets a failing check. -/
theorem wit_ChecksAndPorts :
    (let s := mach [(0, th [(4, 9)])]
     let m := md { Mod.zero with fa := 3 }
     SoloIs (.iadd m 3 8 4) s (fun c => c.o.a = .port 8 ∧ c.t.popped = none ∧ c.g.active s.cur.set = [(0, c.t)]) ∧
     SoloIs (.isetp m 0 1 8 4) s (fun c => c.o.a = .port 8 ∧ c.t.popped = none) ∧
     SoloIs (.mov (md { Mod.zero with fd := 3 }) 8 4) s (fun c =>
       c.o.d = .port 8 ∧ c.o.a = .lane 4 ∧ c.tm.pushes = [] ∧ (queueOf c.tm c.g 8).length < 16) ∧
     SoloIs (.mov (md { Mod.zero with fd := 3 }) 8 4) (rig (fun t => { t with chans := [(8, List.replicate 16 1)] }) (th [(4, 9)]))
       (fun c => c.o.d = .port 8 ∧ 16 ≤ (queueOf c.tm c.g 8).length) ∧
     (∃ tm g, s.group? s.cur.g = some (tm, g) ∧ (decOf (Instr.iadd (md { Mod.zero with fd := 2 }) 1 2 3)).check tm.kern g
        (th [(4, 9)]) = .fault 0x01 ∧
       (decOf (Instr.iadd Pfx.none 1 2 3)).check tm.kern g { th [(4, 9)] with we := [2] } = .park ∧
       ∃ o, (decOf (Instr.uadd m 3 8 4)).checkUnif tm.kern g (th [(4, 9)]) = .go o ∧ o.a = .port 8 ∧ o.d = .unif 3) ∧
     ∃ tm g o, s.group? s.cur.g = some (tm, g) ∧ g.active s.cur.set = [(0, th [(4, 9)])] ∧
       (decOf (Instr.uadd (md { Mod.zero with fd := 3 }) 8 4 6)).checkUnif tm.kern g (th [(4, 9)]) = .go o ∧ o.d = .port 8 ∧
       o.a = .unif 4) := by
  refine ⟨solo_hyp (by decide), solo_hyp (by decide), solo_hyp (by decide), solo_hyp (by decide),
    ⟨_, _, rfl, rfl, rfl, _, rfl, rfl, rfl⟩, _, _, _, rfl, rfl, rfl, rfl, rfl⟩

/-- Accesses at user-virtual addresses, and in the scratchpad. -/
theorem wit_WeakAccesses :
    (∀ i ∈ [Instr.ldZ8 Pfx.none 12 4 6, .ldS8 Pfx.none 12 4 6, .ldZ16 Pfx.none 12 4 6, .ldS16 Pfx.none 12 4 6, .ld Pfx.none 12 4 6,
      .ldB64 Pfx.none 12 4 6, .ldB128 Pfx.none 12 4 6], MemHyp i (fun x => { asked (address x) 16 1 0 (.load 16 false) with
        dst := 4, isLoad := true, need := ⟨true, false, false⟩ }) (mach [(0, t8 [0x1000, 0, 0x10])])) ∧
    (∀ i ∈ [Instr.stB8 Pfx.none 12 4 6, .stB16 Pfx.none 12 4 6, .st Pfx.none 12 4 6, .stB64 Pfx.none 12 4 6, .stB128 Pfx.none 12 4 6],
      MemHyp i (fun x => { asked (address x) 16 2 0 (.store (toLE 16 x.d)) with
        isStore := true, need := ⟨false, true, false⟩, inTile := true, inCard := true }) (mach [(0, t8 [0x1000, 0, 0x10])])) ∧
    MemHyp (.ld Pfx.none 12 4 6) (fun x => { asked (address x) 4 1 0 (.load 4 false) with
      dst := 1, isLoad := true, need := ⟨true, false, false⟩ }) (rig scr (t8 (sp 0xFFF8 ++ [4]))) := by
  refine ⟨?_, ?_, mem_hyp (by decide)⟩ <;> intro i h <;> refine mem_hyp ?_ <;> revert i <;> decide

theorem wit_StrongAccesses : ∀ i ∈ [Instr.lds Pfx.none 12 4 0 3, .lds Pfx.none 12 4 2 4, .sts Pfx.none 12 4 1 2,
    .atom Pfx.none 12 4 0 0 3, .atom Pfx.none 12 4 9 1 2, .cas Pfx.none 12 4 0 3, .cas Pfx.none 12 4 1 4, .red Pfx.none 12 4 0 0 3,
    .red Pfx.none 12 4 7 1 2], MemHyp i (fun x => { strongly x 16 5 3 (.load 4 false) with
      dst := 1, isLoad := true, need := ⟨true, true, false⟩ }) (mach [(0, t8 [0x1000, 0])]) := by
  intro i h; refine mem_hyp ?_; revert i; decide

theorem wit_ChunksBarrierObjectsAndUniformMemory :
    (∀ i ∈ [Instr.sldx Pfx.none 12 4 0 15, .sldx Pfx.none 12 4 1 0, .sstx Pfx.none 12 4 0 15, .sstx Pfx.none 12 4 1 7],
      MemHyp i (fun x => { asked x.a 16 1 0 (.sldx 16 false) with align := 1, isLoad := true, need := ⟨true, false, false⟩ })
        (mach [(0, t8 [0x1001, 0])])) ∧
    (∀ i ∈ [Instr.tbinit Pfx.none 12 4, .tbexp Pfx.none 12 4], MemHyp i (fun x =>
      { asked x.a 16 5 0 (.tbexp x.d) with strong := true, inUser := false }) (rig scr (t8 (sp 0x40)))) ∧
    ∀ i ∈ [Instr.uld Pfx.none 12 4 6, .uldB64 Pfx.none 12 4 6, .ust Pfx.none 12 4 6, .ustB64 Pfx.none 12 4 6],
      UMemHyp i (fun x => { asked (address x) 8 1 0 (.load 8 false) with isLoad := true, need := ⟨true, true, false⟩ })
        ((mach [(0, th [])]).updGroup ⟨1, 0, 0⟩ fun g => { g with g := [(4, 0x1000), (6, 8)] }) := by
  refine ⟨?_, ?_, ?_⟩ <;> intro i h
  · refine mem_hyp ?_; revert i; decide
  · refine mem_hyp ?_; revert i; decide
  · refine umem_hyp ?_; revert i; decide

/-- An access of thread 0: a load of four bytes at 0x3000 into register 5. -/
def acc1 : Machine.Acc :=
  { id := 1, core := 0, t := ⟨⟨1, 0, 0⟩, 0⟩, set := [0], pasid := 1, part := 0, pc := bootHdr + 4, ri := 0, va := 0x3000, size := 4
    kind := 1, strong := false, scope := 0, acq := false, rel := false, stream := 0, op := .load 4 false, dest := some ⟨false, 5, 1⟩
    entry := true, isLoad := true, isStore := false, leaf := some ⟨0, 0, true, true, true, 1⟩, leaf2 := none, job := none
    vreq := none, prog := 0, again := false, st := .pending }

/-- A store of one byte there. -/
def acc2 : Machine.Acc :=
  { acc1 with id := 2, op := .store [7], dest := none, isLoad := false, isStore := true, size := 1, kind := 2 }

/-- A thread at a card's store, accesses outstanding. -/
def cardAt (t : Thread) (l : List Machine.Acc) : State := { rig id t with accs := l }

/-- The store in a state of its thread and accesses, with P. -/
def CardIs (t : Thread) (l : List Machine.Acc) (P : One → Prop) : Prop :=
  SoloIs (.stB128 Pfx.none 12 4 6) (cardAt t l) fun c => P c ∧ (cardAt t l).otUsed c.g.core + 1 ≤ 1024 ∧
    (cardAt t l).planCheck c.g.core c.tm { asked (address c.vals) 16 2 c.vals.m.scl.toNat (.store (toLE 16 c.vals.d)) with
      isStore := true, need := ⟨false, true, false⟩, inTile := true, inCard := true } = .ok (.card, none, none)

/-- The card is not given yet; it is; and its channel has accepted it. -/
theorem wit_JobCardStore :
    CardIs (t8 [0x40, 0xFD000000, 0]) [] (fun c => c.t.popped = none) ∧
    CardIs (t8 [0x40, 0xFD000000, 0]) [{ acc2 with op := .card 0 }] (fun c => c.t.popped = none ∧
      ∃ y ∈ [{ acc2 with op := .card 0 }], y.cardOf ⟨c.tm.ref c.g.gid, c.tid⟩ c.t.pc c.t.ri = true) ∧
    CardIs { t8 [0x40, 0xFD000000, 0] with popped := some 0 } [] (fun c => c.t.popped.isSome) :=
  ⟨solo_hyp (by decide), solo_hyp (by decide), solo_hyp (by decide)⟩

/-- Every form of a transfer, its offset aligned, and misaligned where it comes from a register. -/
theorem wit_Transfers :
    (∀ i ∈ [Instr.bra Pfx.none 4, .call Pfx.none 0xFFFF, .ret Pfx.none], SoloIs i (mach [(0, t8 [])]) fun _ => True) ∧
    SoloIs (.brau Pfx.none 4 8) (mach [(0, t8 [])]) (fun c => c.vals.d = 0) ∧
    SoloIs (.brau Pfx.none 4 8) ((mach [(0, t8 [])]).updGroup ⟨1, 0, 0⟩ fun g => { g with g := [(4, 1)] }) (fun c => c.vals.d ≠ 0) ∧
    (∀ i ∈ [Instr.brx Pfx.none 4, .callx Pfx.none 4], SoloIs i (mach [(0, t8 [8])]) (fun c => c.vals.a % 4 = 0) ∧
      SoloIs i (mach [(0, t8 [9])]) fun c => c.vals.a % 4 ≠ 0) ∧
    SoloIs (.ret Pfx.none) (mach [(0, { t8 [] with link := 2 })]) (fun c => c.t.link.toNat % 4 ≠ 0) ∧
    SoloIs (.csw Pfx.none 4) (mach [(0, t8 [8, 1])]) (fun c => c.o.a = .lane 4 ∧ c.vals.a % 4 = 0) ∧
    SoloIs (.csw Pfx.none 4) (mach [(0, t8 [1, 1])]) (fun c => c.vals.a % 2 ^ 32 % 4 ≠ 0) := by
  refine ⟨fun i h => solo_hyp ?_, solo_hyp (by decide), solo_hyp (by decide), fun i h => ⟨solo_hyp ?_, solo_hyp ?_⟩,
    solo_hyp (by decide), solo_hyp (by decide), solo_hyp (by decide)⟩ <;> revert i <;> decide

/-- A machine of one group of two threads, thread 0 executing. -/
def duo (a b : Thread) : State := let s := mach [(0, a), (1, b)]; { s with cur := { s.cur with set := [0] } }

theorem wit_JoinsAndExits :
    /- the other thread is not parked there: nobody leaves but those whose mask is satisfied -/
    SoloIs (.rejoin Pfx.none 3 2) (duo (th []) (th [])) (fun c =>
      ∃ p ∈ Tab.listed (Tab.adjust c.g.threads c.tid fun _ => { c.t with st := .rejoining 3 (c.g.pair 4) }),
        p.2.live = true ∧ p.2.st = .ready) ∧
    /- every live thread is parked and thread 0 waits for thread 1 -/
    SoloIs (.rejoin Pfx.none 3 2) ((duo (th []) { th [] with st := .rejoining 4 1 }).updGroup ⟨1, 0, 0⟩ fun g =>
        { g with g := [(4, 2)] }) (fun c => c.g.pair 4 = 2 ∧
      ∀ p ∈ Tab.listed (Tab.adjust c.g.threads c.tid fun _ => { c.t with st := .rejoining 3 (c.g.pair 4) }),
        p.2.live = true → p.2.st ≠ .ready) ∧
    (∀ i ∈ [Instr.exit Pfx.none, .yield Pfx.none, .nop Pfx.none], SoloIs i (mach [(0, th [])]) (fun c =>
      c.t.we = [] ∧ c.t.defd = [] ∧ c.t.arrived = [] ∧ c.t.rejoins = false)) ∧
    SoloIs (.exit Pfx.none) (mach [(0, { th [] with we := [3] })]) (fun c => 3 ∈ c.t.we ∧ 3 ∉ c.t.defdRegs) ∧
    SoloIs (.exit Pfx.none) (mach [(0, { th [] with defd := [⟨.store, (mach [(0, th [])]).mkRec ⟨⟨1, 0, 0⟩, 0⟩ 6 2 0 0⟩] })])
      (fun c => c.t.we = [] ∧ c.t.defd ≠ []) := by
  refine ⟨solo_hyp (by decide), solo_hyp (by decide), fun i h => solo_hyp ?_, solo_hyp (by decide), solo_hyp (by decide)⟩
  revert i; decide

theorem wit_SpecialRegistersAndCalls :
    (∀ n ∈ [0, 1, 2, 3, 4, 5, 6, 7, 8, 9, 10, 11, 12, 16, 17, 18, 19],
      SoloIs (.sread Pfx.none 4 (BitVec.ofNat 8 n)) (mach [(0, th [])]) fun _ => True) ∧
    (∀ n ∈ [9, 10, 11, 12, 16, 17, 18, 19], SoloIs (.sreadW Pfx.none (BitVec.ofNat 8 n) 4) (mach [(0, th [])]) fun _ => True) ∧
    WholeIs (.syscall Pfx.none 5) (mach [(0, th [])]) (fun c => 16 ≤ c.tm.kern.gregs ∧ c.g.ge = [] ∧
      ∀ p ∈ c.gset, (mach [(0, th [])]).fenceReleased c.g.core ⟨c.r, p.1⟩ p.2 4 = true) ∧
    WholeIs (.syscall Pfx.none 5) (rig (fun t => { t with kern := { t.kern with gregs := 15 } }) (th [])) (fun c =>
      c.tm.kern.gregs < 16) := by
  refine ⟨fun i h => solo_hyp ?_, fun i h => solo_hyp ?_, whole_hyp (by decide), whole_hyp (by decide)⟩ <;> revert i <;> decide

theorem wit_TrapsAndHandlerReturn :
    (∀ i ∈ [Instr.trap Pfx.none 7, .brkpt Pfx.none 7, .uliret Pfx.none], SoloIs i (mach [(0, th [])]) fun c =>
      c.t.frame.inh = false) ∧
    (∀ b : Bool, SoloIs (.uliret Pfx.none) (mach [(0, { th [] with frame := ⟨64, 60, 80, [], false, 0, b, 0, 0, 0, .fault, true⟩ })])
      fun c => c.t.frame.inh = true ∧ c.t.frame.tin = b) ∧
    ∀ i ∈ [Instr.ulien Pfx.none 31, .ulidis Pfx.none 1], WholeIs i (mach [(0, th [])]) fun _ => True := by
  refine ⟨fun i h => solo_hyp ?_, fun i => solo_hyp ?_, fun i h => whole_hyp ?_⟩ <;> revert i <;> decide

theorem wit_TraceEvent : WholeIs (.event Pfx.none 7) (mach [(0, th [])]) fun _ => True := whole_hyp (by decide)

/-- A state with no access outstanding holds no release up but for the thread's own stamps and stores. -/
theorem released_of {s : State} (h : s.accs = []) (f : s.frames = []) {core : Nat} {t : TRef} {u : Thread} {n : Nat}
    (k : core / 48 < 4) (v : ∀ d < 4, (s.die d).v.covers (u.wrote.join u.seen) = true) : Released s core t u n := by
  refine ⟨fun a ha => ?_, fun d hd => ?_, fun _ e he => ?_⟩
  · have := ha.1; rw [h] at this; cases this
  · rcases hd with rfl | ⟨-, hd⟩
    · exact v _ k
    · exact v d hd
  · rw [f] at he; cases he

theorem acquired_of {s : State} (h : s.accs = []) {core : Nat} {t : TRef} {u : Thread} {n : Nat}
    (v : (s.die (core / 48)).v.covers u.seen = true) : Acquired s core t u n := by
  refine ⟨fun a ha => ?_, fun _ => v⟩
  have := ha.1; rw [h] at this; cases this

/-- A stamp of a write that die 0 does not cover. -/
def ahead : VClk := ⟨0, 1, 0, 0⟩

/-- A deferred fault of a store with a code. -/
def due (code : Nat) : Deferred := ⟨.store, (mach [(0, th [])]).mkRec ⟨⟨1, 0, 0⟩, 0⟩ code 2 0 0⟩

theorem wit_Fences :
    (∀ k : BitVec 2, k ≠ 3 → ∀ sc ∈ [2#3, 3#3, 4#3], ∃ c, Solo (.fence Pfx.none k sc) (mach [(0, th [])]) c ∧ c.t.defd = [] ∧
      c.t.fenceV = none ∧ Released (mach [(0, th [])]) c.g.core c.ref c.t sc.toNat ∧
      Acquired (mach [(0, th [])]) c.g.core c.ref c.t sc.toNat ∧
      ((mach [(0, th [])]).die (c.g.core / 48)).v.covers
        ((mach [(0, th [])]).cp.fenceDev.join (mach [(0, th [])]).cp.fenceSys) = true) ∧
    (∀ k : BitVec 2, k ≠ 3 → ∃ c, Solo (.fence Pfx.none k 3) (mach [(0, { th [] with wrote := ahead, seen := ahead })]) c ∧
      c.t.defd = [] ∧ ¬ Released (mach [(0, { th [] with wrote := ahead, seen := ahead })]) c.g.core c.ref c.t 3 ∧
      ¬ Acquired (mach [(0, { th [] with wrote := ahead, seen := ahead })]) c.g.core c.ref c.t 3) ∧
    /- a store's fault, due at a release, and a fault of a stream, due at an acquire -/
    SoloIs (.fence Pfx.none 1 3) (mach [(0, { th [] with defd := [due 6] })]) (fun c => ∃ d ∈ c.t.defd, d.kind = .store) ∧
    SoloIs (.fence Pfx.none 0 3) (mach [(0, { th [] with defd := [due 6, due 0x14] })]) (fun c =>
      (c.t.defd.map fun d => d.rcd.code) = [6, 0x14]) := by
  refine ⟨fun k hk sc hs => ?_, fun k hk => ?_, solo_hyp (by decide), solo_hyp (by decide)⟩
  · have : SoloIs (.fence Pfx.none k sc) (mach [(0, th [])]) (fun c => c.t.defd = [] ∧ c.t.fenceV = none ∧
        c.t.wrote = .zero ∧ c.t.seen = .zero ∧ c.g.core = 0) := solo_hyp (by revert k sc; decide)
    obtain ⟨c, hc, a, b, w, e, z⟩ := this
    refine ⟨c, hc, a, b, released_of rfl rfl ?_ ?_, acquired_of rfl ?_, ?_⟩
    · rw [z]; decide
    · rw [w, e]; decide
    · rw [e, z]; rfl
    · rw [z]; rfl
  · have : SoloIs (.fence Pfx.none k 3) (mach [(0, { th [] with wrote := ahead, seen := ahead })]) (fun c => c.t.defd = [] ∧
        c.t.wrote = ahead ∧ c.t.seen = ahead ∧ c.g.core = 0) := solo_hyp (by revert k; decide)
    obtain ⟨c, hc, a, w, e, z⟩ := this
    refine ⟨c, hc, a, fun h => ?_, fun h => ?_⟩
    · have := h.2.1 _ (.inl rfl); rw [w, e, z] at this; revert this; decide
    · have := h.2 (by decide); rw [e, z] at this; revert this; decide

theorem wit_TeamBarriers :
    /- another live thread has not arrived; the other has arrived; nobody else is live -/
    SoloIs (.bar Pfx.none 1 0 3) (duo (th []) (th [])) (fun c => c.t.popped = none ∧ c.t.arrived = [] ∧
      (Tab.find? c.g.threads 1).any (fun t => t.live && t.arrived.isEmpty)) ∧
    SoloIs (.bar Pfx.none 1 1 3) (duo (th []) { th [] with st := .barred 3, arrived := [3] }) (fun c => c.t.popped = none ∧
      c.t.arrived = [] ∧ ∀ p ∈ c.g.threads, p.2.arrived = [] ∨ p.2.arrived = [3]) ∧
    SoloIs (.bar Pfx.none 0 0 3) (duo { th [] with popped := some 0 } (th [])) (fun c => c.t.popped.isSome) ∧
    SoloIs (.bar Pfx.none 0 0 3) (duo { th [] with arrived := [3] } (th [])) (fun c => c.t.popped = none ∧ 3 ∈ c.t.arrived) ∧
    ∃ c, Solo (.bar Pfx.none 0 0 3) (mach [(0, { th [] with wrote := ahead })]) c ∧ c.t.popped = none ∧ 3 ∉ c.t.arrived ∧
      ¬ Released (mach [(0, { th [] with wrote := ahead })]) c.g.core c.ref c.t 2 := by
  refine ⟨solo_hyp (by decide), solo_hyp (by decide), solo_hyp (by decide), solo_hyp (by decide), ?_⟩
  have : SoloIs (.bar Pfx.none 0 0 3) (mach [(0, { th [] with wrote := ahead })]) (fun c => c.t.popped = none ∧
      3 ∉ c.t.arrived ∧ c.t.wrote = ahead ∧ c.t.seen = .zero ∧ c.g.core = 0) := solo_hyp (by decide)
  obtain ⟨c, hc, a, b, w, e, z⟩ := this
  refine ⟨c, hc, a, b, fun h => ?_⟩
  have := h.2.1 _ (.inl rfl); rw [w, e, z] at this; revert this; decide

theorem noneDue_of {t : Thread} (h : t.defd = []) {a : Option Nat} {b : Option (Nat × Nat)} : NoneDue t a b := by
  intro d hd; rw [h] at hd; cases hd

theorem quiet_of {s : State} (h : s.accs = []) {r : GRef} {l : List Nat} {mc off n : Nat} : Quiet s r l mc off n := by
  intro a ha; rw [h] at ha; cases ha

theorem nothing_outstanding {s : State} (h : s.accs = []) {t : TRef} (b : Machine.Acc) : ¬ outstanding s t b := by
  intro hb; have := hb.1; rw [h] at this; cases this

/-- A team with a scratchpad that holds a 16-byte object at 0x40. -/
def obj (v : Nat) (t : Team) : Team := { scr t with scratch := [(0, Mem.writeN [] 0x40 16 v)] }

/-- The object's barrier of `reload` arrivals, of which some are left, in a phase. -/
def tb (arriv reload ph : Nat) : Nat := ph + 2 ^ 8 * arriv + 2 ^ 64 * reload

/-- The arrival's check answers the object at 0x40. -/
def atObj (s : State) (c : One) : Prop :=
  s.planCheck c.g.core c.tm { asked c.vals.a 16 5 0 .tbarr with strong := true, inUser := false }
    = .ok (.scratch 0 0x40, none, none)

/-- A TBARR at an object with arrivals left, with none left, and with a reload of 0. -/
theorem wit_TransactionBarriers :
    (let s := rig (obj (tb 1 1 3)) (t8 (sp 0x40))
     SoloIs (.tbarr Pfx.none 12 4) s (fun c => s.otUsed c.g.core = 0 ∧
       Mem.readN (Tab.getD c.tm.scratch [] 0) 0x40 16 = tb 1 1 3 ∧ tb 1 1 3 / 2 ^ 64 % 2 ^ 32 = 1 ∧ s.accs = [])) ∧
    (let s := rig (obj (tb 0 1 3)) (t8 (sp 0x40))
     SoloIs (.tbarr Pfx.none 12 4) s (fun c => c.t.defd = [] ∧
       Mem.readN (Tab.getD c.tm.scratch [] 0) 0x40 16 = tb 0 1 3 ∧ tb 0 1 3 / 2 ^ 64 % 2 ^ 32 = 1)) ∧
    (let s := rig (obj (tb 0 0 3)) (t8 (sp 0x40)); SoloIs (.tbarr Pfx.none 12 4) s (fun _ => True)) :=
  ⟨solo_hyp (by decide), solo_hyp (by decide), solo_hyp (by decide)⟩

theorem wit_TransactionBarriers_place : let s := rig (obj (tb 1 1 3)) (t8 (sp 0x40))
    ∃ c, Solo (.tbarr Pfx.none 12 4) s c ∧ atObj s c :=
  ⟨(soloOf? (.tbarr Pfx.none 12 4) (rig (obj (tb 1 1 3)) (t8 (sp 0x40)))).get (by decide), solo_of (by rfl), by unfold atObj; decide⟩

/-- A TBWAIT at a phase and at another, and one whose group has an earlier load outstanding; a full table. -/
theorem wit_TransactionBarriers_waits :
    SoloIs (.tbwait Pfx.none 6 4 0) (rig (obj (tb 1 1 3)) (t8 (sp 0x40 ++ [3]))) (fun c => c.vals.d % 16 = 3) ∧
    SoloIs (.tbwait Pfx.none 6 4 0) (rig (obj (tb 1 1 3)) (t8 (sp 0x40 ++ [4]))) (fun c => c.vals.d % 16 = 4) ∧
    (let s : State := { rig (obj (tb 1 1 3)) (t8 (sp 0x40 ++ [4])) with accs := [acc1] }
     SoloIs (.tbwait Pfx.none 6 4 0) s (fun c => acc1.t.g = c.r ∧ c.tid ∈ acc1.set ∧ acc1.op.reads = true)) ∧
    ∀ i ∈ [Instr.tbarr Pfx.none 12 4, .tbwait Pfx.none 6 4 0], let s : State := { rig (obj (tb 1 1 3)) (t8 (sp 0x40 ++ [3])) with
        accs := List.replicate 1024 acc1 }
      SoloIs i s (fun c => 1024 < s.otUsed c.g.core + 1) := by
  refine ⟨solo_hyp (by decide), solo_hyp (by decide), solo_hyp (by decide), fun i h => solo_hyp ?_⟩
  revert i; decide

/-- CTRWAIT, or its yielding form. -/
def ctrI (y : Bool) : Instr := if y then .ctrwaitYield Pfx.none 6 4 3 else .ctrwait Pfx.none 6 4 3

/-- The counter's read. -/
def ctrP (c : One) : Plan :=
  { asked c.vals.a 8 3 0 (.ctr c.vals.d) with strong := true, scope := 3, need := ⟨true, false, false⟩ }

/-- The conditions of each clause but those on accesses. -/
def ctrIn (s : State) (c : One) : Prop :=
  c.t.popped = none ∧ s.otUsed c.g.core + 1 ≤ 1024 ∧ c.tm.st = .running

/-- A counter of 5 in the scratchpad, with a target of 5, covered or not, and of 6. -/
theorem wit_JoinCounters : ∀ y : Bool,
    (∀ b : Bool, let s := rig (obj 5) { t8 (sp 0x40 ++ [5, 0]) with seen := if b then .zero else ahead }
     SoloIs (ctrI y) s (fun c => ctrIn s c ∧ c.vals.d = 5 ∧
      s.planCheck c.g.core c.tm (ctrP c) = .ok (.scratch 0 0x40, none, none) ∧
      (s.die (c.g.core / 48)).v.covers c.t.seen = b)) ∧
    let s := rig (obj 5) (t8 (sp 0x40 ++ [6, 0])); SoloIs (ctrI y) s (fun c => ctrIn s c ∧ c.vals.d = 6 ∧
      Mem.readN (Tab.getD c.tm.scratch [] 0) 0x40 8 = 5) := by
  unfold ctrIn
  refine fun y => ⟨fun b => solo_hyp ?_, solo_hyp ?_⟩
  · revert y b; decide
  · revert y; decide

/-- A counter of 0 in device memory, with a target of 0 and of 1. -/
theorem wit_JoinCounters_memory : ∀ y : Bool,
    (let s := rig scr (t8 [0x3000, 0, 0, 0]); SoloIs (ctrI y) s (fun c => ctrIn s c ∧ c.vals.d = 0 ∧
      s.planCheck c.g.core c.tm (ctrP c) = .ok (.user, some ⟨0, 0, true, true, true, 1⟩, none) ∧
      homeOf 0x3000 = c.g.core / 48 ∧ c.vals.a = 0x3000 ∧ s.lostIn 0x3000 8 false = false ∧ s.chanHeld 0x3000 = false ∧
      c.t.seen = .zero ∧ c.t.floor = [] ∧
      (s.die 0).v.covers ((VClk.zero.join (stampsOf ((span 0x3000 8).map s.homeCopy))).join (s.die 0).v) = true)) ∧
    let s := rig scr (t8 [0x3000, 0, 1, 0]); SoloIs (ctrI y) s (fun c => ctrIn s c ∧ c.vals.d = 1 ∧
      ofLE (Mem.readList s.hbm 0x3000 8) = 0) := by
  unfold ctrIn
  refine fun y => ⟨solo_hyp ?_, solo_hyp ?_⟩ <;> revert y <;> decide

/-- Their states have no access outstanding. -/
theorem wit_JoinCounters_quiet (f : Team → Team) (t : Thread) (c : TRef) (b : Machine.Acc) : ¬ outstanding (rig f t) c b :=
  nothing_outstanding rfl b

/-- Without accesses no acquire or release is outstanding. -/
theorem order_of {s : State} (h : s.accs = []) {r : GRef} {l : List Nat} : NoAcquire s r l ∧ OrderHolds s r l := by
  refine ⟨fun a ha => ?_, fun a ha => ?_, fun a ha => ?_⟩ <;> rw [h] at ha <;> cases ha

/-- An acquire of thread 0 is. -/
theorem acquires : ¬ NoAcquire { rig scr (th []) with accs := [{ acc1 with acq := true }] } ⟨1, 0, 0⟩ [0] := by
  intro h; have := h _ (List.mem_singleton.2 rfl) rfl ⟨0, by decide⟩; cases this

/-- Tile 1 of the first member core in a state, with two consumes and a length of 16 lines. -/
def tile1 (f : Tile → Tile) (t : Team) : Team :=
  { scr t with tiles := [(0, [(1, f { Tile.fresh with defd := true, len := 16, cons := 2 })])] }

/-- TDEF of an empty tile, and of one that is out of range. -/
theorem wit_TilesAndTheirWaits :
    WholeIs (.tdef Pfx.none 2 4) (rig scr (t8 [0x00100000])) (fun c => 2 < c.tm.kern.tiles ∧ (c.tm.tile c.mc 2).st = .empty ∧
      c.vals.a / 2 ^ 16 % 2 ^ 14 = 16 ∧ 64 * (c.vals.a % 2 ^ 14 + 16) ≤ c.tm.partBytes) ∧
    WholeIs (.tdef Pfx.none 4 4) (rig scr (t8 [0x00100000])) (fun c => ¬ 4 < c.tm.kern.tiles) :=
  ⟨whole_hyp (by decide), whole_hyp (by decide)⟩

/-- TARM of a tile in a state, with the greatest count of consumes. -/
def armHyp (st : TileState) : Prop :=
  WholeIs (.tarm Pfx.none 1 4 5) (rig (tile1 fun e => { e with st := st }) (t8 [16, 65535])) (fun c =>
    (c.tm.tile c.mc 1).st = st ∧ (c.tm.tile c.mc 1).owner = c.g.gid ∧ 0 < c.vals.a ∧ c.vals.a ≤ (c.tm.tile c.mc 1).len ∧
    0 < c.vals.b ∧ c.vals.b < 65536 ∧ ∀ p ∈ c.gset, p.2.defd = [])

theorem wit_TilesAndTheirWaits_arm : armHyp .empty := whole_hyp (by decide)
theorem wit_TilesAndTheirWaits_armReady : armHyp .ready := whole_hyp (by decide)
theorem wit_TilesAndTheirWaits_armFilling : armHyp .filling := whole_hyp (by decide)

/-- TWAIT of phase n at a READY tile of phase 3. -/
def waitHyp (n : Word) : Prop :=
  SoloIs (.twait Pfx.none 1 4) (rig (tile1 fun e => { e with st := .ready, ph := 3 }) (t8 [n])) (fun c =>
    1 < c.tm.kern.tiles ∧ (c.tm.tile c.mc 1).defd = true ∧ c.vals.a % 16 = n.toNat ∧ c.t.defd = [])

/-- Its own phase, the one before and the next. -/
theorem wit_TilesAndTheirWaits_wait : waitHyp 3 := solo_hyp (by decide)
theorem wit_TilesAndTheirWaits_past : waitHyp 2 := solo_hyp (by decide)
theorem wit_TilesAndTheirWaits_coming : waitHyp 4 := solo_hyp (by decide)

/-- TCONS or TSTAT of a tile in a state. -/
def useHyp (i : Instr) (st : TileState) : Prop :=
  SoloIs i (rig (tile1 fun e => { e with st := st }) (t8 [])) (fun c => 1 < c.tm.kern.tiles ∧ (c.tm.tile c.mc 1).defd = true ∧
    (c.tm.tile c.mc 1).st = st ∧ c.t.defd = [])

theorem wit_TilesAndTheirWaits_use : useHyp (.tcons Pfx.none 1) .ready := solo_hyp (by decide)
theorem wit_TilesAndTheirWaits_useFilling : useHyp (.tcons Pfx.none 1) .filling := solo_hyp (by decide)
theorem wit_TilesAndTheirWaits_stat : useHyp (.tstat Pfx.none 6 1) .draining := solo_hyp (by decide)

/-- LD.c at the last bytes of a tile. -/
theorem wit_TilesAndTheirWaits_read : ∀ q ∈ [(4, Instr.ldC Pfx.none 12 4 1), (16, .ldCB128 Pfx.none 12 4 1)],
    SoloIs q.2 (rig (tile1 fun e => { e with st := .ready }) (t8 (sp 0x3F0))) (fun c => Named c 1 ∧
      { asked c.vals.a q.1 1 0 (.ldc q.1 1) with dst := q.1 / 4, isLoad := true, inUser := false }.window c.tm
        = some (.scratch c.mc 0x3F0) ∧ c.vals.a % q.1 = 0 ∧ 64 * (c.tm.tile c.mc 1).base ≤ 0x3F0 ∧
      0x3F0 + q.1 ≤ 64 * ((c.tm.tile c.mc 1).base + (c.tm.tile c.mc 1).len)) := by
  unfold Named
  intro i h; refine solo_hyp ?_; revert i; decide

/-- Tile 2 is not defined. -/
theorem wit_TilesAndTheirWaits_undefined : ∀ i ∈ [Instr.twait Pfx.none 2 4, .tcons Pfx.none 2, .tstat Pfx.none 6 2],
    SoloIs i (rig scr (t8 [])) (fun c => (c.tm.tile c.mc 2).defd = false) := by
  intro i h; refine solo_hyp ?_; revert i; decide

/-- A machine whose core 0 keeps a translation of page 2^40 to page 7 of lease 5, a pool lease. -/
def pooled (t : Thread) : State :=
  let s := (rig scr t).updCore 0 fun k => { k with tlb := [(tlbKey 1 (2 ^ 56), ⟨5, 7, true, true, false, 1⟩)] }
  { s with now := 10, leases := [(5, { part := 0, st := .valid, rw := true, pages := 100, base := 0, epoch := 1, node := 1
                                       repl := [0xFFFF, 0xFFFF, 0xFFFF], expiry := 1000 })] }

/-- A frame of partition 0 that holds page 7 of lease 5. -/
def frame7 : FrameE :=
  { st := .valid, loc := false, part := 0, page := 7, lease := 5, dirty := [2], arrived := [], first := 0, cnt := 3, pins := 0
    lost := [], retries := 0, grp := 0, rd := (1, 0), since := 0 }

theorem wit_HintsAndResidency :
    (∀ i ∈ [Instr.prefL1 Pfx.none 4 1, .prefL2 Pfx.none 4 0, .prefHbm Pfx.none 4 1, .residKeep Pfx.none 4, .residEvict Pfx.none 4],
      (let s := rig scr (t8 [0x1000, 0]); SoloIs i s (fun c => s.hintCheck c.g.core c.tm.pasid c.vals.a false
        = .ok ⟨0, 0, true, true, true, 1⟩ ∧ s.placeOf ⟨0, 0, true, true, true, 1⟩ (c.vals.a / 64 * 64) = .dev 0x1000 ∧
          s.chanHeld 0x1000 = false)) ∧
      (let s := rig scr (t8 [0, 0x00800000]); SoloIs i s (fun c => s.hintCheck c.g.core c.tm.pasid c.vals.a false = .error 1)) ∧
      let s := pooled (t8 [0x40, 0x01000000]); SoloIs i s (fun c => c.vals.a = 2 ^ 56 + 0x40 ∧
        s.hintCheck c.g.core c.tm.pasid c.vals.a false = .ok ⟨5, 7, true, true, false, 1⟩ ∧
        s.placeOf ⟨5, 7, true, true, false, 1⟩ c.vals.a = .pool 7 0x40 ∧
        s.placeOf ⟨5, 7, true, true, false, 1⟩ (c.vals.a / 64 * 64) = .pool 7 0x40 ∧
        s.frameOf (s.partOf c.tm.pasid) 7 = none ∧ s.pageReqs = [])) ∧
    (∀ i ∈ [Instr.residKeep Pfx.none 4, .residEvict Pfx.none 4],
      let s : State := { pooled (t8 [0x40, 0x01000000]) with frames := [(9, frame7)] }
      SoloIs i s (fun c => s.frameOf (s.partOf c.tm.pasid) 7 = some (9, frame7))) ∧
    SoloIs (.prefTier Pfx.none 6 4 1 1) (rig scr (t8 [0x1000, 0, 0x00000111, 0x40])) (fun c =>
      windowOf c.tm (0xFE * 2 ^ 56 + c.vals.d / 2 ^ 32 % 2 ^ 22) 16 = some (.scratch 0 0x40) ∧ c.vals.d / 2 ^ 32 % 16 = 0) ∧
    SoloIs (.prefTier Pfx.none 6 4 0 1) (rig scr (t8 [0x1000, 0, 0x00000111])) (fun _ => True) ∧
    SoloIs (.residQ Pfx.none 6 4) (rig scr (t8 [0x1000, 0])) fun _ => True := by
  refine ⟨fun i h => ⟨solo_hyp ?_, solo_hyp ?_, solo_hyp ?_⟩, fun i h => solo_hyp ?_, solo_hyp (by decide),
    solo_hyp (by decide), solo_hyp (by decide)⟩ <;> revert i <;> decide

/-- Records 1 and 2 of the team: an accumulator, and operands of three K blocks. -/
def recs12 (s : State) : State := s.updCore 0 fun k => { k with recs :=
  [(1, ⟨1, 0, 0, 0, 1, 15, 0, 0, 0⟩), (2, ⟨1, 0, 0, 0, 1, 15, 16, 0, 0⟩)] }

theorem wit_MatrixRecordsAndLoads :
    /- MRES of granules 0 to 15 for record 3, and of an element format that no record has -/
    WholeIs (.mres Pfx.none 3 4) (rig scr (t8 [0x00010F20])) (fun c =>
      c.vals.a / 2 ^ 16 % 16 = 1 ∧ c.vals.a % 64 = 32 ∧ c.vals.a / 2 ^ 8 % 64 = 15 ∧ (mach []).core c.g.core = .fresh) ∧
    WholeIs (.mres Pfx.none 3 4) (rig scr (t8 [0x00000F20])) (fun c => c.vals.a / 2 ^ 16 % 16 ∉ [1, 2, 4, 5, 6, 7, 8]) ∧
    (∀ i ∈ [Instr.mrel Pfx.none 1 12, .mzero Pfx.none 1], let s := recs12 (rig scr (t8 []))
      WholeIs i s (fun c => ((s.core c.g.core).rec? c.tm 1).any fun q => decide (15 ≤ q.ngr))) ∧
    (∀ i ∈ [Instr.mrel Pfx.none 3 12, .mldt Pfx.none 3 1 4, .mldtC Pfx.none 3 1 4, .mldg Pfx.none 3 4 6],
      let s := recs12 (rig scr (t8 [])); WholeIs i s (fun c => (s.core c.g.core).rec? c.tm 3 = none)) ∧
    (let s := (rig scr (t8 [])).updCore 0 fun k => { k with recs := [(1, ⟨1, 0, 0, 0, 1, 14, 0, 0, 0⟩)] };
      WholeIs (.mzero Pfx.none 1) s (fun c => ((s.core c.g.core).rec? c.tm 1).any fun q => decide (q.ngr < 15))) ∧
    /- a layout of 6 units a row, of one brick, and tiles in four conditions -/
    (∀ n ∈ [(1, 1, 24), (0, 1, 24), (1, 2, 24), (1, 1, 23)],
      let s := recs12 (rig (tile1 fun e => { e with st := if n.1 = 1 then .ready else .filling, fmt := n.2.1, len := n.2.2 }) (t8 [0x600, 0]))
      ∀ i ∈ [Instr.mldt Pfx.none 1 1 4, .mldtC Pfx.none 1 1 4], WholeIs i s (fun c =>
        (layoutOf c.vals.b).check ⟨1, 0, 0, 0, 1, 15, 0, 0, 0⟩ = none ∧ (layoutOf c.vals.b).swz = 0 ∧
        (layoutOf c.vals.b).limit ⟨1, 0, 0, 0, 1, 15, 0, 0, 0⟩ = 1536 ∧ (c.tm.tile c.mc 1).fmt = n.2.1 ∧
        (c.tm.tile c.mc 1).len = n.2.2 ∧ ∀ p ∈ c.gset, p.2.defd = [])) ∧
    let s := recs12 (rig scr (t8 [0x8000, 0, 0x600, 0]))
    WholeIs (.mldg Pfx.none 1 4 6) s (fun c => (layoutOf c.vals.b).check ⟨1, 0, 0, 0, 1, 15, 0, 0, 0⟩ = none ∧
      (layoutOf c.vals.b).swz = 0 ∧ c.t.popped = none ∧ (∀ p ∈ c.gset, p.2.pinned = 0) ∧ (s.core c.g.core).pins = [] ∧
      (s.core c.g.core).pinCount + 3 ≤ 256 ∧
      (linesOf ((layoutOf c.vals.b).sectors ⟨1, 0, 0, 0, 1, 15, 0, 0, 0⟩ c.vals.a)).length = 3 ∧
      ∀ x ∈ linesOf ((layoutOf c.vals.b).sectors ⟨1, 0, 0, 0, 1, 15, 0, 0, 0⟩ c.vals.a), s.pinLine c.g.core c.tm x = .line x) := by
  refine ⟨whole_hyp (by decide), whole_hyp (by decide), fun i h => whole_hyp ?_, fun i h => whole_hyp ?_, whole_hyp (by decide),
    fun n h i hi => whole_hyp ?_, whole_hyp (by decide)⟩
  · revert i; decide
  · revert i; decide
  · revert n i; decide

/-- The header after the MLDG is read alike before and after it. -/
theorem wit_MatrixRecordsAndLoads_header : let s := recs12 (rig scr (t8 [0x8000, 0, 0x600, 0]))
    WholeIs (.mldg Pfx.none 1 4 6) s (fun c => ∀ p ∈ c.set,
      (next (.mldg Pfx.none 1 4 6) s).hp c.tm c.g p.2.cend p.2.prio = s.hp c.tm c.g p.2.cend p.2.prio) :=
  whole_hyp (by decide)

/-- Records 1 to 3 of the team on a core: an accumulator, and two operands. -/
def recs13 (core : Nat) (s : State) : State := s.updCore core fun k => { k with recs :=
  [(1, ⟨1, 0, 0, 0, 1, 15, 0, 0, 0⟩), (2, ⟨1, 0, 0, 0, 1, 15, 16, 0, 0⟩), (3, ⟨1, 0, 0, 0, 1, 15, 32, 0, 0⟩)] }

/-- Four status words in q0 and twelve that are due. -/
def fullQ0 (s : State) : State := s.updGroup ⟨1, 0, 0⟩ fun g => { g with q0 := [1, 2, 3, 4], q0out := 12 }

theorem wit_MatrixProducts_mma :
    (let s := recs13 0 (rig scr (t8 [])); WholeIs (.mma Pfx.none 1 2 3) s (fun c =>
      (s.core c.g.core).mmaCheck c.tm 1 2 3 = none ∧ c.g.q0.length + c.g.q0out < 16)) ∧
    (let s := fullQ0 (recs13 0 (rig scr (t8 []))); WholeIs (.mma Pfx.none 1 2 3) s (fun c =>
      ¬ c.g.q0.length + c.g.q0out < 16)) ∧
    let s := rig scr (t8 []); WholeIs (.mma Pfx.none 1 2 3) s (fun c => (s.core c.g.core).mmaCheck c.tm 1 2 3 = some 0x13) :=
  ⟨whole_hyp (by decide), whole_hyp (by decide), whole_hyp (by decide)⟩

/-- A team on cores 0 and 1. -/
def on2 (t : Team) : Team := { scr t with cores := [0, 1] }

theorem wit_MatrixProducts_mmap :
    (let s := recs13 1 (recs13 0 (rig on2 (t8 []))); WholeIs (.mmap Pfx.none 1 2 3) s (fun c =>
      c.g.core % 2 = 0 ∧ c.g.core + 1 ∈ c.tm.cores ∧ (s.core c.g.core).mmaCheck c.tm 1 2 3 = none ∧
      (s.core (c.g.core + 1)).mmaCheck c.tm 1 2 3 = none ∧ ∀ n ∈ [1, 2, 3],
        ((s.core c.g.core).rec? c.tm n).map (fun p => (p.efmt, p.blk, p.afmt))
          = ((s.core (c.g.core + 1)).rec? c.tm n).map (fun q => (q.efmt, q.blk, q.afmt)) ∧
        ((s.core c.g.core).rec? c.tm n).isSome = true)) ∧
    let s := rig scr (t8 []); WholeIs (.mmap Pfx.none 1 2 3) s (fun c => c.g.core + 1 ∉ c.tm.cores) :=
  ⟨whole_hyp (by decide), whole_hyp (by decide)⟩

/-- Tile 1 has room for a result in the format of 4 bits. -/
def out6 (st : TileState) : Team → Team := tile1 fun e => { e with st := st, fmt := 6, len := 128 }

theorem wit_MatrixProducts_mstt : ∀ st ∈ [TileState.empty, .ready, .draining],
    let s := recs13 0 (rig (out6 st) (t8 [0x10006, 0, 0x10006])); WholeIs (.mstt Pfx.none 1 1 4) s (fun c =>
      c.vals.b % 16 = 6 ∧ c.vals.b / 2 ^ 16 % 2 ^ 16 = 1 ∧ (c.tm.tile c.mc 1).st = st ∧ (c.tm.tile c.mc 1).fmt = 6 ∧
      (c.tm.tile c.mc 1).owner = c.g.gid ∧ 128 ≤ (c.tm.tile c.mc 1).len ∧ c.tm.heldArr = []) := by
  intro st h; refine whole_hyp ?_; revert st; decide

/-- A release holds in every state of these tests without an access, at cores of a die that covers what was written. -/
theorem allReleased_of {s : State} (h : s.accs = []) (f : s.frames = []) {c : Once} {n : Nat}
    (k : c.g.core / 48 < 4) (v : ∀ p ∈ c.gset, ∀ d < 4, (s.die d).v.covers (p.2.wrote.join p.2.seen) = true) :
    AllReleased s c n := fun p hp => released_of h f k (v p hp)

theorem ok_of {α β : Type} {x : Except α β} (h : (match x with | .ok _ => true | _ => false) = true) : ∃ b, x = .ok b := by
  split at h
  · exact ⟨_, rfl⟩
  · cases h

theorem err_of {α β : Type} {x : Except α β} (h : (match x with | .error _ => true | _ => false) = true) : ∃ b, x = .error b := by
  split at h
  · exact ⟨_, rfl⟩
  · cases h

/-- A machine whose thread 0 issues LAUNCH with its record at an address. -/
def launchAt (s : State) (va : List Word) : State := s.updGroup ⟨1, 0, 0⟩ fun g => { g with g := (span 4 2).zip va }

/-- It issues with thread 0, its release done, and P holds of the record's read. -/
def Launching (s : State) (P : Except MFail (Option (List Byte)) → Bool) : Prop :=
  ∃ c, Whole (.launch Pfx.none 8 4) s c ∧ (c.g.gid = 0 ∧ ∃ p ∈ c.set, p.1 = 0) ∧ c.tm.depth < 10 ∧ AllReleased s c 3 ∧
    P (s.readRec c.tm c.g.core c.r c.vals.a).1 = true

theorem launching_of {s : State} {P : Except MFail (Option (List Byte)) → Bool} (h : s.accs = []) (f : s.frames = []) (w : (match wholeOf? (.launch Pfx.none 8 4) s with
      | some c => decide ((c.g.gid = 0 ∧ c.set.any (fun p => p.1 == 0) = true) ∧ c.tm.depth < 10 ∧ c.g.core / 48 < 4 ∧
          (c.gset.all fun p => (List.range 4).all fun d => (s.die d).v.covers (p.2.wrote.join p.2.seen)) = true ∧
          P (s.readRec c.tm c.g.core c.r c.vals.a).1 = true)
      | none => false) = true) : Launching s P := by
  obtain ⟨c, hc, a, b, k, v, e⟩ := whole_hyp w
  obtain ⟨q, hq, hz⟩ := List.any_eq_true.1 a.2
  refine ⟨c, hc, ⟨a.1, q, hq, by simpa using hz⟩, b, allReleased_of h f k (fun p hp d hd => ?_), e⟩
  exact List.all_eq_true.1 (List.all_eq_true.1 v p hp) d (List.mem_range.2 hd)

/-- A record that can be read, one at an address without a page, one on a pool page that is in no frame, and one in the
scratchpad. -/
theorem wit_Launches :
    Launching (launchAt (rig scr (t8 [])) [0x3000, 0]) (fun x => match x with | .ok (some _) => true | _ => false) ∧
    Launching (launchAt (rig scr (t8 [])) [0, 0x800000]) (fun x => match x with | .error _ => true | _ => false) ∧
    Launching (launchAt (pooled (t8 [])) [0x40, 0x01000000]) (fun x => match x with | .ok none => true | _ => false) ∧
    WholeIs (.launch Pfx.none 8 4) (launchAt (rig scr (t8 [])) (sp 0x100)) (fun c =>
      (launchAt (rig scr (t8 [])) (sp 0x100)).planCheck c.g.core c.tm { asked c.vals.a 64 1 0 (.load 64 false) with
        align := 8, need := ⟨true, false, false⟩, isLoad := true } = .ok (.scratch 0 0x100, none, none)) :=
  ⟨launching_of rfl rfl (by decide), launching_of rfl rfl (by decide), launching_of rfl rfl (by decide), whole_hyp (by decide)⟩

/-- Without its release. -/
theorem wit_Launches_unreleased : ∃ c, Whole (.launch Pfx.none 8 4) (rig scr { t8 [] with wrote := ahead }) c ∧
    ¬ AllReleased (rig scr { t8 [] with wrote := ahead }) c 3 := by
  have : WholeIs (.launch Pfx.none 8 4) (rig scr { t8 [] with wrote := ahead }) (fun c =>
      ∃ p ∈ c.gset, ((rig scr { t8 [] with wrote := ahead }).die (c.g.core / 48)).v.covers (p.2.wrote.join p.2.seen) = false) :=
    whole_hyp (by decide)
  obtain ⟨c, hc, p, hp, e⟩ := this
  refine ⟨c, hc, fun h => ?_⟩
  have := (h p hp).2.1 _ (.inl rfl)
  rw [e] at this; cases this

/-- At the depth limit; four launches pending; without thread 0. -/
theorem wit_Launches_turnedAway :
    WholeIs (.launch Pfx.none 8 4) (rig (fun t => { t with depth := 10 }) (t8 [])) (fun c => 10 ≤ c.tm.depth) ∧
    WholeIs (.launch Pfx.none 8 4) (rig (fun t => { t with pend := List.replicate 4 ⟨0, [], .zero⟩ }) (t8 [])) (fun c =>
      ¬ c.tm.pend.length < 4) ∧
    WholeIs (.launch Pfx.none 8 4) (mach [(1, t8 [])]) (fun c => ∀ p ∈ c.set, p.1 ≠ 0) :=
  ⟨whole_hyp (by decide), whole_hyp (by decide), whole_hyp (by decide)⟩

/-- A connection of the context. -/
def joined (n : Nat) (k : ConnSt) (s : State) : State := { s with fab := { s.fab with conns := [(n, ⟨k, 1, 9, []⟩)] } }

/-- A descriptor in registers 8 to 11. -/
def dsc (d : List Word) : Thread := t8 ([0, 0, 0, 0] ++ d)

theorem wit_NetworkMessages :
    /- a message of 4,097 bytes in two packets from the scratchpad -/
    (let s := joined 7 .opened (rig scr (dsc ([0x03000007, 4097] ++ sp 0)))
     WholeIs (.nsend Pfx.none 8) s (fun c => c.vals.d / 2 ^ 32 % 2 ^ 32 = 4097 ∧ c.vals.d % 2 ^ 16 = 7 ∧
       c.vals.d / 2 ^ 64 % 2 ^ 64 = 0xFE * 2 ^ 56 ∧ c.g.q2.length + c.g.netOut < 32)) ∧
    WholeIs (.nsend Pfx.none 8) (rig scr (dsc [7, 1, 0, 0])) (fun c => c.vals.d / 2 ^ 32 % 2 ^ 32 = 1) ∧
    WholeIs (.nsend Pfx.none 8) (joined 7 .closing (rig scr (dsc [7, 1, 0, 0]))) (fun c => c.vals.d % 2 ^ 16 = 7) ∧
    (∀ i ∈ [Instr.nsend Pfx.none 8, .npost Pfx.none 8], WholeIs i (rig scr (dsc [7, 0, 0, 0])) (fun c =>
      c.vals.d / 2 ^ 32 % 2 ^ 32 = 0) ∧
      WholeIs i ((rig scr (dsc [7, 1, 0, 0])).updGroup ⟨1, 0, 0⟩ fun g => { g with netOut := 32 }) (fun c =>
        ¬ c.g.q2.length + c.g.netOut < 32)) ∧
    WholeIs (.nsend Pfx.none 8) (rig scr { dsc [7, 1, 0, 0] with wrote := ahead }) (fun c => ∀ p ∈ c.gset, p.2.wrote = ahead) := by
  refine ⟨whole_hyp (by decide), whole_hyp (by decide), whole_hyp (by decide), fun i h => ⟨whole_hyp ?_, whole_hyp ?_⟩,
    whole_hyp (by decide)⟩ <;> revert i <;> decide

/-- The message operation of a descriptor. -/
def msg (addr : Nat) : NetOp :=
  { n := 0, send := true, g := ⟨1, 0, 0⟩, pasid := 1, part := 0, core := 0, conn := 7, tag := 3, len := 4097, addr := addr
    tile := false, placed := 0, fail := 0, flying := 0, matched := none, stamps := .zero, stored := [] }

/-- Its packets can be read, or their first meets a fault or waits for a page. -/
theorem wit_NetworkMessages_bytes :
    (∀ k ∈ [0, 1], ∃ bs, (rig scr (t8 [])).netSource (scr (tm [])) (msg (0xFE * 2 ^ 56)) (4096 * k)
      (min 4096 (4097 - 4096 * k)) = .done bs) ∧
    (∃ f, (rig scr (t8 [])).netSource (scr (tm [])) (msg (2 ^ 57 - 1)) 0 4096 = .fail f) ∧
    (pooled (t8 [])).netSource (scr (tm [])) (msg (2 ^ 56)) 0 4096 = .wait := by
  refine ⟨fun k h => ?_, ⟨_, rfl⟩, by decide⟩
  have : windowOf (scr (tm [])) (0xFE * 2 ^ 56 + 4096 * k) (min 4096 (4097 - 4096 * k)) = some (.scratch 0 (4096 * k)) := by
    revert k; decide
  exact ⟨Mem.readList (Tab.getD (scr (tm [])).scratch [] 0) (4096 * k) (min 4096 (4097 - 4096 * k)), by
    simp only [State.netSource, msg, this, Bool.false_eq_true, if_false]⟩

/-! Events. -/

/-- Thread 0 at the header of a clause of a NOP, with the waits of the header given. -/
def atHdr (bits : Nat) (st : TState) (accs : List Machine.Acc) : State :=
  let s := State.reset.bootWith [0xDA000000] 1
  { s with
    grants := [], accs := accs, hbm := Mem.writeN s.hbm bootHdr 4 (0xA1C00000 + bits)
    teams := [tm [(0, { th [] with pc := bootHdr, inside := false, st := st, code := [0xA1C00000 + bits, 0xDA000000] })]] }

theorem wit_ClauseEntry :
    (∀ n ∈ [(0, ([] : List Machine.Acc)), (2 ^ 9, [acc1])], let s := atHdr n.1 .ready n.2
      s.checkClause 0 1 bootHdr = .ok [0xA1C00000 + n.1, 0xDA000000] ∧
      (s.group? ⟨1, 0, 0⟩).map (fun p => (List.filter (fun q : Nat × Thread => decide (q.2.st = .ready ∧ q.2.inside = false ∧
        q.2.pc = bootHdr)) p.2.threads).length) = some 1) ∧
    (∀ n ∈ [(0, ([] : List Machine.Acc)), (2 ^ 9, [acc1])], ∀ st ∈ [TState.ready, .entering], ∃ tm g th,
      (atHdr n.1 st n.2).group? ⟨1, 0, 0⟩ = some (tm, g) ∧ tm.st = .running ∧ Tab.find? g.threads 0 = some th ∧ th.st = st ∧
      th.hdr = bootHdr ∧ th.code.headD 0 = 0xA1C00000 + n.1 ∧ th.defd = [] ∧ th.pend = 0) ∧
    WaitsMet (atHdr 0 .ready []) (gr []) ⟨⟨1, 0, 0⟩, 0⟩ 0xA1C00000 ∧
    ¬ WaitsMet (atHdr 0x200 .ready [acc1]) (gr []) ⟨⟨1, 0, 0⟩, 0⟩ 0xA1C00200 := by
  refine ⟨by decide, ?_, ?_, fun h => ?_⟩
  · intro n hn st hst
    simp only [List.mem_cons, List.not_mem_nil, or_false] at hn hst
    rcases hn with rfl | rfl <;> rcases hst with rfl | rfl <;> exact ⟨_, _, _, rfl, rfl, rfl, rfl, rfl, rfl, rfl, rfl⟩
  · refine ⟨?_, ?_, ?_, ?_⟩ <;> intro h <;> revert h <;> decide
  · have := h.1 (by decide); revert this; decide

theorem wit_Arbitration :
    (({ State.reset with fatal := true } : State).fatal = true) ∧
    (let s := { mach [(0, th [])] with fatal := false }
     s.fatal = false ∧ ((s.groupsOn 0 0).flatMap (fun p => s.candidates p.1 p.2)).length = 1 ∧
     (∀ k < 4, k ≠ 0 → (s.groupsOn 0 k).flatMap (fun p => s.candidates p.1 p.2) = []) ∧ (s.core 0).busy = []) := by decide

/-- A pop of thread 0 from q8, of a register or of a predicate. -/
def pop1 (dst : Option Nat) : Pop := ⟨⟨1, 0, 0⟩, false, [0], 8,
  if dst = none then .isetp (md { Mod.zero with fa := 3 }) 0 1 8 4 else .mov (md { Mod.zero with fa := 3 }) 3 8, dst, 0, 0, false⟩

/-- A push of thread 0 that waits at q8. -/
def push1 : PushWait := ⟨⟨1, 0, 0⟩, [0], .mov (md { Mod.zero with fd := 3 }) 8 4, 8, 9, [], 0, none⟩

theorem wit_QueuesAndCounters :
    (∀ d ∈ [some 3, none], ∃ tm g u, (rig (fun t => { t with pops := [pop1 d], chans := [(8, [9])] })
        { th [] with st := if d = none then .parked .pop else .parked .reg }).group? ⟨1, 0, 0⟩ = some (tm, g) ∧
      tm.pops = [pop1 d] ∧ queueOf tm g 8 = [9] ∧ Tab.find? g.threads 0 = some u) ∧
    (∃ tm g u, (rig (fun t => { t with pushes := [push1] }) { th [] with st := .parked .push }).group? ⟨1, 0, 0⟩ = some (tm, g) ∧
      tm.st = .running ∧ (Tab.getD tm.chans [] 8).length < 16 ∧ tm.pushes = [push1] ∧ Tab.find? g.threads 0 = some u) ∧
    (∃ tm g, ((mach [(0, th [])]).updGroup ⟨1, 0, 0⟩ fun g => { g with sfq := [⟨4, [(0, [(3, 8)])]⟩] }).group? ⟨1, 0, 0⟩
        = some (tm, g) ∧ g.sfq = [⟨4, [(0, [(3, 8)])]⟩]) ∧
    (∀ n < 5, ({ mach [(0, th [])] with srcs := [(⟨1, 0, 0⟩, n)] } : State).srcs = [(⟨1, 0, 0⟩, n)]) := by
  refine ⟨?_, ⟨_, _, _, rfl, rfl, by decide, rfl, rfl⟩, ⟨_, _, rfl, rfl⟩, fun _ _ => rfl⟩
  intro d hd
  simp only [List.mem_cons, List.not_mem_nil, or_false] at hd
  rcases hd with rfl | rfl <;> exact ⟨_, _, _, rfl, rfl, rfl, rfl⟩

/-- Thread 0 waits at a counter of 5 in the scratchpad, with target 5 or 6. -/
theorem wit_QueuesAndCounters_poll : ∀ n ∈ [5, 6], let s := rig (obj 5) { th [] with st := .parked (.ctr (0xFE * 2 ^ 56 + 0x40) n 3 0 false) }
    s.planCheck 0 (obj 5 (tm [])) { asked (0xFE * 2 ^ 56 + 0x40) 8 3 0 (.ctr n) with
        strong := true, scope := 3, need := ⟨true, false, false⟩ } = .ok (.scratch 0 0x40, none, none) ∧
      Mem.readN (Tab.getD (obj 5 (tm [])).scratch [] 0) 0x40 8 = 5 ∧
    ∃ tm g u, s.thread? ⟨⟨1, 0, 0⟩, 0⟩ = some (tm, g, u) ∧ tm.st = .running ∧ s.accs = [] := by
  intro n hn
  refine ⟨?_, by decide, _, _, _, rfl, rfl, rfl⟩
  revert n; decide

/-- The machine with an access outstanding. -/
def withAcc (a : Machine.Acc) : State := { rig scr { th [] with we := [5] } with accs := [a] }

theorem wit_AccessesPerformed :
    (∀ a ∈ [acc1, acc2], (withAcc a).acc? a.id = some a ∧ (withAcc a).accReady a = true ∧
      (withAcc a).lostIn 0x3000 a.size a.op.writes = false ∧ (withAcc a).chanHeld 0x3000 = false ∧ homeOf 0x3000 = 0 ∧
      a.va % 65536 + a.size ≤ 65536) ∧
    (∀ i < 4, (withAcc acc1).l1Copy 0 (0x3000 + i) = none) ∧
    (let d := (withAcc acc2).die 0
     let v := d.v.bump 0
     keyLt (v.sum, 0) (Tab.getD d.marks .zero 0x3000).key = false ∧ keyLt (v.sum, 0) (Tab.getD d.rmw (0, 0) 0x3000) = false) ∧
    (∀ a ∈ [{ acc1 with va := 0xFE * 2 ^ 56 + 0x40, leaf := none }, { acc2 with va := 0xFE * 2 ^ 56 + 0x40, leaf := none }],
      (withAcc a).acc? a.id = some a ∧ (withAcc a).accReady a = true ∧
      windowOf (scr (tm [])) a.va a.size = some (.scratch 0 0x40)) ∧
    (∃ tm g th, (withAcc acc1).thread? acc1.t = some (tm, g, th) ∧ tm.st = .running ∧ th.floor = []) := by
  refine ⟨by decide, by decide, by decide, by decide, _, _, _, rfl, rfl, rfl⟩

/-- A stamped write of die 1 that die 0 may apply, and one that it may not yet. -/
theorem wit_AccessesPerformed_stamped : ∀ n ∈ [1, 2],
    let s := ((mach []).updDie 0 fun d => { d with inbox := [⟨1, ⟨0, n, 0, 0⟩, 0x3000, [5, 6]⟩] })
    (s.die 0).inbox = [⟨1, ⟨0, n, 0, 0⟩, 0x3000, [5, 6]⟩] ∧
    (n = 1 ↔ (⟨0, n, 0, 0⟩ : VClk).get 1 = (s.die 0).v.get 1 + 1) := by decide

/-- A state of one arrival on its way, through aperture 3. -/
def arr1 : Arrival := { ap := some 3, grid := 1, team := 0, mc := 0, tile := 1, ph := 0, off := 0, swz := false, data := [1, 2], prod := .store 2 }

theorem wit_TileEventsAndWeirs :
    (let s : State := { withAcc acc2 with
       arrivals := [arr1], teams := [tile1 (fun e => { e with st := .filling, exp := 16 }) (tm [(0, th [])])]
       cp := { (withAcc acc2).cp with apers := [(3, ⟨1, 0, 2, none⟩)] } }
     Tab.find? s.cp.apers 3 = some ⟨1, 0, 2, none⟩ ∧ (s.acc? 2).isSome = true ∧
     ∃ tm, s.team? 1 0 = some tm ∧ tm.resident = true ∧ arr1.mc < tm.cores.length ∧ arr1.tile < tm.kern.tiles ∧
       (tm.tile 0 1).st = .filling ∧ (tm.tile 0 1).mstt = false ∧ arr1.ph = (tm.tile 0 1).ph ∧
       arr1.off + arr1.data.length ≤ 64 * (tm.tile 0 1).len ∧ (tm.tile 0 1).abytes + arr1.data.length ≤ 64 * (tm.tile 0 1).exp) ∧
    (∀ n ∈ [0, 1], ∃ t, (rig (tile1 fun e => { e with st := .draining, rds := n }) (th [])).team? 1 0 = some t ∧
      (t.tile 0 1).st = .draining ∧ (t.tile 0 1).rds = n) ∧
    (∀ n ∈ [3999, 4000], let s : State := { withAcc { acc2 with st := .arrHeld } with
       now := n, cp := { (withAcc acc2).cp with apers := [(3, ⟨1, 0, 2, none⟩)], hold := [⟨arr1, 3999⟩] } }
     s.cp.hold = [⟨arr1, 3999⟩] ∧ s.acc? 2 = some { acc2 with st := .arrHeld } ∧ (thr s acc2.t).isSome = true ∧
     (s.now ≤ 3999 ∨ 3999 < s.now)) ∧
    (∀ w ∈ [(⟨8, 4, 1, 0⟩ : Weir), ⟨8, 4, 0, 3⟩, ⟨8, 4, 0, 4⟩], let s : State := { State.reset with weirs := [(5, w)], weirIdle := [(0, 1)] }
     Tab.getD s.weirs .fresh (0 * 80 * 2 ^ 20 + 5) = w ∧ 0 < Tab.getD s.weirIdle 0 0) := by
  refine ⟨⟨rfl, rfl, _, rfl, rfl, by decide, by decide, rfl, rfl, rfl, by decide, by decide⟩, ?_, by decide, by decide⟩
  intro n hn
  exact ⟨_, rfl, rfl, rfl⟩

/-! The copy engine. -/

/-- A template that moves four bytes from an address, or from a tile, to a place: into the scratchpad, or into tile 1. -/
def tmplM (ctl src dst : Nat) : List Byte :=
  Mem.readList (Mem.writeN (Mem.writeN (Mem.writeN (Mem.writeN (Mem.writeN [] 0 8 src) 8 8 dst) 0x10 4 ctl) 0x18 4 0x00FFFFFF)
    0x50 4 0xC0030000) 0 128

/-- A job of thread 0 with that template. -/
def job1 (ctl src dst card : Nat) (st : JobSt) : Job :=
  { num := 4, seq := 2, chan := 1, t := ⟨⟨1, 0, 0⟩, 0⟩, pasid := 1, part := 0, pc := bootHdr + 4, card := card
    tmpl := tmplM ctl src dst, st := st, eprog := 0, ph := 0, flying := 0, buf := [], acc := 1, stamps := .zero }

/-- The machine with it on core 0. -/
def withJob (f : Tile → Tile) (j : Job) : State := (rig (tile1 f) (th [])).updCore 0 fun k => { k with jobs := [j] }

/-- Does its template parse, and does the job stand as it must to start or to write its next sector? -/
def jobB (f : Tile → Tile) (j : Job) : Bool :=
  match (withJob f j).team? 1 0, j.tm? with
  | some tm, some p =>
    (match j.st with
     | .queued => (withJob f j).jobMayStart tm 0 j p && (tileFault tm 0 j p).isNone && !p.stile
     | .running => (p.sector 0).all (fun n => (p.byteCheck tm 0 n).isNone) && !p.dtile && decide (p.sectors = 1) &&
        (match (withJob f j).jobBytes 0 tm j p (p.sector 0) with
         | .ok bs => decide (bs ≠ []) && decide (windowOf tm (p.dstVa tm 0 0) bs.length = some (.scratch 0 0x100)) &&
            decide (p.dstVa tm 0 0 % 65536 + bs.length ≤ 65536)
         | .error _ => false)
     | _ => true) && decide (j.bar = none)
  | _, _ => false

/-- The place in the scratchpad. -/
def spot : Nat := 0xFE * 2 ^ 56 + 0x100

theorem wit_EngineJobs_start : jobB id (job1 0 0x3000 spot 0 .queued) = true := by decide
theorem wit_EngineJobs_startTile : jobB (fun e => { e with st := .empty }) (job1 4 0x3000 1 0x02010400 .queued) = true ∧
    (job1 4 0x3000 1 0x02010400 .queued).card.testBit 10 = true ∧
    ((job1 4 0x3000 1 0x02010400 .queued).tm?.map fun p => (p.dtile, p.dst % 256)) = some (true, 1) := by decide
theorem wit_EngineJobs_sector : jobB id (job1 0 0x3000 spot 0 .running) = true ∧
    jobB (fun e => { e with st := .ready, rds := 1 }) (job1 1 1 spot 0 .running) = true ∧
    (job1 1 1 spot 0 .running).srcTile = some 1 := by decide
theorem wit_EngineJobs_complete : (job1 0 0 0 0 .landed).flying = 0 ∧ (job1 0 0 0 0 .landed).card.testBit 12 = false ∧
    (job1 1 1 0 0x1000 .landed).card.testBit 12 = true ∧ (job1 1 1 0 0x1000 .landed).srcTile = some 1 ∧
    (job1 1 1 0 0x1000 .landed).tm?.isSome = true ∧ (job1 0 0 0 0 .landed).tm?.isSome = true ∧
    ∀ st ∈ [TileState.ready, .draining], ((withJob (fun e => { e with st := st }) (job1 1 1 0 0x1000 .landed)).team? 1 0).map
      (fun tm => (tm.tile 0 1).st) = some st := by decide

/-- Thread 0 stands at the card of channel 1, or further on, its template at 0x60000. -/
def cardSt (pc : Nat) (jobs : List Job) : State :=
  let s := rig scr { th [] with pc := pc }
  ({ s with
      accs := [{ acc2 with va := 0xFD * 2 ^ 56 + 0x40, op := .card 0, leaf := none }]
      hbm := Mem.writeList s.hbm 0x60000 (tmplM 0 0x3000 spot)
      cp := { s.cp with ctxs := [(1, { bootCtx with ttb := 0x60000 })] } } : State).updCore 0 fun k => { k with jobs := jobs }

theorem wit_EngineJobs :
    (cardSt (bootHdr + 4) []).accs = [{ acc2 with va := 0xFD * 2 ^ 56 + 0x40, op := .card 0, leaf := none }] ∧
    (0xFD * 2 ^ 56 + 0x40) / 2 ^ 6 % 16 = 1 ∧ ((cardSt (bootHdr + 4) []).ctx 1).map (·.ttb) = some 0x60000 ∧
    (∀ pc ∈ [bootHdr + 4, bootHdr + 8], (thr (cardSt pc []) acc2.t).map (fun t => (t.st, t.pc, t.ri)) = some (.ready, pc, 0)) ∧
    acc2.pc = bootHdr + 4 ∧ acc2.ri = 0 ∧
    (match ((cardSt (bootHdr + 4) []).unitRead ⟨[4, 0, 1], 0, 1, false⟩ 0x60000 128 ⟨true, false, false⟩).1 with
     | .done b => (parseTmpl (applyArgs b 0) 0).isSome | _ => false) = true ∧
    8 ≤ (((cardSt (bootHdr + 4) (List.replicate 8 (job1 0 0 0 0 .queued))).core 0).jobs.filter fun j =>
      decide (j.chan = 1 ∧ j.st = .queued)).length := by
  decide

/-! The matrix sequence. -/

/-- An operation of the team. -/
def op1 (k : MKind) : MOp :=
  { id := 6, kind := k, g := ⟨1, 0, 0⟩, tid := 0, c := 1, a := 2, b := 3, layout := 0x600, lines := [(64, 64), (65, 65), (66, 66)]
    seqNo := 0, kblk := 0, reuse := false, acc := 1 }

/-- The machine with it first in core 0's sequence. -/
def withOp (k : MKind) : State := (recs13 0 (rig scr (th []))).updCore 0 fun c => { c with seq := [op1 k] }

theorem wit_MatrixCompletes : ∀ k ∈ [MKind.mldg 0x8000, .mzero, .mma, .mrel [0] 5], ((withOp k).core 0).seq = [op1 k] ∧
    (∀ n ∈ [1, 2, 3], (Tab.find? ((withOp k).core 0).recs n).isSome) ∧ (withOp k).accs = [] ∧
    (thr (withOp k) ⟨⟨1, 0, 0⟩, 0⟩).isSome ∧ ∃ p, (withOp k).group? ⟨1, 0, 0⟩ = some p ∧ p.1.resident = true := by
  intro k h
  refine ⟨?_, ?_, ?_, ?_, _, rfl, rfl⟩ <;> revert k <;> decide

/-- Its loads may be performed, or wait for an earlier store of their thread. -/
theorem wit_MatrixCompletes_load : let o := op1 (.mldg 0x8000)
    (withOp (.mldg 0x8000)).mldgReady 0 o 0x8000 = true ∧
    ({ withOp (.mldg 0x8000) with accs := [{ acc2 with id := 0 }] } : State).mldgReady 0 o 0x8000 = false := by decide

/-! Launch, scheduling and pre-emption. -/

/-- A record of one team of one group for queue 3, with its kernel descriptor at 0x3000. -/
def rec64 (kdesc : Nat) : List Byte :=
  Mem.readList (Mem.writeN (Mem.writeN [] 0 8 kdesc) 0x10 8 (1 + 3 * 2 ^ 20 + 2 ^ 40)) 0 64

/-- An open queue of the context with its ring at 0x8000. -/
def q3 : Queue := { Queue.fresh with base := 0x8000, pasid := 1, maxd := 1, st := .opened }

/-- A machine with that queue and the descriptor of a kernel of 16 registers in each file. -/
def spawnOn (x : Queue) (s : State) : State :=
  { s with
    hbm := Mem.writeN (Mem.writeN s.hbm 0x3004 4 0x00100010) 0x3010 8 0
    cp := { s.cp with queues := [(3, x)], grids := [] } }

/-- It, a team standing on core 0. -/
def spawnSt : State := spawnOn q3 (rig scr (th []))

/-- What the checks of a record answer: accepted, refused, or a wait for the descriptor. -/
def verdict (s : State) (own : List Nat) (kdesc : Nat) : Nat :=
  match s.recCheck own 1 (parseRec (rec64 kdesc)) with | .ok (some _) => 0 | .error _ => 1 | .ok none => 2

/-- An accepted record, a refused one, and one whose descriptor lies on a pool page that is in no frame; a full ring. -/
theorem wit_LaunchTaken :
    (∀ s ∈ [spawnSt, spawnOn q3 (pooled (th []))], s.cpUp = true ∧ s.cp.gridNext < 2 ^ 32 ∧ s.cp.gridNext % 2 ^ 24 ≠ 0 ∧
      s.grid? s.cp.gridNext = none ∧ s.ctxAt 0 0 = some 1 ∧ Tab.find? s.cp.queues 3 = some q3 ∧ q3.pasid = 1 ∧
      s.ringMapped q3 = true ∧ s.cp.spawns = []) ∧
    (∀ k ∈ [0x3000, 0x3001, 2 ^ 56], (rec64 k).length = 64 ∧ (parseRec (rec64 k)).queue = 3) ∧
    (∀ own ∈ [[0, 0, 0], [1, 1, 0]], verdict spawnSt own 0x3000 = 0 ∧ verdict spawnSt own 0x3001 = 1 ∧
      verdict (spawnOn q3 (pooled (th []))) own (2 ^ 56) = 2) ∧
    q3.tail - q3.head ≠ 2 ^ q3.logsz ∧ ({ q3 with tail := 16 } : Queue).tail - q3.head = 2 ^ q3.logsz ∧
    (spawnOn { q3 with tail := 16 } (rig scr (th []))).ringMapped { q3 with tail := 16 } = true := by decide

/-- A team with a pending launch, at the depth given. -/
def pendSt (depth kdesc : Nat) (f : State → State) : State :=
  let s := f (pooled (th []))
  spawnOn q3 { s with teams := s.teams.map fun t => { t with depth := depth, pend := [⟨0, rec64 kdesc, .zero⟩] } }

/-- It, its record accepted with a depth within the queue's and beyond it, refused, and waiting. -/
theorem wit_LaunchTaken_child : ∀ n ∈ [(0, 0x3000, 0), (1, 0x3000, 0), (0, 0x3001, 1), (0, 2 ^ 56, 2)],
    (∃ tm g, (pendSt n.1 n.2.1 id).group? ⟨1, 0, 0⟩ = some (tm, g) ∧ tm.st = .running ∧
      tm.pend = [⟨0, rec64 n.2.1, .zero⟩] ∧ tm.depth = n.1) ∧ verdict (pendSt n.1 n.2.1 id) [1, 1, 0] n.2.1 = n.2.2 ∧
    (0 + 1 ≤ q3.maxd ∧ q3.maxd < 1 + 1) ∧ (pendSt n.1 n.2.1 id).cpUp = true := by
  intro n h
  refine ⟨⟨_, _, rfl, rfl, rfl, rfl⟩, ?_⟩
  revert n; decide

theorem find_replicate {α : Type} (n : Nat) {k x : Nat} {v : α} (h : k ≠ x) : Tab.find? (List.replicate n (k, v)) x = none := by
  induction n with
  | zero => rfl
  | succ n ih => simp [List.replicate_succ, Tab.find?, h.symm, ih]

/-- A machine whose child store is full. -/
def fullSt : State :=
  let s := pendSt 0 0x3000 id
  { s with cp := { s.cp with grids := List.replicate 16384 (7, { bootGrid with parent := some (1, 0) }) } }

theorem wit_LaunchTaken_full : (fullSt.cp.grids.filter fun z => z.2.parent.isSome).length = 16384 ∧
    fullSt.grid? fullSt.cp.gridNext = none ∧ verdict fullSt [1, 1, 0] 0x3000 = 0 := by
  refine ⟨?_, ?_, by decide⟩
  · unfold fullSt
    rw [List.filter_replicate_of_pos rfl]
    exact List.length_replicate
  · have : fullSt.cp.gridNext = 2 := by decide
    rw [this]
    exact find_replicate 16384 (by decide)

/-- The queue's head is the grid 1. -/
def q4 : Queue := { q3 with ring := [1], head? := some (3, 1, 0), readySince := some 0 }

/-- A grid of two teams whose first stands on core 0, ready in that queue. -/
def readySt (x : Queue) : State :=
  let s := rig scr (th [])
  { s with cp := { s.cp with
      queues := [(3, x)], grids := [(1, { bootGrid with teams := 2, kern := { bootKernel with wregs := 64 } })] } }

theorem wit_QueuesAndContexts :
    (let y : Grid := { bootGrid with teams := 2, kern := { bootKernel with wregs := 64 } }
     (readySt q4).cpUp = true ∧ (readySt q4).cp.queues = [(3, q4)] ∧ q4.st = .opened ∧ q4.conts = [] ∧ q4.readmit = [] ∧
     (readySt q4).headOf q4 = some (.grid 1 false) ∧ (readySt q4).grid? 1 = some y ∧
     (readySt q4).headReady (.grid 1 false) = true ∧ ((readySt q4).gridPlace y).isSome ∧ 0 < y.groups ∧
     y.groups ≤ q4.deficit + q4.quant) ∧
    /- a head that is new, one that waits too short or long enough, and none -/
    ((readySt { q4 with head? := none }).headOf { q4 with head? := none } = some (.grid 1 false) ∧ q4.head? = some (Head.grid 1 false).key ∧
      (∀ n ∈ [999999, 1000000], let s : State := { readySt q4 with now := n }
        (s.now < max 0 q4.lastAdmit + 1000 * q4.age ∨ max 0 q4.lastAdmit + 1000 * q4.age ≤ s.now) ∧ q4.age ≠ 0) ∧
      (readySt { q4 with ring := [] }).headOf { q4 with ring := [] } = none) ∧
    (∀ st ∈ [QState.closed, .destroying], Tab.find? (readySt { q4 with st := st }).cp.queues 3 = some { q4 with st := st }) ∧
    (∀ t ∈ (readySt q4).teams, t.queue = 0) ∧
    (let x : Queue := { q4 with base := 2 ^ 55 }; (readySt x).ringMapped x = false ∧ x.st = .opened) ∧
    (∀ n ∈ [4095, 4096], let s : State := { readySt q4 with now := n, cp := { (readySt q4).cp with apers := [(3, ⟨1, 0, 2, some 96⟩)] } }
      Tab.find? s.cp.apers 3 = some ⟨1, 0, 2, some 96⟩) ∧
    ((readySt q4).ctx 2 = none ∧ ((readySt q4).ctx 1).isSome ∧ ((readySt q4).part 0).isSome ∧ (readySt q4).cp.ctxs.length < 1024) := by
  decide

/-- A team with children or none, its only thread ended. -/
theorem wit_TeamEvents :
    (∀ n ∈ [0, 2], ∃ tm, (rig (fun t => { t with children := n }) { th [] with st := .exited }).team? 1 0 = some tm ∧
      tm.children = n ∧ tm.pend = [] ∧ tm.st = .running ∧
      (rig (fun t => { t with children := n }) { th [] with st := .exited }).teamQuiet tm = true) ∧
    (∃ tm, (rig id (th [])).team? 1 0 = some tm ∧ (rig id (th [])).teamQuiet tm = false) := by
  constructor
  · intro n h
    refine ⟨_, rfl, ?_⟩
    simp only [List.mem_cons, List.not_mem_nil, or_false] at h
    rcases h with rfl | rfl <;> exact ⟨rfl, rfl, rfl, rfl⟩
  · exact ⟨_, rfl, rfl⟩

/-- A team whose only thread waits in CTRWAIT.yield, long enough, with its queue. -/
def yieldOn (s : State) : State :=
  let s := s.updCore 0 fun k => { k with clk := 2048 }
  { s with
    teams := s.teams.map fun t => { t with queue := 3 }
    cp := { s.cp with queues := [(3, { q3 with swap := true })] } }

theorem wit_TeamEvents_swap : ∃ tm q, (yieldOn (rig id { th [] with st := .parked (.ctr 0x3000 5 4 0 true) })).team? 1 0 = some tm ∧
    tm.st = .running ∧ tm.preempt = none ∧
    Tab.find? (yieldOn (rig id { th [] with st := .parked (.ctr 0x3000 5 4 0 true) })).cp.queues tm.queue = some q ∧
    q.swap = true ∧ (yieldOn (rig id { th [] with st := .parked (.ctr 0x3000 5 4 0 true) })).yieldWait tm = some (0x3000, 5) :=
  ⟨_, _, rfl, rfl, rfl, rfl, rfl, rfl⟩

/-- A continuation record for a counter and a target. -/
def contSt (va target : Nat) : State :=
  let s := yieldOn (pooled (th []))
  { s with teams := s.teams.map fun t => { t with st := .continuation va target } }

/-- What the load of its counter answers. -/
def contLoad (va target : Nat) : UnitRes := (contSt va target).unitGet ⟨[11, 1, 0], 0, 1, true⟩ va 8 ⟨true, false, false⟩

/-- It reads the counter, which is 0, with a target of 0 or 1; its load meets a fault; or waits for a page. -/
theorem wit_TeamEvents_poll : (∀ va target, ∃ tm q, (contSt va target).team? 1 0 = some tm ∧
      tm.st = .continuation va target ∧ Tab.find? (contSt va target).cp.queues tm.queue = some q ∧ (1, 0) ∉ q.conts) ∧
    contLoad 0x3000 0 = .done (toLE 8 0) ∧ contLoad 0x3000 1 = .done (toLE 8 0) ∧
    (match contLoad (2 ^ 55) 0 with | .fail _ => true | _ => false) = true ∧ contLoad (2 ^ 56) 0 = .wait :=
  ⟨fun _ _ => ⟨_, _, rfl, rfl, rfl, by decide⟩, by decide, by decide, by decide, by decide⟩

/-- A grid without teams left, and a doorbell for thread 0's group. -/
theorem wit_TeamEvents_grid :
    (let s : State := { rig id (th []) with teams := [] }
     s.team? 1 0 = none ∧ s.grid? 1 = some bootGrid ∧ bootGrid.id = 1 ∧ bootGrid.teams ≤ bootGrid.nextTeam ∧
     bootGrid.killed = false ∧ bootGrid.abandoned = false ∧ s.gridReleased bootGrid = true ∧ bootGrid.join = 0 ∧
     s.cp.queues = []) ∧
    (let s := rig id (th [])
     1 % 2 ^ 32 = 1 ∧ s.ctxAt 0 0 = some 1 ∧ ∃ p, s.group? ⟨1, 0, 0⟩ = some p ∧ p.2.over = false ∧ p.1.st = .running) := by
  refine ⟨by decide, by decide, by decide, _, rfl, by decide, rfl⟩

/-- A running team of two groups, the first of which has ended, in a grid that may run again. -/
def preSt (n : Nat) (f : Team → Team) : State :=
  let s := rig (fun t => f { t with queue := 3, groups := [(0, gr [(0, { th [] with st := .exited })]), (1, { gr [(0, th [])] with gid := 1 })] })
    (th [])
  { s with now := n, cp := { s.cp with grids := [(1, { bootGrid with idem := true })], queues := [(3, q3)] } }

/-- It, stopped. -/
def stopSt (w : Stop) : State := preSt 100 fun t => { t with st := .stopped w, preempt := some ⟨100, 3, [5], false⟩ }

theorem wit_Preemption :
    (∃ tm, (preSt 100 id).team? 1 0 = some tm ∧ tm.st = .running ∧ tm.preempt = none ∧ tm.groups.length = 2 ∧
      (List.filter (fun p : Nat × Group => p.2.over) tm.groups).length = 1 ∧ tm.children = 0 ∧ tm.pend = [] ∧
      (preSt 100 id).sysOut tm = false ∧ 100 * 1 + (100 - tm.admitAt) * (2 - 1) ≤ 200 * 1 ∧
      ¬ 100 * 1 + (100 - tm.admitAt) * (2 - 1) ≤ 199 * 1) ∧
    (∀ n ∈ [(99, 3), (100, 3), (100, 1)], ∃ tm, (preSt n.1 fun t => { t with preempt := some ⟨100, n.2, [5], true⟩ }).team? 1 0 = some tm ∧
      tm.st = .running ∧ tm.preempt = some ⟨100, n.2, [5], true⟩) ∧
    (∀ w ∈ [Stop.discard, .save, .swap 0x3000 5], ∃ tm, (stopSt w).team? 1 0 = some tm ∧ tm.st = .stopped w ∧
      tm.preempt = some ⟨100, 3, [5], false⟩ ∧ (∀ b, (stopSt w).drained tm b = true) ∧ tm.queue = 3 ∧
      (Tab.find? (stopSt w).cp.queues 3).isSome ∧ ((stopSt w).ctx tm.pasid).isSome) ∧
    (preSt 100 fun t => { t with st := .saved }).gridKilled 1 = false ∧
    (∃ tm cores, (preSt 100 fun t => { t with st := .saved }).team? 1 0 = some tm ∧ tm.st = .saved ∧
      (preSt 100 fun t => { t with st := .saved }).restorePlace tm = some cores) := by
  refine ⟨⟨_, rfl, rfl, rfl, rfl, by decide, rfl, rfl, rfl, by decide, by decide⟩, ?_, ?_, rfl, ⟨_, _, rfl, rfl, rfl⟩⟩
  · intro n h; exact ⟨_, rfl, rfl, rfl⟩
  · intro w h; refine ⟨_, rfl, rfl, rfl, ?_, rfl, rfl, rfl⟩; intro b; cases b <;> rfl

/-- A saved team whose partition has no quad. -/
theorem wit_Preemption_noPlace : ∃ tm, ({ preSt 100 (fun t => { t with st := .saved }) with parts := [] } : State).team? 1 0 = some tm ∧
    ({ preSt 100 (fun t => { t with st := .saved }) with parts := [] } : State).restorePlace tm = none := ⟨_, rfl, rfl⟩

/-- The machine with a stopped team of few registers and one ended group, its context's images at an address without a page. -/
def thinSt (w : Stop) : State :=
  let s := preSt 100 fun t => { t with
    st := .stopped w, preempt := some ⟨100, 3, [5], false⟩, kern := { bootKernel with wregs := 1, gregs := 1 } }
  { s with cp := { s.cp with ctxs := [(1, { bootCtx with image := 2 ^ 55 })] } }

/-- It, saved. -/
def thinSaved (w : Stop) : State := (thinSt w).saveSteps ((thinSt w).teams.headD (tm [])) w

/-- Its image does not wait. -/
theorem wit_Preemption_image : ∀ w ∈ [Stop.save, .swap 0x3000 5], ((thinSt w).ctx 1).map (·.image) = some (2 ^ 55) ∧
    ∃ x, (thinSaved w).team? 1 0 = some x ∧
      (State.writeImage (saver x) (((thinSaved w).image x).length / 65536 + 2) (2 ^ 55) ((thinSaved w).image x) (thinSaved w)).isSome := by
  intro w h
  simp only [List.mem_cons, List.not_mem_nil, or_false] at h
  rcases h with rfl | rfl <;> exact ⟨rfl, _, rfl, by decide +kernel⟩

/-- A job on a core, and one kept with a saved team. -/
theorem wit_TeamRetiresAfterJobs :
    (∃ k ∈ (withJob id (job1 0 0 0 0 .queued)).cores, ∃ j ∈ k.2.jobs, j.t.g.grid = 1 ∧ j.t.g.team = 0) ∧
    ((withJob id (job1 0 0 0 0 .queued)).team? 1 0).isSome := by decide

theorem wit_TeamRetiresAfterJobs_saved : ∃ t, (rig (fun t => { t with saved :=
      [(0, { jobs := [job1 0 0 0 0 .queued], recs := [], bricks := [], accs := [], seq := [], pins := [] })] }) (th [])).team? 1 0 = some t ∧
    ∃ k ∈ t.saved, k.2.jobs ≠ [] := ⟨_, rfl, _, List.mem_singleton.2 rfl, by decide⟩

/-! The pager, leases and frames. -/

/-- A fault record of thread 0. -/
def rec6 : FRec := { (mach []).mkRec ⟨⟨1, 0, 0⟩, 0⟩ 6 1 0 0x30000 with replay := true }

/-- A partition of a machine whose thread 0 is held under FID 9. -/
def pagerSt (f : Part → Part) (st : TState) : State := { rig scr { th [] with st := st } with parts := [(0, f bootPart)] }

theorem wit_PagerCommands :
    /- a new fault with room in the ring, without room, and one that joins a pending one -/
    (∀ n ∈ [255, 256], ∃ q, (pagerSt (fun q => { q with
        waiting := [(.thread ⟨⟨1, 0, 0⟩, 0⟩, 1, rec6)], ring := List.replicate n (.done 0 0 0 false), fidNext := 65535 }) .ready).part 0
          = some q ∧ q.waiting = [(.thread ⟨⟨1, 0, 0⟩, 0⟩, 1, rec6)] ∧ q.fids = [] ∧ q.ring.length = n ∧ q.late = [] ∧ q.cmds = [] ∧
        0 < q.fidNext ∧ q.fidNext < 65536) ∧
    (let e : FidEnt := ⟨1, 3, 6, 1, [.thread ⟨⟨1, 0, 0⟩, 0⟩], [rec6]⟩
     ∃ q, (pagerSt (fun q => { q with fids := [(9, e)], waiting := [(.thread ⟨⟨1, 0, 0⟩, 0⟩, 1, rec6)] }) (.held 9)).part 0 = some q ∧
       q.fids = [(9, e)] ∧ Tab.find? q.fids 9 = some e ∧ rec6.va / 65536 = e.page ∧ rec6.code = e.code ∧
       e.holders = [.thread ⟨⟨1, 0, 0⟩, 0⟩]) ∧
    /- an access held, for DECLINE -/
    (let e : FidEnt := ⟨1, 3, 6, 1, [.access 1], [rec6]⟩
     let s : State := { withAcc { acc1 with st := .held 9 } with parts := [(0, { bootPart with fids := [(9, e)] })] }
     (s.part 0).bind (fun q => Tab.find? q.fids 9) = some e ∧ s.acc? 1 = some { acc1 with st := .held 9 } ∧
     (thr s ⟨acc1.t.g, 0⟩).isSome) ∧
    /- lease records, and a table that is full -/
    (∀ r ∈ [0, 1, 2, 3], (5 + 2 ^ 24 * r + 2 ^ 144 * 0xFFFFFFFFFFFF) / 2 ^ 24 % 4 = r ∧
      (5 + 2 ^ 24 * r + 2 ^ 144 * 0xFFFFFFFFFFFF) / 2 ^ 128 % 2 ^ 16 < 0x1000) := by
  refine ⟨?_, ⟨_, rfl, rfl, rfl, rfl, rfl, rfl⟩, by decide, by decide⟩
  intro n h
  refine ⟨_, rfl, rfl, rfl, ?_, rfl, rfl, ?_, ?_⟩
  · simp
  · show 0 < 65535; decide
  · show 65535 < 65536; decide

/-- A lease. -/
def lease0 : Lease := ⟨0, .valid, true, 1, 0, 0, 1, [], 0⟩

theorem wit_PagerCommands_leases :
    ({ pooled (th []) with leases := (List.range 4096).map fun k => (k + 1, lease0) } : State).leases.length = 4096 ∧
    (Tab.find? (pooled (th [])).leases 5).any (fun e => e.st == .valid) ∧ Tab.find? (pooled (th [])).leases 6 = none ∧
    (pooled (th [])).frames = [] ∧ (pagerSt id .ready).usesPages 1 3 1 = false ∧ (withAcc acc1).usesPages 1 0 1 = true := by
  refine ⟨by simp, by decide, by decide, by decide, by decide, by decide⟩

/-- Lease 5 is being revoked under tag 7, with an access under it that has passed its check or has not. -/
def revokeSt (st : AccSt) : State :=
  let s := pooled (th [])
  { s with
    accs := [{ acc1 with leaf := some ⟨5, 7, true, true, false, 1⟩, st := st }]
    leases := Tab.mapV s.leases fun e => { e with st := .revoking 7 20 0 }
    parts := [(0, { bootPart with cmds := [(7, none)] })] }

theorem wit_PagerCommands_revoke : ∀ st ∈ [AccSt.pending, .sent],
    (Tab.find? (revokeSt st).leases 5).any (fun e => e.st == .revoking 7 20 0 && e.part == 0) ∧
    ((revokeSt st).part 0).any (fun q => decide (q.cmds = [(7, none)] ∧ q.ring = [] ∧ q.late = [])) ∧
    ((revokeSt st).accs.map fun a => (a.st, a.leaf.map (·.lease))) = [(st, some 5)] ∧ (revokeSt st).frames = [] := by decide

/-- The pool lease's node has a request outstanding for a frame since time 0. -/
def lateSt (now : Nat) : State := { pooled (th []) with now := now, frames := [(9, { frame7 with st := .filling })] }

theorem wit_LeaseEvents :
    (match (pooled (th [])).walk 1 0x3000 with | .ok _ => true | .error _ => false) = true ∧
    (match (pooled (th [])).walk 1 (2 ^ 55) with | .ok _ => false | .error _ => true) = true ∧
    (∀ n ∈ [999, 1000], ({ pooled (th []) with now := n } : State).leases = (pooled (th [])).leases) ∧
    (let s : State := { pooled (th []) with now := 1000, accs := [{ acc1 with leaf := some ⟨5, 7, true, true, false, 1⟩ }] }
     s.acc? 1 = some { acc1 with leaf := some ⟨5, 7, true, true, false, 1⟩ } ∧
     s.accReady { acc1 with leaf := some ⟨5, 7, true, true, false, 1⟩ } = true ∧ (s.part 0).isSome ∧
     (s.team? 1 0).any (fun t => t.st == .running)) ∧
    (∀ n ∈ [1999999, 2000000], ((lateSt n).frames.map fun x => (x.2.loc, x.2.st, x.2.since, x.2.lease))
      = [(false, .filling, 0, 5)] ∧ (Tab.find? (lateSt n).leases 5).any (fun l => l.node == 1)) ∧
    ((pooled (th [])).leases.length = 1 ∧ (pooled (th [])).parts.length = 1 ∧
      ((pooled (th [])).part 0).any (fun q => decide (q.ring = [] ∧ q.late = []))) ∧
    (∀ n ∈ [2, 3], let s : State := { pooled (th []) with frames := [(9, { frame7 with retries := n })] }
      Tab.find? s.frames 9 = some { frame7 with retries := n } ∧ (Tab.find? s.leases frame7.lease).isSome) := by decide

/-- A read-only lease with a replica. -/
theorem wit_LeaseEvents_replica : ∃ e : Lease, e.rw = false ∧ e.repl = [3, 0xFFFF, 0xFFFF] ∧ (3 : Nat) ≠ 0xFFFF :=
  ⟨{ part := 0, st := .valid, rw := false, pages := 1, base := 0, epoch := 0, node := 1, repl := [3, 0xFFFF, 0xFFFF], expiry := 0 },
    rfl, rfl, by decide⟩

/-- A request for page 8, and frames in each state. -/
def frameSt (st : FrameSt) : State := { pooled (th []) with
  frames := [(9, { frame7 with st := st, arrived := [0] })]
  pageReqs := [{ part := 0, pasid := 1, page := 8, lease := 5, sector := 1, group := 0, ord := 0, va := 0, report := false
                 wait := true, bar := none }] }

theorem wit_FrameEvents :
    /- frames 0 to 63 of the quota are local: none is free; with cache frames one is; or the one victim is dirty -/
    (∃ f, ({ frameSt .valid with parts := [(0, { bootPart with frames := 66 })] } : State).takeFrame 0 0 = .frame f) ∧
    (({ frameSt .valid with frames := [(64, frame7)], parts := [(0, { bootPart with frames := 65 })] } : State).takeFrame 0 0 = .dirty 64) ∧
    (∀ st : FrameSt, (Tab.find? (frameSt st).frames 9).map (fun e => (e.st, e.loc)) = some (st, false) ∧
      (frameSt st).frameQuiet 9 = true ∧ (frameSt st).frameOf 0 8 = none) ∧
    (∃ k, ({ frame7 with st := .filling, arrived := [0] } : FrameE).nextSector = some k) ∧
    (frameSt .filling).readTurn { frame7 with st := .filling, arrived := [0] } = true ∧
    (frameSt .valid).framesOf 7 = [(9, { frame7 with st := .valid, arrived := [0] })] ∧ (frameSt .valid).framesOf 6 = [] ∧
    (Tab.find? (frameSt .valid).leases frame7.lease).any (fun l => l.rw) ∧ 2 ∈ frame7.dirty ∧ 2 ∉ frame7.lost ∧
    frame7.pins = 0 ∧ (Tab.find? ({ frameSt .invalidating with frames := [(9, { frame7 with st := .invalidating, pins := 1 })] } : State).frames 9).any
      (fun e => e.pins != 0) := by
  refine ⟨⟨64, by decide⟩, by decide, fun st => by cases st <;> decide, ⟨1, by decide⟩, by decide, by decide, by decide, by decide,
    by decide, by decide, by decide, by decide⟩

/-! The host, the fabric and the network. -/

/-- A valid export of the machine's low addresses. -/
def expt : Export := { v := true, tileKind := false, rd := true, w := true, pasid := 1, pages := 0, xbase := 0 }

/-- The machine with a SYSCALL outstanding, a BAR2 context and an export. -/
def fabSt : State :=
  let s := rig scr (th [])
  { s with
    parts := [(0, { bootPart with sys := [⟨3, ⟨1, 0, 0⟩, 7, []⟩] })]
    fab := { s.fab with exports := [(0, expt)], bar2 := [(0, 1)] } }

/-- The agent of a BAR2 access by a port. -/
def barBy (port : Nat) : Agent := ⟨[13, fabSt.fab.reqNext], if port = 0 then 0 else 96, 1, false⟩

/-- The machine with an access by BAR2 on its way. -/
def barSt (port off op : Nat) (data : List Byte) : State := { fabSt with fab := { fabSt.fab with
  bars := fabSt.fab.bars ++ [⟨fabSt.fab.reqNext, port, 0, off, op, data⟩], reqNext := fabSt.fab.reqNext + 1 } }

/-- A load over Shecel to device 9, sent. -/
def farAcc : Machine.Acc := { acc1 with st := .sent, leaf := some ⟨5, 7, true, true, false, 1⟩ }

/-- The machine with a remote lease at a node, and an access outstanding. -/
def farSt (node : Nat) (a : Machine.Acc) : State := { withAcc a with
  leases := [(5, { part := 0, st := .valid, rw := true, pages := 100, base := 0, epoch := 1, node := node, repl := [0xFFFF], expiry := 1000 })] }

theorem wit_FabricRequests :
    (∃ q tm g, fabSt.parts = [(0, q)] ∧ q.sys = [⟨3, ⟨1, 0, 0⟩, 7, []⟩] ∧ fabSt.group? ⟨1, 0, 0⟩ = some (tm, g) ∧ tm.st = .running) ∧
    (Tab.find? fabSt.fab.bar2 0 = some 1 ∧ Tab.find? fabSt.fab.bar2 1 = none ∧ fabSt.fab.bars = []) ∧
    (fabSt.peerLost 9 = false ∧ ({ fabSt with fab := { fabSt.fab with peers := [(9, ⟨true, 1⟩)] } } : State).peerLost 9 = true) ∧
    fabSt.fab.inReqs = [] ∧ (Tab.getD fabSt.fab.peers ⟨false, 0⟩ 9).incarnation = 0 ∧
    (seqOf fabSt.fab.inSeq [9, 0, 0, 0, 0]).next = 0 ∧
    (fabSt.partOfFn 0).isSome ∧ Tab.getD fabSt.fab.quenched 0 0 = 0 ∧
    Tab.find? fabSt.fab.exports (1024 * 0 + 0x3000 / 2 ^ 50 % 1024) = some expt ∧
    fabSt.translate 0 1 0x3000 ⟨true, false, false⟩ = .ok ⟨0, 0, true, true, true, 1⟩ ∧ fabSt.chanHeld 0x3000 = false ∧
    fabSt.lostIn 0x3000 8 false = false ∧
    (fabSt.die (homeOf 0x3000)).v.covers (seqOf fabSt.fab.inSeq [9, 0, 0, 0, 0]).last = true := by
  refine ⟨⟨_, _, _, rfl, rfl, rfl, rfl⟩, ?_⟩
  decide

/-- A read, a read without a page, a write and a FetchAdd, by each host port. -/
theorem wit_FabricRequests_bar2 : ∀ port ∈ [0, 1],
    (match ((barSt port 0x3000 0 [0, 0]).unitRead (barBy port) 0x3000 2 ⟨true, false, false⟩).1 with | .done _ => true | _ => false) = true ∧
    (match ((barSt port (2 ^ 39) 0 [0, 0]).unitRead (barBy port) (2 ^ 39) 2 ⟨true, false, false⟩).1 with | .fail _ => true | _ => false) = true ∧
    (match ((barSt port 0x3000 1 [1, 2]).unitWrite (barBy port) 0x3000 [1, 2]).1 with | .done _ _ => true | _ => false) = true ∧
    (match (barSt port 0x3000 2 [1, 0, 0, 0]).unitRmw (barBy port) 0x3000 4 (.atom 0 false 1 true) with
      | .done _ _ _ => true | _ => false) = true := by decide

theorem wit_FabricRequests_replies :
    (farSt 0x4009 farAcc).remoteOf farAcc = some 9 ∧ (farSt 0x5003 farAcc).remoteOf farAcc = some 0x1003 ∧
    (farSt 0x4009 farAcc).acc? 1 = some farAcc ∧ Tab.getD (farSt 0x4009 farAcc).fab.quenched 0 ((farSt 0x4009 farAcc).fnOf 0) = 0 ∧
    (thr (farSt 0x4009 farAcc) farAcc.t).isSome ∧ (farSt 0x4009 { farAcc with st := .frozen }).accs = [{ farAcc with st := .frozen }] ∧
    ((farSt 0x4009 { farAcc with st := .frozen }).remoteOf { farAcc with st := .frozen }).isSome ∧
    ((thr (farSt 0x4009 farAcc) farAcc.t).any fun t => t.st == .ready) := by decide

/-- A multicast store of two bytes to group 3. -/
def mcAcc : Machine.Acc := { farAcc with op := .store [7, 8], dest := none, isLoad := false, isStore := true, size := 2, kind := 2 }

/-- Its report can be written; and it has been, a vector of its write covered or not. -/
theorem wit_FabricRequests_multicast :
    ((farSt 0x5003 mcAcc).remoteOf mcAcc = some 0x1003 ∧ (farSt 0x5003 mcAcc).acc? 1 = some mcAcc ∧ (farSt 0x5003 mcAcc).fab.mcAcks = []) ∧
    (let s : State := { farSt 0x5003 mcAcc with fab := { (farSt 0x5003 mcAcc).fab with mcAcks := [⟨1, 3, 2, [9, 0, 0, 0], none⟩] } }
     (match (s.unitWrite ⟨[14, 1], 0, 1, true⟩ (0 + 64 * 3) (reportBytes 1 3 2 [9, 0, 0, 0])).1 with | .done _ _ => true | _ => false) = true) ∧
    ∀ v ∈ [VClk.zero, ahead], (farSt 0x5003 mcAcc).allCover v = decide (v = .zero) := by
  refine ⟨by decide, by decide +kernel, by decide⟩

/-- Two REDs of one tree on their way to one address. -/
def treeSt : State :=
  let s : State := { rig scr (th []) with accs := [farAcc, { farAcc with id := 2 }] }
  { s with
    leases := [(5, { part := 0, st := .valid, rw := true, pages := 100, base := 0, epoch := 1, node := 0x4009, repl := [4], expiry := 1000 })]
    fab := { s.fab with out := [.request 1 9 0 0 0 0 64 32 4 [1, 0, 0, 0], .request 2 9 0 0 0 1 64 32 4 [2, 0, 0, 0]] } }

theorem wit_FabricRequests_combine : treeSt.acc? 1 = some farAcc ∧ treeSt.acc? 2 = some { farAcc with id := 2 } ∧
    treeSt.treeOf farAcc = some 4 ∧ treeSt.treeOf { farAcc with id := 2 } = some 4 := by decide

theorem wit_PeersAndFunctions :
    (∀ n ∈ [999, 1000, 7999, 8000], ({ fabSt with now := n } : State).now = n ∧ Tab.getD fabSt.fab.lastBeat 0 17 = 0) ∧
    fabSt.accs = [] ∧ fabSt.partOfFn 0 = some 0 ∧ (∀ g ∈ fabSt.cp.grids, g.2.id = g.1) ∧
    (∀ n ∈ [40000, 39999], let s : State := { fabSt with now := n, fab := { fabSt.fab with quenched := [(0, 1)] } }
      Tab.getD s.fab.quenched 0 0 = 1 ∧ 2 * s.fab.rtt = 40000) ∧
    (∀ n ∈ [(6, 7), (7, 7)], let s : State := { fabSt with fab := { fabSt.fab with peers := [(9, ⟨true, n.1⟩)] } }
      Tab.getD s.fab.peers ⟨false, 0⟩ 9 = ⟨true, n.1⟩) := by decide

/-- A message operation with its address and stamps. -/
def nop1 (send tile : Bool) (addr : Nat) (v : VClk) : NetOp :=
  { n := 3, send := send, g := ⟨1, 0, 0⟩, pasid := 1, part := 0, core := 0, conn := 7, tag := 5, len := 64, addr := addr
    tile := tile, placed := 0, fail := 0, flying := 0, matched := none, stamps := v, stored := [] }

/-- The machine with an operation, on an open connection. -/
def netSt (o : NetOp) : State := let s := joined 7 .opened (rig scr (th [])); { s with fab := { s.fab with netOps := [o] } }

/-- A place in the scratchpad. -/
def net0 : Nat := 0xFE * 2 ^ 56

/-- Messages to a tile, to the scratchpad and to memory; a send. -/
theorem wit_Connections :
    (∀ k : ConnSt, Tab.find? (joined 7 k (rig scr (th []))).fab.conns 7 = some ⟨k, 1, 9, []⟩) ∧
    (∀ o ∈ [nop1 false true 1 .zero, nop1 false false net0 .zero, nop1 false false 0x3000 .zero, nop1 true false net0 .zero],
      (netSt o).fab.netOps = [o] ∧ (netSt o).fab.placing = [] ∧
      ((netSt o).team? 1 0).any (fun t => t.st == .running) ∧ ((netSt o).group? o.g).isSome) ∧
    windowOf (scr (tm [])) (net0 + 32) 32 = some (.scratch 0 32) ∧ windowOf (scr (tm [])) (0x3000 + 32) 2 = some .user ∧
    (let o : NetOp := { nop1 false false 0x3000 .zero with matched := some 2 }
     let s : State := { netSt o with fab := { (netSt o).fab with placing := [⟨3, 0, 32, [1, 2]⟩] } }
     (match (s.unitWrite ⟨[15, 3, 32], 48, 1, false⟩ (0x3000 + 32) [1, 2]).1 with | .done _ _ => true | _ => false) = true) := by
  refine ⟨fun k => rfl, by decide, by decide, by decide, by decide⟩

/-- A placement whose bytes are there, its writes performed or not. -/
theorem wit_Connections_placed : ∀ v ∈ [VClk.zero, ahead],
    let o : NetOp := { nop1 false false 0x3000 v with matched := some 2, placed := 64 }
    (netSt o).fab.netOps = [o] ∧ o.matched.isSome ∧ o.len ≤ o.placed ∧ o.flying = 0 ∧
    (netSt o).allCover o.stamps = decide (v = .zero) ∧ (netSt o).frames = [] := by decide

/-! Reliability, firmware, power and reset. -/

/-- The machine with a channel in a state, at a time. -/
def chanSt (n : Nat) (c : Chan) : State := let s := mach []; { s with now := n, mg := { s.mg with chans := [(33, c)] } }

theorem wit_HbmChannels :
    (∀ n ∈ [0, 1, 2, 3], ((chanSt 349 { Chan.fresh with replays := n }).chan (32 * 1 + 1)) = { Chan.fresh with replays := n }) ∧
    (chanSt 349 { Chan.fresh with stopped := true }).chan 33 = { Chan.fresh with stopped := true } ∧
    (∀ n ∈ [999, 1000], (chanSt n { Chan.fresh with backoff := some 0 }).chan 33 = { Chan.fresh with backoff := some 0 }) ∧
    (Tab.getD (mach []).mg.mail [] 3).length < 16 ∧ ((mach []).scrub 1).covered + 1 < 393216 * 1024 := by decide

theorem wit_Errors :
    (mach []).tableSector 0 = true ∧
    (let s : State := { mach [] with cp := { State.reset.cp with ctxs := [] } }
     s.tableSector 0x3000 = false ∧ s.localOwner 0 = some 0 ∧
      s.parts.any (fun q => decide (q.2.frame0 ≤ 0 ∧ 0 < q.2.frame0 + q.2.frames))) ∧
    (let s : State := { frameSt .valid with
       cp := { State.reset.cp with ctxs := [] }, parts := [(0, { bootPart with locals := 0 })] }
     s.tableSector (9 * 65536) = false ∧ s.localOwner 9 = none ∧
      s.parts.any (fun q => decide (q.2.frame0 ≤ 9 ∧ 9 < q.2.frame0 + q.2.frames)) ∧
      (Tab.find? s.frames 9).any (fun e => e.st == .valid && e.dirty.contains 2 && !e.dirty.contains 3)) ∧
    (∃ x, (mach []).grid? 1 = some x ∧ x.id = 1) ∧ (mach []).fatal = false ∧ ({ mach [] with fatal := true } : State).fatal = true ∧
    (mach []).sectorOwed 0 = false := by
  refine ⟨by decide, by decide, by decide, ⟨_, rfl, rfl⟩, rfl, rfl, by decide⟩

/-- A mailbox message unanswered for 100 ms, and for less. -/
theorem wit_Errors_mailbox : ∀ n ∈ [99999999, 100000000],
    let s : State := { mach [] with now := n, mg := { (mach []).mg with mail := [(3, [.retrain 1 2 true])], mailAt := [(3, 0)] } }
    Tab.getD s.mg.mail [] (2 * 1 + 1) ≠ [] ∧ Tab.getD s.mg.mailAt 0 (2 * 1 + 1) = 0 ∧ s.now = n := by decide

theorem wit_FirmwareAndPower :
    (let s : State := { mach [] with mg := { (mach []).mg with firm := [(2, { Firm.fresh with recovery := true })] } }
     (Tab.getD s.mg.firm .fresh 2).recovery = true) ∧
    ((mach []).part 3 = none ∧ (mach []).boundsOk 3 (span 47 1) 64 100 50 = true) ∧
    (let s : State := { mach [] with mg := { (mach []).mg with islands := [(3, { Island.fresh with cap := 2, hot := true })] } }
     (s.island 3).hot = true ∧ (s.island 3).cap ≠ 0 ∧ (s.island 4).cap = 0 ∧ (s.island 4).hot = false) ∧
    (∀ q, (mach []).part 7 = some q → False) ∧ ((mach []).ctx 1).any (fun c => c.part == 0) := by
  refine ⟨by decide, by decide, by decide, fun q h => ?_, by decide⟩
  have : (mach []).part 7 = none := by decide
  rw [this] at h; cases h

/-! Handlers, the step and the encoding. -/

/-- Thread 0, with an entry of the trap table for a code, its context's tables and records at the addresses given. -/
def trapSt (c e trapTab recArea : Nat) (inh : Bool) (s : State) : State :=
  { s with
    hbm := Mem.writeN s.hbm (0x50000 + 8 * c) 8 e
    cp := { s.cp with ctxs := [(1, { bootCtx with trapTab := trapTab, recArea := recArea })] }
    teams := s.teams.map fun t => { t with groups := [(0, gr [(0, { th [] with frame := { (th []).frame with inh := inh } })])] } }

/-- A handler entry of thread 0 writes and reads memory as this. -/
def trapBy : Agent := ⟨[1, 1, 0, 0, 0], 0, 1, false⟩

/-- What reading an entry of the trap table answers: a valid entry, another, a fault, a wait. -/
def trapRead (s : State) (va : Nat) : Nat :=
  match s.unitGet trapBy va 8 ⟨true, false, false⟩ with
  | .done b => if ofLE b % 2 = 1 ∧ bootHdr ≤ ofLE b / 4 * 4 ∧ ofLE b / 4 * 4 - bootHdr < 2 ^ 32 then 0 else 1
  | .fail _ => 2
  | .wait => 3

/-- What writing the record answers: done, a fault, a wait. -/
def trapWrite (s : State) (va : Nat) : Nat :=
  match s.unitPut trapBy va { rec6 with replay := false }.bytes with | .done _ _ => 0 | .fail _ => 1 | .wait => 2

/-- The entry of the tests. -/
def trapE : Nat := bootHdr + 0x100 + 1

theorem wit_HandlerEntry :
    (∀ b : Bool, ∀ s ∈ [rig scr (th []), pooled (th [])], ∃ tm g u x q,
      (trapSt 6 trapE 0x50000 0x100000 b s).thread? ⟨⟨1, 0, 0⟩, 0⟩ = some (tm, g, u) ∧
      (trapSt 6 trapE 0x50000 0x100000 b s).ctx tm.pasid = some x ∧
      (trapSt 6 trapE 0x50000 0x100000 b s).part x.part = some q ∧ u.pinned = 0 ∧ u.st ≠ .exited ∧ u.frame.inh = b) ∧
    (trapRead (trapSt 6 trapE 0x50000 0x100000 false (rig scr (th []))) (0x50000 + 8 * 6) = 0 ∧
      trapRead (trapSt 0 trapE 0x50000 0x100000 false (rig scr (th []))) (0x50000 + 8 * 6) = 1 ∧
      trapRead (trapSt 0 trapE 0x50000 0x100000 false (rig scr (th []))) 0x50000 = 0 ∧
      trapRead (trapSt 6 0 0x50000 0x100000 false (rig scr (th []))) 0x50000 = 1 ∧
      trapRead (trapSt 6 0 (2 ^ 55) 0x100000 false (rig scr (th []))) (2 ^ 55 + 8 * 6) = 2 ∧
      trapRead (trapSt 6 0 (2 ^ 56) 0x100000 false (pooled (th []))) (2 ^ 56 + 8 * 6) = 3) ∧
    (trapWrite (trapSt 6 trapE 0x50000 0x100000 false (rig scr (th []))) 0x100000 = 0 ∧
      trapWrite (trapSt 6 trapE 0x50000 (2 ^ 55) false (rig scr (th []))) (2 ^ 55) = 1 ∧
      trapWrite (trapSt 6 trapE 0x50000 (2 ^ 56) false (pooled (th []))) (2 ^ 56) = 2) ∧
    (trapSt 6 trapE 0x50000 0x100000 false (rig scr (th []))).translate 0 1 0x100000 ⟨false, true, false⟩
      = .ok ⟨0, 16, true, true, true, 1⟩ ∧ homeOf 0x100000 = 0 ∧
    (∀ i < 64, (Tab.getD ((trapSt 6 trapE 0x50000 0x100000 false (rig scr (th []))).die 0).marks .zero (0x100000 + i)).key.1 = 0) := by
  refine ⟨fun b s hs => ?_, by decide, by decide, by decide, by decide, by decide⟩
  simp only [List.mem_cons, List.not_mem_nil, or_false] at hs
  rcases hs with rfl | rfl <;> refine ⟨_, _, _, _, _, rfl, rfl, rfl, rfl, ?_, rfl⟩ <;> exact TState.noConfusion

/-- A granted issue of an IADD that stands at thread 0's address, and of words that are none. -/
def stepSt (w : Nat) : State := { State.reset.bootWith [w] 1 with
  teams := [tm [(0, { th [] with code := [0xA1C00000, w] })]] }

theorem wit_StepRuns : ∀ w ∈ [0x0003_0102, 0x4F01_0203],
    (stepSt w).grants = [⟨⟨1, 0, 0⟩, 0, bootHdr + 4, [0]⟩] ∧
    (decodeWords [w] = .ok (.iadd Pfx.none 3 1 2, 1) ∨ decodeWords [w] = .error .illegalCell) ∧
    ∃ tm g u, (stepSt w).group? ⟨1, 0, 0⟩ = some (tm, g) ∧ tm.st = .running ∧ Tab.find? g.threads 0 = some u ∧ u.st = .ready ∧
      u.prio = 0 ∧ u.pc = bootHdr + 4 ∧ (u.code.drop ((u.pc - u.hdr) / 4)).take 3 = [w] := by
  intro w hw
  refine ⟨rfl, ?_, _, _, _, rfl, rfl, rfl, rfl, rfl, rfl, ?_⟩ <;> revert w <;> decide

/-- It is not the last of a longer clause. -/
theorem wit_StepRuns_inside : let u : Thread := { th [] with cend := bootHdr + 12, code := [0xA2C00000, 0x0003_0102, 0xDA000000] }
    u.pc + 4 * 1 ≠ u.cend ∧ decodeWords ((u.code.drop ((u.pc - u.hdr) / 4)).take 3) = .ok (.iadd Pfx.none 3 1 2, 1) := by decide

theorem wit_EncodeDecode : (Instr.iadd Pfx.none 3 1 2).spec.isSome = true ∧ decodeWords [0x0003_0102] = .ok (.iadd Pfx.none 3 1 2, 1) ∧
    ∀ w ∈ [0x0003_0102], w < 2 ^ 32 := by decide

theorem wit_StepKeepsMemories : Safety.memoriesOk (mach []) = true ∧ ∃ t, step (mach []) = .next t := ⟨by decide, _, rfl⟩

end Sys2Proof.Tests.Slice0
end

section
/-! SUPPORT. PART (R184): its result and its word. -/

namespace Sys2Proof.Proofs.LaneArithmetic

open Machine Claims

/-- A word that is neither REP nor MOD is an instruction by itself (R100). -/
theorem decodeWords_base {w : Nat} (h : w / 2 ^ 27 < 30) (t : List Nat) :
    decodeWords (w :: t) = (decodeBase w Pfx.none).map (·, 1) := by
  have hrep : isRep w = false := beq_eq_false_iff_ne.2 (by omega)
  have hmod : isMod w = false := beq_eq_false_iff_ne.2 (by omega)
  simp [decodeWords, hrep, hmod]

/-- The base word of an instruction without REP and MOD decodes to it, whatever words follow (R100, R109). -/
theorem decodeWords_encodeBase {i : Instr} (hi : Laws.Enc.Statement i) (hp : i.pfx = Pfx.none) {w : Nat}
    (hw : encodeBase i = some w) (t : List Nat) : decodeWords (w :: t) = .ok (i, 1) := by
  obtain ⟨-, hbase, hdec⟩ := hi w hw
  rw [decodeWords_base hbase, ← hp, hdec]
  rfl

/-- PART's base word: the opcode 0x2A, then the three fields of the TRI form. -/
theorem encodeBase_part (pf : Pfx) (d a b : BitVec 8) : encodeBase (.part pf d a b)
    = some (2 ^ 24 * 0x2A + 2 ^ 16 * d.toNat + 2 ^ 8 * a.toNat + b.toNat) := by
  show some (putF d 16 (putF a 8 (putF b 0 0x2A000000))) = _
  unfold putF
  congr 1
  omega

/-- PART's meaning, with the partition count 0 told apart: a product with 0 has the quotient 0. -/
theorem partSem_eq : partSem = fun x => .words 1 (if x.b = 0 then 0 else x.a * x.b / 2 ^ 32) := by
  funext x
  have hq : x.a * x.b / 4294967296 = if x.b = 0 then 0 else x.a * x.b / 2 ^ 32 := by
    split
    next hb => rw [hb, Nat.mul_zero, Nat.zero_div]
    next => rfl
  exact congrArg (LOut.words 1) hq

/-- An issue of PART is one of the lane pipeline under PART's meaning. -/
theorem exec_part (pf : Pfx) (d a b : BitVec 8) (s : State) :
    exec (.part pf d a b) s = .next (s.runLane (.part pf d a b) partSem) := rfl

/-- Settles O5: the lane pipeline gives PART's meaning, and its base word alone decodes to it. -/
theorem partitionIndex : Obligations.PartitionIndex := by
  refine ⟨fun pf d a b => ?_, fun d a b => ?_, by decide⟩
  · exact lane_via _ partSem _ (exec_part pf d a b) partSem_eq fun _ => words_preds 1 _
  · exact decodeWords_encodeBase (Laws.Enc.part Pfx.none d a b) rfl (encodeBase_part _ d a b) []

end Sys2Proof.Proofs.LaneArithmetic
end

section
/-! SUPPORT. EVENT (R264): its trace record and its issue. -/

namespace Sys2Proof.Proofs.TraceRecords

open Machine Claims

/-- Threads passing an instruction leave the issue that the machine executes. -/
theorem pass_cur (c : Once) (l : List (Nat × Thread)) (s : State) : (c.pass l s).cur = s.cur := by
  unfold Once.pass
  generalize s.hp c.tm c.g = hp
  induction l generalizing s with
  | nil => rfl
  | cons p l ih => rw [List.foldl_cons, ih, State.updThread_cur]

/-- The trace record by the places of its fields, dtime in bits 127:64 down to the code from bit 0 on (R264). -/
theorem traceRec_fields (dtime team gid core code : Nat) : traceRec dtime team gid core code
    = BitVec.ofNat 128 (2 ^ 64 * (dtime % 2 ^ 64) + 2 ^ 32 * (team % 2 ^ 32) + 2 ^ 24 * (gid % 2 ^ 8)
      + 2 ^ 16 * (core % 2 ^ 8) + code) := by
  unfold traceRec
  congr 1
  omega

/-- EVENT's meaning: the threads pass it once the team's partition has taken the record, if it traces. -/
theorem eventSem_fields (code : Nat) (c : Once) : eventSem code c = fun s =>
    let e := 2 ^ 64 * (s.now % 2 ^ 64) + 2 ^ 32 * (c.tm.team % 2 ^ 32) + 2 ^ 24 * (c.g.gid % 2 ^ 8)
      + 2 ^ 16 * (c.g.core % 2 ^ 8) + code
    c.done { s with parts := Tab.adjust s.parts c.tm.part fun q =>
      if q.traceOn then { q with trace := q.trace ++ [BitVec.ofNat 128 e] } else q } := by
  funext s
  simp only [eventSem, traceRec_fields]

/-- EVENT's meaning leaves the issue that the machine executes. -/
theorem eventSem_cur (code : Nat) (c : Once) (s : State) : (eventSem code c s).cur = s.cur := pass_cur c c.set _

/-- An issue of EVENT is one of the pipeline that acts once, under EVENT's meaning. -/
theorem exec_event (pf : Pfx) (n : BitVec 16) (s : State) :
    exec (.event pf n) s = .next (s.runOnce (.event pf n) (eventSem n.toNat)) := rfl

/-- Settles O23: the pipeline that acts once gives EVENT's meaning, whose record has the fields of R264. -/
theorem traceEvent : Obligations.TraceEvent := by
  intro pf n s c h
  have hmeaning : DoesOnce (.event pf n) s c (eventSem n.toNat c) :=
    once_does (eventSem n.toNat) (exec_event pf n s) h (eventSem_cur n.toNat c s)
  rwa [eventSem_fields] at hmeaning

end Sys2Proof.Proofs.TraceRecords
end

section
/-! SUPPORT. TEAM_RETIRE (R351) waits for the copy jobs of its team (R312). -/

namespace Sys2Proof.Proofs.TeamRetirement

open Machine

/-- A team that is found has the grid and the number that it was looked for by. -/
theorem team?_some_ids {s : State} {g t : Nat} {tm : Team} (h : s.team? g t = some tm) : tm.grid = g ∧ tm.team = t := by
  unfold State.team? at h
  simpa using List.find?_some h

/-- A team is quiet when its groups are over, it awaits no access, no core has a job of it, and its saved state keeps none
(R351). -/
theorem teamQuiet_iff (s : State) (tm : Team) : s.teamQuiet tm = true ↔
    (∀ g ∈ tm.groups, g.2.over = true) ∧ s.teamAccs tm = [] ∧
    (¬ ∃ k ∈ s.cores, ∃ j ∈ k.2.jobs, j.t.g.grid = tm.grid ∧ j.t.g.team = tm.team) ∧ ∀ k ∈ tm.saved, k.2.jobs = [] := by
  simp [State.teamQuiet, and_assoc]

/-- TEAM_RETIRE leaves the machine as it is while its team is not quiet (R351). -/
theorem exec_evTeamRetire_of_not_quiet {s : State} {g t : Nat} {tm : Team} (htm : s.team? g t = some tm)
    (hq : ¬ s.teamQuiet tm = true) : exec (.evTeamRetire g t) s = .next s := by
  have hstay : s.teamRetire g t = s := by simp [State.teamRetire, htm, hq]
  exact congrArg Host.Outcome.next hstay

/-- Settles O45: a team with a job on a core, or with one in its saved state, is not quiet. -/
theorem teamRetiresAfterJobs : Obligations.TeamRetiresAfterJobs := by
  intro s g t tm htm hjobs
  obtain ⟨rfl, rfl⟩ := team?_some_ids htm
  refine exec_evTeamRetire_of_not_quiet htm fun hq => ?_
  obtain ⟨-, -, hcores, hsaved⟩ := (teamQuiet_iff s tm).1 hq
  rcases hjobs with honcore | ⟨k, hk, hkept⟩
  · exact hcores honcore
  · exact hkept (hsaved k hk)

end Sys2Proof.Proofs.TeamRetirement
end
